-- ==== Sys2Proof/Word.lean ====
section
/-! DEFINITION. The plain word types of the Narut and the sparse maps of the model. -/

namespace Sys2Proof

/-- The least unit of memory (R32, R67). -/
abbrev Byte := BitVec 8

/-- The contents of a 32-bit vector register (R37). -/
abbrev Word := BitVec 32

/-- A 64-bit value, an address or the contents of a register pair (R37, R100). -/
abbrev Dword := BitVec 64

/-- A sparse map from natural numbers: pairs in rising key order. What an absent key reads as is said by the
reader of the map. -/
abbrev AL (α : Type) := List (Nat × α)

end Sys2Proof
end

