-- ==== Sys2Proof/Syntax.lean ====
section
/-! DEFINITION. The instruction word as typed fields, the payloads of the machine's events, and `Instr`: one
constructor for every row of the opcode table. -/

namespace Sys2Proof

/-- Element types, in the order of their codes (Table 2-5). -/
inductive Ty
  | s32 | n32 | s16 | n16 | s8 | n8 | s64 | n64 | f32 | f16 | bf16 | f8e4 | f8e5 | f4 | qi8 | qi4
  deriving DecidableEq, Repr

/-- Guard conditions, in the order of their codes (Table 2-6). -/
inductive Cond
  | al | eq | ne | lt | ge | le | gt | lo | hs | ls | hi | mi | pl | vs | vc | nv
  deriving DecidableEq, Repr

/-- Guard combination, in the order of its codes (Table 2-7). -/
inductive GComb
  | first | both | either | andNot
  deriving DecidableEq, Repr

/-- Memory scopes, in the order of their codes (R47). -/
inductive Scope
  | thr | grp | team | core | die | dev | dom | sys
  deriving DecidableEq, Repr

/-- Integer specials of class 10 (Table 2-3). -/
inductive Special
  | lane | grp | team | launch | width | core | die | clk | spawned | zero | ones
  deriving DecidableEq, Repr

/-- Floating-point constants of class 10, in index order from 0x80 (Table 2-3). -/
inductive FConst
  | f1 | fm1 | fhalf | f2 | finf | fminf | fnan | flog2e
  deriving DecidableEq, Repr

/-- A 10-bit operand field (R34, Tables 2-2 to 2-4). `rsvFile` and `rsvConst` keep a reserved index of class 01 or
class 10; `view` keeps every index of class 11. -/
inductive Opnd
  | v (n : BitVec 8)
  | c (n : BitVec 5)
  | s (n : BitVec 4)
  | a (n : BitVec 4)
  | p (n : BitVec 4)
  | cc (n : BitVec 2)
  | h (n : BitVec 5)
  | rsvFile (i : BitVec 8)
  | spec (x : Special)
  | int (n : BitVec 6)
  | fconst (x : FConst)
  | rsvConst (i : BitVec 8)
  | view (i : BitVec 8)
  deriving DecidableEq, Repr

/-- The guard of an instruction word (R39 to R41). -/
structure Guard where
  cc0 : BitVec 2
  cond0 : Cond
  cc1 : BitVec 2
  cond1 : Cond
  comb : GComb
  deriving DecidableEq, Repr

/-- The fields of an instruction word other than OPC (Table 2-1). -/
structure Fields where
  var : BitVec 4
  typ : Ty
  guard : Guard
  d : Opnd
  a : Opnd
  b : Opnd
  c : Opnd
  e : Opnd
  fe : BitVec 4
  l1h : BitVec 2
  l2h : BitVec 2
  stall : BitVec 4
  yld : Bool
  scope : Scope
  imm : BitVec 32
  deriving DecidableEq, Repr

/-- What a pool node or a peer device answers to an access (R103, R334): nothing (an access that needs no answer
from outside), the bytes read or an acknowledgement, a refusal, or the word that a non-fatal fault has parked the access at the peer. -/
inductive RemoteAns
  | local
  | data (bytes : List Byte)
  | refused
  | parked
  deriving DecidableEq, Repr

/-- A host access: through BAR2 or CXL .mem, by BAR2 offset (R327, R328), or a read of 4 or 8 bytes of BAR0 (R8, R332). -/
inductive HostAccess
  | read (addr n : Nat)
  | write (addr : Nat) (bytes : List Byte)
  | register (off n : Nat)
  deriving DecidableEq, Repr

/-- What an incoming Lattice access asks for (R103, R334). -/
inductive PeerOp
  | read (n : Nat)
  | write (bytes : List Byte)
  | atomic (code : Nat) (ty : Ty) (b c : Dword)
  deriving DecidableEq, Repr

/-- An incoming Lattice access: the issuing device and context, the context it names here, the address below 2 PiB
and the operation (R334). -/
structure PeerRequest where
  tag : Nat
  dev : BitVec 20
  srcCtx : BitVec 16
  pctx : BitVec 16
  va : BitVec 51
  op : PeerOp
  deriving DecidableEq, Repr

/-- What the peer sends in a Span handshake (R337): its X448 public key, certificate chain and signature, with the transcript of both
sides. -/
structure SpanHandshake where
  entry : Nat
  session : BitVec 32
  peerKey : List Byte
  chain : List Byte
  signature : List Byte
  transcript : List Byte
  deriving DecidableEq, Repr

/-- A received Span packet, with the entry whose session it names (R336). -/
structure SpanPacket where
  entry : Nat
  bytes : List Byte
  deriving DecidableEq, Repr

/-- A member's contribution to one chunk reaching its owner (R343), for a context slot. -/
structure Contribution where
  slot : Nat
  roster : Nat
  stream : Nat
  ordinal : Nat
  chunk : Nat
  rank : Nat
  bytes : List Byte
  deriving DecidableEq, Repr

/-- The result of one chunk reaching a member, or the owner's report that the quorum failed (R344, R475). Ranks are
listed. -/
structure ChunkResult where
  id : Nat
  chunk : Nat
  ok : Bool
  bytes : List Byte
  contributors : List Nat
  late : List Nat
  dropped : List Nat
  deriving DecidableEq, Repr

/-- A report of the management processor: the end of the boot step in hand (R444, R450), with whether its work succeeded, the firmware
image it loaded (step 1) and the failed SRAM banks it found on each die (step 2), and the LTMO in nanoseconds where it sets
one (R335). -/
structure BootReport where
  passed : Bool
  image : List Byte
  banks : List Nat
  ltmo : Option Nat
  deriving DecidableEq, Repr

/-- What the sensors of a die read (R453): the hottest sensor in units of 0.25 °C and the lowest rail margin in mV. -/
structure Reading where
  temp : Int
  margin : Nat
  deriving DecidableEq, Repr

/-- A lowering or restoring of ACLK (R453): the power in W that would be drawn, what the sensors of the dies read, and by cause (1 power,
2 temperature, 3 voltage, 4 restored) the frequency in MHz that results. -/
structure Throttle where
  power : Nat
  readings : List Reading
  causes : List (Nat × Nat)
  deriving DecidableEq, Repr

/-- An access to the debug port (R449): a session asked for with a certificate, a stop of a group, and anything else. -/
inductive DebugAccess
  | session (cert : List Byte)
  | stop (g : Nat)
  | other
  deriving DecidableEq, Repr

/-- The rows of the opcode table: the instructions, with their fields, and the machine's own events, with what each
is about. -/
inductive Instr
  /-- NOP (R255). -/
  | nop (f : Fields)
  /-- MOV (R255). -/
  | mov (f : Fields)
  /-- LDI (R255). -/
  | ldi (f : Fields)
  /-- IADD (R243). -/
  | iadd (f : Fields)
  /-- ISUB (R243). -/
  | isub (f : Fields)
  /-- IMUL (R243). -/
  | imul (f : Fields)
  /-- IMULH (R244). -/
  | imulh (f : Fields)
  /-- IMAD (R243). -/
  | imad (f : Fields)
  /-- IDIV (R246). -/
  | idiv (f : Fields)
  /-- IREM (R246). -/
  | irem (f : Fields)
  /-- IMIN (R243). -/
  | imin (f : Fields)
  /-- IMAX (R243). -/
  | imax (f : Fields)
  /-- IABS (R243). -/
  | iabs (f : Fields)
  /-- INEG (R243). -/
  | ineg (f : Fields)
  /-- ISAT (R247). -/
  | isat (f : Fields)
  /-- AND (R248). -/
  | and (f : Fields)
  /-- OR (R248). -/
  | or (f : Fields)
  /-- XOR (R248). -/
  | xor (f : Fields)
  /-- NOT (R248). -/
  | not (f : Fields)
  /-- SHL (R248). -/
  | shl (f : Fields)
  /-- SHR (R248). -/
  | shr (f : Fields)
  /-- SAR (R248). -/
  | sar (f : Fields)
  /-- ROT (R248). -/
  | rot (f : Fields)
  /-- POPC (R249). -/
  | popc (f : Fields)
  /-- CLZ (R249). -/
  | clz (f : Fields)
  /-- BREV (R249). -/
  | brev (f : Fields)
  /-- BFE (R250). -/
  | bfe (f : Fields)
  /-- BFI (R250). -/
  | bfi (f : Fields)
  /-- PRMT (R251). -/
  | prmt (f : Fields)
  /-- SEL (R252). -/
  | sel (f : Fields)
  /-- ICMP (R253). -/
  | icmp (f : Fields)
  /-- LEA (R254). -/
  | lea (f : Fields)
  /-- ADDC (R245). -/
  | addc (f : Fields)
  /-- SUBB (R245). -/
  | subb (f : Fields)
  /-- FADD (R270). -/
  | fadd (f : Fields)
  /-- FSUB (R270). -/
  | fsub (f : Fields)
  /-- FMUL (R270). -/
  | fmul (f : Fields)
  /-- FFMA (R270). -/
  | ffma (f : Fields)
  /-- FMIN (R271). -/
  | fmin (f : Fields)
  /-- FMAX (R271). -/
  | fmax (f : Fields)
  /-- FCMP (R272). -/
  | fcmp (f : Fields)
  /-- FCLASS (R273). -/
  | fclass (f : Fields)
  /-- FRND (R274). -/
  | frnd (f : Fields)
  /-- FSCL (R275). -/
  | fscl (f : Fields)
  /-- CVT (R276). -/
  | cvt (f : Fields)
  /-- QNT (R277). -/
  | qnt (f : Fields)
  /-- DQNT (R278). -/
  | dqnt (f : Fields)
  /-- FDOT2 (R279). -/
  | fdot2 (f : Fields)
  /-- FDOT4 (R279). -/
  | fdot4 (f : Fields)
  /-- FDOT8 (R279). -/
  | fdot8 (f : Fields)
  /-- RCP (R281). -/
  | rcp (f : Fields)
  /-- RSQ (R281). -/
  | rsq (f : Fields)
  /-- SQRT (R281). -/
  | sqrt (f : Fields)
  /-- EX2 (R281). -/
  | ex2 (f : Fields)
  /-- LG2 (R281). -/
  | lg2 (f : Fields)
  /-- SIN (R281). -/
  | sin (f : Fields)
  /-- COS (R281). -/
  | cos (f : Fields)
  /-- TANH (R281). -/
  | tanh (f : Fields)
  /-- SFU_RESULT (R280). -/
  | sfuResult (id : Nat)
  /-- PZERO (R293). -/
  | pzero (f : Fields)
  /-- PACC (R294). -/
  | pacc (f : Fields)
  /-- PADD (R294). -/
  | padd (f : Fields)
  /-- PSUB (R294). -/
  | psub (f : Fields)
  /-- PMRG (R295). -/
  | pmrg (f : Fields)
  /-- RSLV (R297). -/
  | rslv (f : Fields)
  /-- PTEST (R298). -/
  | ptest (f : Fields)
  /-- PANC (R296). -/
  | panc (f : Fields)
  /-- PSTW (R299). -/
  | pstw (f : Fields)
  /-- PSTW_CELL (R300). -/
  | pstwCell (f : Fields)
  /-- PLDW (R299). -/
  | pldw (f : Fields)
  /-- PLDW_CELL (R300). -/
  | pldwCell (f : Fields)
  /-- PMOV (R293). -/
  | pmov (f : Fields)
  /-- SHFL (R259). -/
  | shfl (f : Fields)
  /-- VOTE (R260). -/
  | vote (f : Fields)
  /-- BALLOT (R260). -/
  | ballot (f : Fields)
  /-- BPLANE (R261). -/
  | bplane (f : Fields)
  /-- SELK (R262). -/
  | selk (f : Fields)
  /-- GRED (R263). -/
  | gred (f : Fields)
  /-- GSCAN (R263). -/
  | gscan (f : Fields)
  /-- MATCH (R260). -/
  | matchLanes (f : Fields)
  /-- LNMASK (R260). -/
  | lnmask (f : Fields)
  /-- CCMOV_TOV (R264). -/
  | ccmovTov (f : Fields)
  /-- CCMOV_TOCC (R264). -/
  | ccmovTocc (f : Fields)
  /-- CCMOV_COPY (R264). -/
  | ccmovCopy (f : Fields)
  /-- BRA (R355). -/
  | bra (f : Fields)
  /-- BRX (R356). -/
  | brx (f : Fields)
  /-- CALL (R357). -/
  | call (f : Fields)
  /-- CALLX (R357). -/
  | callx (f : Fields)
  /-- RET (R358). -/
  | ret (f : Fields)
  /-- MEET (R361). -/
  | meet (f : Fields)
  /-- MEET_CLR (R361). -/
  | meetClr (f : Fields)
  /-- SYNCM (R363). -/
  | syncm (f : Fields)
  /-- WAITM (R364). -/
  | waitm (f : Fields)
  /-- WAITM_TIMEOUT (R364). -/
  | waitmTimeout (g lane : Nat)
  /-- EXIT (R366). -/
  | exit (f : Fields)
  /-- GROUP_SLOT_FREE (R366). -/
  | groupSlotFree (g : Nat)
  /-- SPAWN (R386). -/
  | spawn (f : Fields)
  /-- JINIT (R391). -/
  | jinit (f : Fields)
  /-- JWAIT (R392). -/
  | jwait (f : Fields)
  /-- YIELD (R385). -/
  | yield (f : Fields)
  /-- RGN (R433). -/
  | rgn (f : Fields)
  /-- TRAP (R426). -/
  | trap (f : Fields)
  /-- TRET (R427). -/
  | tret (f : Fields)
  /-- LATE_TRAP (R474). -/
  | lateTrap (g lane : Nat)
  /-- RESERVED_OPCODE (R50). -/
  | reservedOpcode (w : BitVec 128)
  /-- LD (R169). -/
  | ld (f : Fields)
  /-- ST (R170). -/
  | st (f : Fields)
  /-- LDFE (R172). -/
  | ldfe (f : Fields)
  /-- STFE (R173). -/
  | stfe (f : Fields)
  /-- FECLR (R174). -/
  | feclr (f : Fields)
  /-- PREF (R175). -/
  | pref (f : Fields)
  /-- PREF_LIST (R176). -/
  | prefList (f : Fields)
  /-- ATOM (R178). -/
  | atom (f : Fields)
  /-- ATOMC (R179). -/
  | atomc (f : Fields)
  /-- RED (R178). -/
  | red (f : Fields)
  /-- FENCE (R408). -/
  | fence (f : Fields)
  /-- QPUSH (R182). -/
  | qpush (f : Fields)
  /-- QPOP (R182). -/
  | qpop (f : Fields)
  /-- QSTEAL (R182). -/
  | qsteal (f : Fields)
  /-- PROBE (R177). -/
  | probe (f : Fields)
  /-- LOAD_RESULT (R167). -/
  | loadResult (id : Nat) (ans : RemoteAns)
  /-- FAULT_RECORD_DEFERRED (R113). -/
  | faultRecordDeferred (slot : Nat)
  /-- LINE_RECALL (R126). -/
  | lineRecall (line : Nat)
  /-- CROOT (R201). -/
  | croot (f : Fields)
  /-- NEXT (R203). -/
  | next (f : Fields)
  /-- SEEK (R204). -/
  | seek (f : Fields)
  /-- DESC (R205). -/
  | desc (f : Fields)
  /-- COIT (R206). -/
  | coit (f : Fields)
  /-- CRD (R209). -/
  | crd (f : Fields)
  /-- CLDV (R210). -/
  | cldv (f : Fields)
  /-- CTEST (R211). -/
  | ctest (f : Fields)
  /-- APPND (R219). -/
  | appnd (f : Fields)
  /-- APPND_OPEN (R218). -/
  | appndOpen (f : Fields)
  /-- ACOMMIT (R220). -/
  | acommit (f : Fields)
  /-- CSPLIT (R212). -/
  | csplit (f : Fields)
  /-- HALLOC (R217). -/
  | halloc (f : Fields)
  /-- HFREE (R217). -/
  | hfree (f : Fields)
  /-- CPREF (R213). -/
  | cpref (f : Fields)
  /-- WALKER_RESULT (R195). -/
  | walkerResult (id : Nat)
  /-- TLD (R92). -/
  | tld (f : Fields)
  /-- TST (R93). -/
  | tst (f : Fields)
  /-- TSETF (R94). -/
  | tsetf (f : Fields)
  /-- TGETF (R94). -/
  | tgetf (f : Fields)
  /-- TSWAP (R95). -/
  | tswap (f : Fields)
  /-- TINV (R96). -/
  | tinv (f : Fields)
  /-- MODEW (R83). -/
  | modew (f : Fields)
  /-- MODER (R83). -/
  | moder (f : Fields)
  /-- COPY (R131). -/
  | copy (f : Fields)
  /-- XFORM (R142). -/
  | xform (f : Fields)
  /-- GATHR (R150). -/
  | gathr (f : Fields)
  /-- SCATR (R151). -/
  | scatr (f : Fields)
  /-- SORTU (R152). -/
  | sortu (f : Fields)
  /-- COMMAND_COMPLETE (R136). -/
  | commandComplete (id : Nat)
  /-- SCATR_ROW_CLAIM (R124). -/
  | scatrRowClaim (id : Nat)
  /-- BINIT (R141). -/
  | binit (f : Fields)
  /-- BARV (R141). -/
  | barv (f : Fields)
  /-- BWAIT (R141). -/
  | bwait (f : Fields)
  /-- FTEST (R139). -/
  | ftest (f : Fields)
  /-- FWAIT (R139). -/
  | fwait (f : Fields)
  /-- FCNCL (R139). -/
  | fcncl (f : Fields)
  /-- MMA (R317). -/
  | mma (f : Fields)
  /-- MMAB (R318). -/
  | mmab (f : Fields)
  /-- MMAT (R319). -/
  | mmat (f : Fields)
  /-- MBAT_ACQ (R320). -/
  | mbatAcq (f : Fields)
  /-- MBAT_PASS (R320). -/
  | mbatPass (f : Fields)
  /-- MBAT_REL (R320). -/
  | mbatRel (f : Fields)
  /-- MATRIX_OPERATION_START (R306). -/
  | matrixOperationStart (core : Nat)
  /-- MATRIX_COMPLETE (R321). -/
  | matrixComplete (core : Nat)
  /-- B_LOCK_RELEASE (R231). -/
  | bLockRelease (core r : Nat)
  /-- COLL (R340). -/
  | coll (f : Fields)
  /-- LAUNCH (R380). -/
  | launch (f : Fields)
  /-- SIGNL (R378). -/
  | signl (f : Fields)
  /-- SIGW (R379). -/
  | sigw (f : Fields)
  /-- SIGW_REREAD (R379). -/
  | sigwReread (g lane : Nat)
  /-- RACQ_VREG (R234). -/
  | racqVreg (f : Fields)
  /-- RACQ_TILE (R234). -/
  | racqTile (f : Fields)
  /-- RACQ_PREG (R234). -/
  | racqPreg (f : Fields)
  /-- RACQ_SPAD (R234). -/
  | racqSpad (f : Fields)
  /-- RREL (R236). -/
  | rrel (f : Fields)
  /-- CSRR (R428). -/
  | csrr (f : Fields)
  /-- CSRW (R428). -/
  | csrw (f : Fields)
  /-- CLOCK_CYC (R429). -/
  | clockCyc (f : Fields)
  /-- CLOCK_NS (R429). -/
  | clockNs (f : Fields)
  /-- PERF (R430). -/
  | perf (f : Fields)
  /-- DBRK (R431). -/
  | dbrk (f : Fields)
  /-- KILL (R432). -/
  | kill (f : Fields)
  /-- HANDLER_WATCHDOG (R423). -/
  | handlerWatchdog (g lane : Nat)
  /-- SOFT_ERROR_CORRECTED (R128). -/
  | softErrorCorrected (die g lane : Nat)
  /-- SOFT_ERROR_UNCORRECTED (R128). -/
  | softErrorUncorrected (die sector : Nat)
  /-- GROUP_SWAP (R383). -/
  | groupSwap (out into : Nat)
  /-- GROUP_BOOST (R384). -/
  | groupBoost (g : Nat)
  /-- KEY_STARVATION_PROMOTION (R352). -/
  | keyStarvationPromotion (g : Nat)
  /-- GROUP_PARK (R392). -/
  | groupPark (g : Nat)
  /-- PARKED_GROUP_RETURN (R392). -/
  | parkedGroupReturn (g : Nat)
  /-- PARK_SLOT_REREAD (R392). -/
  | parkSlotReread (die : Nat)
  /-- SKEIN_TIMER_FLUSH (R388). -/
  | skeinTimerFlush (core : Nat)
  /-- SPILL_RING_RETURN (R390). -/
  | spillRingReturn (slot die : Nat)
  /-- LDOOR_WRITE (R330). -/
  | ldoorWrite (v : Dword)
  /-- LAUNCH_ACCEPT (R370). -/
  | launchAccept (q : Nat)
  /-- LAUNCH_DEPENDENCE_REREAD (R372). -/
  | launchDependenceReread (l : Nat)
  /-- LAUNCH_COMPLETE (R373). -/
  | launchComplete (l : Nat)
  /-- LAUNCH_QUEUE_CSR_WRITE (R368). -/
  | launchQueueCsrWrite (q off : Nat) (v : Dword)
  /-- HIRQ_CLEAR (R331). -/
  | hirqClear (v : Dword)
  /-- HOST_MEMORY_ACCESS (R328). -/
  | hostMemoryAccess (a : HostAccess)
  /-- FQRESP_WRITE (R114). -/
  | fqrespWrite (slot : Nat) (v : Dword)
  /-- PGINV_WRITE (R112). -/
  | pginvWrite (slot : Nat) (v : Dword)
  /-- PGINV_COMPLETE (R112). -/
  | pginvComplete (slot : Nat)
  /-- RDCINV_WRITE (R129). -/
  | rdcinvWrite (die : Nat) (v : Dword)
  /-- RDCINV_COMPLETE (R129). -/
  | rdcinvComplete (die : Nat)
  /-- PSEL_WRITE (R430). -/
  | pselWrite (n : Nat) (v : Dword)
  /-- ERRC_READ (R454). -/
  | errcRead (die : Nat)
  /-- CTXCTL_PREEMPT (R436). -/
  | ctxctlPreempt (slot : Nat)
  /-- CTXCTL_RESUME (R442). -/
  | ctxctlResume (slot : Nat)
  /-- CTXCTL_KILL (R424). -/
  | ctxctlKill (slot : Nat)
  /-- CTXCTL_OPEN (R437). -/
  | ctxctlOpen (slot : Nat) (v : Dword)
  /-- CTXCTL_CLOSE (R437). -/
  | ctxctlClose (slot : Nat)
  /-- PREEMPTION_TAKEN (R438). -/
  | preemptionTaken (g : Nat)
  /-- PEER_ACCESS_REQUEST (R334). -/
  | peerAccessRequest (r : PeerRequest)
  /-- PEER_ACCESS_TIMEOUT (R335). -/
  | peerAccessTimeout (id : Nat)
  /-- LATTICE_FLIT_RETRY (R333). -/
  | latticeFlitRetry (lane : Nat)
  /-- SPAN_PEER_ENTRY_WRITE (R339). -/
  | spanPeerEntryWrite (e : Nat) (v : BitVec 256)
  /-- SPAN_HANDSHAKE (R337). -/
  | spanHandshake (h : SpanHandshake)
  /-- SPAN_PACKET_RECEIVE (R338). -/
  | spanPacketReceive (p : SpanPacket)
  /-- SPAN_RETRANSMIT (R336). -/
  | spanRetransmit (e : Nat)
  /-- SPAN_REKEY (R338). -/
  | spanRekey (e : Nat)
  /-- SPAN_SESSION_RETRY (R338). -/
  | spanSessionRetry (e : Nat)
  /-- COLL_CONTRIBUTION_RECEIVE (R343). -/
  | collContributionReceive (c : Contribution)
  /-- COLL_CHUNK_CLOSE (R344). -/
  | collChunkClose (id chunk : Nat)
  /-- COLL_DEADLINE (R343). -/
  | collDeadline (id chunk : Nat)
  /-- COLL_RESULT_RECEIVE (R475). -/
  | collResultReceive (r : ChunkResult)
  /-- COLL_RESULT_TIMEOUT (R344). -/
  | collResultTimeout (id : Nat)
  /-- BOOT_STEP_COMPLETE (R450). -/
  | bootStepComplete (b : BootReport)
  /-- BOOTCLR_WRITE (R450). -/
  | bootclrWrite (v : Dword)
  /-- MADDER_ALARM (R447). -/
  | madderAlarm (fired : BitVec 5)
  /-- MSTAT_CLEAR (R447). -/
  | mstatClear (v : Dword)
  /-- MLOCK_WRITE (R448). -/
  | mlockWrite (v : Dword)
  /-- DEBUG_SESSION_REQUEST (R449). -/
  | debugSessionRequest (a : DebugAccess)
  /-- DEBUG_RESUME (R431). -/
  | debugResume (g : Nat)
  /-- THROTTLE_EVENT (R453). -/
  | throttleEvent (t : Throttle)
  /-- REGISTER_WRITE (R8). -/
  | registerWrite (off : Nat) (v : Dword)
  /-- STORE_BUFFER_DRAIN (R164). -/
  | storeBufferDrain (id : Nat) (ans : RemoteAns)
  /-- ENGINE_WRITE (R134). -/
  | engineWrite (id : Nat)
  /-- SPAN_OLD_KEY_EXPIRY (R338). -/
  | spanOldKeyExpiry (e : Nat)
  /-- PLACEMENT_ROUND (R375). -/
  | placementRound
  /-- THREV_READ (R453). -/
  | threvRead
  /-- DEVICE_RESET (R437). -/
  | deviceReset
  /-- ATTESTATION_GO (R445). -/
  | attestationGo
  /-- ATTESTATION_DONE (R445). -/
  | attestationDone
  deriving DecidableEq, Repr

end Sys2Proof
end

