-- ==== Sys2Proof/Config.lean ====
section
/-! DEFINITION. What the manual leaves to the part: free values (constants with no body) and the cryptographic
functions that the manual names and does not give. Nothing can be proved about their values. -/

namespace Sys2Proof

/-- FREE VALUE (log 2): the `n`-th byte that the manual leaves unspecified, such as the output areas of a `SORTU` that
fails with 0x11A (R152). -/
opaque Config.freeByte : Nat → Byte

/-- FREE VALUE (log 10): the `i`-th byte that a pool node or peer device answers to the `n`-th read that a walker or an
engine makes there. -/
opaque Config.remoteByte : Nat → Nat → Byte

/-- FREE VALUE (log 10): whether the pool node or peer refuses the `n`-th access of a walker or an engine (R103). -/
opaque Config.remoteRefused : Nat → Bool

/-- FREE VALUE (log 7): which of the f32 results inside the bound of Table 11-4 the SFU gives for a function (by its
opcode) and an input; R281 makes it a fixed function of them. -/
opaque Config.sfuPick : Nat → Word → Nat

/-- FREE VALUE (log 8): plane K of a ply element with a sum; how a sum is split between the planes S and K is open (R285). -/
opaque Config.plyK : BitVec 128 → BitVec 128

/-- FREE VALUE (log 6): SHAKE256 of a message, as `n` bytes (R337, R443 to R445). -/
opaque Config.shake256 : List Byte → Nat → List Byte

/-- FREE VALUE (log 6): the X448 shared secret of a private and a public key (R337). -/
opaque Config.x448 : List Byte → List Byte → List Byte

/-- FREE VALUE (log 6): whether an Ed448 signature over a digest verifies under the certificate that heads a chain. -/
opaque Config.signatureOk : List Byte → List Byte → List Byte → Bool

/-- FREE VALUE (log 6): what a device certificate chain that ends at a root public key names: the device number and the
firmware security version; none where the chain does not end there (R337). -/
opaque Config.deviceCert : List Byte → List Byte → Option (BitVec 20 × BitVec 16)

/-- FREE VALUE (log 6): the security version of a firmware image whose signature over its SHAKE256 digest verifies against a chain that
ends at a root public key; none where it does not (R444). -/
opaque Config.firmware : List Byte → List Byte → Option (BitVec 16)

/-- FREE VALUE (log 6): the device and context id that a debug certificate chaining to a root public key names (R449). -/
opaque Config.debugCert : List Byte → List Byte → Option (BitVec 20 × BitVec 16)

/-- FREE VALUE (log 6): AES-256-GCM decryption: key, nonce, associated data, ciphertext and tag; none where the tag
fails (R336, R337). -/
opaque Config.gcmOpen : List Byte → List Byte → List Byte → List Byte → List Byte → Option (List Byte)

/-- FREE VALUE (log 6): AES-256-GCM encryption: key, nonce, associated data and plaintext; the ciphertext and the tag (R336, R337). -/
opaque Config.gcmSeal : List Byte → List Byte → List Byte → List Byte → List Byte × List Byte

/-- FREE VALUE (log 6): the Ed448 signature of a private key over a digest (R337, R445). -/
opaque Config.ed448 : List Byte → List Byte → List Byte

/-- FREE VALUE (log 6): the X448 public key of a private key (R337). -/
opaque Config.x448Public : List Byte → List Byte

/-- FREE VALUE (log 6): the `n`-th ephemeral X448 private key that the LSP draws (R337). -/
opaque Config.ephemeral : Nat → List Byte

/-- FREE VALUE (log 6): the response of the physical unclonable function, the fused identity seed and the fused Moalia root public
key (R443). -/
opaque Config.puf : List Byte
opaque Config.identitySeed : List Byte
opaque Config.root : List Byte

/-- FREE VALUE (log 16): the ciphertext and tag of a handshake packet, from the entry and what it carries: R336 gives them no key. -/
opaque Config.helloBody : Nat → List Byte → List Byte

/-- FREE VALUE (log 16): the plaintext of an acknowledgement of a session that has received the packets of a list, and of the messages
of collectives: R336 gives them no layout. -/
opaque Config.ackText : Nat → List Nat → List Byte
opaque Config.contributionText : Contribution → List Byte
opaque Config.resultText : ChunkResult → List Byte

/-- FREE VALUE (log 16): whether the plaintext of a Span acknowledgement names a packet number (R336 gives it no layout). -/
opaque Config.acks : List Byte → Nat → Bool

/-- FREE VALUE (log 6): byte `n` of the device certificate, a DER X.509 certificate (R443). -/
opaque Config.certificate : Nat → Byte

/-- FREE VALUE (log 14): where a NaN stands among the numbers of a group or block that a collective compresses, at the `n`-th
such group (R348 does not say). -/
opaque Config.nanPlace : Nat → Int

/-- FREE VALUE (log 11): the reading of sensor register HLTHd at the `n`-th read (R453). -/
opaque Config.sensor : Nat → Nat → Dword

/-- FREE VALUE (log 12): byte `n` of the boot record as BAR0 serves it, for the entries A, P and mark of its seven steps and the banks that it maps out
(R450); the manual gives the record no layout. -/
opaque Config.bootByte : List Nat → Nat → Byte

/-- FREE VALUE (log 112): how many nanoseconds the erase of the `n`-th alarm runs (R448). -/
opaque Config.eraseTime : Nat → Nat

/-- FREE VALUE (log 13): the number of this device (R342, R445). -/
opaque Config.device : BitVec 20

end Sys2Proof
end

