-- ==== Sys2Proof/Machine/Base.lean ====
section
/-! DEFINITION. Bit fields, little-endian bytes and the operations of sparse maps. -/

namespace Sys2Proof

/-- Bits `lo + w - 1 : lo` of a natural (R9's `x[h:l]`). -/
def fldN (x lo w : Nat) : Nat := (x >>> lo) % 2 ^ w

/-- Bits `lo + w - 1 : lo` of a bit vector, as a natural. -/
def fld {n : Nat} (x : BitVec n) (lo w : Nat) : Nat := fldN x.toNat lo w

/-- Bit `i` of a bit vector. -/
def bit {n : Nat} (x : BitVec n) (i : Nat) : Bool := fld x i 1 == 1

/-- `x` with bits `lo + w - 1 : lo` replaced by the low bits of `v`. -/
def setFld {n : Nat} (x : BitVec n) (lo w v : Nat) : BitVec n :=
  BitVec.ofNat n (fldN x.toNat 0 lo + ((v % 2 ^ w) <<< lo) + ((x.toNat >>> (lo + w)) <<< (lo + w)))

/-- The two's complement reading of a `w`-bit natural (R68). -/
def toSigned (w x : Nat) : Int := if x < 2 ^ (w - 1) then (x : Int) else (x : Int) - 2 ^ w

/-- An integer mod `2^w`, as a natural (R240's wrap). -/
def wrapN (w : Nat) (x : Int) : Nat := (x % (2 ^ w : Nat)).toNat

/-- A `w`-bit pattern extended by sign to 64 bits. -/
def sext64 (w x : Nat) : Dword := BitVec.ofInt 64 (toSigned w (x % 2 ^ w))

/-- 1 for true, 0 for false. -/
def b2n (b : Bool) : Nat := if b then 1 else 0

/-- The `n` bytes of a natural, lowest first (R7). -/
def toBytes : Nat → Nat → List Byte
  | 0, _ => []
  | n + 1, x => BitVec.ofNat 8 x :: toBytes n (x / 256)

/-- The natural whose bytes, lowest first, are given (R7). -/
def ofBytes : List Byte → Nat
  | [] => 0
  | b :: bs => b.toNat + 256 * ofBytes bs

/-- The value of a key of a sparse map. -/
def alGet? {α : Type} : AL α → Nat → Option α
  | [], _ => none
  | (k, v) :: m, i => if k = i then some v else alGet? m i

/-- The value of a key, or a default. -/
def alGet {α : Type} (m : AL α) (d : α) (i : Nat) : α := (alGet? m i).getD d

/-- The map with one key given a value, in rising key order. -/
def alSet {α : Type} : AL α → Nat → α → AL α
  | [], i, v => [(i, v)]
  | (k, w) :: m, i, v =>
    if i < k then (i, v) :: (k, w) :: m else if i = k then (i, v) :: m else (k, w) :: alSet m i v

/-- The map without one key. -/
def alDel {α : Type} : AL α → Nat → AL α
  | [], _ => []
  | (k, w) :: m, i => if k = i then alDel m i else (k, w) :: alDel m i

/-- The map with the value of one key changed, where it has one. -/
def alMod {α : Type} (m : AL α) (i : Nat) (f : α → α) : AL α :=
  m.map fun p => if p.1 = i then (p.1, f p.2) else p

/-- The list without its later repeats. -/
def dedupN : List Nat → List Nat
  | [] => []
  | a :: l => a :: (dedupN l).filter (fun b => b != a)

/-- Insertion into a list sorted by a rank. -/
def insertBy {α : Type} (le : α → α → Bool) (a : α) : List α → List α
  | [] => [a]
  | b :: l => if le a b then a :: b :: l else b :: insertBy le a l

/-- A stable insertion sort. -/
def sortBy {α : Type} (le : α → α → Bool) : List α → List α
  | [] => []
  | a :: l => insertBy le a (sortBy le l)

/-- The first element that minimises a rank. -/
def minBy? {α : Type} (r : α → Nat) : List α → Option α
  | [] => none
  | a :: l => match minBy? r l with
    | none => some a
    | some b => if r a ≤ r b then some a else some b

/-- Chunks of at most `n` elements, by fuel. -/
def chunksOf {α : Type} (n : Nat) : Nat → List α → List (List α)
  | 0, _ => []
  | _ + 1, [] => []
  | k + 1, l => l.take n :: chunksOf n k (l.drop n)

/-- The ceiling of a quotient. -/
def ceilDiv (a b : Nat) : Nat := if b = 0 then 0 else (a + b - 1) / b

/-- The number of set bits of a natural below `2^n`. -/
def popN : Nat → Nat → Nat
  | 0, _ => 0
  | n + 1, x => x % 2 + popN n (x / 2)

/-- The positions of the set bits of a natural below `2^n`, rising. -/
def bitsOf (n x : Nat) : List Nat := (List.range n).filter fun i => fldN x i 1 == 1

/-- The mask with the listed bits set. -/
def maskOf (l : List Nat) : Nat := (dedupN l).foldl (fun m i => m + 2 ^ i) 0

end Sys2Proof
end

