-- ==== Sys2Proof/Machine/State.lean ====
section
/-! DEFINITION. Everything the Narut holds, as plain data: threads, groups, teams, cores, dies, contexts, launches,
commands, links, security and boot state, and memory. `State.reset` is the machine right after device reset. -/

namespace Sys2Proof.Machine

open Sys2Proof

/-! ## Memory and places -/

/-- Where a byte lives beyond the path checks: node space (bulk and bonded, R104), a pool node under the grants of a
context id (R103), or a peer under a domain index of a context slot (R103). -/
inductive Loc
  | node (a : Nat)
  | pool (ctx node off : Nat)
  | peer (slot idx va : Nat)
  deriving DecidableEq, Repr

/-- A line of a cache: its first byte, its retention (0 lowest, 1 normal, 2 highest; R123), which of its sectors are dirty,
and its valid 64-byte sectors. A sector of a tag-only cache holds no bytes. -/
structure CLine where
  loc : Loc
  ret : Nat
  dirty : List Nat
  secs : AL (List Byte)
  deriving DecidableEq, Repr

/-- A cached translation: the context slot, the page's first virtual address and size code, the leaf entry that was
used and the node address it was read at (R108, R110). -/
structure Tlb where
  slot : Nat
  base : Nat
  size : Nat
  pte : BitVec 128
  pteAt : Nat
  dirty : Bool
  deriving DecidableEq, Repr

/-- A cached pointer entry of the walk cache: context slot, level it was read at, index bits above that level, and
the entry (R110). -/
structure WalkLine where
  slot : Nat
  level : Nat
  path : Nat
  pte : BitVec 128
  deriving DecidableEq, Repr

/-! ## Threads -/

/-- A meeting register (Table 15-1). -/
structure Meet where
  addr : Dword
  depth : BitVec 8
  valid : Bool
  deriving DecidableEq, Repr

/-- One trap bank of a thread (R417). -/
structure Bank where
  cause : Word
  epc : Dword
  tval : Dword
  stat : Word
  deriving DecidableEq, Repr

/-- The target of a 64-bit counter, join word or barrier, bound when it was named (R386): a place in memory, or an
offset in one of the two scratchpads of a team (`side` 0 the even core or the only one). -/
inductive Target
  | mem (l : Loc)
  | spad (team side off : Nat)
  deriving DecidableEq, Repr

/-- What holds a thread that has issued a waiting instruction: a meeting with its time-out and result register
(R362, R364), a join word (R392) or a signal counter (R379). A word is named by its address and its place, which is found anew
where the translation that gave it has been dropped (R112). -/
inductive Wait
  | none
  | meeting (deadline : Option Nat) (cc : Option (BitVec 2))
  | join (va : Dword) (t : Option Target) (scope : Scope)
  | signal (va : Dword) (t : Option Target) (value : Dword) (scope : Scope)
  /-- Blocked in `RACQ`, with the number of the request (R24). -/
  | racq (n : Nat)
  /-- A raw ply image whose pieces have not all landed: the thread stays at its `PLDW` (R299). -/
  | image
  deriving DecidableEq, Repr

/-- Where a trap that waits is delivered: late, at the thread's next instruction (R474); at the next instruction, that of the access
being complete (R416); or precisely at an address with its DEFR, once the line that the search for its handler reads is free (R127). -/
inductive TrapAt
  | late | next
  | here (epc : Dword) (defr : Bool)
  deriving DecidableEq, Repr

/-- A trap that waits for its delivery: its cause, its TVAL, the number of the access, the destination registers that become full with
zero (R474), and where it is delivered. -/
structure Late where
  cause : Nat
  tval : Dword
  order : Nat
  vdst : List Nat
  at' : TrapAt
  deriving DecidableEq, Repr

/-- A spawn record (R386, Table 16-7) with the context and launch it belongs to, and the place of its join word with its home die; none
where the word is to be translated when it is used (R112). -/
structure SpawnRec where
  slot : Nat
  launch : Nat
  entry : Nat
  core : Nat
  join : Option (Target × Nat)
  joinAddr : Dword
  scope : Scope
  payload : List Word
  deriving DecidableEq, Repr

/-- What one thread owns (R11, R350, R417, R422, R433). -/
structure Thread where
  pc : Dword
  depth : BitVec 8
  /-- The held top of the return stack, top first, at most 16 entries (R359). -/
  rs : List Dword
  mr : Meet
  wait : Wait
  exited : Bool
  level : BitVec 2
  bank1 : Bank
  bank2 : Bank
  /-- The nanosecond clock when the thread last went above level 0 (R423). -/
  above : Nat
  /-- h registers by 32 × level + number; an absent one reads 0 (R422). -/
  h : AL Word
  /-- v registers; an absent one reads 0 (R224). -/
  v : AL Word
  /-- The v registers that are empty to this thread (R228). -/
  vEmpty : List Nat
  /-- c registers; an absent one reads 0 (R191). -/
  c : AL (BitVec 192)
  cEmpty : List Nat
  /-- cc0 to cc3, four bits each, S Z C V from the highest (R39). -/
  cc : BitVec 16
  /-- Region: its index, none for the start region, its entry state and the number of its first access (R433, R434). -/
  region : Option Nat
  rgnAcc : Nat
  rgnPc : Dword
  rgnDepth : BitVec 8
  rgnMr : Meet
  noRegion : Bool
  deferral : Bool
  late : List Late
  /-- The record a spawned thread came from (R389, R391). -/
  spawn : Option SpawnRec
  /-- The first cycle in which the thread may issue again (R45, R385), and how many instructions it has issued (R474). -/
  notBefore : Nat
  issues : Nat
  /-- Issue cycles of the group in which the thread was ready and passed over (R352). -/
  passed : Nat
  /-- The cycle in which a `YIELD` of the thread ends (R385), and the next number of an access as the thread's latest acquire
  completed (R402, R403). -/
  yieldTo : Nat
  lastAcq : Nat
  /-- The futures whose first read acquires, by v register, with the scope of the command (R140). -/
  futures : AL Scope
  deriving DecidableEq, Repr

/-! ## Groups -/

/-- The sum of one ply element: planes S and K and the flags NAN, PINF, NINF, OVF from bit 0 (R285). -/
structure PElem where
  s : BitVec 128
  k : BitVec 128
  fl : BitVec 4
  deriving DecidableEq, Repr

/-- A SIMT ply register: its anchor and one element per lane (R285). -/
structure PReg where
  anc : BitVec 10
  el : AL PElem
  deriving DecidableEq, Repr

/-- A ply tile: its anchor, 256 elements and its failed state with cause and address (R286, R325). -/
structure Tile where
  anc : BitVec 10
  el : AL PElem
  failed : Option (Nat × Dword)
  deriving DecidableEq, Repr

/-- The storage forms of Table 9-2. -/
inductive Tag
  | uniform | affine | d8 | d16 | raw
  deriving DecidableEq, Repr

/-- A raw ply image being loaded (R299): the holder (a tile or a register), the lanes that load, its address, the bytes
that have landed, by offset, and the pieces that have not. -/
structure Pimg where
  tile : Bool
  reg : Nat
  lanes : List Nat
  va : Dword
  got : AL Byte
  left : Nat
  stall : Nat
  deriving DecidableEq, Repr

/-- A group slot: core, quarter and slot (R381). -/
structure Place where
  core : Nat
  quarter : Nat
  slot : Nat
  deriving DecidableEq, Repr

/-- The piece a blocked `RACQ` asks for (R234): the kind (0 vreg, 1 tile, 2 preg, 3 spad), its first register, and its count or
bytes, with the lanes whose guard passed. -/
structure Racq where
  kind : Nat
  first : Nat
  count : Nat
  lanes : List Nat
  deriving DecidableEq, Repr

/-- What an instruction of a group issued in the same cycle still finds after the group's first issue of that cycle (R83,
R256): the cycle, MODE, and the old values of the vector registers that were written, by lane and register. -/
structure Prior where
  cycle : Nat
  mode : Dword
  v : List (Nat × Nat × Word)
  deriving DecidableEq, Repr

/-- What one group owns (R11, R13, R23, R53, R83, R231). -/
structure Group where
  slot : Nat
  launch : Nat
  team : Option Nat
  teamNo : Word
  grp : Nat
  spawned : Bool
  width : Nat
  /-- The slot it holds, or none while it is parked (R392). -/
  place : Option Place
  /-- The place it holds or last held (R28). -/
  home : Place
  lanes : List Thread
  mode : Dword
  warn : Word
  /-- s0 to s15, 512 bits each (R90); an absent one reads 0. -/
  shapes : AL (BitVec 512)
  p : AL PReg
  tiles : AL Tile
  /-- Extended v and p registers mapped beyond `.regs` and `.acc` (R232). -/
  extV : List Nat
  extP : List Nat
  /-- Scratchpad grants: offset and bytes (R234). -/
  grants : List (Nat × Nat)
  /-- Locks on v registers: register and number of the matrix operation (R231). -/
  locks : List (Nat × Nat)
  /-- Tiles that an outstanding matrix operation writes: tile and number of the operation (R303, R321). -/
  tileOut : List (Nat × Nat)
  /-- Raw images being loaded, by their number. -/
  pimgs : AL Pimg
  /-- Shape tags; a register with none listed holds zeros and is uniform. Registers whose writer has not landed in every lane,
  with the lanes that it writes (R226). -/
  tags : AL Tag
  tagWait : List (Nat × List Nat)
  /-- Ply registers and tiles as they stood when first written in the region (R304): a register by the lanes that have begun no
  region since, a tile with those lanes. -/
  shadowP : AL PReg
  shadowT : AL (Tile × List Nat)
  /-- Blocked requests of this group, by request number (R24). -/
  racq : AL Racq
  /-- In the active set (R381), boosted since (R384), last cycle that took a decoder, ready and passed over since, and
  the cycle of its last YLD (R45). -/
  active : Bool
  boosted : Option Nat
  lastIssue : Nat
  readySince : Nat
  yielded : Nat
  /-- First cycle it may issue after a swap or placement (R383). -/
  notBefore : Nat
  /-- Stopped by a `DBRK` under an enabled debug session (R431). -/
  stopped : Bool
  /-- Held in Skein for a slot: formation order of a formed group without a place (R387). -/
  forming : Option Nat
  /-- What the group's first issue of a cycle replaced (R83, R256). -/
  prior : Option Prior
  /-- The lanes that were found ready in a cycle, dependences among them (R351), with that cycle; the model's own (log 9). -/
  found : Option (Nat × List Nat)
  /-- The translation of its save slot, by page number: page of node space and home, as made when the group was placed (R437). -/
  saveAt : AL (Nat × Nat)
  deriving DecidableEq, Repr

/-- One scratchpad reservation (R101, R159, R160): written bytes (an absent one reads 0), empty granules, the
ranges mapped by `RACQ` beyond the fixed part, and by granule the widest scope of the commands that have arrived at a barrier
object there (R140). -/
structure Spad where
  bytes : AL Byte
  empties : List Nat
  mapped : List (Nat × Nat)
  came : AL Scope
  deriving DecidableEq, Repr

/-- A placed team (R17, R18, R232): launch, number, its core or the even core of its pair, and for each core of it the
scratchpad; the order of blocked `RACQ` requests per core, as (group, request number); and per core the bytes of `.ext` and
the tile slots that groups which have gone still held (R19). -/
structure Team where
  launch : Nat
  num : Nat
  core : Nat
  pair : Bool
  spad0 : Spad
  spad1 : Spad
  wait0 : List (Nat × Nat)
  wait1 : List (Nat × Nat)
  gone0 : Nat × Nat
  gone1 : Nat × Nat
  deriving DecidableEq, Repr

/-- Why an access has parked: its context slot and the fault (Table 4-7: address, kind, class, level). It waits on the
unanswered record of its page and kind (R113). -/
structure Park where
  slot : Nat
  va : Dword
  kind : Nat
  acc : Nat
  lvl : Nat
  deriving DecidableEq, Repr

/-! ## Launches, queues, contexts -/

/-- The kernel descriptor fixed at acceptance (Table 2-14). -/
structure Kernel where
  kdesc : Dword
  code : Dword
  clen : Nat
  width : Nat
  team : Nat
  pair : Bool
  regs : Nat
  acc : Nat
  ply : Nat
  extB : Nat
  extF : Nat
  scrB : Nat
  scrF : Nat
  param : Nat
  nent : Nat
  entt : Dword
  nhdl : Nat
  hdlt : Dword
  nrgn : Nat
  rgnt : Dword
  csize : Nat
  deriving DecidableEq, Repr

/-- A held launch (R370 to R374): its record, descriptor and parameter block as they were accepted. -/
structure Launch where
  slot : Nat
  lnum : Word
  prio : Nat
  kernel : Kernel
  params : List Byte
  dims : Nat × Nat × Nat
  coop : Bool
  nwait : Nat
  rscope : Scope
  wait0 : Dword × Dword
  wait1 : Dword × Dword
  saddr : Dword
  sval : Dword
  stat : Dword
  /-- Whether its dependences were met (R372). -/
  ready : Bool
  /-- STATE and REASON of an error (Table 16-4). -/
  error : Option (Nat × Nat)
  /-- The next team to place, and the teams run. -/
  nextTeam : Nat
  ran : Nat
  /-- A parked access of the distributor for the launch, and whether the pager failed one (R113, R114). -/
  park : Option Park
  failed : Bool
  /-- The steps of completion already taken (R373). -/
  stage : Nat
  deriving DecidableEq, Repr

/-- A launch queue's CSR block (Table 16-1), with the futures of the `LAUNCH` records in it by producer count. -/
structure LQueue where
  base : Dword
  log2 : Nat
  prio : Nat
  en : Bool
  dev : Bool
  err : Bool
  ctx : BitVec 16
  prod : Word
  cons : Word
  /-- A read of a record, descriptor or parameter block that is parked (R369), and the address of one that the pager failed. -/
  parked : Option Park
  failed : Option Dword
  /-- `LAUNCH` futures and the launch that wrote each record, by PROD (R380). -/
  futures : AL (Option Nat × Nat)
  deriving DecidableEq, Repr

/-- A non-fatal fault that waits for its answer: the record's fields (Table 4-7), log2 of the size of its page, whether the
record was written and under which sequence number. -/
structure FaultRec where
  va : Dword
  page : Nat
  kind : Nat
  acc : Nat
  lvl : Nat
  core : Nat
  unit : Nat
  seq : Option Word
  deriving DecidableEq, Repr

/-! ## Bound tensors -/

/-- A level: its tensor, number, kind, dimension, the address of its descriptor and the descriptor's fields. -/
structure Lv where
  tid : Nat
  i : Nat
  kind : Nat
  n : Nat
  at' : Nat
  p0 : Nat
  p1 : Nat
  m0 : Nat
  m1 : Nat
  deriving DecidableEq, Repr

/-- A tensor bound by a command: its record and its levels, read once (R89). -/
structure Tens where
  tid : Nat
  r : BitVec 512
  lv : List Lv
  deriving DecidableEq, Repr

/-! ## Outstanding accesses -/

/-- The atomic step of an access at the home (Tables 7-3, 7-5, R378, R391). -/
inductive AtomOp
  | rmw (code : Nat) (ty : Ty) (b : Dword)
  | cas (ty : Ty) (b c : Dword)
  | padd (ty : Ty) (b : Dword) (ftzi : Bool)
  | push (b : Dword)
  | pop
  | steal
  deriving DecidableEq, Repr

/-- The operations of a walker (R195, Table 8-5), with the cursors they were given, the L2 hint of a `CLDV`, and the passing lanes
of an `HFREE` (R217). -/
inductive WalkOp
  | root (tid level q : Nat)
  | next (c : BitVec 192)
  | seek (c : BitVec 192) (to' : Nat)
  | desc (c : BitVec 192)
  | coit (or' adv : Bool) (a b : BitVec 192)
  | split (c : BitVec 192) (n k : Nat)
  | ldv (c : BitVec 192) (off l2 : Nat)
  | openList (tid level parent heap : Nat)
  | append (c : BitVec 192) (coord pos : Nat)
  | commit (c : BitVec 192) (close : Bool)
  | alloc (h : Nat)
  | free (addr : Dword) (h : Nat) (lanes : List Nat)
  /-- A `CLDV` whose element has been read, which only has to land; an operation whose record could not be bound at its issue, with the
  tensor, level and known kind of each request, the cause and its TVAL (R89, R198). -/
  | got (ws : List Word)
  | bad (req : List (Nat × Nat × Option Nat)) (cause : Nat) (tval : Dword)
  deriving DecidableEq, Repr

/-- What an outstanding load-like access does when its result lands (R167). `n` is the access size in bytes. -/
inductive AccOp
  /-- A load; `fresh` past L1, `home` past the RDC as well, `l1` and `l2` the cache hints (R400, Table 2-8). -/
  | load (ty : Ty) (n : Nat) (fresh home : Bool) (l1 l2 : Nat)
  /-- A compressed-view read of tensor `tid` from element `idx` (R102). -/
  | view (ty : Ty) (n tid idx : Nat)
  /-- A read of the constant path: the bytes of the parameter block, or none for the constant section, with the L1 hint
  (R60, R161). -/
  | const (ty : Ty) (n : Nat) (param : Option (List Byte)) (l1 : Nat)
  | ldfe (ty : Ty) (n : Nat) (keep : Bool)
  | stfe (bytes : List Byte) (wempty : Bool)
  /-- A scratchpad store, held only while an earlier access of its thread to the same bytes is outstanding (R399). -/
  | sst (bytes : List Byte)
  /-- A `FECLR` that waits for earlier accesses of its thread to its granules (R173, R174). -/
  | feclr (n : Nat) (full : Bool)
  | atom (op : AtomOp)
  /-- A walker operation and its `.nf` (R195, R198). -/
  | walk (op : WalkOp) (nf : Bool)
  /-- A ply cell for the thread's lane of a register (R300), and a piece of a raw image: its number, the piece's offset and
  bytes (R299). -/
  | cell (reg : Nat)
  | image (img off n : Nat)
  /-- A value already known that only has to land (a control-path read, a `PROBE`). -/
  | value (words : List Word)
  /-- A `PROBE` of a place outside the device, with the bits known already; a sector that a `PREF` asks for there, with its
  hints (R175, R177). -/
  | probe (known : Nat)
  | pref (l1 l2 : Nat)
  /-- An SFU result: the number of its instruction, the value, its flags, those of the instruction's lanes that have landed, and
  the MODE captured at issue (R280). -/
  | sfu (inst : Nat) (w : Word) (fl landed : BitVec 5) (mode : Dword)
  /-- A re-read of a counter or join word at its home outside the device, until the thread's wait is over (R379,
  R392). -/
  | poll
  /-- A `BWAIT` for a phase other than a value, and an `FWAIT` for a handle (R139, R141). -/
  | bwait (past : Word)
  | fwait (handle : Word)
  /-- A spawn: its record goes to Skein once its join word has been raised, where it still has to be (R386). -/
  | spawn (r : SpawnRec) (raise : Bool)
  /-- A refill of a return-stack entry (R359), with the PC, DEPTH, stack and loss of region from before the `RET`
  (R360). -/
  | refill (undo : Dword × BitVec 8 × List Dword × Bool)
  /-- A `TLD` of a tensor record to a shape register (R92), and a `JINIT` of bytes at a word outside the device (R391). -/
  | shape (tid reg : Nat)
  | jinit (bytes : List Byte)
  deriving DecidableEq, Repr

/-- One outstanding access of a thread (R167, R396). -/
structure Acc where
  g : Nat
  lane : Nat
  slot : Nat
  core : Nat
  /-- Its virtual address, as issued. -/
  va : Dword
  /-- The bound target; none while it is parked. -/
  tgt : Option Target
  /-- The home die of a node address (R99). -/
  home : Nat
  op : AccOp
  /-- Destination v registers, in order of the bytes. -/
  dst : List Nat
  /-- Destination cursor registers. -/
  cdst : List Nat
  /-- The cc register that receives flags (R182). -/
  cc : Option (BitVec 2)
  /-- The scope of its acquire and of its release half, where it has one (R403). -/
  acq : Option Scope
  /-- The thread issues nothing before it lands (R280, R359), unless it has parked. -/
  hold : Bool
  park : Option Park
  /-- The nanosecond clock at issue (R335). -/
  ns : Nat
  /-- The address of its instruction, the cycle of issue, the thread's count of instructions after it, and whether it has
  parked since (R163, R167, R474). -/
  pc : Dword
  cyc : Nat
  mark : Nat
  parked : Bool
  /-- The records, and for a compressed view the levels, that it bound at issue (R89). -/
  recs : List Tens
  /-- The L2 hint of an atomic (R43, R123), and the other lanes that its outcome concerns: those that an instruction which acts
  once raises its cause in (R41). -/
  l2 : Nat
  lanes : List Nat
  /-- Lanes that it holds beside, whose guard has not passed: those of a sub-group that issues nothing further (R309). -/
  holds : List Nat
  deriving DecidableEq, Repr

/-- A store-buffer entry of a core (R164): the thread, the place, the bytes (at most 64 of one sector; here those of one
lane's store), the L2 hint and the park of an untranslated store. `spill` marks a return-stack spill (R359). -/
structure SbEntry where
  core : Nat
  g : Nat
  lane : Nat
  slot : Nat
  va : Dword
  loc : Option Loc
  home : Nat
  bytes : List Byte
  l2 : Nat
  spill : Bool
  park : Option Park
  /-- The nanosecond clock at issue (R335), and what an access keeps of its instruction (R167, R474). -/
  ns : Nat
  pc : Dword
  cyc : Nat
  mark : Nat
  parked : Bool
  /-- The other lanes that its outcome concerns (R41, R299); the threads that have read its bytes, and the next number of an
  access at the first release that covers it (R402). -/
  lanes : List Nat
  readers : List (Nat × Nat)
  rel : Option Nat
  deriving DecidableEq, Repr

/-- A saved group (R440): the group as its section holds it, and the masks of its saved registers, those of a region table entry. -/
structure SavedGroup where
  gid : Nat
  group : Group
  mask : Nat
  deriving DecidableEq, Repr

/-- A saved team image with its number in the area at PIMBASE (R439, R440). -/
structure Image where
  index : Nat
  team : Option (Nat × Team)
  groups : List SavedGroup
  batons : List Nat
  /-- Its accesses and parked stores from before the regions that are run again. -/
  accs : AL Acc
  stores : AL SbEntry
  deriving DecidableEq, Repr

/-- What is kept beside a record in a spill ring (R386, R390, R442): its launch and bound join word, CORE as it was written, and
the core to whose Skein it goes after a restoration. -/
structure RingInfo where
  launch : Nat
  join : Option (Target × Nat)
  core : Nat
  dest : Option Nat
  deriving DecidableEq, Repr

/-- A context slot (R428, R436, R437; Tables 4-6, 16-6, 18-5). STATE 7 is free. -/
structure Ctx where
  state : Nat
  kcause : Nat
  id : BitVec 16
  tbase : Dword
  tcount : Dword
  ptbase : Dword
  fqbase : Dword
  fqmask : BitVec 16
  fqprod : Word
  fqcons : Word
  heapbase : Dword
  rstkbase : Dword
  dombase : Dword
  rsbase : Dword
  skcfg : BitVec 16
  srbase : Dword
  srlog2 : Nat
  tvbase : Dword
  tcfg : Dword
  kslot : Dword
  savebase : Dword
  pimbase : Dword
  pimmax : Dword
  rsvbase : Dword
  rsvcnt : Dword
  wdog : Dword
  pginvBusy : Bool
  /-- A PGINV waiting for accesses that used a dropped translation (R112): the accesses' numbers. -/
  pginvWait : List Nat
  /-- PGINV writes that wait for BUSY (R112). -/
  pginvNext : List Dword
  faults : List FaultRec
  /-- Spill rings of the eight dies: head (returned) and tail (written) counts (R390, R439). -/
  rings : AL (Word × Word)
  /-- What is kept beside the records in the rings, by 2^32 × die + count. -/
  ringInfo : AL RingInfo
  /-- A spill-ring access that is parked (R390), and the reads of its kernels' entry tables that are, by core, launch and entry
  (R387). -/
  ringPark : Option Park
  formPark : AL Park
  images : List Image
  /-- The old and the new core of each team that has been restored (R442). -/
  moved : List (Nat × Nat)
  deriving DecidableEq, Repr

/-! ## Commands (R130 to R156, R340 to R348) -/

/-- Who makes an access: its context slot, its core where it uses the core's TLB, its die, the team and side of its
scratchpad paths (with whether the team is placed on a pair), the launch of its constant path, whether it runs above trap
level 0, and the unit that a fault record names (Table 4-7). -/
structure Issuer where
  slot : Nat
  core : Option Nat
  die : Nat
  team : Option (Nat × Nat)
  pair : Bool
  launch : Nat
  above : Bool
  unit : Nat
  deriving DecidableEq, Repr

/-- What a command does. `launch` is the future of a `LAUNCH` record, by queue and producer count (R380). -/
inductive EngOp
  | copy | xform | gathr
  | scatr (add : Bool)
  | sortu (wide : Bool)
  | pref
  | coll
  | launch (q : Nat) (prod : Word)
  deriving DecidableEq, Repr

/-- What a part of a command's work adds to its counts (Table 6-7): flags, out-of-range entries, saturations, rows. -/
structure Tally where
  flg : BitVec 5
  oorc : Nat
  satc : Nat
  uniq : Nat
  deriving DecidableEq, Repr

/-- A run of bytes that a command has still to write, inside one 64-byte sector; `ends` says that a 512-byte or row
boundary follows it (R139), `key` orders it for CRC-32C (R146), and `tally` is counted as it is written. -/
structure Piece where
  va : Dword
  bytes : List Byte
  ends : Bool
  key : Nat
  tally : Tally
  deriving DecidableEq, Repr

/-- A late contribution folded into a chunk (R346): its rank, the descriptor under which it was sent, the first element that it
covers, how many, and its bytes. -/
structure LatePart where
  rank : Nat
  blk : Nat
  first : Nat
  count : Nat
  bytes : List Byte
  deriving DecidableEq, Repr

/-- A chunk of a collective at its owner or at a member (R343, R344, R475): the contributions by rank, the late ones folded in, when its deadline runs out, whether it has run out, whether the chunk is
closed, its result (success, contributors and late ranks), and the bytes of the result that are still to be written. -/
structure Chunk where
  parts : AL (List Byte)
  late : List LatePart
  deadline : Option Nat
  expired : Bool
  closed : Bool
  result : Option (Bool × List Nat × List Nat)
  out : Option (List Byte)
  deriving DecidableEq, Repr

/-- A collective (R340 to R348): its roster as bound, with the raw member entries; its ordinal in (roster, stream); the
nanosecond clock at issue; whether its contribution has left, a result failed to come in time, and its last writes have
been formed; the ranks dropped since its issue, and those that it drops itself; and its chunks. -/
structure Coll where
  roster : Nat
  gen : Nat
  rank : Nat
  memb : Dword
  members : List Nat
  ordinal : Nat
  issued : Nat
  sent : Bool
  timedOut : Bool
  final : Bool
  dropped : List Nat
  drops : List Nat
  chunks : AL Chunk
  deriving DecidableEq, Repr

/-- An outstanding command: who issued it and how (R130, R131), its block, the record it names, all that it bound (R89), the list
header a `GATHR` read at issue (R124), its completion-table entry and future register, and its progress: the lines still to be
claimed, by an address on each, the pieces still to write (none before its source is read), the table rows a `SCATR` has still
to claim with their counts and contributions, the end that follows them, the counts of Table 6-7, the bytes written that its
CRC covers, and how it ends. -/
structure Cmd where
  op : EngOp
  iss : Issuer
  g : Nat
  lane : Nat
  core : Nat
  seq : Bool
  scope : Scope
  l2 : Nat
  mode : Dword
  blk : Nat
  tens : Option Tens
  bound : List Tens
  header : Nat
  entry : Nat
  dst : Option Nat
  started : Bool
  cancel : Bool
  park : Option Park
  want : List Dword
  plan : Option (List Piece)
  rows : List (Nat × Tally × List (List Byte))
  tail : Option (Nat × Nat)
  done : List (Nat × List Byte)
  mid : Bool
  flg : BitVec 5
  oorc : Nat
  satc : Nat
  uniq : Nat
  bytes : Nat
  crc : Nat
  /-- STATE and cause of an end other than success, and whether its completion record has parked, or is given up (R137). -/
  result : Option (Nat × Nat)
  closing : Bool
  norec : Bool
  coll : Option Coll
  deriving DecidableEq, Repr

/-- A slot of a die's completion table (R138): its generation, context slot (256 once that context is gone), the command that
holds it while unended with the scope of that command (R140), and the status word of the last one. -/
structure CSlot where
  gen : Nat
  slot : Nat
  cmd : Option Nat
  scope : Scope
  status : Word
  deriving DecidableEq, Repr

/-- A collective that was issued here (R346): its descriptor, its live ranks as bound, and this device's rank. -/
structure CollHist where
  slot : Nat
  roster : Nat
  stream : Nat
  ordinal : Nat
  blk : Nat
  live : List Nat
  rank : Nat
  deriving DecidableEq, Repr

/-- A collective contribution held at its owner, with the nanosecond clock of its arrival: one that came before the operation
was issued there, or a late one, with the operation that it missed (R343, R346). -/
structure CollIn where
  msg : Contribution
  at' : Nat
  late : Option CollHist
  deriving DecidableEq, Repr

/-- What a context has issued in a (roster, stream): the next ordinal; and per roster and rank the operations missed in a
row (R343, R346). -/
structure CollCount where
  slot : Nat
  roster : Nat
  key : Nat
  n : Nat
  deriving DecidableEq, Repr

/-! ## The matrix engine (R306 to R325) -/

/-- The three products (Table 13-5). -/
inductive MKind
  | mma | mmab | mmat
  deriving DecidableEq, Repr

/-- An operation in a core's matrix queue: its number, the quad's team and groups, the issuer, the block and the records bound,
those of side tensors among them (R89), MODE, B's type and width, first B register and C tile, the run of B registers that it locks,
the cycle of its issue (R313, R321), whether it has started, KDONE (R324), the scratchpad granule of A that it has last read in each
row, with its number (R312), and the parks of the A reads that hold its next step. -/
structure MOp where
  id : Nat
  kind : MKind
  neg : Bool
  ty : Ty
  team : Nat
  groups : List Nat
  g : Nat
  lane : Nat
  iss : Issuer
  blk : Nat
  ta : Option Tens
  tb : Option Tens
  bound : List Tens
  mode : Dword
  width : Nat
  b : Option Nat
  c : Option Nat
  run : List Nat
  cyc : Nat
  started : Bool
  kdone : Nat
  grans : AL (Nat × Nat)
  park : List Park
  deriving DecidableEq, Repr

/-! ## Links, security, boot and health -/

/-- A Span session (R336 to R338) of a peer entry: its id; the ephemeral private key of its last handshake; the 72 key bytes now used (none while it is closed) and those from
before the last rekey; the clocks at which the old ones expire, the current ones began and the last handshake was tried;
whether a rekey is under way; the next packet number sent, the one with which the current keys began, and the packets received
under them; the packets not acknowledged, as sent; the messages that wait for the session to open; the next number to be delivered, and what has been received beyond it (a message, or
none); the highest number received and the numbers seen; the packets dropped; and the tag
failures with the minute they count. -/
structure Session where
  id : BitVec 32
  secret : List Byte
  keys : List Byte
  oldKeys : List Byte
  oldUntil : Nat
  opened : Nat
  tried : Nat
  rekeying : Bool
  sent : Nat
  keyFrom : Nat
  underNew : Nat
  unacked : AL (List Byte)
  waiting : List (List Byte)
  next : Nat
  held : AL (Option (List Byte))
  top : Nat
  seen : List Nat
  dropped : Nat
  tagFails : Nat
  minute : Nat
  deriving DecidableEq, Repr

/-- Woad, Madder and the debug port (R443 to R449, Table 19-5). -/
structure Sec where
  done : Bool
  err : Bool
  busy : Bool
  nonce : BitVec 512
  taken : BitVec 512
  boot : Dword
  report : List Byte
  mpol : BitVec 40
  fired : BitVec 5
  alarms : Word
  locked : Bool
  session : Option (BitVec 16)
  seedErased : Bool
  /-- The action of the last erase, and the nanosecond clock at which it ends (R448). -/
  erase : Option (Nat × Nat)
  linksDown : Bool
  /-- Codes that `DBRK` reported to the session (R431). -/
  codes : List (Nat × Word)
  deriving DecidableEq, Repr

/-- One entry of the boot record (R450): A, P, what was written last (1 started, 2 passed, 3 failed, 0 nothing), and the banks of
each die that step 2 maps out (R452). -/
structure BootStep where
  a : Nat
  p : Bool
  mark : Nat
  banks : List Nat
  deriving DecidableEq, Repr

/-- The boot sequence (R444, R450 to R452): the step in hand (8 when boot has ended), the record as it was at this start and the steps
that the host has cleared since, BOOTSTAT, SVNUP, the running and fused SVNs, the
firmware digest, the data rate and the entries of the record in flash. -/
structure Boot where
  step : Nat
  start : AL BootStep
  cleared : List Nat
  stat : Dword
  svnup : Bool
  svn : BitVec 16
  fused : BitVec 16
  digest : List Byte
  rate : Nat
  record : AL BootStep
  deriving DecidableEq, Repr

/-! ## Cores, dies and the machine -/

/-- What a decoder issued last (R20, R382): the group, the slices that it drives, and the cycle in which the decoder is free
again. -/
structure DecBusy where
  g : Nat
  slices : List Nat
  free : Nat
  deriving DecidableEq, Repr

/-- A core (R161, R164, R196, R306, R320, R387, R430). -/
structure Core where
  l1 : List CLine
  mcache : List CLine
  tlb : List Tlb
  /-- Skein records with the cycle each arrived, in arrival order (R387). -/
  skein : List (Nat × SpawnRec)
  /-- The group that last took decoder 0, by quarter (R382). -/
  last : AL Nat
  /-- PERF counters 0 to 15 (R430). -/
  perf : AL Nat
  /-- The decoders by 2 × quarter + number. -/
  dec : AL DecBusy
  /-- The matrix queue, the operation in hand first (R306); the baton's quad, as team and index; and what waits
  for it, by group, lane and the thread's count of instructions (R320). -/
  mq : List MOp
  baton : Option (Nat × Nat)
  batonWait : List (Nat × Nat × Nat)
  deriving DecidableEq, Repr

/-- A compute die (R110, R117 to R129, R392, R452 to R454). -/
structure Die where
  l2 : List CLine
  rdc : List CLine
  tlb : List Tlb
  /-- The cycle at which RDCINV ends, and its waiting writes (R129). -/
  rdcinv : Option (Nat × Bool)
  rdcinvNext : List Bool
  /-- ERRC: corrected and uncorrected counts (R454). -/
  corrected : Nat
  uncorrected : Nat
  /-- The park table: groups tracked there (R392). -/
  parkTable : List Nat
  bondcap : Nat
  /-- The record cache (R89): records by 65,536 × context slot + tensor id. -/
  recs : AL (BitVec 512)
  /-- The completion table and its round-robin pointer (R138). -/
  ctab : AL CSlot
  rr : Nat
  deriving DecidableEq, Repr

/-- What is chosen to happen next (the model's own; log 9): an event, or the issue of one group. -/
inductive Move
  | event (i : Instr)
  | issue (g : Nat)
  deriving DecidableEq, Repr

/-- The issuing sub-group: its group and its lanes, rising (R21). -/
structure Issue where
  g : Nat
  lanes : List Nat
  deriving DecidableEq, Repr

/-- The Narut. -/
structure State where
  /-- The model's own fields (logs 2 and 9): what is chosen to happen next, the issuing sub-group, the count of cycles,
  the next number of an access, command, group or team, and the counter of free values. -/
  agenda : List Move
  cur : Option Issue
  cycle : Nat
  nextId : Nat
  freeTick : Nat
  /-- The device nanosecond clock, and the cycles counted since its last step at the ACLK of R453. -/
  ns : Nat
  /-- The cycle whose ready threads have been found; the model's own (log 9). -/
  surveyed : Option Nat
  groups : AL Group
  teams : AL Team
  cores : AL Core
  dies : AL Die
  ctxs : AL Ctx
  launches : AL Launch
  queues : AL LQueue
  /-- The next launch number (R370) and the rotation of the queues, by priority. -/
  nextLnum : Word
  lastQueue : AL Nat
  /-- Memory by node address (R104); an unlisted byte reads 0 (log 3). -/
  mem : List Host.Cell
  acc : AL Acc
  sb : AL SbEntry
  /-- Poisoned sectors, by node address / 64, with the next number of an access as each was poisoned: an access that was issued before
  has read what was there (R128, R416). -/
  poison : AL Nat
  /-- The directory (R120): sharers of a line, by node address / 128. -/
  sharers : AL (BitVec 8)
  /-- The command that owns a line comes first, those that wait to claim it after it in order of arrival (R124). -/
  owners : AL (List Nat)
  walkCache : List WalkLine
  /-- HIRQ, HIMASK and the interrupt vectors sent (R331). -/
  hirq : BitVec 7
  himask : BitVec 7
  vectors : List Nat
  psel : AL Dword
  cmds : AL Cmd
  /-- Collective messages held and sent, ordinals and miss counts (R343 to R346). -/
  collIn : List CollIn
  collOut : List Contribution
  collSent : List ChunkResult
  collOrd : List CollCount
  collHist : List CollHist
  collMiss : List CollCount
  /-- Kill records that wait for a command to release a line that they need, by context slot and address (R126, R424). -/
  homeQ : List (Nat × Dword × List Byte)
  /-- What the host's reads returned, in order (R327, R8); the accesses and doorbells of the host that wait for a line, in order, with
  those behind them (R328, R330), and whether the first of them is taken now. -/
  hostOut : List (List Byte)
  hostHeld : List Instr
  hostTurn : Bool
  /-- The answers given to peers, by the tag of their requests (R334); those still parked. -/
  peerOut : List (Nat × RemoteAns)
  peerParked : List (PeerRequest × Park)
  /-- LTMO in nanoseconds (R335), flits retried (R333), the Span peer table and sessions (R337 to R339). -/
  ltmo : Nat
  flitRetries : Nat
  span : AL (BitVec 256)
  sessions : AL Session
  /-- The Span packets that have been sent, in order; the messages delivered to the collective engine, by entry (R336). -/
  spanOut : List SpanPacket
  spanIn : List (Nat × List Byte)
  sec : Sec
  boot : Boot
  /-- THREV and THCFG (Tables 19-4, 19-5). -/
  threv : Dword
  thcfg : BitVec 16
  deriving DecidableEq, Repr

/-! ## Reset -/

/-- A clear meeting register (Table 15-1). -/
def Meet.zero : Meet := ⟨0, 0, false⟩

/-- A trap bank at group start (R417). -/
def Bank.zero : Bank := ⟨0, 0, 0, 0⟩

/-- A thread at its start (R389, R434): zero registers, full, level 0. -/
def Thread.start (pc : Dword) : Thread :=
  { pc := pc, depth := 0, rs := [], mr := .zero, wait := .none, exited := false, level := 0, bank1 := .zero,
    bank2 := .zero, above := 0, h := [], v := [], vEmpty := [], c := [], cEmpty := [], cc := 0, region := none, rgnAcc := 0,
    rgnPc := pc, rgnDepth := 0, rgnMr := .zero, noRegion := false, deferral := false, late := [], spawn := none,
    notBefore := 0, issues := 0, passed := 0, yieldTo := 0, lastAcq := 0, futures := [] }

/-- An empty reservation: every byte 0, every granule full (R159). -/
def Spad.zero : Spad := ⟨[], [], [], []⟩

/-- A kernel with nothing declared. -/
def Kernel.zero : Kernel :=
  { kdesc := 0, code := 0, clen := 0, width := 0, team := 0, pair := false, regs := 8, acc := 0, ply := 0, extB := 0,
    extF := 0, scrB := 0, scrF := 0, param := 0, nent := 0, entt := 0, nhdl := 0, hdlt := 0, nrgn := 0, rgnt := 0,
    csize := 0 }

/-- A core with nothing in it. -/
def Core.zero : Core := ⟨[], [], [], [], [], [], [], [], none, []⟩

/-- A die with nothing in it and no bank mapped out (R452). -/
def Die.zero : Die := ⟨[], [], [], none, [], 0, 0, [], 3072, [], [], 0⟩

/-- A free context slot, with every CSR at its reset value (R437; Tables 4-6, 16-6, 18-5). -/
def Ctx.free : Ctx :=
  { state := 7, kcause := 0, id := 0, tbase := 0, tcount := 0, ptbase := 0, fqbase := 0, fqmask := 0x3F, fqprod := 0,
    fqcons := 0, heapbase := 0, rstkbase := 0, dombase := 0, rsbase := 0, skcfg := 2000, srbase := 0, srlog2 := 20,
    tvbase := 0, tcfg := 1, kslot := 0, savebase := 0, pimbase := 0, pimmax := 0, rsvbase := 0, rsvcnt := 0,
    wdog := 50000, pginvBusy := false, pginvWait := [], pginvNext := [], faults := [], rings := [], ringInfo := [], ringPark := none, formPark := [], images := [],
    moved := [] }

/-- A launch queue at reset (Table 16-1). -/
def LQueue.zero : LQueue := ⟨0, 4, 0, false, false, false, 0, 0, 0, none, none, []⟩

/-- The security blocks at reset (Tables 19-2, 19-5). -/
def Sec.zero : Sec :=
  { done := false, err := false, busy := false, nonce := 0, taken := 0, boot := 0, report := [], mpol := 0x0106040505,
    fired := 0, alarms := 0, locked := false, session := none, seedErased := false, erase := none, linksDown := false, codes := [] }

/-- The start of boot with a clear record: step 1 has been started (R450). -/
def Boot.zero : Boot :=
  { step := 1, start := [], cleared := [], stat := 0, svnup := false, svn := 0, fused := 0, digest := [], rate := 10667,
    record := [(1, ⟨0, false, 1, []⟩)] }

/-- The machine right after device reset: every register at the value the manual gives, the others at 0 (log 4), no work,
no byte of memory written (log 3), the first launch number 1 (log 5). -/
def State.reset : State :=
  { agenda := [], cur := none, cycle := 0, nextId := 0, freeTick := 0, ns := 0, surveyed := none, groups := [], teams := [],
    cores := [], dies := [], ctxs := [], launches := [], queues := [], nextLnum := 1, lastQueue := [], mem := [],
    acc := [], sb := [], poison := [], sharers := [], owners := [], walkCache := [], hirq := 0, himask := 0x7F, vectors := [], psel := [],
    cmds := [], collIn := [], collOut := [], collSent := [], collOrd := [], collHist := [], homeQ := [], hostOut := [], hostHeld := [], hostTurn := false, collMiss := [], peerOut := [],
    peerParked := [], ltmo := 2000000, flitRetries := 0, span := [], sessions := [], spanOut := [], spanIn := [], sec := .zero, boot := .zero,
    threv := BitVec.ofNat 64 (1900 * 2 ^ 48), thcfg := BitVec.ofNat 16 (95 + 110 * 256) }

/-! ## Why a step stops -/

/-- The reasons a step of the model faults. Instructions never fault: they trap, which is a next state (R418). -/
inductive Fault
  /-- Raised by `step` where the agenda, which is the model's own field, holds an event whose data is outside the
  ranges the manual gives (`Instr.wf`). Safe: no run from reset and no hardware event has one. -/
  | illFormedEvent
  deriving DecidableEq, Repr

/-- The reasons the model has no meaning for an instruction. -/
inductive Refusal
  /-- Raised by `exec` for a row that has no meaning yet. Safe. -/
  | notModelled (mnemonic : String)
  deriving DecidableEq, Repr

/-- The outcome of one instruction or step. -/
abbrev Out := Host.Outcome State Fault Refusal

end Sys2Proof.Machine
end

