-- ==== Sys2Proof/Machine/Num.lean ====
section
/-! DEFINITION. The arithmetic of values: exact numbers, the element formats (R62 to R72), rounding (R74 to R77), MODE's
fields, and the ply element (R285 to R290). -/

namespace Sys2Proof.Machine

open Sys2Proof

/-! ## Exact numbers -/

/-- An exact extended real: NaN, an infinity with its sign, or a signed quotient of naturals (a zero keeps its sign). -/
inductive Ex
  | nan
  | inf (neg : Bool)
  | fin (neg : Bool) (num den : Nat)
  deriving DecidableEq, Repr

/-- The number `k × 2^q`. -/
def Ex.dyadic (neg : Bool) (k : Nat) (q : Int) : Ex :=
  if 0 ≤ q then .fin neg (k * 2 ^ q.toNat) 1 else .fin neg k (2 ^ (-q).toNat)

/-- An integer as an exact number; zero is positive. -/
def Ex.ofInt (i : Int) : Ex := .fin (decide (i < 0)) i.natAbs 1

/-- A quotient of an integer and a natural. -/
def Ex.ofRat (i : Int) (den : Nat) : Ex := .fin (decide (i < 0)) i.natAbs den

/-- Whether an exact number is a NaN. -/
def Ex.isNan : Ex → Bool
  | .nan => true
  | _ => false

/-- Whether an exact number is zero. -/
def Ex.isZero : Ex → Bool
  | .fin _ n _ => n == 0
  | _ => false

/-- The sign of an exact number: NaN is positive. -/
def Ex.neg? : Ex → Bool
  | .nan => false
  | .inf s => s
  | .fin s _ _ => s

/-- Negation. -/
def Ex.negate : Ex → Ex
  | .nan => .nan
  | .inf s => .inf !s
  | .fin s n d => .fin (!s) n d

/-- The numerator of a finite number with its sign. -/
def Ex.snum : Ex → Int
  | .fin s n _ => if s then -(n : Int) else n
  | _ => 0

/-- The denominator of a finite number. -/
def Ex.den' : Ex → Nat
  | .fin _ _ d => d
  | _ => 1

/-- The exact product by IEEE 754's rules; the flag says whether it is an invalid `0 × Inf`. -/
def Ex.mul : Ex → Ex → Ex × Bool
  | .nan, _ => (.nan, false)
  | _, .nan => (.nan, false)
  | .inf s, .inf t => (.inf (s != t), false)
  | .inf s, .fin t n _ => if n = 0 then (.nan, true) else (.inf (s != t), false)
  | .fin t n _, .inf s => if n = 0 then (.nan, true) else (.inf (s != t), false)
  | .fin s n d, .fin t m e => (.fin (s != t) (n * m) (d * e), false)

/-- The exact sum by IEEE 754's rules; the flag says whether it is an invalid `Inf − Inf`. A zero sum of operands of
different signs is negative only where `rdown` (rounding toward −∞). -/
def Ex.add (rdown : Bool) : Ex → Ex → Ex × Bool
  | .nan, _ => (.nan, false)
  | _, .nan => (.nan, false)
  | .inf s, .inf t => if s = t then (.inf s, false) else (.nan, true)
  | .inf s, .fin _ _ _ => (.inf s, false)
  | .fin _ _ _, .inf s => (.inf s, false)
  | .fin s n d, .fin t m e =>
    if n = 0 ∧ m = 0 then (.fin (if s = t then s else rdown) 0 1, false)
    else
      let i := (Ex.fin s n d).snum * (e : Int) + (Ex.fin t m e).snum * (d : Int)
      if i = 0 then (.fin rdown 0 1, false) else (.ofRat i (d * e), false)

/-- The order of two numbers that are not NaN: less, equal or greater; the zeros are equal. -/
def Ex.cmp : Ex → Ex → Ordering
  | .inf s, .inf t => if s = t then .eq else if s then .lt else .gt
  | .inf s, _ => if s then .lt else .gt
  | _, .inf t => if t then .gt else .lt
  | x, y => compare (x.snum * (y.den' : Int)) (y.snum * (x.den' : Int))

/-- The floor of log2 of a positive quotient. -/
def floorLog2 (num den : Nat) : Int :=
  let e : Int := (Nat.log2 num : Int) - (Nat.log2 den : Int)
  if 0 ≤ e then (if num < den * 2 ^ e.toNat then e - 1 else e)
  else (if num * 2 ^ (-e).toNat < den then e - 1 else e)

/-! ## Formats (Tables 3-1 to 3-3) -/

/-- The layout of a floating-point format: widths of the whole and of the mantissa, bias, least normal exponent, largest
finite code, infinity code (of positive sign, the code that an infinite result takes) and canonical NaN. -/
structure FFmt where
  width : Nat
  mant : Nat
  bias : Nat
  emin : Int
  maxCode : Nat
  infCode : Nat
  nanCode : Nat
  deriving DecidableEq, Repr

/-- The floating-point format of a type (Tables 3-1, 3-2). -/
def fmtOf : Ty → Option FFmt
  | .f32 => some ⟨32, 23, 127, -126, 0x7F7FFFFF, 0x7F800000, 0x7FC00000⟩
  | .f16 => some ⟨16, 10, 15, -14, 0x7BFF, 0x7C00, 0x7E00⟩
  | .bf16 => some ⟨16, 7, 127, -126, 0x7F7F, 0x7F80, 0x7FC0⟩
  | .f8e4 => some ⟨8, 3, 7, -6, 0x7E, 0x7F, 0x7F⟩
  | .f8e5 => some ⟨8, 2, 15, -14, 0x7B, 0x7C, 0x7E⟩
  | .f4 => some ⟨4, 1, 1, 0, 7, 7, 0⟩
  | _ => none

/-- The width of an element of a type in bits. -/
def tyBits : Ty → Nat
  | .s32 | .n32 | .f32 => 32
  | .s16 | .n16 | .f16 | .bf16 => 16
  | .s8 | .n8 | .f8e4 | .f8e5 | .qi8 => 8
  | .s64 | .n64 => 64
  | .f4 | .qi4 => 4

/-- Whether a type is signed (an s-type). -/
def tySigned : Ty → Bool
  | .s32 | .s16 | .s8 | .s64 => true
  | _ => false

/-- Whether a type is a floating-point type. -/
def tyFloat (t : Ty) : Bool := (fmtOf t).isSome

/-- How many elements of a type one operand of the float and ply families holds (R294). -/
def tyElems (t : Ty) : Nat := if (tyBits t) ≥ 32 then 1 else 32 / (tyBits t)

/-- `decode_elem(F, bits, x4)` of R63 for a format of more than four bits. -/
def decodeF (f : FFmt) (ty : Ty) (x : Nat) : Ex :=
  let s := fldN x (f.width - 1) 1 == 1
  let e := fldN x f.mant (f.width - 1 - f.mant)
  let m := fldN x 0 f.mant
  let ones := 2 ^ (f.width - 1 - f.mant) - 1
  if e = 0 then .dyadic s m (1 - (f.bias : Int) - f.mant)
  else if e = ones ∧ ty ≠ .f8e4 then (if m = 0 then .inf s else .nan)
  else if ty = .f8e4 ∧ e = 15 ∧ m = 7 then .nan
  else .dyadic s (2 ^ f.mant + m) ((e : Int) - f.bias - f.mant)

/-- Whether a code of a format is a subnormal. -/
def subnormal (f : FFmt) (x : Nat) : Bool :=
  fldN x f.mant (f.width - 1 - f.mant) == 0 && fldN x 0 f.mant != 0

/-- `decode_elem` of R63 for every type: floats with `x4` for f4's code 8 and with subnormal sources flushed under `ftzi`
(R66, R79), and integers. -/
def decodeElem (ty : Ty) (x4 : Nat) (ftzi : Bool) (x : Nat) : Ex :=
  match ty with
  | .f4 =>
    let c := x % 16
    if c = 8 then decodeF ⟨16, 10, 15, -14, 0x7BFF, 0x7C00, 0x7E00⟩ .f16 x4
    else
      let s := decide (8 ≤ c)
      let e := fldN c 1 2
      let m := c % 2
      if e = 0 then .dyadic s m (-1) else .dyadic s (2 + m) ((e : Int) - 2)
  | t => match fmtOf t with
    | some f =>
      let y := x % 2 ^ f.width
      if ftzi && subnormal f y then .fin (fldN y (f.width - 1) 1 == 1) 0 1 else decodeF f t y
    | none => if (tySigned t) then .ofInt (toSigned (tyBits t) (x % 2 ^ (tyBits t))) else .ofInt (x % 2 ^ (tyBits t) : Nat)

/-- Element `i` of a packed operand (R67). -/
def packedElem (ty : Ty) (x i : Nat) : Nat := fldN x ((tyBits ty) * i) (tyBits ty)

/-! ## Rounding (R74 to R77) -/

/-- Rounding modes (Table 3-4). -/
inductive Rm
  | rn | rz | rd | ru | ra | ro
  deriving DecidableEq, Repr

/-- The mode of a code; 6 and 7 are never stored. -/
def rmOf (n : Nat) : Rm := [Rm.rn, .rz, .rd, .ru, .ra, .ro].getD n .rn

/-- Flags in the order of FEN: bit 0 NV, 1 DZ, 2 OF, 3 UF, 4 NX (R80). -/
abbrev Flg := BitVec 5

/-- The invalid flag. -/
def flNV : Flg := 1
/-- The divide-by-zero flag. -/
def flDZ : Flg := 2
/-- The overflow flag. -/
def flOF : Flg := 4
/-- The underflow flag. -/
def flUF : Flg := 8
/-- The inexact flag. -/
def flNX : Flg := 16

/-- `round_int` of R75 of the quotient `num / den`. -/
def roundInt (num den : Nat) (rm : Rm) (neg : Bool) : Nat :=
  let f := num / den
  let r := num % den
  if r = 0 then f
  else match rm with
    | .rn => if den < 2 * r ∨ (2 * r = den ∧ f % 2 = 1) then f + 1 else f
    | .rz => f
    | .ra => f + 1
    | .ru => if neg then f else f + 1
    | .rd => if neg then f + 1 else f
    | .ro => if f % 2 = 1 then f else f + 1

/-- The quotient `num / den` divided by `2^q`, as numerator and denominator. -/
def scaleDown (num den : Nat) (q : Int) : Nat × Nat :=
  if 0 ≤ q then (num, den * 2 ^ q.toNat) else (num * 2 ^ (-q).toNat, den)

/-- A code with its sign; an f4 zero has none (R66). -/
def withSign (f : FFmt) (neg : Bool) (code : Nat) : Nat :=
  if neg ∧ ¬(f.width = 4 ∧ code = 0) then 2 ^ (f.width - 1) + code else code

/-- `overflow_value` of R76. -/
def overflowCode (f : FFmt) (rm : Rm) (neg sat : Bool) : Nat :=
  let toMax := sat || (match rm with
    | .rn | .ra => false
    | .rz | .ro => true
    | .ru => neg
    | .rd => !neg)
  if toMax then withSign f neg f.maxCode
  else if f.width = 8 ∧ f.mant = 3 then f.nanCode
  else withSign f neg f.infCode

/-- `round_to` of R75 for a floating-point format: the code and the flags. -/
def roundFloat (x : Ex) (f : FFmt) (rm : Rm) (sat ftzo : Bool) : Nat × Flg :=
  match x with
  | .nan => if f.width = 4 then (0, flNV) else (f.nanCode, 0)
  | .inf s => (overflowCode f rm s sat, 0)
  | .fin s num den =>
    if num = 0 then (withSign f s 0, 0)
    else
      let e := max (floorLog2 num den) f.emin
      let q := e - f.mant
      let (a, b) := scaleDown num den q
      let k := roundInt a b rm s
      let inexact := decide (k * b ≠ a)
      let tiny := decide (floorLog2 num den < f.emin)
      let fl : Flg := (if inexact then flNX else 0) ||| (if inexact && tiny then flUF else 0)
      let code := (e - f.emin).toNat * 2 ^ f.mant + k
      if f.maxCode < code then (overflowCode f rm s sat, fl ||| flOF ||| flNX)
      else if ftzo ∧ f.width ≠ 4 ∧ 0 < code ∧ code < 2 ^ f.mant then (withSign f s 0, fl ||| flUF ||| flNX)
      else (withSign f s code, fl)

/-- `round_to` of R77 for an integer type: the value mod 2^width and the flags. -/
def roundIntTo (x : Ex) (ty : Ty) (rm : Rm) : Nat × Flg :=
  let w := (tyBits ty)
  let lo : Int := if (tySigned ty) then -(2 ^ (w - 1) : Nat) else 0
  let hi : Int := if (tySigned ty) then (2 ^ (w - 1) : Nat) - 1 else (2 ^ w : Nat) - 1
  match x with
  | .nan => (0, flNV)
  | .inf s => (wrapN w (if s then lo else hi), flNV)
  | .fin s num den =>
    let k : Int := if s then -(roundInt num den rm s : Int) else roundInt num den rm s
    if k < lo then (wrapN w lo, flNV)
    else if hi < k then (wrapN w hi, flNV)
    else (wrapN w k, if num % den = 0 then 0 else flNX)

/-- `round_to` for every type (R75, R77). -/
def roundTo (x : Ex) (ty : Ty) (rm : Rm) (sat ftzo : Bool) : Nat × Flg :=
  match fmtOf ty with
  | some f => roundFloat x f rm sat ftzo
  | none => roundIntTo x ty rm

/-- `quantise_code(x, s, z, rm, qmax)` of R71: the code, whether it saturated, and the flags. The quotient takes the sign
of x, as R71 says, whatever the sign of s. -/
def quantiseCode (x s : Ex) (z : Nat) (rm : Rm) (qmax : Nat) : Nat × Bool × Flg :=
  match x, s with
  | .fin xs xn xd, .fin _ sn sd =>
    if sn = 0 then (min z qmax, false, flNV)
    else
      let r := roundInt (xn * sd) (xd * sn) rm xs
      let t : Int := (if xs then -(r : Int) else r) + z
      if t < 0 then (0, true, 0) else if (qmax : Int) < t then (qmax, true, 0) else (t.toNat, false, 0)
  | .inf xs, .fin _ sn _ =>
    if sn = 0 then (min z qmax, false, flNV) else (if xs then 0 else qmax, true, 0)
  | _, _ => (min z qmax, false, flNV)

/-- `qi_value(q, s, z)` of R69. -/
def qiValue (q s z : Nat) : Ex :=
  (Ex.mul (decodeElem .f16 0 false s) (Ex.ofInt ((q : Int) - z))).1

/-! ## MODE (R80) -/

/-- The rounding mode of MODE. -/
def modeRm (m : Dword) : Rm := rmOf (fld m 0 3)
/-- MODE.FTZI. -/
def modeFtzi (m : Dword) : Bool := bit m 4
/-- MODE.FTZO. -/
def modeFtzo (m : Dword) : Bool := bit m 5
/-- MODE.SAT8. -/
def modeSat8 (m : Dword) : Bool := bit m 6
/-- MODE.X4. -/
def modeX4 (m : Dword) : Nat := fld m 32 16
/-- MODE at group start: X4 = 0x8000. -/
def modeReset : Dword := 0x0000800000000000

/-- The cause of the lowest flag whose trap is enabled, where there is one (R82). -/
def flagCause (m : Dword) (fl : Flg) : Option Nat :=
  ((List.range 5).find? fun i => bit fl i && bit m (8 + i)).map fun i => 0x041 + i

/-! ## Ply elements (R285 to R290) -/

/-- A ply element with zero planes and clear flags. -/
def PElem.zero : PElem := ⟨0, 0, 0⟩

/-- The sum of an element (R285). -/
def PElem.sum (e : PElem) : BitVec 128 := e.s + e.k

/-- An element with a new sum: the split between its planes is the part's own (log 8). -/
def PElem.withSum (e : PElem) (x : BitVec 128) : PElem := { e with s := x - Config.plyK x, k := Config.plyK x }

/-- An element with flags set: bit 0 NAN, 1 PINF, 2 NINF, 3 OVF (Table 12-2). -/
def PElem.flag (e : PElem) (f : BitVec 4) : PElem := { e with fl := e.fl ||| f }

/-- An anchor as a signed number (R285). -/
def ancInt (a : BitVec 10) : Int := a.toInt

/-- The floor of a finite number divided by `2^q`. -/
def Ex.floorShift (x : Ex) (q : Int) : Int :=
  match x with
  | .fin s n d =>
    let (a, b) := scaleDown n d q
    if s then -(((a + b - 1) / b : Nat) : Int) else (a / b : Nat)
  | _ => 0

/-- Whether a finite number is at least `2^q` in magnitude. -/
def Ex.atLeastPow (x : Ex) (q : Int) : Bool :=
  match x with
  | .fin _ n d => let (a, b) := scaleDown n d q; decide (b ≤ a)
  | _ => true

/-- `ply_add(e, x, anc)` of R287. -/
def plyAdd (e : PElem) (x : Ex) (anc : Int) : PElem :=
  match x with
  | .nan => e.flag 1
  | .inf false => e.flag 2
  | .inf true => e.flag 4
  | .fin s n d =>
    if (Ex.fin s n d).atLeastPow (anc + 31) then e.flag 8
    else e.withSum (e.sum + BitVec.ofInt 128 ((Ex.fin s n d).floorShift (anc - 64)))

/-- `ply_shift(e, from, to)` of R289. -/
def plyShift (e : PElem) (from' to' : Int) : PElem :=
  let v := e.sum.toInt
  if from' ≤ to' then e.withSum (BitVec.ofInt 128 (v / 2 ^ (to' - from').toNat))
  else
    let w := v * 2 ^ (from' - to').toNat
    let e1 := if w < -(2 ^ 127 : Nat) ∨ (2 ^ 127 : Nat) ≤ w then e.flag 8 else e
    e1.withSum (BitVec.ofInt 128 w)

/-- `ply_value(e, anc)` of R289. -/
def plyValue (e : PElem) (anc : Int) : Ex :=
  let q := anc - 64
  if 0 ≤ q then Ex.ofInt (e.sum.toInt * 2 ^ q.toNat) else Ex.ofRat e.sum.toInt (2 ^ (-q).toNat)

/-- Whether the flags of a ply element make it a NaN (R290). -/
def PElem.isNan (e : PElem) : Bool := bit e.fl 0 || (bit e.fl 1 && bit e.fl 2)

/-- The exact value that `ply_resolve` rounds (R290). -/
def plyEx (e : PElem) (anc : Int) : Ex :=
  if e.isNan then .nan
  else if bit e.fl 1 then .inf false
  else if bit e.fl 2 then .inf true
  else if bit e.fl 3 then .nan
  else plyValue e anc

/-- `ply_resolve(e, anc, T, rm, sat)` of R290: the value and the flags. -/
def plyResolve (e : PElem) (anc : Int) (ty : Ty) (rm : Rm) (sat ftzo : Bool) : Nat × Flg :=
  let extra : Flg := if e.isNan || (!bit e.fl 1 && !bit e.fl 2 && bit e.fl 3) then flNV else 0
  let (r, f) := roundTo (plyEx e anc) ty rm sat ftzo
  (r, f ||| extra)

/-- A ply register or tile with zero planes, clear flags and anchor 0 (R286). -/
def PReg.zero : PReg := ⟨0, []⟩

/-- A tile with zero planes, clear flags and anchor 0 (R286). -/
def Tile.zero : Tile := ⟨0, [], none⟩

/-- An element of a ply register; one never written is zero. -/
def PReg.get (p : PReg) (l : Nat) : PElem := alGet p.el PElem.zero l

/-- An element of a tile; one never written is zero. -/
def Tile.get (p : Tile) (l : Nat) : PElem := alGet p.el PElem.zero l

end Sys2Proof.Machine
end

