-- ==== Sys2Proof/Decode.lean ====
section
/-! DEFINITION. The decoder, total on any 16 bytes, and after it the encoder, from Tables 2-1 to 2-9. The decoder
keeps every bit: the fallbacks of Table 2-11 are applied where an instruction executes (Machine/Operands.lean). -/

namespace Sys2Proof

/-- The type of a code (Table 2-5). -/
def tyOf (n : Nat) : Ty :=
  [Ty.s32, .n32, .s16, .n16, .s8, .n8, .s64, .n64, .f32, .f16, .bf16, .f8e4, .f8e5, .f4, .qi8, .qi4].getD n .s32

/-- The code of a type (Table 2-5). -/
def tyCode : Ty → Nat
  | .s32 => 0 | .n32 => 1 | .s16 => 2 | .n16 => 3 | .s8 => 4 | .n8 => 5 | .s64 => 6 | .n64 => 7
  | .f32 => 8 | .f16 => 9 | .bf16 => 10 | .f8e4 => 11 | .f8e5 => 12 | .f4 => 13 | .qi8 => 14 | .qi4 => 15

/-- The guard condition of a code (Table 2-6). -/
def condOf (n : Nat) : Cond :=
  [Cond.al, .eq, .ne, .lt, .ge, .le, .gt, .lo, .hs, .ls, .hi, .mi, .pl, .vs, .vc, .nv].getD n .al

/-- The code of a guard condition (Table 2-6). -/
def condCode : Cond → Nat
  | .al => 0 | .eq => 1 | .ne => 2 | .lt => 3 | .ge => 4 | .le => 5 | .gt => 6 | .lo => 7
  | .hs => 8 | .ls => 9 | .hi => 10 | .mi => 11 | .pl => 12 | .vs => 13 | .vc => 14 | .nv => 15

/-- The guard combination of a code (Table 2-7). -/
def combOf (n : Nat) : GComb := [GComb.first, .both, .either, .andNot].getD n .first

/-- The code of a guard combination (Table 2-7). -/
def combCode : GComb → Nat
  | .first => 0 | .both => 1 | .either => 2 | .andNot => 3

/-- The scope of a code (R47). -/
def scopeOf (n : Nat) : Scope := [Scope.thr, .grp, .team, .core, .die, .dev, .dom, .sys].getD n .thr

/-- The code of a scope (R47); a wider scope has a greater code. -/
def scopeCode : Scope → Nat
  | .thr => 0 | .grp => 1 | .team => 2 | .core => 3 | .die => 4 | .dev => 5 | .dom => 6 | .sys => 7

/-- The special of an index of class 10, where it names one (Table 2-3). -/
def specialOf (i : Nat) : Option Special :=
  match i with
  | 0 => some .lane | 1 => some .grp | 2 => some .team | 3 => some .launch | 4 => some .width | 5 => some .core
  | 6 => some .die | 7 => some .clk | 8 => some .spawned | 16 => some .zero | 17 => some .ones
  | _ => none

/-- The index of a special (Table 2-3). -/
def specialCode : Special → Nat
  | .lane => 0 | .grp => 1 | .team => 2 | .launch => 3 | .width => 4 | .core => 5 | .die => 6 | .clk => 7
  | .spawned => 8 | .zero => 16 | .ones => 17

/-- The float constant of an index from 0x80, where it names one (Table 2-3). -/
def fconstOf (i : Nat) : Option FConst :=
  match i with
  | 0 => some .f1 | 1 => some .fm1 | 2 => some .fhalf | 3 => some .f2 | 4 => some .finf | 5 => some .fminf
  | 6 => some .fnan | 7 => some .flog2e
  | _ => none

/-- The index of a float constant, from 0x80 (Table 2-3). -/
def fconstCode : FConst → Nat
  | .f1 => 0 | .fm1 => 1 | .fhalf => 2 | .f2 => 3 | .finf => 4 | .fminf => 5 | .fnan => 6 | .flog2e => 7

/-- An operand of class 01 by its index (Table 2-2). -/
def fileOpnd (i : Nat) : Opnd :=
  if i < 0x20 then .c (BitVec.ofNat 5 i)
  else if i < 0x30 then .s (BitVec.ofNat 4 i)
  else if i < 0x40 then .a (BitVec.ofNat 4 i)
  else if i < 0x50 then .p (BitVec.ofNat 4 i)
  else if i < 0x54 then .cc (BitVec.ofNat 2 i)
  else if 0x60 ≤ i ∧ i < 0x80 then .h (BitVec.ofNat 5 i)
  else .rsvFile (BitVec.ofNat 8 i)

/-- An operand of class 10 by its index (Table 2-3). -/
def constOpnd (i : Nat) : Opnd :=
  if 0x40 ≤ i ∧ i < 0x80 then .int (BitVec.ofNat 6 i)
  else match specialOf i with
    | some x => .spec x
    | none => match (if 0x80 ≤ i then fconstOf (i - 0x80) else none) with
      | some x => .fconst x
      | none => .rsvConst (BitVec.ofNat 8 i)

/-- The operand of a 10-bit field (R34). -/
def opndOf (x : Nat) : Opnd :=
  match x / 256 with
  | 0 => .v (BitVec.ofNat 8 x)
  | 1 => fileOpnd (x % 256)
  | 2 => constOpnd (x % 256)
  | _ => .view (BitVec.ofNat 8 x)

/-- The 10-bit field of an operand (R34). -/
def opndCode : Opnd → Nat
  | .v n => n.toNat
  | .c n => 0x100 + n.toNat
  | .s n => 0x120 + n.toNat
  | .a n => 0x130 + n.toNat
  | .p n => 0x140 + n.toNat
  | .cc n => 0x150 + n.toNat
  | .h n => 0x160 + n.toNat
  | .rsvFile i => 0x100 + i.toNat
  | .spec x => 0x200 + specialCode x
  | .int n => 0x240 + n.toNat
  | .fconst x => 0x280 + fconstCode x
  | .rsvConst i => 0x200 + i.toNat
  | .view i => 0x300 + i.toNat

/-- The widths of the fields of an instruction word, from bit 0 up (Table 2-1): OPC, VAR, TYP, G0.cc, G0.cond, G1.cc,
G1.cond, GC, D, A, B, C, E, FE, L1H, L2H, STALL, YLD, SCOPE, IMM. -/
def wordWidths : List Nat := [8, 4, 4, 2, 4, 2, 4, 2, 10, 10, 10, 10, 10, 4, 2, 2, 4, 1, 3, 32]

/-- A number cut into fields of the given widths, from bit 0 up. -/
def unpackBits : List Nat → Nat → List Nat
  | [], _ => []
  | w :: ws, x => x % 2 ^ w :: unpackBits ws (x / 2 ^ w)

/-- The number whose fields of the given widths, from bit 0 up, are given. -/
def packBits : List Nat → List Nat → Nat
  | w :: ws, v :: vs => v % 2 ^ w + 2 ^ w * packBits ws vs
  | _, _ => 0

/-- The opcode and the typed fields of a word (Table 2-1). -/
def fieldsOf (x : Nat) : Nat × Fields :=
  match unpackBits wordWidths x with
  | [opc, var, typ, g0c, g0, g1c, g1, gc, d, a, b, c, e, fe, l1, l2, st, y, sc, imm] =>
    (opc, ⟨BitVec.ofNat 4 var, tyOf typ, ⟨BitVec.ofNat 2 g0c, condOf g0, BitVec.ofNat 2 g1c, condOf g1, combOf gc⟩,
      opndOf d, opndOf a, opndOf b, opndOf c, opndOf e, BitVec.ofNat 4 fe, BitVec.ofNat 2 l1, BitVec.ofNat 2 l2,
      BitVec.ofNat 4 st, y == 1, scopeOf sc, BitVec.ofNat 32 imm⟩)
  | _ => (0xFF, ⟨0, .s32, ⟨0, .al, 0, .al, .first⟩, .v 0, .v 0, .v 0, .v 0, .v 0, 0, 0, 0, 0, false, .thr, 0⟩)

/-- The word with an opcode and typed fields (Table 2-1). -/
def wordOf (opc : Nat) (f : Fields) : Nat :=
  packBits wordWidths
    [opc, f.var.toNat, tyCode f.typ, f.guard.cc0.toNat, condCode f.guard.cond0, f.guard.cc1.toNat,
      condCode f.guard.cond1, combCode f.guard.comb, opndCode f.d, opndCode f.a, opndCode f.b, opndCode f.c,
      opndCode f.e, f.fe.toNat, f.l1h.toNat, f.l2h.toNat, f.stall.toNat, b2n f.yld, scopeCode f.scope, f.imm.toNat]

/-- The row of an assigned opcode (Table 2-9), with the variant that VAR selects where one opcode has several rows: an
undefined VAR executes as 0 (Table 2-11 row 4). None for a reserved code. -/
def rowOf (opc : Nat) (f : Fields) : Option Instr :=
  match opc with
  | 0x0 => some (.nop f)
  | 0x1 => some (.mov f)
  | 0x2 => some (.ldi f)
  | 0x3 => some (.iadd f)
  | 0x4 => some (.isub f)
  | 0x5 => some (.imul f)
  | 0x6 => some (.imulh f)
  | 0x7 => some (.imad f)
  | 0x8 => some (.idiv f)
  | 0x9 => some (.irem f)
  | 0xa => some (.imin f)
  | 0xb => some (.imax f)
  | 0xc => some (.iabs f)
  | 0xd => some (.ineg f)
  | 0xe => some (.isat f)
  | 0xf => some (.and f)
  | 0x10 => some (.or f)
  | 0x11 => some (.xor f)
  | 0x12 => some (.not f)
  | 0x13 => some (.shl f)
  | 0x14 => some (.shr f)
  | 0x15 => some (.sar f)
  | 0x16 => some (.rot f)
  | 0x17 => some (.popc f)
  | 0x18 => some (.clz f)
  | 0x19 => some (.brev f)
  | 0x1a => some (.bfe f)
  | 0x1b => some (.bfi f)
  | 0x1c => some (.prmt f)
  | 0x1d => some (.sel f)
  | 0x1e => some (.icmp f)
  | 0x1f => some (.lea f)
  | 0x20 => some (.addc f)
  | 0x21 => some (.subb f)
  | 0x28 => some (.fadd f)
  | 0x29 => some (.fsub f)
  | 0x2a => some (.fmul f)
  | 0x2b => some (.ffma f)
  | 0x2c => some (.fmin f)
  | 0x2d => some (.fmax f)
  | 0x2e => some (.fcmp f)
  | 0x2f => some (.fclass f)
  | 0x30 => some (.frnd f)
  | 0x31 => some (.fscl f)
  | 0x32 => some (.cvt f)
  | 0x33 => some (.qnt f)
  | 0x34 => some (.dqnt f)
  | 0x35 => some (.fdot2 f)
  | 0x36 => some (.fdot4 f)
  | 0x37 => some (.fdot8 f)
  | 0x40 => some (.rcp f)
  | 0x41 => some (.rsq f)
  | 0x42 => some (.sqrt f)
  | 0x43 => some (.ex2 f)
  | 0x44 => some (.lg2 f)
  | 0x45 => some (.sin f)
  | 0x46 => some (.cos f)
  | 0x47 => some (.tanh f)
  | 0x48 => some (.pzero f)
  | 0x49 => some (.pacc f)
  | 0x4a => some (.padd f)
  | 0x4b => some (.psub f)
  | 0x4c => some (.pmrg f)
  | 0x4d => some (.rslv f)
  | 0x4e => some (.ptest f)
  | 0x4f => some (.panc f)
  | 0x50 => if bit f.var 0 then some (.pstwCell f) else some (.pstw f)
  | 0x51 => if bit f.var 0 then some (.pldwCell f) else some (.pldw f)
  | 0x52 => some (.pmov f)
  | 0x58 => some (.shfl f)
  | 0x59 => some (.vote f)
  | 0x5a => some (.ballot f)
  | 0x5b => some (.bplane f)
  | 0x5c => some (.selk f)
  | 0x5d => some (.gred f)
  | 0x5e => some (.gscan f)
  | 0x5f => some (.matchLanes f)
  | 0x60 => some (.lnmask f)
  | 0x61 => if f.var == 1 then some (.ccmovTocc f) else if f.var == 2 then some (.ccmovCopy f) else some (.ccmovTov f)
  | 0x68 => some (.bra f)
  | 0x69 => some (.brx f)
  | 0x6a => some (.call f)
  | 0x6b => some (.callx f)
  | 0x6c => some (.ret f)
  | 0x6d => if f.var == 1 then some (.meetClr f) else some (.meet f)
  | 0x6e => some (.syncm f)
  | 0x6f => some (.waitm f)
  | 0x70 => some (.exit f)
  | 0x71 => some (.spawn f)
  | 0x72 => some (.jinit f)
  | 0x73 => some (.jwait f)
  | 0x74 => some (.yield f)
  | 0x75 => some (.rgn f)
  | 0x76 => some (.trap f)
  | 0x77 => some (.tret f)
  | 0x80 => some (.ld f)
  | 0x81 => some (.st f)
  | 0x82 => some (.ldfe f)
  | 0x83 => some (.stfe f)
  | 0x84 => some (.feclr f)
  | 0x85 => if f.var == 1 then some (.prefList f) else some (.pref f)
  | 0x86 => some (.atom f)
  | 0x87 => some (.atomc f)
  | 0x88 => some (.red f)
  | 0x89 => some (.fence f)
  | 0x8a => some (.qpush f)
  | 0x8b => some (.qpop f)
  | 0x8c => some (.qsteal f)
  | 0x8d => some (.probe f)
  | 0x90 => some (.croot f)
  | 0x91 => some (.next f)
  | 0x92 => some (.seek f)
  | 0x93 => some (.desc f)
  | 0x94 => some (.coit f)
  | 0x95 => some (.crd f)
  | 0x96 => some (.cldv f)
  | 0x97 => some (.ctest f)
  | 0x98 => if bit f.var 0 then some (.appndOpen f) else some (.appnd f)
  | 0x99 => some (.acommit f)
  | 0x9a => some (.csplit f)
  | 0x9b => some (.halloc f)
  | 0x9c => some (.hfree f)
  | 0x9d => some (.cpref f)
  | 0xa0 => some (.tld f)
  | 0xa1 => some (.tst f)
  | 0xa2 => some (.tsetf f)
  | 0xa3 => some (.tgetf f)
  | 0xa4 => some (.tswap f)
  | 0xa5 => some (.tinv f)
  | 0xb0 => some (.copy f)
  | 0xb1 => some (.xform f)
  | 0xb2 => some (.gathr f)
  | 0xb3 => some (.scatr f)
  | 0xb4 => some (.sortu f)
  | 0xb5 => some (.mma f)
  | 0xb6 => some (.mmab f)
  | 0xb7 => some (.mmat f)
  | 0xb8 => if f.var == 1 then some (.mbatPass f) else if f.var == 2 then some (.mbatRel f) else some (.mbatAcq f)
  | 0xb9 => some (.binit f)
  | 0xba => some (.barv f)
  | 0xbb => some (.bwait f)
  | 0xbc => some (.ftest f)
  | 0xbd => some (.fwait f)
  | 0xbe => some (.fcncl f)
  | 0xbf => some (.coll f)
  | 0xc0 => some (.launch f)
  | 0xc1 => some (.signl f)
  | 0xc2 => some (.sigw f)
  | 0xd0 => if fld f.var 0 2 == 1 then some (.racqTile f) else if fld f.var 0 2 == 2 then some (.racqPreg f) else if fld f.var 0 2 == 3 then some (.racqSpad f) else some (.racqVreg f)
  | 0xd1 => some (.rrel f)
  | 0xd2 => some (.modew f)
  | 0xd3 => some (.moder f)
  | 0xd4 => some (.csrr f)
  | 0xd5 => some (.csrw f)
  | 0xd6 => if f.var == 1 then some (.clockNs f) else some (.clockCyc f)
  | 0xd7 => some (.perf f)
  | 0xe0 => some (.dbrk f)
  | 0xe1 => some (.kill f)
  | _ => none

/-- The instruction of a word. A reserved opcode gives the row that traps (R50). -/
def decode (w : BitVec 128) : Instr :=
  match rowOf (fieldsOf w.toNat).1 (fieldsOf w.toNat).2 with
  | some i => i
  | none => .reservedOpcode w

/-- Why bytes hold no instruction word. -/
inductive DecodeError
  /-- Fewer than 16 bytes (R32). Safe. -/
  | tooShort
  deriving DecidableEq, Repr

/-- The instruction at the head of a list of bytes, little-endian (R32), and the bytes after it. -/
def decodeBytes (bs : List Byte) : Except DecodeError (Instr × List Byte) :=
  if bs.length < 16 then .error .tooShort
  else .ok (decode (BitVec.ofNat 128 (ofBytes (bs.take 16))), bs.drop 16)

/-- The opcode and fields of an instruction row; none for the rows that are events. -/
def rowCode : Instr → Option (Nat × Fields)
  | .nop f => some (0x0, f)
  | .mov f => some (0x1, f)
  | .ldi f => some (0x2, f)
  | .iadd f => some (0x3, f)
  | .isub f => some (0x4, f)
  | .imul f => some (0x5, f)
  | .imulh f => some (0x6, f)
  | .imad f => some (0x7, f)
  | .idiv f => some (0x8, f)
  | .irem f => some (0x9, f)
  | .imin f => some (0xa, f)
  | .imax f => some (0xb, f)
  | .iabs f => some (0xc, f)
  | .ineg f => some (0xd, f)
  | .isat f => some (0xe, f)
  | .and f => some (0xf, f)
  | .or f => some (0x10, f)
  | .xor f => some (0x11, f)
  | .not f => some (0x12, f)
  | .shl f => some (0x13, f)
  | .shr f => some (0x14, f)
  | .sar f => some (0x15, f)
  | .rot f => some (0x16, f)
  | .popc f => some (0x17, f)
  | .clz f => some (0x18, f)
  | .brev f => some (0x19, f)
  | .bfe f => some (0x1a, f)
  | .bfi f => some (0x1b, f)
  | .prmt f => some (0x1c, f)
  | .sel f => some (0x1d, f)
  | .icmp f => some (0x1e, f)
  | .lea f => some (0x1f, f)
  | .addc f => some (0x20, f)
  | .subb f => some (0x21, f)
  | .fadd f => some (0x28, f)
  | .fsub f => some (0x29, f)
  | .fmul f => some (0x2a, f)
  | .ffma f => some (0x2b, f)
  | .fmin f => some (0x2c, f)
  | .fmax f => some (0x2d, f)
  | .fcmp f => some (0x2e, f)
  | .fclass f => some (0x2f, f)
  | .frnd f => some (0x30, f)
  | .fscl f => some (0x31, f)
  | .cvt f => some (0x32, f)
  | .qnt f => some (0x33, f)
  | .dqnt f => some (0x34, f)
  | .fdot2 f => some (0x35, f)
  | .fdot4 f => some (0x36, f)
  | .fdot8 f => some (0x37, f)
  | .rcp f => some (0x40, f)
  | .rsq f => some (0x41, f)
  | .sqrt f => some (0x42, f)
  | .ex2 f => some (0x43, f)
  | .lg2 f => some (0x44, f)
  | .sin f => some (0x45, f)
  | .cos f => some (0x46, f)
  | .tanh f => some (0x47, f)
  | .pzero f => some (0x48, f)
  | .pacc f => some (0x49, f)
  | .padd f => some (0x4a, f)
  | .psub f => some (0x4b, f)
  | .pmrg f => some (0x4c, f)
  | .rslv f => some (0x4d, f)
  | .ptest f => some (0x4e, f)
  | .panc f => some (0x4f, f)
  | .pstwCell f => some (0x50, f)
  | .pstw f => some (0x50, f)
  | .pldwCell f => some (0x51, f)
  | .pldw f => some (0x51, f)
  | .pmov f => some (0x52, f)
  | .shfl f => some (0x58, f)
  | .vote f => some (0x59, f)
  | .ballot f => some (0x5a, f)
  | .bplane f => some (0x5b, f)
  | .selk f => some (0x5c, f)
  | .gred f => some (0x5d, f)
  | .gscan f => some (0x5e, f)
  | .matchLanes f => some (0x5f, f)
  | .lnmask f => some (0x60, f)
  | .ccmovTocc f => some (0x61, f)
  | .ccmovCopy f => some (0x61, f)
  | .ccmovTov f => some (0x61, f)
  | .bra f => some (0x68, f)
  | .brx f => some (0x69, f)
  | .call f => some (0x6a, f)
  | .callx f => some (0x6b, f)
  | .ret f => some (0x6c, f)
  | .meetClr f => some (0x6d, f)
  | .meet f => some (0x6d, f)
  | .syncm f => some (0x6e, f)
  | .waitm f => some (0x6f, f)
  | .exit f => some (0x70, f)
  | .spawn f => some (0x71, f)
  | .jinit f => some (0x72, f)
  | .jwait f => some (0x73, f)
  | .yield f => some (0x74, f)
  | .rgn f => some (0x75, f)
  | .trap f => some (0x76, f)
  | .tret f => some (0x77, f)
  | .ld f => some (0x80, f)
  | .st f => some (0x81, f)
  | .ldfe f => some (0x82, f)
  | .stfe f => some (0x83, f)
  | .feclr f => some (0x84, f)
  | .prefList f => some (0x85, f)
  | .pref f => some (0x85, f)
  | .atom f => some (0x86, f)
  | .atomc f => some (0x87, f)
  | .red f => some (0x88, f)
  | .fence f => some (0x89, f)
  | .qpush f => some (0x8a, f)
  | .qpop f => some (0x8b, f)
  | .qsteal f => some (0x8c, f)
  | .probe f => some (0x8d, f)
  | .croot f => some (0x90, f)
  | .next f => some (0x91, f)
  | .seek f => some (0x92, f)
  | .desc f => some (0x93, f)
  | .coit f => some (0x94, f)
  | .crd f => some (0x95, f)
  | .cldv f => some (0x96, f)
  | .ctest f => some (0x97, f)
  | .appndOpen f => some (0x98, f)
  | .appnd f => some (0x98, f)
  | .acommit f => some (0x99, f)
  | .csplit f => some (0x9a, f)
  | .halloc f => some (0x9b, f)
  | .hfree f => some (0x9c, f)
  | .cpref f => some (0x9d, f)
  | .tld f => some (0xa0, f)
  | .tst f => some (0xa1, f)
  | .tsetf f => some (0xa2, f)
  | .tgetf f => some (0xa3, f)
  | .tswap f => some (0xa4, f)
  | .tinv f => some (0xa5, f)
  | .copy f => some (0xb0, f)
  | .xform f => some (0xb1, f)
  | .gathr f => some (0xb2, f)
  | .scatr f => some (0xb3, f)
  | .sortu f => some (0xb4, f)
  | .mma f => some (0xb5, f)
  | .mmab f => some (0xb6, f)
  | .mmat f => some (0xb7, f)
  | .mbatPass f => some (0xb8, f)
  | .mbatRel f => some (0xb8, f)
  | .mbatAcq f => some (0xb8, f)
  | .binit f => some (0xb9, f)
  | .barv f => some (0xba, f)
  | .bwait f => some (0xbb, f)
  | .ftest f => some (0xbc, f)
  | .fwait f => some (0xbd, f)
  | .fcncl f => some (0xbe, f)
  | .coll f => some (0xbf, f)
  | .launch f => some (0xc0, f)
  | .signl f => some (0xc1, f)
  | .sigw f => some (0xc2, f)
  | .racqTile f => some (0xd0, f)
  | .racqPreg f => some (0xd0, f)
  | .racqSpad f => some (0xd0, f)
  | .racqVreg f => some (0xd0, f)
  | .rrel f => some (0xd1, f)
  | .modew f => some (0xd2, f)
  | .moder f => some (0xd3, f)
  | .csrr f => some (0xd4, f)
  | .csrw f => some (0xd5, f)
  | .clockNs f => some (0xd6, f)
  | .clockCyc f => some (0xd6, f)
  | .perf f => some (0xd7, f)
  | .dbrk f => some (0xe0, f)
  | .kill f => some (0xe1, f)
  | .sfuResult _ => none
  | .waitmTimeout _ _ => none
  | .groupSlotFree _ => none
  | .lateTrap _ _ => none
  | .reservedOpcode _ => none
  | .loadResult _ _ => none
  | .faultRecordDeferred _ => none
  | .lineRecall _ => none
  | .walkerResult _ => none
  | .commandComplete _ => none
  | .scatrRowClaim _ => none
  | .matrixOperationStart _ => none
  | .matrixComplete _ => none
  | .bLockRelease _ _ => none
  | .sigwReread _ _ => none
  | .handlerWatchdog _ _ => none
  | .softErrorCorrected _ _ _ => none
  | .softErrorUncorrected _ _ => none
  | .groupSwap _ _ => none
  | .groupBoost _ => none
  | .keyStarvationPromotion _ => none
  | .groupPark _ => none
  | .parkedGroupReturn _ => none
  | .parkSlotReread _ => none
  | .skeinTimerFlush _ => none
  | .spillRingReturn _ _ => none
  | .ldoorWrite _ => none
  | .launchAccept _ => none
  | .launchDependenceReread _ => none
  | .placementRound => none
  | .launchComplete _ => none
  | .launchQueueCsrWrite _ _ _ => none
  | .hirqClear _ => none
  | .hostMemoryAccess _ => none
  | .fqrespWrite _ _ => none
  | .pginvWrite _ _ => none
  | .pginvComplete _ => none
  | .rdcinvWrite _ _ => none
  | .rdcinvComplete _ => none
  | .pselWrite _ _ => none
  | .threvRead => none
  | .errcRead _ => none
  | .ctxctlPreempt _ => none
  | .ctxctlResume _ => none
  | .ctxctlKill _ => none
  | .ctxctlOpen _ _ => none
  | .ctxctlClose _ => none
  | .preemptionTaken _ => none
  | .peerAccessRequest _ => none
  | .peerAccessTimeout _ => none
  | .latticeFlitRetry _ => none
  | .spanPeerEntryWrite _ _ => none
  | .spanHandshake _ => none
  | .spanPacketReceive _ => none
  | .spanRetransmit _ => none
  | .spanRekey _ => none
  | .spanSessionRetry _ => none
  | .collContributionReceive _ => none
  | .collChunkClose _ _ => none
  | .collDeadline _ _ => none
  | .collResultReceive _ => none
  | .collResultTimeout _ => none
  | .deviceReset => none
  | .bootStepComplete _ => none
  | .bootclrWrite _ => none
  | .attestationGo => none
  | .attestationDone => none
  | .madderAlarm _ => none
  | .mstatClear _ => none
  | .mlockWrite _ => none
  | .debugSessionRequest _ => none
  | .debugResume _ => none
  | .throttleEvent _ => none
  | .registerWrite _ _ => none
  | .storeBufferDrain _ _ => none
  | .engineWrite _ => none
  | .spanOldKeyExpiry _ => none

/-- The word of an instruction; none for the rows that are events, which have no word. -/
def encode : Instr → Option (BitVec 128)
  | .reservedOpcode w => some w
  | i => (rowCode i).map fun p => BitVec.ofNat 128 (wordOf p.1 p.2)

/-- The instruction the decoder reads from a word whose bits are numbered as the opcode table numbers them. Every
instruction is one 128-bit word, stored as 16 bytes, lowest first (R32). -/
def decodeTableWord (nbits w : Nat) : Option Instr :=
  if nbits ≤ 128 then
    match decodeBytes (toBytes 16 (w % 2 ^ nbits)) with
    | .ok (i, _) => some i
    | .error _ => none
  else none

end Sys2Proof
end

