-- ==== Sys2Proof/Machine/Ops.lean ====
section
/-! DEFINITION. The named operations over registers and memory that the meanings share: accessors, node space,
translation, fault records, caches, releases and acquires, kills, taking a trap and returning from one. -/

namespace Sys2Proof.Machine

open Sys2Proof

/-! ## Accessors -/

/-- The group with a number, where it exists. -/
def State.group? (s : State) (g : Nat) : Option Group := alGet? s.groups g

/-- The state with one group changed, where it exists. -/
def State.modGroup (s : State) (g : Nat) (f : Group → Group) : State := { s with groups := alMod s.groups g f }

/-- The thread on a lane of a group, where it exists. -/
def State.thread? (s : State) (g l : Nat) : Option Thread := (s.group? g).bind fun x => x.lanes[l]?

/-- The thread on a lane of a group, or one that has nothing. -/
def State.thread (s : State) (g l : Nat) : Thread := (s.thread? g l).getD (Thread.start 0)

/-- A group with one thread changed. -/
def Group.modLane (x : Group) (l : Nat) (f : Thread → Thread) : Group := { x with lanes := x.lanes.modify l f }

/-- The state with one thread changed, where it exists. -/
def State.modThread (s : State) (g l : Nat) (f : Thread → Thread) : State := s.modGroup g fun x => x.modLane l f

/-- A context slot (R436). -/
def State.ctx (s : State) (slot : Nat) : Ctx := alGet s.ctxs Ctx.free slot

/-- The state with one context slot changed. -/
def State.modCtx (s : State) (slot : Nat) (f : Ctx → Ctx) : State :=
  { s with ctxs := alSet s.ctxs slot (f (s.ctx slot)) }

/-- A core (0 to 1,023). -/
def State.core (s : State) (c : Nat) : Core := alGet s.cores Core.zero c

/-- The state with one core changed. -/
def State.modCore (s : State) (c : Nat) (f : Core → Core) : State :=
  { s with cores := alSet s.cores c (f (s.core c)) }

/-- A compute die (0 to 7). -/
def State.die (s : State) (d : Nat) : Die := alGet s.dies Die.zero d

/-- The state with one die changed. -/
def State.modDie (s : State) (d : Nat) (f : Die → Die) : State := { s with dies := alSet s.dies d (f (s.die d)) }

/-- The die of a core: 128 cores to a die (Table 0-2). -/
def dieOf (core : Nat) : Nat := core / 128

/-- A launch queue (R368). -/
def State.queue (s : State) (q : Nat) : LQueue := alGet s.queues LQueue.zero q

/-- The state with one launch queue changed. -/
def State.modQueue (s : State) (q : Nat) (f : LQueue → LQueue) : State :=
  { s with queues := alSet s.queues q (f (s.queue q)) }

/-- The kernel of a launch; one with nothing declared where the launch is not held. -/
def State.kernelOf (s : State) (launch : Nat) : Kernel := ((alGet? s.launches launch).map (·.kernel)).getD .zero

/-- The kernel a group runs. -/
def State.kernel (s : State) (g : Nat) : Kernel := ((s.group? g).map fun x => s.kernelOf x.launch).getD .zero

/-- The core a group sits on, or last sat on. -/
def State.coreOf (s : State) (g : Nat) : Nat := ((s.group? g).map (·.home.core)).getD 0

/-- The context slot of a group. -/
def State.slotOf (s : State) (g : Nat) : Nat := ((s.group? g).map (·.slot)).getD 0

/-- Which of its team's reservations is on the group's own core (R101). -/
def State.sideOf (s : State) (g : Nat) : Nat :=
  match s.group? g with
  | none => 0
  | some x => match x.team.bind (alGet? s.teams) with
    | none => 0
    | some t => if x.home.core = t.core then 0 else 1

/-- The state with one reservation of a team changed. -/
def State.modSpad (s : State) (team side : Nat) (f : Spad → Spad) : State :=
  { s with teams := alMod s.teams team fun t =>
      if side = 0 then { t with spad0 := f t.spad0 } else { t with spad1 := f t.spad1 } }

/-- One reservation of a team. -/
def State.spad (s : State) (team side : Nat) : Spad :=
  match alGet? s.teams team with
  | none => .zero
  | some t => if side = 0 then t.spad0 else t.spad1

/-- A new number for an access, command, group or team. -/
def State.fresh (s : State) : Nat × State := (s.nextId, { s with nextId := s.nextId + 1 })

/-! ## Performance counters (R430) -/

/-- Some events of a kind counted on a core: by every counter whose PSEL selects the kind and the quarter. An event that
belongs to no quarter counts under any mask but 0. -/
def State.count (s : State) (core : Nat) (quarter : Option Nat) (ev n : Nat) : State :=
  let hit := fun k : Nat =>
    let p := alGet s.psel 0 k
    fld p 0 8 == ev && (match quarter with
      | some q => bit p (8 + q)
      | none => fld p 8 4 != 0)
  if (List.range 16).any hit then
    s.modCore core fun c => { c with perf := ((List.range 16).filter hit).foldl (fun p k =>
      alSet p k ((alGet p 0 k + n) % 2 ^ 48)) c.perf }
  else s

/-- Some events of a kind counted for a group, on its quarter. -/
def State.countFor (s : State) (g ev n : Nat) : State :=
  s.count (s.coreOf g) ((s.group? g).map fun x => x.home.quarter) ev n

/-! ## Interrupts -/

/-- The setting of a bit of HIRQ, which sends its vector the first time while unmasked (R331). -/
def State.irq (s : State) (b : Nat) : State :=
  if bit s.hirq b then s
  else { s with hirq := setFld s.hirq b 1 1,
                vectors := if bit s.himask b then s.vectors else s.vectors ++ [b] }

/-! ## Node space (R104, R327) -/

/-- Where bonded memory starts in node space. -/
def bondedBase : Nat := 0x18000000000

/-- Whether a run of bytes lies in bulk memory or in the bonded memory of one die below its BONDCAP (in MiB). -/
def State.nodeOk (s : State) (a n : Nat) : Bool :=
  a + n ≤ bondedBase ||
    (bondedBase ≤ a && decide ((a - bondedBase) / 2 ^ 32 < 8) &&
      decide ((a - bondedBase) % 2 ^ 32 + n ≤ (s.die ((a - bondedBase) / 2 ^ 32)).bondcap * 2 ^ 20))

/-- The home die of a node address: the interleave of R99, or the die of the bonded memory. -/
def homeDie (a : Nat) : Nat :=
  if a < bondedBase then Nat.xor (fldN a 12 3) (fldN a 15 3) else (a - bondedBase) / 2 ^ 32 % 8

/-- The byte at a node address. -/
def State.byteAt (s : State) (a : Nat) : Byte := alGet s.mem 0 a

/-- Bytes of node space. -/
def State.readNode (s : State) (a n : Nat) : List Byte := (List.range n).map fun i => s.byteAt (a + i)

/-- A little-endian number of node space (R7). -/
def State.readNodeN (s : State) (a n : Nat) : Nat := ofBytes (s.readNode a n)

/-- Memory with one byte written; a byte that reads as an unlisted one is not listed. -/
def memSet (m : List Host.Cell) (a : Nat) (b : Byte) : List Host.Cell := if b = 0 then alDel m a else alSet m a b

/-- Memory with bytes written from an address on. -/
def memSetBytes : List Host.Cell → Nat → List Byte → List Host.Cell
  | m, _, [] => m
  | m, a, b :: bs => memSetBytes (memSet m a b) (a + 1) bs

/-- The canonical form of memory: rising addresses, no zero byte listed. -/
def Memory.wf : List Host.Cell → Bool
  | [] => true
  | [c] => c.2 != 0
  | c :: d :: m => decide (c.1 < d.1) && c.2 != 0 && Memory.wf (d :: m)

/-- The lines of 128 bytes that a run of bytes touches. -/
def linesOf (a n : Nat) : List Nat :=
  if n = 0 then [] else (List.range ((a + n - 1) / 128 + 1 - a / 128)).map fun i => a / 128 + i

/-- The invalidation of a line's copies in the RDCs of dies other than the writer's (R120). -/
def State.invalidateRdc (s : State) (writer : Option Nat) (line : Nat) : State :=
  { s with
    dies := s.dies.map fun p =>
      if some p.1 = writer then p else (p.1, { p.2 with rdc := p.2.rdc.filter fun c => c.loc != .node (128 * line) })
    sharers := match writer with
      | some d => if bit (alGet s.sharers 0 line) d then alSet s.sharers line (BitVec.ofNat 8 (2 ^ d))
                  else alDel s.sharers line
      | none => alDel s.sharers line }

/-- A write performed at its home (R119, R120): the bytes change and every other die's RDC copy is dropped. Bytes
outside node space are dropped. -/
def State.writeHome (s : State) (writer : Option Nat) (a : Nat) (bs : List Byte) : State :=
  if s.nodeOk a bs.length then
    (linesOf a bs.length).foldl (fun t l => t.invalidateRdc writer l) { s with mem := memSetBytes s.mem a bs }
  else s

/-- Whether an engine command other than `me` owns a line of a run of bytes (R126, R127). -/
def State.ownedBy (s : State) (me : Option Nat) (a n : Nat) : Bool :=
  (linesOf a n).any fun l => match alGet? s.owners l with
    | some (c :: _) => some c != me
    | _ => false

/-- Whether a run of bytes has a sector that was poisoned before an access of a number was issued (R128). -/
def State.poisonedFor (s : State) (id a n : Nat) : Bool :=
  s.poison.any fun p => decide (p.2 ≤ id) && decide (64 * p.1 < a + n) && decide (a < 64 * p.1 + 64)

/-- Whether a run of bytes has a poisoned sector (R128). -/
def State.poisoned (s : State) (a n : Nat) : Bool :=
  s.poison.any fun p => decide (64 * p.1 < a + n) && decide (a < 64 * p.1 + 64)

/-! ## Caches -/

/-- How one cache places lines (Tables 5-1, 5-2): ways, sets, and the ways that may hold highest-retention lines. -/
structure Geometry where
  ways : Nat
  sets : Nat
  keep : Nat
  deriving DecidableEq, Repr

/-- L1 (R161). -/
def geoL1 : Geometry := ⟨20, 256, 20⟩
/-- The metadata cache (R196). -/
def geoMeta : Geometry := ⟨8, 64, 8⟩
/-- L2 (Table 5-1). -/
def geoL2 : Geometry := ⟨24, 32768, 12⟩
/-- The RDC (Table 5-1). -/
def geoRdc : Geometry := ⟨16, 16384, 8⟩

/-- A place moved on by some bytes. -/
def Loc.add : Loc → Nat → Loc
  | .node a, n => .node (a + n)
  | .pool c d o, n => .pool c d (o + n)
  | .peer c i v, n => .peer c i (v + n)

/-- The byte number of a place within its space. -/
def Loc.off : Loc → Nat
  | .node a => a
  | .pool _ _ o => o
  | .peer _ _ v => v

/-- The place cut to its 128-byte line. -/
def Loc.line : Loc → Loc
  | .node a => .node (a / 128 * 128)
  | .pool c d o => .pool c d (o / 128 * 128)
  | .peer c i v => .peer c i (v / 128 * 128)

/-- The 64-byte sector of its line that a place lies in. -/
def Loc.sec (l : Loc) : Nat := l.off / 64 % 2

/-- The bytes from a place to the end of its sector. -/
def Loc.room (l : Loc) : Nat := 64 - l.off % 64

/-- Whether a place is on the pool or peer path, whose lines no directory tracks (R121). -/
def Loc.untracked : Loc → Bool
  | .node _ => false
  | _ => true

/-- The set of a line. -/
def setOf (geo : Geometry) (l : Loc) : Nat := l.off / 128 % geo.sets

/-- The retention a hint gives a line (Table 5-2): `none` where it is not allocated. -/
def retOf (hint : Nat) : Option Nat := [some 1, some 0, some 2, none].getD hint (some 1)

/-- The cached bytes of a sector. -/
def cacheSector (c : List CLine) (l : Loc) : Option (List Byte) :=
  (c.find? fun x => x.loc = l.line).bind fun x => alGet? x.secs l.sec

/-- The cache without a line of a set when the set is full: the least retained goes, the least recently used first. -/
def evict (geo : Geometry) (c : List CLine) (l : Loc) : List CLine :=
  if (c.filter fun x => setOf geo x.loc = setOf geo l).length < geo.ways then c
  else match minBy? (fun x : CLine => x.ret) (c.filter fun x => setOf geo x.loc = setOf geo l) with
    | none => c
    | some v => c.filter fun x => x.loc != v.loc

/-- The retention used for a line, under the limit on highest-retention ways (Table 5-2). -/
def limitRet (geo : Geometry) (c : List CLine) (l : Loc) (ret : Nat) : Nat :=
  if ret = 2 ∧ (c.filter fun x => setOf geo x.loc = setOf geo l ∧ x.ret = 2 ∧ x.loc ≠ l.line).length ≥ geo.keep
  then 1 else ret

/-- The cache with a sector filled, its line most recently used (R117, R123). A line that hits keeps the greater
retention, except that `.evict` leaves it. -/
def cacheFill (geo : Geometry) (c : List CLine) (l : Loc) (ret : Nat) (dirty : Bool) (data : List Byte) : List CLine :=
  match c.find? fun x => x.loc = l.line with
  | some x => (c.filter fun y => y.loc != l.line) ++
      [{ x with ret := max x.ret (limitRet geo c l ret), secs := alSet x.secs l.sec data
                dirty := if dirty ∧ ¬ x.dirty.contains l.sec then x.dirty ++ [l.sec] else x.dirty }]
  | none => evict geo c l ++ [⟨l.line, limitRet geo c l ret, if dirty then [l.sec] else [], [(l.sec, data)]⟩]

/-- The cache without a sector. -/
def cacheDrop (c : List CLine) (l : Loc) : List CLine :=
  (c.map fun x =>
    if x.loc = l.line then { x with secs := alDel x.secs l.sec, dirty := x.dirty.filter fun k => k ≠ l.sec } else x).filter
    fun x => x.secs != []

/-- What a store, atomic or walker write of a core touches leaves its L1, by sectors (R162), and its metadata cache, by lines
(R196). -/
def State.dropL1 (s : State) (core : Nat) (l : Loc) (n : Nat) : State :=
  s.modCore core fun c =>
    { c with l1 := cacheDrop (cacheDrop c.l1 l) (l.add (n - 1)),
             mcache := c.mcache.filter fun x => x.loc != l.line && x.loc != (l.add (n - 1)).line }

/-- A write performed at its home allocates its sector in the home's L2, dirty; under `.noalloc` only where its line is there
(R117, R119, R123). Bonded memory is never in L2 (R118). -/
def State.homeFill (s : State) (home a hint : Nat) : State :=
  if bondedBase ≤ a then s
  else s.modDie home fun d =>
    match retOf hint with
    | some r => { d with l2 := cacheFill geoL2 d.l2 (.node a) r true [] }
    | none => if d.l2.any fun x => x.loc = (Loc.node a).line then { d with l2 := cacheFill geoL2 d.l2 (.node a) 0 true [] } else d

/-- A write by one of the device's own units, performed at its home: L2 allocates it, and every die's RDC copies go (R117, R120). -/
def State.homeWrite (s : State) (home a hint : Nat) (bs : List Byte) : State := (s.homeFill home a hint).writeHome none a bs

/-- An access of a die passes its L2 (a line homed there) or its RDC (another line), which place the line by the L2 hint. A
store allocates in its home's L2, and in an RDC only raises the line that it hits (R117 to R119, R123). -/
def State.touchDie (s : State) (die home : Nat) (l : Loc) (hint : Nat) (store : Bool) : State :=
  match l with
  | .node a =>
    if store then
      let s1 := s.homeFill home a (if home = die then hint else 0)
      match retOf hint, (if home = die then none else cacheSector (s.die die).rdc l) with
      | some r, some sec => s1.modDie die fun d => { d with rdc := cacheFill geoRdc d.rdc l r false sec }
      | _, _ => s1
    else match retOf hint with
      | none => s
      | some r =>
        if home = die then
          if a < bondedBase then s.modDie die fun d => { d with l2 := cacheFill geoL2 d.l2 l r false [] } else s
        else
          { s.modDie die fun d => { d with rdc := cacheFill geoRdc d.rdc l r false [] } with
            sharers := alSet s.sharers (a / 128)
              (BitVec.ofNat 8 (Nat.lor (alGet s.sharers 0 (a / 128)).toNat (2 ^ die))) }
  | _ => s

/-- What completing an acquire of a thread on a core drops (R122, R161, R196, R403). -/
def State.dropForAcquire (s : State) (core : Nat) (sc : Scope) : State :=
  let s1 := if scopeCode .die ≤ scopeCode sc then
      s.modCore core fun c => { c with l1 := c.l1.filter fun x => !x.loc.untracked, mcache := [] }
    else s
  if scopeCode .dom ≤ scopeCode sc then
    s1.modDie (dieOf core) fun d => { d with rdc := d.rdc.filter fun x => !x.loc.untracked }
  else s1

/-! ## Translation (R104 to R112) -/

/-- The kinds of access that a page admits or refuses (R109). -/
inductive Kind
  | read | write | atomic | fetch
  deriving DecidableEq, Repr

/-- log2 of the page size of a SIZE code (Table 4-4). -/
def pageLog (size : Nat) : Nat := [12, 16, 21, 25, 29, 33, 37].getD size 12

/-- The SIZE codes that a level's leaves may have (Table 4-3). -/
def leafSizes (level : Nat) : List Nat := [[0, 1], [2, 3, 4], [5, 6], [], []].getD level []

/-- Whether an entry with V = 1 read at a level is malformed (R107). -/
def State.malformed (s : State) (level : Nat) (e : BitVec 128) : Bool :=
  let pa := fld e 24 36 * 4096
  let size := fld e 2 3
  let tier := fld e 11 2
  (fld e 17 7 != 0 || fld e 60 4 != 0 || fld e 96 32 != 0) ||
    (if bit e 1 then
      !(leafSizes level).contains size || (!bit e 5 && bit e 6) || decide (pa % 2 ^ pageLog size ≠ 0) ||
        decide (2 ≤ tier) ||
        (tier == 0 && decide (bondedBase < pa + 2 ^ pageLog size)) ||
        (tier == 1 && (decide (4 < size) || decide ((s.die (fld e 14 3)).bondcap * 2 ^ 20 < pa + 2 ^ pageLog size)))
    else
      fld e 2 15 != 0 || fld e 17 7 != 0 || bit e 24 || level == 0 || !s.nodeOk pa 4096)

/-- What a walk ends with: a leaf, its level and where it was read; an entry with V = 0 at a level; a malformed entry. -/
inductive Walk
  | leaf (e : BitVec 128) (level at' : Nat)
  | absent (level : Nat)
  | bad
  deriving DecidableEq, Repr

/-- The number of a page-table index at a level (Table 4-3). -/
def pageIndex (level va : Nat) : Nat := fldN va (12 + 9 * level) (if level = 4 then 8 else 9)

/-- The entry that a walk reads at a level: from the walk cache, or from the node (R110). -/
def State.walkEntry (s : State) (slot level node va : Nat) : BitVec 128 :=
  match s.walkCache.find? fun w => w.slot = slot ∧ w.level = level ∧ w.path = va >>> (12 + 9 * level) with
  | some w => w.pte
  | none => BitVec.ofNat 128 (s.readNodeN (node + 16 * pageIndex level va) 16)

/-- A walk from a level's node down (R104, R107). -/
def State.walkFrom (s : State) (slot va : Nat) : Nat → Nat → Walk
  | 0, node =>
    let e := s.walkEntry slot 0 node va
    if !s.nodeOk (node + 16 * pageIndex 0 va) 16 then .bad
    else if !bit e 0 then .absent 0
    else if s.malformed 0 e then .bad
    else .leaf e 0 (node + 16 * pageIndex 0 va)
  | n + 1, node =>
    let e := s.walkEntry slot (n + 1) node va
    if !s.nodeOk (node + 16 * pageIndex (n + 1) va) 16 then .bad
    else if !bit e 0 then .absent (n + 1)
    else if s.malformed (n + 1) e then .bad
    else if bit e 1 then .leaf e (n + 1) (node + 16 * pageIndex (n + 1) va)
    else s.walkFrom slot va n (fld e 24 36 * 4096)

/-- A walk of a context's page table (R104). -/
def State.walk (s : State) (slot va : Nat) : Walk := s.walkFrom slot va 4 (s.ctx slot).ptbase.toNat

/-- The pointer entries that a walk read, for the walk cache (R110). -/
def State.walkLines (s : State) (slot va : Nat) : Nat → Nat → List WalkLine
  | 0, _ => []
  | n + 1, node =>
    let e := s.walkEntry slot (n + 1) node va
    if bit e 0 && !bit e 1 && !s.malformed (n + 1) e then
      ⟨slot, n + 1, va >>> (12 + 9 * (n + 1)), e⟩ :: s.walkLines slot va n (fld e 24 36 * 4096)
    else []

/-- The translation of a list that holds an address. -/
def tlbFind (l : List Tlb) (slot va : Nat) : Option Tlb :=
  l.find? fun t => t.slot = slot ∧ t.base ≤ va ∧ va < t.base + 2 ^ pageLog t.size

/-- The node address of a byte of a page (R104, R105). -/
def leafAddr (e : BitVec 128) (va : Nat) : Nat :=
  let pa := fld e 24 36 * 4096 + va % 2 ^ pageLog (fld e 2 3)
  if fld e 11 2 = 1 then bondedBase + fld e 14 3 * 2 ^ 32 + pa else pa

/-- The home die of a byte of a page (R98, R99). -/
def leafHome (e : BitVec 128) (va : Nat) : Nat :=
  if fld e 11 2 = 1 ∨ bit e 13 then fld e 14 3 else homeDie (leafAddr e va)

/-- What a translation gives: the node address and home die; a non-fatal fault of a kind at a level; a fatal cause
(R109); or that it has to wait for a line that a command owns (R127). -/
inductive Xl
  | ok (a home : Nat)
  | park (kind lvl : Nat)
  | fatal (cause : Nat)
  | wait
  deriving DecidableEq, Repr

/-- Whether a page admits a kind of access (R109). -/
def pagePermits (e : BitVec 128) (k : Kind) : Option Xl :=
  match k with
  | .read => if bit e 5 then none else some (.fatal 0x090)
  | .fetch => if bit e 7 then none else some (.fatal 0x091)
  | _ => if bit e 6 then none else if bit e 10 then some (.park 2 0) else some (.fatal 0x090)

/-- The translation an access would use: from the core's or the die's TLB, or from a walk. -/
def State.tlbOrWalk (s : State) (core : Option Nat) (die slot va : Nat) : Option Tlb × Walk :=
  match (core.bind fun c => tlbFind (s.core c).tlb slot va) <|> tlbFind (s.die die).tlb slot va with
  | some t => (some t, .leaf t.pte 0 t.pteAt)
  | none => (none, s.walk slot va)

/-- Whether a walk from a level's node down reads an entry at an address of a kind. -/
def State.walkHits (s : State) (meets : Nat → Bool) (slot va : Nat) : Nat → Nat → Bool
  | n, node =>
    let cached := s.walkCache.any fun w => w.slot = slot ∧ w.level = n ∧ w.path = va >>> (12 + 9 * n)
    (!cached && meets (node + 16 * pageIndex n va)) ||
      (match n with
        | 0 => false
        | m + 1 =>
          let e := s.walkEntry slot (m + 1) node va
          bit e 0 && !bit e 1 && !s.malformed (m + 1) e && s.walkHits meets slot va m (fld e 24 36 * 4096))

/-- Whether a kind of access writes. -/
def Kind.writes (k : Kind) : Bool := k == .write || k == .atomic

/-- Whether the translation of an address reads an entry at an address of a kind: in a walk, or, for a write through a translation
that holds D = 0, in the re-read of the entry that sets D (R108). -/
def State.xlateHits (s : State) (meets : Nat → Bool) (core : Option Nat) (die slot va : Nat) (k : Kind) : Bool :=
  match (s.tlbOrWalk core die slot va).1 with
  | none => s.walkHits meets slot va 4 (s.ctx slot).ptbase.toNat
  | some t => k.writes && !t.dirty && meets t.pteAt

/-- Whether the translation of an address has to wait for a line that an engine command owns (R126, R127). -/
def State.xlateWaits (s : State) (core : Option Nat) (die slot va : Nat) (k : Kind) : Bool :=
  s.xlateHits (fun a => s.ownedBy none a 16) core die slot va k

/-- What an access to a virtual address would meet, without changing anything (R109, R177): a line that it waits for, a poisoned
entry (R128), or what the entries say. -/
def State.xlatePeek (s : State) (core : Option Nat) (die slot va : Nat) (k : Kind) : Xl :=
  if s.xlateWaits core die slot va k then .wait
  else if s.xlateHits (fun a => s.poisoned a 16) core die slot va k then .fatal 0x169
  else match (s.tlbOrWalk core die slot va).2 with
  | .absent l => .park 1 l
  | .bad => .fatal 0x092
  | .leaf e _ _ => match pagePermits e k with
    | some x => x
    | none => .ok (leafAddr e va) (leafHome e va)

/-- The atomic OR of bits into a page-table entry at its home (R108). -/
def State.orPte (s : State) (at' bits : Nat) : State :=
  s.homeWrite (homeDie at') at' 0 (toBytes 2 (Nat.lor (s.readNodeN at' 2) bits))

/-- A translation entered in a TLB of a given size; the oldest goes. -/
def tlbAdd (cap : Nat) (l : List Tlb) (t : Tlb) : List Tlb :=
  ((l.filter fun u => !(u.slot = t.slot ∧ u.base = t.base ∧ u.size = t.size)) ++ [t]).drop
    ((l.filter fun u => !(u.slot = t.slot ∧ u.base = t.base ∧ u.size = t.size)).length + 1 - cap)

/-- The translation of a virtual address by an access that is made: TLBs and walk cache are filled, A is set on the first
use of an entry and D on the first write through it (R108, R110). A fault or a wait changes nothing. Of the replicas of a replicated page
it takes the one that the address names (R106 leaves it open; log 88). -/
def State.xlate (s : State) (core : Option Nat) (die slot va : Nat) (k : Kind) : Xl × State :=
  match s.xlatePeek core die slot va k with
  | .ok a home =>
    let w := k.writes = true
    match s.tlbOrWalk core die slot va with
    | (some t, _) =>
      if w ∧ ¬ t.dirty then
        let s1 := s.orPte t.pteAt 0x200
        let t1 := { t with dirty := true }
        let s2 := s1.modDie die fun d => { d with tlb := tlbAdd 32768 d.tlb t1 }
        (.ok a home, match core with
          | some c => s2.modCore c fun x => { x with tlb := tlbAdd 512 x.tlb t1 }
          | none => s2)
      else (.ok a home, match core with
          | some c => s.modCore c fun x => { x with tlb := tlbAdd 512 x.tlb t }
          | none => s)
    | (none, .leaf e _ at') =>
      let t : Tlb := ⟨slot, va / 2 ^ pageLog (fld e 2 3) * 2 ^ pageLog (fld e 2 3), fld e 2 3, e, at',
        bit e 9 || decide w⟩
      let lines := s.walkLines slot va 4 (s.ctx slot).ptbase.toNat
      let s1 := s.orPte at' (if w then 0x300 else 0x100)
      let kept := s1.walkCache.filter fun x =>
        !lines.any fun y => y.slot = x.slot ∧ y.level = x.level ∧ y.path = x.path
      let s2 := { s1 with walkCache := (kept ++ lines).drop (kept.length + lines.length - 2048) }
      let s3 := s2.modDie die fun d => { d with tlb := tlbAdd 32768 d.tlb t }
      (.ok a home, match core with
        | some c => s3.modCore c fun x => { x with tlb := tlbAdd 512 x.tlb t }
        | none => s3)
    | (none, _) => (.ok a home, s)
  | x => (x, s)

/-- What a read of a context's memory by one of the device's own units ends with. -/
inductive Got
  | ok (bs : List Byte)
  | fault (cause : Nat)
  | park (kind lvl : Nat)
  | wait
  deriving DecidableEq, Repr

/-- A read of bytes at a generic address of a context by a unit of a die, at the home. -/
def State.readVa (s : State) (core : Option Nat) (die slot : Nat) (va : Dword) (n : Nat) : Got × State :=
  if fld va 56 8 ≠ 0 then (.fault 0x081, s)
  else match s.xlate core die slot va.toNat .read with
    | (.ok a _, s1) =>
      if s1.ownedBy none a n then (.wait, s)
      else if s1.poisoned a n then (.fault 0x169, s1) else (.ok (s1.readNode a n), s1)
    | (.fatal c, s1) => (.fault c, s1)
    | (.park k l, s1) => (.park k l, s1)
    | (.wait, s1) => (.wait, s1)

/-! ## Fault records (R113) -/

/-- Whether a fault is of the page and kind of a fault record. -/
def FaultRec.same (f : FaultRec) (va : Dword) (kind : Nat) : Bool :=
  f.va.toNat / 2 ^ f.page == va.toNat / 2 ^ f.page && f.kind == kind

/-- log2 of the size of the page of a fault: the leaf's for copy on write; a page that is not present counts by 4 KiB (log 75). -/
def State.faultPage (s : State) (p : Park) : Nat :=
  match p.kind, s.walk p.slot p.va.toNat with
  | 2, .leaf e _ _ => pageLog (fld e 2 3)
  | _, _ => 12

/-- The 32 bytes of a fault record (Table 4-7). -/
def FaultRec.bytes (f : FaultRec) (seq : Word) : List Byte :=
  toBytes 32 (f.va.toNat + f.kind * 2 ^ 64 + f.acc * 2 ^ 72 + f.lvl * 2 ^ 80 + f.core * 2 ^ 96 + f.unit * 2 ^ 112 +
    seq.toNat * 2 ^ 128)

/-- Whether the fault queue of a context has room (R113). -/
def Ctx.faultRoom (c : Ctx) : Bool := decide ((c.fqprod - c.fqcons).toNat < c.fqmask.toNat + 1)

/-- The node address of a context's next fault record. -/
def Ctx.recordAt (c : Ctx) : Nat := c.fqbase.toNat + 32 * (c.fqprod.toNat % (c.fqmask.toNat + 1))

/-- Whether the next fault record of a context can be written now: the queue has room, and no command owns its line (R113, R126). -/
def State.recordFits (s : State) (slot : Nat) : Bool := (s.ctx slot).faultRoom && !s.ownedBy none (s.ctx slot).recordAt 32

/-- The writing of the oldest fault that has no record, where the queue has room (R113). -/
def State.writeFaultRecord (s : State) (slot : Nat) : State :=
  let c := s.ctx slot
  match c.faults.find? fun f => f.seq.isNone with
  | none => s
  | some f =>
    if !s.recordFits slot then s
    else
      let s1 := s.homeWrite (homeDie c.recordAt) c.recordAt 0 (f.bytes c.fqprod)
      let s2 := s1.modCtx slot fun x =>
        { x with fqprod := x.fqprod + 1,
                 faults := x.faults.map fun y => if y = f then { y with seq := some c.fqprod } else y }
      s2.irq 0

/-- A non-fatal fault: it joins the unanswered fault of its page and kind, or is a new one whose record is written at
once where nothing is deferred before it and the queue has room (R113). -/
def State.parkFault (s : State) (slot core unit : Nat) (p : Park) : State :=
  if (s.ctx slot).faults.any fun f => f.same p.va p.kind then s
  else
    let s1 := s.modCtx slot fun x =>
      { x with faults := x.faults ++ [⟨p.va, s.faultPage p, p.kind, p.acc, p.lvl, core, unit, none⟩] }
    if (s.ctx slot).faults.any fun f => f.seq.isNone then s1 else s1.writeFaultRecord slot

/-! ## Group slots (R16, R28, R381, R387) -/

/-- What placement charges a group for its base registers (R16). -/
def Kernel.charge (kn : Kernel) : Nat := kn.width * (4 * kn.regs + 64 * kn.acc)

/-- The groups in the slots of a quarter. -/
def State.quarterGroups (s : State) (core quarter : Nat) : List (Nat × Group) :=
  s.groups.filter fun p => match p.2.place with
    | some q => q.core == core && q.quarter == quarter
    | none => false

/-- The base-register bytes taken beside the reserve (R16). -/
def State.quarterUse (s : State) (core quarter : Nat) : Nat :=
  ((s.quarterGroups core quarter).filter fun p => decide (p.2.home.slot < 15)).foldl
    (fun n p => n + (s.kernelOf p.2.launch).charge) 0

/-- The lowest free non-reserve slot of a quarter with room for a charge (R16, R28). -/
def State.freeSlot (s : State) (core quarter charge : Nat) : Option Nat :=
  if s.quarterUse core quarter + charge ≤ 114688 then
    (List.range 15).find? fun k => !(s.quarterGroups core quarter).any fun p => p.2.home.slot == k
  else none

/-- Whether the reserve slot of a quarter is free. -/
def State.reserveFree (s : State) (core quarter : Nat) : Bool :=
  !(s.quarterGroups core quarter).any fun p => p.2.home.slot == 15

/-- The place of a formed group: a non-reserve slot of the lowest quarter with room; otherwise a reserve slot (R387). -/
def State.spawnPlace (s : State) (core charge : Nat) : Option Place :=
  (([0, 1, 2, 3] : List Nat).findSome? fun q => (s.freeSlot core q charge).map fun k => (⟨core, q, k⟩ : Place)) <|>
    (if charge ≤ 16384 then
      (([0, 1, 2, 3] : List Nat).find? fun q => s.reserveFree core q).map fun q => (⟨core, q, 15⟩ : Place)
     else none)

/-- An acquire of a thread at a scope that completes (R403). -/
def State.acquired (s : State) (g l : Nat) (sc : Scope) : State :=
  (s.dropForAcquire (s.coreOf g) sc).modThread g l fun t => { t with lastAcq := s.nextId }

/-- A release of a thread: it covers the buffered stores that the thread has made or read (R402). -/
def State.released (s : State) (g l : Nat) : State :=
  { s with sb := s.sb.map fun p =>
      (p.1, if p.2.rel.isNone ∧ (p.2.g = g ∧ (p.2.lane = l ∨ p.2.lanes.contains l) ∨ p.2.readers.contains (g, l)) then { p.2 with rel := some s.nextId } else p.2) }

/-- The save slot of a place (R439). -/
def State.saveSlot (s : State) (slot : Nat) (p : Place) : Dword :=
  (s.ctx slot).savebase + BitVec.ofNat 64 (2 ^ 19 * (p.core * 64 + p.quarter * 16 + p.slot))

/-- The translations of some pages from an address on that are mapped for writing, by page number. One that has to wait for a line of
the page table is made when it is used (R127). -/
def State.pinPages (die slot : Nat) : Nat → Nat → State → AL (Nat × Nat) × State
  | 0, _, s => ([], s)
  | n + 1, va, s => match s.xlate none die slot va .write with
    | (.ok a h, s1) => let r := State.pinPages die slot n (va + 4096) s1; ((va / 4096, a / 4096, h) :: r.1, r.2)
    | (.wait, _) => State.pinPages die slot n (va + 4096) s
    | _ => ([], s)

/-- The translation of a group's save slot, made once as the group is placed and held while it is resident (R437). -/
def State.pinSave (s : State) (g : Nat) : State :=
  match s.group? g with
  | none => s
  | some x =>
    let r := State.pinPages (dieOf x.home.core) x.slot 128 (s.saveSlot x.slot x.home).toNat s
    r.2.modGroup g fun y => { y with saveAt := r.1 }

/-- A group that takes a slot: in the active set where it has room (R381), its save slot translated (R437), its spawned threads'
first instruction after an acquire at their scopes (R386). -/
def State.takeSlot (s : State) (g : Nat) (pl : Place) : State :=
  let room := decide (((s.quarterGroups pl.core pl.quarter).filter fun p => p.2.active).length < 8)
  let s1 := s.modGroup g fun x =>
    { x with place := some pl, home := pl, active := room, forming := none, readySince := s.cycle, lastIssue := s.cycle }
  (((s.group? g).map fun x => x.lanes).getD []).zipIdx.foldl (fun (t : State) th => match th.1.spawn with
    | some r => t.acquired g th.2 r.scope
    | none => t) (s1.pinSave g)

/-- The formed groups of a core that wait for a slot, in formation order. -/
def State.formed (s : State) (core : Nat) : List Nat :=
  ((sortBy (fun (a b : Nat × Nat) => decide (a.1 ≤ b.1)) (s.groups.filterMap fun p => match p.2.forming with
    | some n => if p.2.home.core = core then some (n, p.1) else none
    | none => none))).map fun p => p.2

/-- Formed groups placed in formation order as far as slots reach (R387). -/
def State.placeList (s : State) (core : Nat) : List Nat → State
  | [] => s
  | g :: gs => match s.spawnPlace core (s.kernel g).charge with
    | some pl => (s.takeSlot g pl).placeList core gs
    | none => s

/-- The formed groups of a core placed. -/
def State.placeFormed (s : State) (core : Nat) : State := s.placeList core (s.formed core)

/-! ## Kills (R424) -/

/-- The thread a kill concerns, with its EPC and EVAL (Table 18-3). -/
structure KillOf where
  g : Nat
  lane : Nat
  epc : Dword
  eval : Dword
  deriving DecidableEq, Repr

/-- The kill record of Table 18-3. -/
def State.killRecord (s : State) (kcause ecause : Nat) (k : Option KillOf) : List Byte :=
  match k with
  | none => toBytes 64 (kcause + ecause * 2 ^ 16 + s.ns % 2 ^ 64 * 2 ^ 320)
  | some x =>
    let t := s.thread x.g x.lane
    let pl := ((s.group? x.g).map (·.home)).getD ⟨0, 0, 0⟩
    let lnum := ((s.group? x.g).bind fun y => (alGet? s.launches y.launch).map (·.lnum)).getD 0
    toBytes 64 (kcause + ecause * 2 ^ 16 + lnum.toNat * 2 ^ 32 + x.epc.toNat * 2 ^ 64 + x.eval.toNat * 2 ^ 128 +
      fld t.bank1.cause 0 16 * 2 ^ 192 + fld t.bank2.cause 0 16 * 2 ^ 208 + pl.core % 1024 * 2 ^ 224 +
      pl.quarter % 4 * 2 ^ 234 + pl.slot % 16 * 2 ^ 236 + x.lane % 64 * 2 ^ 240 + t.bank1.epc.toNat * 2 ^ 256 +
      s.ns % 2 ^ 64 * 2 ^ 320)

/-- A kill record written at its address; a fault drops it. None where it has to wait for a line that a command owns. -/
def State.writeNote (s : State) (slot : Nat) (va : Dword) (bs : List Byte) : Option State :=
  match s.xlate none 0 slot va.toNat .write with
  | (.ok a h, t) => if t.ownedBy none a bs.length then none else some (t.homeWrite h a 0 bs)
  | (.wait, _) => none
  | (_, t) => some t

/-- The end of a context (R424): its groups, Skein and ring records and accesses go, the kill record is written at
KSLOT, KCAUSE and STATE say so and HIRQ bit 1 is set. Only the first kill is recorded. Its commands are asked
to cancel, as `FCNCL` does, and its launches end with STATE 4 at their completion. The slots that it frees go to formed groups of
other contexts (R25, R29). -/
def State.kill (s : State) (slot kcause ecause : Nat) (k : Option KillOf) : State :=
  let c := s.ctx slot
  if c.state = 3 ∨ c.state = 7 then s
  else
    let s1 := if c.kslot ≠ 0 ∧ c.kslot.toNat % 64 = 0 ∧ fld c.kslot 56 8 = 0 then
        (s.writeNote slot c.kslot (s.killRecord kcause ecause k)).getD
          { s with homeQ := s.homeQ ++ [(slot, c.kslot, s.killRecord kcause ecause k)] }
      else s
    let mine := s1.groups.filter fun p : Nat × Group => p.2.slot = slot
    let gone := mine.map fun p => p.1
    let gteams := mine.filterMap fun p => p.2.team
    let drop := fun x : Core =>
      { x with
        skein := x.skein.filter fun r => r.2.slot ≠ slot
        mq := x.mq.filter fun m => m.iss.slot ≠ slot
        baton := x.baton.filter fun b => !gteams.contains b.1
        batonWait := x.batonWait.filter fun w => !gone.contains w.1 }
    let cancel := fun c : Cmd => if c.iss.slot = slot then { c with cancel := true, park := none } else c
    let s2 := { s1 with
      groups := s1.groups.filter fun p => p.2.slot ≠ slot
      teams := s1.teams.filter fun p => !gteams.contains p.1
      acc := s1.acc.filter fun p => !gone.contains p.2.g
      sb := s1.sb.filter fun p => !(p.2.slot = slot ∧ p.2.loc.isNone)
      cmds := s1.cmds.map fun p : Nat × Cmd => (p.1, cancel p.2)
      launches := s1.launches.map fun p : Nat × Launch => (p.1, if p.2.slot = slot then { p.2 with park := none } else p.2)
      queues := s1.queues.map fun p : Nat × LQueue => (p.1, if p.2.ctx = c.id then { p.2 with parked := none } else p.2)
      cores := s1.cores.map fun p : Nat × Core => (p.1, drop p.2)
      dies := s1.dies.map fun p : Nat × Die =>
        (p.1, { p.2 with parkTable := p.2.parkTable.filter fun g => !gone.contains g }) }
    let s3 := (s2.modCtx slot fun x =>
      { x with state := 3, kcause := kcause, faults := [], rings := [], ringInfo := [], ringPark := none, formPark := [], images := [] }).irq 1
    (dedupN (mine.filterMap fun p => p.2.place.map fun q => q.core)).foldl (fun (t : State) c => t.placeFormed c) s3

/-! ## Taking a trap and returning from one (R417 to R427) -/

/-- The bank of a level (1 or 2). -/
def Thread.bank (t : Thread) (level : Nat) : Bank := if level = 2 then t.bank2 else t.bank1

/-- What `handler(cause)` ends with (R419): an address, 0 for no handler; a read that faults; a line that a command owns (R127). -/
inductive Handler
  | at' (h : Dword)
  | fault
  | wait
  deriving DecidableEq, Repr

/-- A read of the search for a handler. -/
def Got.handler (r : Got) (f : List Byte → Option Dword) : Option Handler :=
  match r with
  | .ok bs => (f bs).map .at'
  | .wait => some .wait
  | _ => some .fault

/-- The handler that an entry of a handler list gives for a cause (Table 2-14). -/
def handlerEntry (cause : Nat) (bs : List Byte) : Option Dword :=
  let e := ofBytes bs
  let lo := fldN e 64 16
  let hi := fldN e 80 16
  if lo < 512 ∧ hi < 512 ∧ lo ≤ cause ∧ cause ≤ hi ∧ fldN e 96 32 = 0 then some (BitVec.ofNat 64 e) else none

/-- A search of the handler list for a cause: the first entry that holds it, or the read of an entry that does not succeed
(R419, Table 2-14). -/
def State.searchHandlers (s : State) (core slot : Nat) (base : Dword) (cause : Nat) : Nat → Nat → Option Handler × State
  | 0, _ => (none, s)
  | n + 1, i =>
    let r := s.readVa (some core) (dieOf core) slot (base + BitVec.ofNat 64 (16 * i)) 16
    match r.1.handler (handlerEntry cause) with
    | some h => (some h, r.2)
    | none => r.2.searchHandlers core slot base cause n (i + 1)

/-- `handler(cause)` of R419: the kernel's list, then the table at TVBASE; 0 for no handler. -/
def State.handler (s : State) (g cause : Nat) : Handler × State :=
  let core := s.coreOf g
  let slot := s.slotOf g
  let k := s.kernel g
  match s.searchHandlers core slot k.hdlt cause k.nhdl 0 with
  | (some h, s1) => (h, s1)
  | (none, s1) =>
    if (s1.ctx slot).tvbase = 0 then (.at' 0, s1)
    else
      let r := s1.readVa (some core) (dieOf core) slot ((s1.ctx slot).tvbase + BitVec.ofNat 64 (8 * cause)) 8
      ((r.1.handler fun bs => some (BitVec.ofNat 64 (ofBytes bs))).getD (.at' 0), r.2)

/-- TSTAT at the entry of a trap (Table 18-2). -/
def tstatOf (t : Thread) (defr late : Bool) : Word :=
  BitVec.ofNat 32 (t.level.toNat + b2n t.mr.valid * 4 + b2n defr * 8 + t.depth.toNat * 16 + b2n late * 4096)

/-- The thread as it enters a handler (R418). -/
def Thread.enter (t : Thread) (cause : Nat) (tval epc h : Dword) (defr late : Bool) (ns cycle : Nat) : Thread :=
  let b : Bank := ⟨BitVec.ofNat 32 (cause % 512), epc, tval, tstatOf t defr late⟩
  let t1 := if t.level = 0 then { t with bank1 := b, above := ns } else { t with bank2 := b }
  { t1 with mr := { t.mr with valid := false }, level := t.level + 1, pc := h, notBefore := cycle + 1, wait := .none
            issues := t.issues + 1 }

/-- `trap(t, cause, tval, epc)` of R418: a thread takes a trap, or its context is killed. Where the search for the handler has to
wait for a line that a command owns, the thread waits with it (R127). -/
def State.trapWith (s : State) (g l cause : Nat) (tval epc : Dword) (defr late : Bool) : State :=
  let t := s.thread g l
  let k : KillOf := ⟨g, l, epc, tval⟩
  if 2 ≤ t.level.toNat then s.kill (s.slotOf g) 0x161 cause (some k)
  else match s.handler g cause with
    | (.fault, s1) => s1.kill (s1.slotOf g) 0x164 cause (some k)
    | (.wait, s1) => s1.modThread g l fun x => { x with late := x.late ++ [⟨cause, tval, s1.nextId, [], .here epc defr⟩] }
    | (.at' h, s1) =>
      if h = 0 then s1.kill (s1.slotOf g) 0x163 cause (some k)
      else
        (s1.modThread g l fun x => x.enter cause tval epc h defr late s1.ns s1.cycle).countFor g 11 1

/-- A precise trap, at the thread's own instruction (R418). -/
def State.trap (s : State) (g l cause : Nat) (tval : Dword) : State :=
  s.trapWith g l cause tval (s.thread g l).pc false false

/-- Whether a thread's trap return is refused: the cause and TVAL (R427). -/
def Thread.tretCause (t : Thread) : Option (Nat × Dword) :=
  if t.level = 0 then some (0x010, 0)
  else
    let d := fld (t.bank t.level.toNat).stat 4 8
    if t.depth.toNat ≠ d then some (0x14B, BitVec.ofNat 64 (t.depth.toNat + d * 256)) else none

/-- The thread after a trap return (R427). -/
def Thread.tret (t : Thread) (skip : Bool) (cycle : Nat) : Thread :=
  let b := t.bank t.level.toNat
  { t with pc := b.epc + (if skip then 16 else 0), mr := { t.mr with valid := bit b.stat 2 },
           level := BitVec.ofNat 2 (fld b.stat 0 2), notBefore := cycle + 1 }

/-! ## Releases and acquires (R402 to R408) -/

/-- Whether an access is a prefetch, which nothing waits for (R175). -/
def AccOp.isPref : AccOp → Bool
  | .pref _ _ => true
  | _ => false

/-- Whether an access is one of a thread's: its own, or one of an instruction that acts once for it too (R41). -/
def Acc.of (a : Acc) (g l : Nat) : Bool := a.g == g && (a.lane == l || a.lanes.contains l)

/-- Whether a store is one of a thread's. -/
def SbEntry.of (x : SbEntry) (g l : Nat) : Bool := x.g == g && (x.lane == l || x.lanes.contains l)

/-- Whether a thread has an outstanding access. -/
def State.outstanding (s : State) (g l : Nat) : Bool := s.acc.any fun p => p.2.of g l && !p.2.op.isPref

/-- Whether an unfinished acquire or refill of a thread holds back its later memory accesses (R359, R403). -/
def State.acqPending (s : State) (g l : Nat) : Bool := s.acc.any fun p => p.2.of g l && p.2.acq.isSome

/-- Whether a scope of a group reaches beyond its core's store buffer: die scope and wider, and a team that is placed on a pair
(R401, Table 17-1). -/
def State.drains (s : State) (g : Nat) (sc : Scope) : Bool :=
  decide (scopeCode .core < scopeCode sc) ||
    (sc == .team && ((((s.group? g).bind fun x => x.team).bind (alGet? s.teams)).map fun t => t.pair).getD false)

/-- The scope at which an access to an address acts: on the pair-core path team in place of thread, group and core (R47). -/
def scopeOn (sc : Scope) (va : Dword) : Scope :=
  if fld va 60 4 = 3 ∧ scopeCode sc ≤ scopeCode .core then .team else sc

/-- Whether a release of a thread covers a store-buffer entry (R402): the thread has made it, has read its bytes, or has acquired from
a release of a thread that had (the model takes a release before the thread's latest acquire for one that it acquired from; log 76). -/
def State.covers (s : State) (g l : Nat) (x : SbEntry) : Bool :=
  x.of g l || x.readers.contains (g, l) || x.rel.any fun r => decide (r ≤ (s.thread g l).lastAcq)

/-- Whether the buffered stores that a release of a thread covers are performed at its scope (R401, R402): the thread's own have
entered the store buffer translated, and beyond the core every one is out of it. -/
def State.storesDone (s : State) (g l : Nat) (sc : Scope) : Bool :=
  s.sb.all fun p => !s.covers g l p.2 || (p.2.loc.isSome && !s.drains g sc)

/-- Whether every access that a release of a thread covers is performed at its scope (R402). -/
def State.releaseReady (s : State) (g l : Nat) (sc : Scope) : Bool := !s.outstanding g l && s.storesDone g l sc

end Sys2Proof.Machine
end

