-- ==== Sys2Proof/Machine/Operands.lean ====
section
/-! DEFINITION. Operands: the fallbacks of Table 2-11, what each operand form reads and writes, guards, full/empty
modes, and the three ways an instruction issues: per thread, once for its sub-group, and across lanes. -/

namespace Sys2Proof.Machine

open Sys2Proof

/-! ## What an instruction declares -/

/-- What a field may name (R34, and each family's table). A `run` is the first of the vector registers that the matrix engine
reads, a `tilePair` the first of its two tiles (R308); neither is screened as a thread's own operand. -/
inductive SlotKind
  | none | src | srcReg | vec | pair | cc | ccOpt | cur | shape | tile | tilePair | ply | plyOpt | plyTile | raw | range | run
  deriving DecidableEq, Repr

/-- A field of an instruction: what it may name and how many vector registers it spans; 0 means as many as the type
needs. -/
structure Slot where
  kind : SlotKind
  n : Nat
  deriving DecidableEq, Repr

/-- An unused field. -/
def slNone : Slot := ⟨.none, 1⟩
/-- A source of the type's width: vector register, class 10 or class 11. -/
def slSrc : Slot := ⟨.src, 0⟩
/-- A 32-bit source. -/
def slSrc32 : Slot := ⟨.src, 1⟩
/-- A 64-bit source. -/
def slSrc64 : Slot := ⟨.src, 2⟩
/-- A vector register of the type's width. -/
def slVec : Slot := ⟨.vec, 0⟩
/-- A 32-bit vector register. -/
def slVec32 : Slot := ⟨.vec, 1⟩
/-- A register pair, such as a memory operand's base (R37). -/
def slPair : Slot := ⟨.pair, 2⟩
/-- A condition-code register. -/
def slCc : Slot := ⟨.cc, 1⟩
/-- An optional condition-code register (R473). -/
def slCcOpt : Slot := ⟨.ccOpt, 1⟩
/-- A cursor register. -/
def slCur : Slot := ⟨.cur, 1⟩

/-- What an instruction declares (its row of the encoding tables): types, default first; the VAR that an undefined one
falls back to; its fields; least scope; hints; whether its ordering halves may read and write; whether it uses IMM
itself; whether it takes h registers (R422). -/
structure Spec where
  types : List Ty
  var : BitVec 4
  d : Slot
  a : Slot
  b : Slot
  c : Slot
  e : Slot
  scope : Option Scope
  l1 : Bool
  l2 : Bool
  ord : Option (Bool × Bool)
  imm : Bool
  hOk : Bool
  /-- A failed tile may be its destination (R325). -/
  tileOk : Bool
  /-- Its meaning raises flags of its own, with which those of an implicit `RSLV` trap (R82, R302). -/
  flg : Bool
  /-- Its C is a destination (row 13); it releases whatever its ordering halves say (Table 17-2). -/
  outC : Bool
  rels : Bool
  /-- The types under which it reads A and C where they are not its own. -/
  tyA : Option Ty
  tyC : Option Ty
  /-- WARN bits that the instruction's own rules set. -/
  warn : BitVec 16
  deriving DecidableEq, Repr

/-- An instruction that uses no field. -/
def Spec.plain : Spec :=
  { types := [], var := 0, d := slNone, a := slNone, b := slNone, c := slNone, e := slNone, scope := none, l1 := false,
    l2 := false, ord := none, imm := false, hOk := false, tileOk := false, flg := false, outC := false,
    rels := false, tyA := none, tyC := none, warn := 0 }

/-- An instruction's fields after the fallbacks of Table 2-11. -/
structure Eff where
  ty : Ty
  /-- The type to which a ply register read under `ty` is resolved (row 12). -/
  ply : Ty
  var : BitVec 4
  guard : Guard
  d : Opnd
  a : Opnd
  b : Opnd
  c : Opnd
  e : Opnd
  /-- The registers each field spans. -/
  nd : Nat
  na : Nat
  nb : Nat
  nc : Nat
  ne : Nat
  fe : BitVec 4
  l1 : Nat
  l2 : Nat
  stall : Nat
  yld : Bool
  scope : Scope
  acq : Bool
  rel : Bool
  /-- It releases, by its ordering half or by what it is (Table 17-2). -/
  rels : Bool
  imm : Word
  /-- For A, B, C and E, where it is an ordinary source, the type to which a ply register there is resolved (row 12). -/
  imp : List (Option Ty)
  tileOk : Bool
  flg : Bool
  /-- The words of the fields as encoded, for TVAL (R42): D, A, B, C, E. -/
  words : List Nat
  deriving DecidableEq, Repr

end Sys2Proof.Machine

namespace Sys2Proof

open Machine

/-- What an ignored or unaccepted operand becomes: a source reads zero, a destination write is discarded. -/
def Opnd.null : Opnd := .rsvFile 0xFF

end Sys2Proof

namespace Sys2Proof.Machine

/-- The registers that a field of a type spans; a run that an asynchronous reader takes is none of the thread's own reads. -/
def Slot.regs (sl : Slot) (ty : Ty) : Nat := if sl.kind = .run then 0 else if sl.n = 0 then (if tyBits ty = 64 then 2 else 1) else sl.n

/-- Whether a field is an ordinary source. -/
def Slot.ordinary (sl : Slot) : Bool := sl.kind == .src || sl.kind == .srcReg

/-- The type to which an implicit `RSLV` resolves under a type (R302). -/
def resolveTy (ty : Ty) : Ty := if [Ty.f8e4, .f8e5, .f4, .qi8, .qi4].contains ty then .f32 else ty

/-- An instruction's fields read under another type. -/
def Eff.under (e : Eff) (ty : Ty) : Eff := { e with ty := ty, ply := resolveTy ty }

/-- A vector register cut to its aligned run (row 14), and whether it was cut. -/
def alignV (n : Nat) (k : BitVec 8) : Opnd × Bool :=
  if n ≤ 1 then (.v k, false) else (.v (BitVec.ofNat 8 (k.toNat / n * n)), decide (k.toNat % n ≠ 0))

/-- Whether an operand is of a class-01 file that a kind of field names. -/
def SlotKind.takes : SlotKind → Opnd → Bool
  | .cc, .cc _ | .ccOpt, .cc _ | .cur, .c _ | .shape, .s _ | .tile, .a _ | .ply, .p _ | .plyOpt, .p _ => true
  | .plyTile, .p _ | .plyTile, .a _ => true
  | _, _ => false

/-- Whether the first register of a range is of the file of its kind: 1 vector, 2 tile, 3 ply (R232). -/
def rangeFile (n : Nat) (o : Opnd) : Bool :=
  match o with
  | .v _ => n == 1
  | .a _ => n == 2
  | .p _ => n == 3
  | _ => false

/-- A source or file field after rows 1 and 9 to 14, with the WARN bits it sets. A destination, in whichever field, of class 10 or 11
takes row 13, and row 11 as well where the field must name a register of a file (log 72). An h register in a pair field stands for
the low word of the pair (`CSRR`, `CSRW`; R422, log 104). -/
def fixOpnd (isD hOk : Bool) (sl : Slot) (ty : Ty) (o : Opnd) : Opnd × BitVec 16 :=
  let n := sl.regs ty
  match sl.kind with
  | .raw => (.null, 0)
  | .none => if opndCode o = 0 then (.null, 0) else (.null, 0x0002)
  | k =>
    let w13 : BitVec 16 := if k = .src then 0x2000 else 0x2800
    if k = .range ∧ rangeFile n o then (.null, 0)
    else if (k = .ccOpt ∨ k = .plyOpt) ∧ opndCode o = 0 then (.null, 0)
    else match o with
    | .rsvFile _ | .rsvConst _ => (.null, 0x0400)
    | .view i =>
      let w9 : BitVec 16 := if i.toNat ≤ 4 then 0 else 0x0200
      if isD then (.null, w9 ||| w13)
      else if k = .src then (if i.toNat ≤ 4 then .view i else .view 0, w9)
      else (.null, w9 ||| 0x0800)
    | .spec _ | .int _ | .fconst _ =>
      if isD then (.null, w13) else if k = .src ∨ k = .srcReg then (o, 0) else (.null, 0x0800)
    | .v i =>
      if k = .run then (.v i, 0)
      else if k = .src ∨ k = .srcReg ∨ k = .vec ∨ k = .pair then
        let (x, cut) := alignV n i
        (x, if cut then 0x4000 else 0)
      else (.null, 0x0800)
    | .h i => if hOk ∧ (n = 1 ∧ (k = .src ∨ k = .srcReg ∨ k = .vec) ∨ k = .pair) then (.h i, 0) else (.null, 0x0800)
    | .p i =>
      if k.takes (.p i) then (.p i, 0)
      else if !isD && (k = .src || k = .srcReg) then (.p i, 0x1000)
      else (.null, 0x0800)
    | .c i =>
      if !k.takes (.c i) then (.null, 0x0800)
      else if n = 2 then (.c (BitVec.ofNat 5 (i.toNat / 2 * 2)), if i.toNat % 2 = 1 then 0x4000 else 0)
      else (.c i, 0)
    | .a i =>
      if k = .tilePair then (.null, if i.toNat % 2 = 1 then 0x4000 else 0)
      else if k.takes (.a i) then (.a i, 0) else (.null, 0x0800)
    | x => if k.takes x then (x, 0) else (.null, 0x0800)

end Sys2Proof.Machine

namespace Sys2Proof

open Machine

/-- Whether an operand has a full/empty bit (R42, R230). -/
def Opnd.hasFe : Opnd → Bool
  | .v _ | .c _ => true
  | _ => false

/-- Whether an operand names class 11. -/
def Opnd.isView : Opnd → Bool
  | .view _ => true
  | _ => false

end Sys2Proof

namespace Sys2Proof.Machine

/-- Whether a field is used and names an operand with a full/empty bit (row 2). -/
def Slot.feOk (sl : Slot) (o : Opnd) : Bool :=
  o.hasFe && (match sl.kind with
    | .none | .raw => false
    | .ccOpt | .plyOpt => opndCode o != 0
    | _ => true)

/-- Whether a used field names class 11. -/
def Slot.names11 (sl : Slot) (o : Opnd) : Bool := sl.kind != .none && sl.kind != .raw && o.isView

/-- The decoding of an instruction's fields with every fallback of Table 2-11, and the WARN bits (R52). An instruction without
a type reads its sources as naturals and resolves a ply register to f32 (Table 2-4, row 12). -/
def legalize (sp : Spec) (f : Fields) : Eff × BitVec 16 :=
  let ty := if sp.types = [] then .n32 else if sp.types.contains f.typ then f.typ else sp.types.headD .s32
  let ply := if sp.types = [] then .f32 else resolveTy ty
  let w3 := if sp.types = [] then f.typ != .s32 else !sp.types.contains f.typ
  let (d, wd) := fixOpnd true sp.hOk sp.d ty f.d
  let (a, wa) := fixOpnd false sp.hOk sp.a ty f.a
  let (b, wb) := fixOpnd false sp.hOk sp.b ty f.b
  let (c, wc) := fixOpnd sp.outC sp.hOk sp.c ty f.c
  let (e, we) := fixOpnd (sp.e.kind == .ccOpt) sp.hOk sp.e ty f.e
  let fe : BitVec 4 := BitVec.ofNat 4
    (b2n (bit f.fe 0 && sp.a.feOk f.a) + 2 * b2n (bit f.fe 1 && sp.b.feOk f.b) + 4 * b2n (bit f.fe 2 && sp.c.feOk f.c) +
      8 * b2n (bit f.fe 3 && sp.e.feOk f.e))
  let w0 := f.guard.comb = .first ∧ (f.guard.cc1 ≠ 0 ∨ f.guard.cond1 ≠ .al)
  let acq0 := sp.ord.isSome && bit f.var 0
  let rel0 := sp.ord.isSome && bit f.var 1
  let canR := (sp.ord.map (·.1)).getD false
  let canW := (sp.ord.map (·.2)).getD false
  let immUsed := sp.imm || sp.d.names11 f.d || sp.a.names11 f.a || sp.b.names11 f.b || sp.c.names11 f.c || sp.e.names11 f.e
  let narrow := match sp.scope with
    | some m => decide (scopeCode f.scope < scopeCode m)
    | none => false
  let scope := match sp.scope with
    | some m => if narrow then m else f.scope
    | none => .thr
  let imp := fun (sl : Slot) (o : Option Ty) => if sl.ordinary then some ((o.map resolveTy).getD ply) else none
  let warn : Nat :=
    b2n (decide w0) + b2n (decide (fe ≠ f.fe)) * 4 + b2n w3 * 8 + b2n (decide (sp.var ≠ f.var)) * 16 +
      b2n ((acq0 && !canR) || (rel0 && !canW)) * 32 + b2n (sp.scope.isNone && f.scope != .thr) * 64 +
      b2n narrow * 128 + b2n ((f.l1h != 0 && !sp.l1) || (f.l2h != 0 && !sp.l2)) * 256 +
      b2n (f.imm != 0 && !immUsed) * 32768
  ({ ty := ty, ply := ply, var := sp.var, guard := f.guard, d := d, a := a, b := b, c := c, e := e, nd := sp.d.regs ty,
     na := sp.a.regs ty, nb := sp.b.regs ty, nc := sp.c.regs ty, ne := sp.e.regs ty, fe := fe,
     l1 := if sp.l1 then f.l1h.toNat else 0, l2 := if sp.l2 then f.l2h.toNat else 0, stall := f.stall.toNat,
     yld := f.yld, scope := scope, acq := acq0 && canR, rel := rel0 && canW, rels := rel0 && canW || sp.rels,
     imm := if immUsed then f.imm else 0,
     imp := [imp sp.a sp.tyA, imp sp.b none, imp sp.c sp.tyC, imp sp.e none], tileOk := sp.tileOk, flg := sp.flg,
     words := [opndCode f.d, opndCode f.a, opndCode f.b, opndCode f.c, opndCode f.e] },
   sp.warn ||| BitVec.ofNat 16 warn ||| wd ||| wa ||| wb ||| wc ||| we)

/-! ## Guards (R39 to R41) -/

/-- The four flags of a condition-code register: S Z C V from bit 3 down. -/
def Thread.flags (t : Thread) (n : BitVec 2) : BitVec 4 := BitVec.ofNat 4 (fld t.cc (4 * n.toNat) 4)

/-- The thread with a condition-code register written. -/
def Thread.setFlags (t : Thread) (n : BitVec 2) (x : BitVec 4) : Thread :=
  { t with cc := setFld t.cc (4 * n.toNat) 4 x.toNat }

/-- Flags from S, Z, C and V. -/
def mkFlags (s z c v : Bool) : BitVec 4 := BitVec.ofNat 4 (8 * b2n s + 4 * b2n z + 2 * b2n c + b2n v)

end Sys2Proof.Machine

namespace Sys2Proof

open Machine

/-- A condition on four flags (Table 2-6). -/
def Cond.test (c : Cond) (x : BitVec 4) : Bool :=
  let s := bit x 3
  let z := bit x 2
  let cy := bit x 1
  let v := bit x 0
  match c with
  | .al => true
  | .eq => z
  | .ne => !z
  | .lt => s != v
  | .ge => s == v
  | .le => z || (s != v)
  | .gt => !z && (s == v)
  | .lo => cy
  | .hs => !cy
  | .ls => cy || z
  | .hi => !cy && !z
  | .mi => s
  | .pl => !s
  | .vs => v
  | .vc => !v
  | .nv => false

/-- Whether a thread passes a guard (Table 2-7). -/
def Guard.passes (gd : Guard) (t : Thread) : Bool :=
  let g0 := gd.cond0.test (t.flags gd.cc0)
  let g1 := gd.cond1.test (t.flags gd.cc1)
  match gd.comb with
  | .first => g0
  | .both => g0 && g1
  | .either => g0 || g1
  | .andNot => g0 && !g1

/-- The condition-code registers that a guard reads: those of `al` and `nv` name none, so that issue waits for no write to them
(log 87). -/
def Guard.ccs (gd : Guard) : List (BitVec 2) :=
  (if gd.cond0 = .al ∨ gd.cond0 = .nv then [] else [gd.cc0]) ++
    (if gd.comb = .first ∨ gd.cond1 = .al ∨ gd.cond1 = .nv then [] else [gd.cc1])

end Sys2Proof

namespace Sys2Proof.Machine

/-! ## Registers -/

/-- A vector register of a thread. -/
def Thread.vreg (t : Thread) (n : Nat) : Word := alGet t.v 0 n

/-- The thread with a vector register written. -/
def Thread.setV (t : Thread) (n : Nat) (x : Word) : Thread := { t with v := alSet t.v n x }

/-- The thread with a run of vector registers written. -/
def Thread.setVs (t : Thread) : Nat → List Word → Thread
  | _, [] => t
  | n, x :: xs => (t.setV n x).setVs (n + 1) xs

/-- A register pair as a 64-bit value (R37). -/
def Thread.vpair (t : Thread) (n : Nat) : Dword :=
  BitVec.ofNat 64 ((t.vreg n).toNat + (t.vreg (n + 1)).toNat * 2 ^ 32)

/-- An h register of the thread's own level (R422). -/
def Thread.hreg (t : Thread) (n : Nat) : Word := alGet t.h 0 (32 * t.level.toNat + n)

/-- A cursor register. -/
def Thread.creg (t : Thread) (n : Nat) : BitVec 192 := alGet t.c 0 n

end Sys2Proof.Machine

namespace Sys2Proof

open Machine

/-- The vector registers a field spans. -/
def Opnd.vregs (o : Opnd) (n : Nat) : List Nat :=
  match o with
  | .v k => (List.range n).map fun i => k.toNat + i
  | _ => []

end Sys2Proof

namespace Sys2Proof.Machine

/-- Whether a group may name a vector register (R237). -/
def State.vMapped (s : State) (g n : Nat) : Bool :=
  decide (n < (s.kernel g).regs) || ((s.group? g).map fun x => x.extV.contains n).getD false

/-- Whether a group may name a SIMT ply register (R237). -/
def State.pMapped (s : State) (g n : Nat) : Bool :=
  decide (n < (s.kernel g).acc) || ((s.group? g).map fun x => x.extP.contains n).getD false

/-- Whether a group may name a tile (R237). -/
def State.tMapped (s : State) (g n : Nat) : Bool :=
  ((s.group? g).map fun x => (alGet? x.tiles n).isSome).getD false

/-- Whether an operand names only mapped registers (R237). -/
def State.mapped (s : State) (g : Nat) (o : Opnd) (n : Nat) : Bool :=
  match o with
  | .p k => s.pMapped g k.toNat
  | .a k => s.tMapped g k.toNat
  | o => (o.vregs n).all fun r => s.vMapped g r

/-- Whether a thread finds an operand full (R42). -/
def Thread.full (t : Thread) (o : Opnd) (n : Nat) : Bool :=
  match o with
  | .c k => (List.range n).all fun i => !t.cEmpty.contains (k.toNat + i)
  | o => (o.vregs n).all fun r => !t.vEmpty.contains r

/-- MODE as a group's instructions of a cycle read it: one issued in the same cycle as a `MODEW` finds the old one (R83). -/
def Group.modeAt (x : Group) (cycle : Nat) : Dword :=
  match x.prior with
  | some p => if p.cycle = cycle then p.mode else x.mode
  | none => x.mode

/-- MODE of a group. -/
def State.mode (s : State) (g : Nat) : Dword := ((s.group? g).map fun x => x.modeAt s.cycle).getD modeReset

/-- A class 10 special (Table 2-3). -/
def State.special (s : State) (g l : Nat) : Special → Word
  | .lane => BitVec.ofNat 32 l
  | .grp => BitVec.ofNat 32 (((s.group? g).map (·.grp)).getD 0)
  | .team => ((s.group? g).map (·.teamNo)).getD 0
  | .launch => ((s.group? g).bind fun x => (alGet? s.launches x.launch).map (·.lnum)).getD 0
  | .width => BitVec.ofNat 32 (((s.group? g).map (·.width)).getD 0)
  | .core => BitVec.ofNat 32 (s.coreOf g)
  | .die => BitVec.ofNat 32 (dieOf (s.coreOf g))
  | .clk => BitVec.ofNat 32 s.cycle
  | .spawned => if ((s.group? g).map (·.spawned)).getD false then 1 else 0
  | .zero => 0
  | .ones => 0xFFFFFFFF

/-- The f32 pattern of a float constant (Table 2-3). -/
def fconstBits : FConst → Nat
  | .f1 => 0x3F800000 | .fm1 => 0xBF800000 | .fhalf => 0x3F000000 | .f2 => 0x40000000
  | .finf => 0x7F800000 | .fminf => 0xFF800000 | .fnan => 0x7FC00000 | .flog2e => 0x3FB8AA3B

/-- An f32 pattern delivered under a type (R35, R36): converted to a float type to nearest-even, the same value in both
halves of a packed 16-bit operand (R268), or as it stands under another type. -/
def floatLit (ty : Ty) (x : Nat) : Nat :=
  match ty with
  | .f32 => x
  | .f16 | .bf16 =>
    let c := (roundTo (decodeElem .f32 0 false x) ty .rn false false).1
    c + c * 65536
  | .f8e4 | .f8e5 | .f4 => (roundTo (decodeElem .f32 0 false x) ty .rn false false).1
  | _ => x

/-- An immediate view (Table 2-4), for an operand of 32 or 64 bits. -/
def viewBits (ty : Ty) (n : Nat) (imm : Word) (i : Nat) : Nat :=
  let w := 32 * n
  match i with
  | 1 => wrapN w (toSigned 16 (fld imm 0 16))
  | 2 => fld imm 16 16
  | 3 => floatLit ty imm.toNat
  | 4 => imm.toNat
  | _ => if tySigned ty then wrapN w (toSigned 32 imm.toNat) else imm.toNat

/-- A ply register of a group. -/
def State.preg (s : State) (g n : Nat) : PReg := ((s.group? g).map fun x => alGet x.p PReg.zero n).getD PReg.zero

/-- A resolved result as it stands in a 32-bit register or a pair (R297). -/
def resolveWord (ty : Ty) (x : Nat) : Nat :=
  if tySigned ty && decide (tyBits ty < 32) then wrapN 32 (toSigned (tyBits ty) x) else x

/-- A SIMT ply register read as an ordinary source, resolved to a type (row 12, R302): the value and its flags. -/
def State.plySource (s : State) (g l : Nat) (ty : Ty) (n : Nat) : Nat × Flg :=
  let p := s.preg g n
  let r := plyResolve (p.get l) (ancInt p.anc) ty .rn false (modeFtzo (s.mode g))
  (resolveWord ty r.1, r.2)

/-- The value of an operand of `n` registers, as a natural (R34 to R37). -/
def State.read (s : State) (g l : Nat) (e : Eff) (o : Opnd) (n : Nat) : Nat :=
  let t := s.thread g l
  match o with
  | .v k => if n = 1 then (t.vreg k.toNat).toNat else (t.vpair k.toNat).toNat
  | .h k => (t.hreg k.toNat).toNat
  | .spec x => (s.special g l x).toNat
  | .int k => k.toNat
  | .fconst x => floatLit e.ty (fconstBits x)
  | .view i => viewBits e.ty n e.imm i.toNat
  | .p k => (s.plySource g l e.ply k.toNat).1 % 2 ^ (32 * n)
  | _ => 0

/-- Operand A. -/
def State.rdA (s : State) (g l : Nat) (e : Eff) : Nat := s.read g l e e.a e.na
/-- Operand B. -/
def State.rdB (s : State) (g l : Nat) (e : Eff) : Nat := s.read g l e e.b e.nb
/-- Operand C. -/
def State.rdC (s : State) (g l : Nat) (e : Eff) : Nat := s.read g l e e.c e.nc
/-- Operand E. -/
def State.rdE (s : State) (g l : Nat) (e : Eff) : Nat := s.read g l e e.e e.ne

/-- The address of a memory operand: the pair A plus the sign-extended offset, mod 2^64 (R165). -/
def State.addrA (s : State) (g l : Nat) (e : Eff) : Dword :=
  BitVec.ofNat 64 (s.rdA g l e) + sext64 32 e.imm.toNat

/-- The flags of a cc operand; another operand reads all flags 0 (R239). -/
def State.rdCc (s : State) (g l : Nat) (o : Opnd) : BitVec 4 :=
  match o with
  | .cc n => (s.thread g l).flags n
  | _ => 0

/-- The thread with a destination of `n` registers written; a discarded one changes nothing. -/
def Thread.write (t : Thread) (o : Opnd) (n x : Nat) : Thread :=
  match o with
  | .v k => if n = 1 then t.setV k.toNat (BitVec.ofNat 32 x)
            else (t.setV k.toNat (BitVec.ofNat 32 x)).setV (k.toNat + 1) (BitVec.ofNat 32 (x / 2 ^ 32))
  | .h k => { t with h := alSet t.h (32 * t.level.toNat + k.toNat) (BitVec.ofNat 32 x) }
  | _ => t

/-- The thread with flags written to a cc destination; a discarded one changes nothing. -/
def Thread.writeCc (t : Thread) (o : Opnd) (x : BitVec 4) : Thread :=
  match o with
  | .cc n => t.setFlags n x
  | _ => t

/-- The flags that the implicit `RSLV`s of an instruction raise in a thread (row 12, R302). -/
def State.plyFlags (s : State) (g l : Nat) (e : Eff) : Flg :=
  ([e.a, e.b, e.c, e.e].zip e.imp).foldl (fun (f : Flg) o => match o with
    | (.p k, some ty) => f ||| (s.plySource g l ty k.toNat).2
    | _ => f) 0

/-- Flags ORed into the group's FLG (R81). -/
def State.raise (s : State) (g : Nat) (fl : Flg) : State :=
  if fl = 0 then s
  else s.modGroup g fun x => { x with mode := setFld x.mode 16 5 (Nat.lor (fld x.mode 16 5) fl.toNat) }

/-! ## Shape tags (R226) -/

/-- The general form that represents every lane's value: the least of d8, d16 and raw. -/
def generalForm (vs : List Word) : Tag :=
  let b := vs.headD 0
  let fits (w : Nat) (x : Word) : Bool := let d := (x - b).toInt; decide (-(2 ^ (w - 1) : Nat) ≤ d) && decide (d < (2 ^ (w - 1) : Nat))
  if vs.all (fits 8) then .d8 else if vs.all (fits 16) then .d16 else .raw

/-- The form inferred after a write: by every lane the first form of Table 9-2 that represents the values, otherwise a
general one. -/
def inferTag (all : Bool) (vs : List Word) : Tag :=
  let b := vs.headD 0
  let st := (vs.getD 1 b) - b
  if all && vs.all (fun x => x == b) then .uniform
  else if all && ((List.range vs.length).all fun i => vs.getD i 0 == b + BitVec.ofNat 32 i * st) then .affine
  else generalForm vs

/-- The tag of one register inferred after some lanes wrote it. -/
def Group.infer (x : Group) (lanes : List Nat) (r : Nat) : Group :=
  { x with tags := alSet x.tags r (inferTag ((List.range x.width).all fun l => lanes.contains l) (x.lanes.map fun t => t.vreg r)) }

/-- Whether a register is still empty to one of some lanes. -/
def Group.pends (x : Group) (lanes : List Nat) (r : Nat) : Bool :=
  lanes.any fun l => (x.lanes[l]?).any fun t => t.vEmpty.contains r

/-- The tags of vector registers after an instruction wrote them in some lanes: inferred at once, or, where its result is
outstanding, as its last lane lands. -/
def Group.retag (x : Group) (lanes regs : List Nat) : Group :=
  regs.foldl (fun (y : Group) r =>
    if y.pends lanes r then { y with tagWait := y.tagWait ++ [(r, lanes)] } else y.infer lanes r) x

/-- The tags of vector registers as results land in a lane: inferred for the lanes of the writing instruction when the last of
them has landed (R226). -/
def Group.landTags (x : Group) (l : Nat) (regs : List Nat) : Group :=
  regs.foldl (fun (y : Group) r => match y.tagWait.find? fun w => w.1 == r && w.2.contains l with
    | none => y.infer [l] r
    | some w => if y.pends w.2 r then y else { y.infer w.2 r with tagWait := y.tagWait.erase w }) x

/-- The tags where a lane of the writing instruction will write nothing after all (R226). -/
def Group.untag (x : Group) (l : Nat) (regs : List Nat) : Group :=
  regs.foldl (fun (y : Group) r => match y.tagWait.find? fun w => w.1 == r && w.2.contains l with
    | none => y
    | some w =>
      let rest := w.2.filter fun k => k ≠ l
      let z := { y with tagWait := y.tagWait.erase w }
      if rest = [] then z else if y.pends rest r then { z with tagWait := z.tagWait ++ [(r, rest)] } else z.infer rest r) x

/-- The tags after an instruction wrote registers in some lanes. -/
def State.retag (s : State) (g : Nat) (lanes regs : List Nat) : State :=
  if regs = [] ∨ lanes = [] then s else s.modGroup g fun x => x.retag lanes regs

/-- The tags as results land in a lane. -/
def State.landTags (s : State) (g l : Nat) (regs : List Nat) : State :=
  if regs = [] then s else s.modGroup g fun x => x.landTags l regs

/-! ## Issue -/

/-- What one thread does with an instruction: go on past it, go to an address, stay at it, or trap (R418). `halt`
leaves the thread as the new state has it, and `wait` is a stay with a changed state. -/
inductive Res
  | ok (s : State)
  | goto (s : State) (pc : Dword)
  | stay
  | wait (s : State)
  | trap (cause : Nat) (tval : Dword)
  | halt (s : State)
  deriving DecidableEq, Repr

/-- A wait that an issue does not end: any but the wait at a `RACQ`. -/
def Wait.lasting : Wait → Wait
  | .racq _ => .none
  | w => w

/-- A thread after it issued: at the next instruction, not to issue again in this cycle or under STALL (R45). -/
def Thread.advance (t : Thread) (pc : Dword) (cycle stall : Nat) : Thread :=
  { t with pc := pc, notBefore := cycle + max 1 stall, passed := 0, wait := t.wait.lasting, issues := t.issues + 1 }

/-- A thread that keeps its place and is not ready before the next cycle. -/
def State.hold (s : State) (g l : Nat) : State :=
  s.modThread g l fun t => { t with notBefore := max t.notBefore (s.cycle + 1) }

/-- A thread moved on to the next instruction word. -/
def State.pass (s : State) (g l stall : Nat) : State :=
  s.modThread g l fun t => t.advance (t.pc + 16) s.cycle stall

/-- Whether a cc register of a thread has a write outstanding (R41). -/
def State.ccBusy (s : State) (g l : Nat) (n : BitVec 2) : Bool :=
  s.acc.any fun p => p.2.g = g && p.2.lane = l && p.2.cc = some n

/-- Whether a thread has a `BWAIT` that has not returned (R141). -/
def State.barrierPending (s : State) (g l : Nat) : Bool :=
  s.acc.any fun p => p.2.g == g && p.2.lane == l && (match p.2.op with
    | .bwait _ => true
    | _ => false)

/-- Whether a raw image is being loaded into a ply register or tile of a group (R301). -/
def State.imageInto (s : State) (g : Nat) (tile : Bool) (n : Nat) : Bool :=
  ((s.group? g).map fun x => x.pimgs.any fun p => p.2.tile == tile && p.2.reg == n).getD false

/-- Whether a `TLD` to a shape register of a group is outstanding (R90). -/
def State.shapeBusy (s : State) (g n : Nat) : Bool :=
  s.acc.any fun p => p.2.g == g && (match p.2.op with
    | .shape _ r => r == n
    | _ => false)

/-- Whether a shape register or ply holder that an operand names has an outstanding load or matrix operation (R90, R301, R303). -/
def State.plyBusy (s : State) (g l : Nat) (o : Opnd) : Bool :=
  match o with
  | .s k => s.shapeBusy g k.toNat
  | .p k => (s.acc.any fun p => p.2.g == g && p.2.op == .cell k.toNat) || s.imageInto g false k.toNat
  | .a k => ((s.group? g).map fun x => x.tileOut.any fun p => p.1 = k.toNat).getD false || s.imageInto g true k.toNat ||
      s.barrierPending g l
  | _ => false

/-- The cause and address of a failed tile that an operand names (R325). -/
def State.tileFailed (s : State) (g : Nat) (o : Opnd) : Option (Nat × Dword) :=
  match o with
  | .a k => (s.group? g).bind fun x => (alGet? x.tiles k.toNat).bind fun t => t.failed
  | _ => none

/-- Whether a cc register that an operand names has no write outstanding. -/
def State.ccFree (s : State) (g l : Nat) (o : Opnd) : Bool :=
  match o with
  | .cc n => !s.ccBusy g l n
  | _ => true

/-- Whether a matrix operation that another group of its quad issued in a cycle locks a register: a write issued in that cycle is
what the collector reads (R313). -/
def State.lockedWith (s : State) (g id cyc : Nat) : Bool :=
  (s.core (s.coreOf g)).mq.any fun m => m.id == id && m.cyc == cyc && m.g != g

/-- Whether nothing but a source of a thread holds it back: its guard can be evaluated, no lock holds its destination, and, where
the guard passes, the destination is free of outstanding writes, no cc write is outstanding on a register that the instruction
names, and no ply holder is being loaded (R41, R42, R231, R301, R351). -/
def State.destReady (s : State) (g l : Nat) (e : Eff) : Bool :=
  let locked := ((s.group? g).map fun x => (e.d.vregs e.nd).any fun r =>
    x.locks.any fun k => k.1 == r && !s.lockedWith g k.2 s.cycle).getD false
  (e.guard.ccs.all fun n => !s.ccBusy g l n) && !locked &&
    (!e.guard.passes (s.thread g l) ||
      ((s.thread g l).full e.d e.nd && [e.a, e.b, e.c, e.d, e.e].all (s.ccFree g l) &&
        [e.a, e.b, e.c, e.d, e.e].all fun o => !s.plyBusy g l o))

/-- Whether every source of a thread that blocks is full (R42). -/
def Thread.sourcesFull (t : Thread) (e : Eff) : Bool :=
  (bit e.fe 0 || t.full e.a e.na) && (bit e.fe 1 || t.full e.b e.nb) && (bit e.fe 2 || t.full e.c e.nc) &&
    (bit e.fe 3 || t.full e.e e.ne)

/-- Whether nothing that an instruction names holds a thread back (R351). -/
def State.screenReady (s : State) (g l : Nat) (e : Eff) : Bool :=
  s.destReady g l e && (!e.guard.passes (s.thread g l) || (s.thread g l).sourcesFull e)

/-- TVAL of an operand check (R42): the field as encoded in [9:0] and its position in [11:10], A to E from 0. -/
def Eff.tvalOf (e : Eff) (i : Nat) : Dword := BitVec.ofNat 64 (e.words.getD (if i = 3 then 4 else i + 1) 0 + i * 1024)

/-- The trap of a source cursor in fault form that was made without `.nf` (R198): the recorded cause and TVAL, of the source
in the lowest position. -/
def Thread.cursorFault (t : Thread) (e : Eff) : Option (Nat × Dword) :=
  [e.a, e.b, e.c, e.e].findSome? fun o => match o with
    | .c k =>
      let c := t.creg k.toNat
      if t.full o 1 && !bit c 24 && bit c 22 && !bit c 159 then
        some (fld c 128 10, BitVec.ofNat 64 (fld c 32 40 + fld c 72 16 * 2 ^ 40))
      else none
    | _ => none

/-- The trap of an operand check that is the same in every thread: an unmapped register (R237), then a failed tile (R325). -/
def State.nameTrap (s : State) (g : Nat) (e : Eff) : Option (Nat × Dword) :=
  match [(e.a, e.na, 0), (e.b, e.nb, 1), (e.c, e.nc, 2), (e.e, e.ne, 3)].find? fun x => !s.mapped g x.1 x.2.1 with
  | some x => some (0x141, e.tvalOf x.2.2)
  | none =>
    if !s.mapped g e.d e.nd then some (0x141, BitVec.ofNat 64 (e.words.getD 0 0))
    else [e.a, e.b, e.c, e.e, if e.tileOk then .null else e.d].findSome? (s.tileFailed g)

/-- The trap of an empty source whose FE bit is set (R42): that of the lowest position. -/
def Thread.emptyTrap (t : Thread) (e : Eff) : Option (Nat × Dword) :=
  ([(e.a, e.na, 0), (e.b, e.nb, 1), (e.c, e.nc, 2), (e.e, e.ne, 3)].find? fun x =>
    bit e.fe x.2.2 && !t.full x.1 x.2.1).map fun x => (0x00A, e.tvalOf x.2.2)

/-- The trap of an operand check of a thread. -/
def State.screenTrap (s : State) (g l : Nat) (e : Eff) : Option (Nat × Dword) :=
  s.nameTrap g e <|> (s.thread g l).emptyTrap e

/-- The cause of an enabled flag that an implicit `RSLV` raises, in an instruction that raises none of its own (R82, R302). -/
def State.plyTrap (s : State) (g l : Nat) (e : Eff) : Option Nat :=
  if e.flg then none else flagCause (s.mode g) (s.plyFlags g l e)

/-- The issuing sub-group's decode: the effective fields, and the state with WARN set and YLD noted (R45, R52). -/
def State.decoded (s : State) (g : Nat) (sp : Spec) (f : Fields) : Eff × State :=
  let (e, w) := legalize sp f
  (e, s.modGroup g fun x =>
    { x with warn := x.warn ||| w.setWidth 32, yielded := if f.yld then s.cycle + 1 else x.yielded })

/-- The first read of a filled future acquires at its command's scope (R140). -/
def State.readFutures (s : State) (g : Nat) (e : Eff) (l : Nat) : State :=
  let regs := e.a.vregs e.na ++ e.b.vregs e.nb ++ e.c.vregs e.nc ++ e.e.vregs e.ne
  match (s.thread g l).futures.filter fun p => regs.contains p.1 && !(s.thread g l).vEmpty.contains p.1 with
  | [] => s
  | fs => (fs.foldl (fun (t : State) p => t.acquired g l p.2) s).modThread g l fun t =>
      { t with futures := t.futures.filter fun p => !fs.contains p }

/-- A trap of a thread by an enabled flag of its implicit `RSLV`s, FLG being set (R82). -/
def State.trapFlags (s : State) (g l c : Nat) (fl : Flg) : State := (s.raise g fl).trap g l c (BitVec.ofNat 64 fl.toNat)

/-- What a thread does with an instruction that raised flags, those of its implicit `RSLV`s among them: it traps where an
enabled one is raised, FLG being set in every case (R82), and otherwise goes on. -/
def State.flagged (s : State) (g l : Nat) (e : Eff) (fl : Flg) (k : State → Res) : Res :=
  let all := fl ||| s.plyFlags g l e
  match flagCause (s.mode g) all with
  | some c => .halt (s.trapFlags g l c all)
  | none => k (s.raise g all)

/-- What an instruction that went on does beside its own effect: a release covers what it covers (R402), and the flags of its
implicit `RSLV`s are set (R302). -/
def State.also (s : State) (g l : Nat) (e : Eff) (fl : Flg) : State :=
  (if e.rels then s.released g l else s).raise g fl

/-- A cause raised in several threads of a group. -/
def State.trapEach (s : State) (g : Nat) (lanes : List Nat) (cause : Nat) (tval : Dword) : State :=
  lanes.foldl (fun (t : State) l => if (t.group? g).isSome then t.trap g l cause tval else t) s

/-- Several threads held to the next cycle. -/
def State.holdEach (s : State) (g : Nat) (lanes : List Nat) : State := lanes.foldl (fun (t : State) l => t.hold g l) s

/-- Several threads moved past their instruction. -/
def State.passEach (s : State) (g : Nat) (lanes : List Nat) (stall : Nat) : State :=
  lanes.foldl (fun (t : State) l => t.pass g l stall) s

/-- One thread of a per-thread instruction, and whether its result is written or outstanding: it passes on where its guard fails, traps
where an operand check fails, and otherwise does what the instruction does (R41). -/
def laneStep (e : Eff) (body : Eff → State → Nat → Nat → Res) (g : Nat) (s : State) (l : Nat) : State × Bool :=
  match s.group? g with
  | none => (s, false)
  | some _ =>
    if !e.guard.passes (s.thread g l) then (s.pass g l e.stall, false)
    else match (s.thread g l).cursorFault e <|> s.nameTrap g e <|> (s.thread g l).emptyTrap e with
    | some (c, tv) => (s.trapWith g l c tv (s.thread g l).pc ((s.thread g l).cursorFault e).isSome false, false)
    | none => match s.plyTrap g l e with
      | some c => (s.trapFlags g l c (s.plyFlags g l e), false)
      | none =>
        let s0 := s.readFutures g e l
        match body e s0 g l with
        | .ok t => ((t.also g l e (s.plyFlags g l e)).pass g l e.stall, true)
        | .goto t pc => ((t.also g l e (s.plyFlags g l e)).modThread g l fun x => x.advance pc s.cycle e.stall, true)
        | .stay => (s.hold g l, false)
        | .wait t => (t.hold g l, false)
        | .trap c tv => (s0.trap g l c tv, false)
        | .halt t => (t.also g l e (s.plyFlags g l e), !(t.thread g l).full e.d e.nd)

/-- The threads of a sub-group one after another, and those whose results are written or outstanding. -/
def laneSteps (e : Eff) (body : Eff → State → Nat → Nat → Res) (g : Nat) : State → List Nat → State × List Nat
  | s, [] => (s, [])
  | s, l :: ls =>
    let (t, w) := laneStep e body g s l
    let (u, ws) := laneSteps e body g t ls
    (u, if w then l :: ws else ws)

/-- The lanes of a list whose guard passes. -/
def State.passing (s : State) (g : Nat) (lanes : List Nat) (e : Eff) : List Nat :=
  lanes.filter fun l => e.guard.passes (s.thread g l)

/-- The lanes of a list that are not in another. -/
def lanesBut (lanes out : List Nat) : List Nat := lanes.filter fun l => !out.contains l

/-- An instruction that acts separately for each thread whose guard passes. The threads that are ready issue; the others keep
their place (R351, R353). -/
def issueThreads (sp : Fields → Spec) (ready : Eff → State → Nat → Nat → Bool)
    (body : Eff → State → Nat → Nat → Res) (f : Fields) (s : State) : Out :=
  match s.cur with
  | none => .next s
  | some i =>
    let (e, s1) := s.decoded i.g (sp f) f
    match i.lanes.filter fun l => s1.screenReady i.g l e && (!e.guard.passes (s1.thread i.g l) || ready e s1 i.g l) with
    | [] => .next (s.holdEach i.g i.lanes)
    | l0 :: ls =>
      let (s2, wrote) := laneSteps e body i.g (s1.holdEach i.g (lanesBut i.lanes (l0 :: ls))) (l0 :: ls)
      .next (s2.retag i.g wrote (e.d.vregs e.nd))

/-- An instruction that acts once for its sub-group, by its lowest-numbered passing thread; a cause that this action
meets is raised in every passing thread (R41). It waits for the operands of that thread, and for what it writes in each
(R228, log 73); a thread that would be the lowest and whose operands are not there is not ready, and takes no part (R351). -/
def issueOnce (sp : Fields → Spec) (ready : Eff → State → Nat → Nat → List Nat → Bool)
    (body : Eff → State → Nat → Nat → List Nat → Res) (f : Fields) (s : State) : Out :=
  match s.cur with
  | none => .next s
  | some i =>
    let (e, s1) := s.decoded i.g (sp f) f
    let free := i.lanes.filter fun l => s1.destReady i.g l e
    let act := (s1.passing i.g free e).dropWhile fun l => !(s1.thread i.g l).sourcesFull e
    let rest := lanesBut free (s1.passing i.g free e)
    let held := s1.holdEach i.g (lanesBut i.lanes (act ++ rest))
    match act with
    | [] => if rest = [] then .next (s.holdEach i.g i.lanes) else .next (held.passEach i.g rest e.stall)
    | l0 :: _ =>
      let trapped := fun (t : State) (c : Nat) (tv : Dword) => (t.trapEach i.g act c tv).passEach i.g rest e.stall
      if ready e s1 i.g l0 act then
        match s1.screenTrap i.g l0 e with
        | some (c, tv) => .next (trapped held c tv)
        | none => match s1.plyTrap i.g l0 e with
          | some c => .next (trapped (held.raise i.g (s1.plyFlags i.g l0 e)) c (BitVec.ofNat 64 (s1.plyFlags i.g l0 e).toNat))
          | none =>
            let s2 := held.readFutures i.g e l0
            match body e s2 i.g l0 act with
            | .ok t =>
              let u := ((t.also i.g l0 e (s1.plyFlags i.g l0 e)).passEach i.g act e.stall).passEach i.g rest e.stall
              .next (u.retag i.g act (e.d.vregs e.nd))
            | .goto t pc =>
              .next ((act.foldl (fun (u : State) l => u.modThread i.g l fun x => x.advance pc s.cycle e.stall)
                (t.also i.g l0 e (s1.plyFlags i.g l0 e))).passEach i.g rest e.stall)
            | .stay => .next (s.holdEach i.g i.lanes)
            | .wait t => .next (t.holdEach i.g i.lanes)
            | .trap c tv => .next (trapped s2 c tv)
            | .halt t => .next ((t.also i.g l0 e (s1.plyFlags i.g l0 e)).passEach i.g rest e.stall)
      else .next (s.holdEach i.g i.lanes)

/-- What the threads of a lane instruction read (R256): the lanes whose operand A a thread reads, and whether B is read in
every thread or in the lowest-numbered active one alone. -/
structure Reads where
  a : Eff → State → Nat → Nat → List Nat
  once : Bool

/-- What the group's first issue of this cycle replaced: registers by lane, with their old values (R256). -/
def State.oldWords (s : State) (g : Nat) : List (Nat × Nat × Word) :=
  (((s.group? g).bind (·.prior)).filter fun p => p.cycle = s.cycle).elim [] (·.v)

/-- The state as an instruction across lanes reads it: what an instruction of another sub-group issued in this cycle has written, or
will write, stands at its old value (R256). -/
def State.asBefore (s : State) (g : Nat) : State :=
  (s.oldWords g).foldl (fun (t : State) w => t.modThread g w.1 fun x =>
    { x.setV w.2.1 w.2.2 with vEmpty := x.vEmpty.filter fun r => r ≠ w.2.1 }) s

/-- The state after an instruction across lanes, with what it read at its old value, and did not write, as it now is. -/
def State.asNow (s now : State) (g : Nat) (wrote : Nat → Nat → Bool) : State :=
  ((now.oldWords g).filter fun w => !wrote w.1 w.2.1).foldl (fun (t : State) w => t.modThread g w.1 fun x =>
    let y := now.thread g w.1
    { x.setV w.2.1 (y.vreg w.2.1) with vEmpty := if y.vEmpty.contains w.2.1 then w.2.1 :: x.vEmpty else x.vEmpty }) s

/-- An instruction across the lanes of its sub-group (R256): every read is made before any write of its cycle. A thread takes part when its
own reads are ready; an empty register that A names with its FE bit traps every active thread, as does one that B names where it
is read once. A thread that traps by a flag of its own implicit `RSLV` writes nothing (R82). -/
def issueGroup (sp : Fields → Spec) (rd : Reads) (body : Eff → State → Nat → List Nat → State) (f : Fields) (s : State) : Out :=
  match s.cur with
  | none => .next s
  | some i =>
    let (e, s1) := s.decoded i.g (sp f) f
    let r := s1.asBefore i.g
    let fullA := fun l => (rd.a e r i.g l).all fun m => (r.thread i.g m).full e.a e.na
    let fullB := fun l => (r.thread i.g l).full e.b e.nb
    let lanes := i.lanes.filter fun l => s1.destReady i.g l e &&
      (!e.guard.passes (s1.thread i.g l) || ((bit e.fe 0 || fullA l) && (rd.once || bit e.fe 1 || fullB l)))
    let act := (s1.passing i.g lanes e).dropWhile fun l => rd.once && !bit e.fe 1 && !fullB l
    let rest := lanesBut lanes (s1.passing i.g lanes e)
    let held := s1.holdEach i.g (lanesBut i.lanes (act ++ rest))
    match act with
    | [] => if rest = [] then .next (s.holdEach i.g i.lanes) else .next (held.passEach i.g rest e.stall)
    | l0 :: _ =>
        let s2 := held.passEach i.g rest e.stall
        let bad := s1.nameTrap i.g e <|> (if act.all fullA then none else some (0x00A, e.tvalOf 0)) <|>
          (if !rd.once || fullB l0 then none else some (0x00A, e.tvalOf 1)) <|>
          (if rd.once then (s1.plyTrap i.g l0 e).map fun c => (c, BitVec.ofNat 64 (s1.plyFlags i.g l0 e).toNat) else none)
        match bad with
        | some (c, tv) =>
          .next ((if rd.once && (s1.plyTrap i.g l0 e).isSome then s2.raise i.g (s1.plyFlags i.g l0 e) else s2).trapEach i.g act c tv)
        | none =>
          let empty := if rd.once then [] else act.filter fun l => !fullB l
          let live := lanesBut act empty
          let flagged := if rd.once then [] else live.filter fun l => (s1.plyTrap i.g l e).isSome
          let done := lanesBut live flagged
          let now := live.foldl (fun (u : State) l => u.readFutures i.g e l) s2
          let s3 := (body e (now.asBefore i.g) i.g live).asNow now i.g fun l n => live.contains l && (e.d.vregs e.nd).contains n
          let s4 := flagged.foldl (fun (u : State) l => u.modThread i.g l fun _ => s2.thread i.g l) s3
          let s5 := done.foldl (fun (u : State) l => if rd.once && l != l0 then u else u.raise i.g (s1.plyFlags i.g l e)) s4
          let s6 := (s5.passEach i.g done e.stall).retag i.g done (e.d.vregs e.nd)
          let s7 := flagged.foldl (fun (u : State) l => match s1.plyTrap i.g l e with
            | some c => if (u.group? i.g).isSome then u.trapFlags i.g l c (s1.plyFlags i.g l e) else u
            | none => u) s6
          .next (s7.trapEach i.g empty 0x00A (e.tvalOf 1))

/-- No condition beyond the operands' own. -/
def always : Eff → State → Nat → Nat → Bool := fun _ _ _ _ => true

/-- No condition beyond the operands' own, for an instruction that acts once. -/
def alwaysOnce : Eff → State → Nat → Nat → List Nat → Bool := fun _ _ _ _ _ => true

end Sys2Proof.Machine
end

