-- ==== Sys2Proof/Machine/Access.lean ====
section
/-! DEFINITION. Thread accesses to memory: the paths and their checks (R100 to R103, R472), outstanding accesses, the
store buffer (R164), what a load reads (R400), and late traps (R474). -/

namespace Sys2Proof.Machine

open Sys2Proof

/-- What an access does, for the order of causes of R472; a `word` is read under the path rules of atomics (R377). -/
inductive OpKind
  | load | store | atomic | fe | word
  deriving DecidableEq, Repr

/-- What the checks of an access end with: a cause; a park; a wait for a line of page table or binding table that a command owns
(R127); or what the address reaches. -/
inductive Rsv
  | fault (cause : Nat)
  | park (p : Park)
  | wait
  | mem (l : Loc) (home : Nat)
  | spad (team side off : Nat)
  | param (off : Nat)
  | const (l : Loc) (home : Nat)
  | view (tid idx : Nat)
  | ctl (off : Nat)
  deriving DecidableEq, Repr

/-- The bits of a path's layout that must be zero, as the lowest of them, and its cause (Table 4-2). -/
def pathZero (sel : Nat) : Nat × Nat :=
  match sel with
  | 0 => (56, 0x081) | 2 => (19, 0x082) | 3 => (19, 0x082) | 4 => (32, 0x085) | 15 => (24, 0x089)
  | _ => (60, 0)

/-- The kind of translation an access needs. -/
def OpKind.kind : OpKind → Kind
  | .load => .read
  | .store => .write
  | .atomic => .atomic
  | _ => .read

/-- The ACC code of a fault record (Table 4-7). -/
def Kind.acc : Kind → Nat
  | .read => 0
  | .write => 1
  | .atomic => 2
  | .fetch => 3

/-- Whether a list of runs covers a run of bytes, by fuel. -/
def runsCover (rs : List (Nat × Nat)) : Nat → Nat → Nat → Bool
  | 0, _, n => n == 0
  | k + 1, off, n =>
    n == 0 || (match rs.find? fun r => decide (r.1 ≤ off) && decide (off < r.1 + r.2) with
      | none => false
      | some r => runsCover rs k (r.1 + r.2) (off + n - (r.1 + r.2)))

/-- Whether a scratchpad reservation holds a run of bytes mapped: in the fixed part and in granted ranges (R101). -/
def State.spadMapped (s : State) (team side off n : Nat) : Bool :=
  match alGet? s.teams team with
  | none => false
  | some t =>
    let rs := (0, (s.kernelOf t.launch).scrF) :: (s.spad team side).mapped
    runsCover rs rs.length off n

/-- The issuer of a thread's own accesses, or of the walker that serves it. -/
def State.issuerOf (s : State) (g l unit : Nat) : Issuer :=
  let team := (s.group? g).bind (·.team)
  { slot := s.slotOf g, core := some (s.coreOf g), die := dieOf (s.coreOf g), team := team.map fun t => (t, s.sideOf g),
    pair := ((team.bind (alGet? s.teams)).map (·.pair)).getD false,
    launch := ((s.group? g).map (·.launch)).getD 0, above := (s.thread g l).level != 0, unit := unit }

/-- The ACC code of a unit's access (Table 4-7). A walker's writes carry 6 as its reads do (log 90). -/
def accCode (unit : Nat) (k : Kind) : Nat :=
  if unit = 0 ∨ unit = 5 then k.acc else if unit = 1 then 6 else if k = .read then 4 else 5

/-- The generic translation of an access. -/
def State.xlateFor (s : State) (i : Issuer) (va : Dword) (k : Kind) : Rsv × State :=
  match s.xlate i.core i.die i.slot va.toNat k with
  | (.ok a home, s1) => (.mem (.node a) home, s1)
  | (.fatal c, s1) => (.fault c, s1)
  | (.wait, s1) => (.wait, s1)
  | (.park kind lvl, s1) => (.park ⟨i.slot, va, kind, accCode i.unit k, lvl⟩, s1)

/-- A domain binding entry admits an access of this device (Table 14-3, R334). -/
def bindingOk (e : Nat) (k : Kind) : Bool :=
  fldN e 0 1 == 1 && fldN e 4 12 == 0 && fldN e 52 76 == 0 &&
    (match k with
      | .write => fldN e 2 1 == 1
      | .atomic => fldN e 3 1 == 1
      | _ => fldN e 1 1 == 1)

/-- The checks of one access in the order of R472. `align` is what the address must be a multiple of, with its cause;
`plain` says that it is a form the control path takes (R166). A fatal fault of the read of the issuer's domain binding raises 0x088,
as a binding that admits nothing does, but for a poisoned sector (log 89). -/
def State.reach (s : State) (i : Issuer) (k : OpKind) (va : Dword) (n align alignCause : Nat) (plain : Bool) :
    Rsv × State :=
  let sel := fld va 60 4
  if !(([0, 2, 3, 4, 5, 6, 7, 15] : List Nat).contains sel) then (.fault 0x080, s)
  else if sel = 3 ∧ i.team.isSome ∧ ¬ i.pair then (.fault 0x083, s)
  else if sel = 15 ∧ ¬ i.above then (.fault 0x089, s)
  else if fld va (pathZero sel).1 (60 - (pathZero sel).1) ≠ 0 then (.fault (pathZero sel).2, s)
  else if k = .fe ∧ sel ≠ 2 ∧ sel ≠ 3 then (.fault 0x096, s)
  else if (sel = 4 ∨ sel = 5) ∧ (k = .store ∨ k = .atomic ∨ k = .word) then (.fault 0x084, s)
  else if sel = 15 ∧ (k = .atomic ∨ k = .word) then (.fault 0x095, s)
  else if sel = 15 ∧ ¬ plain then (.fault 0x094, s)
  else if va.toNat % align ≠ 0 then (.fault alignCause, s)
  else match sel with
  | 0 => s.xlateFor i va k.kind
  | 2 | 3 => match i.team with
    | none => (.fault 0x082, s)
    | some (t, own) =>
      let side := if sel = 2 then own else 1 - own
      if s.spadMapped t side (fld va 0 19) n then (.spad t side (fld va 0 19), s) else (.fault 0x082, s)
  | 4 =>
    let off := fld va 0 32
    let kn := s.kernelOf i.launch
    if off + n ≤ 16 * kn.param then (.param off, s)
    else if 0x1000 ≤ off ∧ off + n ≤ 0x1000 + kn.csize then
      let ga := kn.code + BitVec.ofNat 64 (kn.clen + (off - 0x1000))
      match s.xlateFor i ga .read with
      | (.mem p h, s1) =>
        if ga.toNat % 64 + n ≤ 64 then (.const p h, s1)
        else (match s1.xlateFor i (ga + BitVec.ofNat 64 (64 - ga.toNat % 64)) .read with
          | (.mem _ _, s2) => (.const p h, s2)
          | r => r)
      | r => r
    else (.fault 0x085, s)
  | 5 => (.view (fld va 44 16) (fld va 0 44), s)
  | 6 => (.mem (.pool (s.ctx i.slot).id.toNat (fld va 48 12) (fld va 0 48)) i.die, s)
  | 7 =>
    let idx := fld va 51 9
    if 384 ≤ idx then (.fault 0x088, s)
    else match s.xlateFor i ((s.ctx i.slot).dombase + BitVec.ofNat 64 (16 * idx)) .read with
      | (.mem (.node a) _, s1) =>
        if s1.ownedBy none a 16 then (.wait, s1)
        else if s1.poisoned a 16 then (.fault 0x169, s1)
        else if bindingOk (s1.readNodeN a 16) k.kind then (.mem (.peer i.slot idx (fld va 0 51)) i.die, s1)
        else (.fault 0x088, s1)
      | (.park p, s1) => (.park p, s1)
      | (.wait, s1) => (.wait, s1)
      | (.fault c, s1) => (.fault (if c = 0x169 then c else 0x088), s1)
      | (_, s1) => (.fault 0x088, s1)
  | _ => (.ctl (fld va 0 24), s)

/-- Whether a non-fatal fault of a thread's own access traps instead of parking: above trap level 0 with HTRAP set (R420). -/
def State.parkTraps (s : State) (g l : Nat) : Bool := (s.thread g l).level != 0 && bit (s.ctx (s.slotOf g)).tcfg 0

/-- The checks of a thread's own access, a non-fatal fault being cause 0x098 where it traps (R420). -/
def State.resolve (s : State) (g l : Nat) (k : OpKind) (va : Dword) (n align alignCause : Nat) (plain : Bool) :
    Rsv × State :=
  match s.reach (s.issuerOf g l 0) k va n align alignCause plain with
  | (.park p, s1) =>
    if s.parkTraps g l then (.fault 0x098, s1) else (.park p, s1)
  | r => r

/-- A run of bytes cut at the multiples of a size, by fuel: the offset and length of each piece. -/
def cutAt (unit va : Nat) : Nat → Nat → Nat → List (Nat × Nat)
  | 0, _, _ => []
  | k + 1, off, n =>
    if n = 0 then []
    else
      let m := min n (unit - (va + off) % unit)
      (off, m) :: cutAt unit va k (off + m) (n - m)

/-- The pieces of a run of bytes, each within one 64-byte sector. -/
def piecesOf (va : Dword) (off n : Nat) : List (Nat × Nat) := cutAt 64 va.toNat (n / 64 + 2) off n

/-- The aligned 16-byte pieces of a run of bytes, each of which is single-copy-atomic (R398). -/
def atomsOf (va : Dword) (off n : Nat) : List (Nat × Nat) := cutAt 16 va.toNat (n / 16 + 2) off n

/-- The checks of a run of pieces at an address: the first cause, or what each piece reaches. The address itself must be
a multiple of `align`. -/
def State.resolveRun (s : State) (g l : Nat) (k : OpKind) (va : Dword) (align : Nat) :
    List (Nat × Nat) → (Nat ⊕ List ((Nat × Nat) × Rsv)) × State
  | [] => (.inr [], s)
  | q :: qs =>
    match s.resolve g l k va 1 align 0x094 false with
    | (.fault c, s1) => (.inl c, s1)
    | (_, s0) =>
      match s0.resolve g l k (va + BitVec.ofNat 64 q.1) q.2 1 0x094 false with
      | (.fault c, s1) => (.inl c, s1)
      | (r, s1) => match s1.resolveRun g l k va align qs with
        | (.inl c, s2) => (.inl c, s2)
        | (.inr rs, s2) => (.inr ((q, r) :: rs), s2)

/-! ## Scratchpad banks (R158 to R160) -/

/-- The bytes of a reservation. -/
def Spad.read (x : Spad) (off n : Nat) : List Byte := (List.range n).map fun i => alGet x.bytes 0 (off + i)

/-- Sparse bytes with a run written; a zero is not listed. -/
def bytesSet : AL Byte → Nat → List Byte → AL Byte
  | m, _, [] => m
  | m, a, b :: bs => bytesSet (if b = 0 then alDel m a else alSet m a b) (a + 1) bs

/-- A reservation with bytes written. -/
def Spad.write (x : Spad) (off : Nat) (bs : List Byte) : Spad := { x with bytes := bytesSet x.bytes off bs }

/-- Whether the granule of an offset is full. -/
def Spad.isFull (x : Spad) (off : Nat) : Bool := !x.empties.contains (off / 16)

/-- A reservation with a granule set full or empty. -/
def Spad.setFull (x : Spad) (off : Nat) (full : Bool) : Spad :=
  { x with empties := if full then x.empties.filter fun k => k ≠ off / 16
                      else if x.empties.contains (off / 16) then x.empties else (off / 16) :: x.empties }

/-- The granules of a range set full or empty. -/
def Spad.setRange (x : Spad) (off n : Nat) (full : Bool) : Spad :=
  (List.range (n / 16)).foldl (fun y i => y.setFull (off + 16 * i) full) x

/-! ## Outstanding accesses -/

/-- A new access of a thread: its destination registers are empty until it lands (R167). -/
def State.addAcc (s : State) (a : Acc) : State :=
  let (n, s1) := s.fresh
  { s1 with acc := alSet s1.acc n a }.modThread a.g a.lane fun t =>
    { t with vEmpty := t.vEmpty ++ a.dst, cEmpty := t.cEmpty ++ a.cdst }

/-- An access of a thread with nothing but its operation. -/
def State.newAcc (s : State) (g l : Nat) (va : Dword) (op : AccOp) : Acc :=
  { g := g, lane := l, slot := s.slotOf g, core := s.coreOf g, va := va, tgt := none, home := 0, op := op, dst := [],
    cdst := [], cc := none, acq := none, hold := false, park := none, ns := s.ns, pc := (s.thread g l).pc, cyc := s.cycle,
    mark := (s.thread g l).issues + 1, parked := false, recs := [], l2 := 0, lanes := [], holds := [] }

/-- The place of an access in memory, where it is bound. -/
def Target.loc? : Target → Option Loc
  | .mem l => some l
  | .spad _ _ _ => none

/-- Whether two runs of bytes overlap, by bound places or, where one is unbound, by virtual addresses. -/
def overlapLoc (a : Option Loc) (va : Dword) (n : Nat) (b : Option Loc) (vb : Dword) (m : Nat) : Bool :=
  match a, b with
  | some x, some y =>
    x.line == y.line && decide (x.off < y.off + m) && decide (y.off < x.off + n)
  | _, _ => decide (va.toNat < vb.toNat + m) && decide (vb.toNat < va.toNat + n)

/-- Whether an access may touch bytes of an earlier one of its thread: two generic addresses of which one is not bound may be
aliases, which agree below the least page (R399); an earlier one that is parked has no place to be an alias of. -/
def overlapOwn (parked : Bool) (a : Option Loc) (va : Dword) (n : Nat) (b : Option Loc) (vb : Dword) (m : Nat) : Bool :=
  overlapLoc a va n b vb m ||
    (!parked && (a.isNone || b.isNone) && fld va 60 4 == 0 && fld vb 60 4 == 0 &&
      (decide (fld (vb - va) 0 12 < n) || decide (fld (va - vb) 0 12 < m)))

/-- The bytes an access touches. -/
def AccOp.size : AccOp → Nat
  | .load _ n _ _ _ _ => n
  | .view _ n _ _ => n
  | .const _ n _ _ => n
  | .ldfe _ n _ => n
  | .stfe bs _ => bs.length
  | .sst bs => bs.length
  | .atom op => match op with
    | .rmw _ ty _ => tyBits ty / 8
    | .cas ty _ _ => tyBits ty / 8
    | .padd _ _ _ => 64
    | _ => 16
  | .feclr n _ => n
  | .walk _ _ => 0
  | .cell _ => 64
  | .image _ _ n => n
  | .value _ => 0
  | .probe _ => 0
  | .pref _ _ => 0
  | .sfu _ _ _ _ _ => 0
  | .bwait _ => 0
  | .fwait _ => 0
  | .refill _ => 8
  | .poll => 8
  | .spawn _ raise => if raise then 8 else 0
  | .shape _ _ => 0
  | .jinit bs => bs.length

/-- The granules or bytes two accesses of one thread share on a scratchpad. -/
def overlapTgt (a : Target) (n : Nat) (b : Target) (m : Nat) : Bool :=
  match a, b with
  | .spad t i x, .spad u j y =>
    t == u && i == j && decide (x / 16 ≤ (y + m - 1) / 16) && decide (y / 16 ≤ (x + n - 1) / 16)
  | .mem x, .mem y => x.line == y.line && decide (x.off < y.off + m) && decide (y.off < x.off + n)
  | _, _ => false

/-- Whether an earlier access of the same thread to the same bytes is outstanding (R399): accesses and stores not bound
yet, below a number. -/
def State.earlierSame (s : State) (g l id : Nat) (tgt : Option Target) (va : Dword) (n : Nat) : Bool :=
  (s.acc.any fun p => decide (p.1 < id) && p.2.of g l && decide (0 < p.2.op.size) &&
    (match p.2.tgt, tgt with
      | some x, some y => overlapTgt x p.2.op.size y n
      | _, _ => overlapOwn p.2.park.isSome none p.2.va p.2.op.size none va n)) ||
    (s.sb.any fun p => decide (p.1 < id) && p.2.of g l && p.2.loc.isNone &&
      overlapOwn p.2.park.isSome none p.2.va p.2.bytes.length none va n)

/-- Whether an access is a load that is served with others of its instruction (R163). -/
def AccOp.isLoad : AccOp → Bool
  | .load _ _ _ _ _ _ => true
  | _ => false

/-- Whether an access waits for a full/empty bit. -/
def AccOp.isFe : AccOp → Bool
  | .ldfe _ _ _ | .stfe _ _ => true
  | _ => false

/-- Whether an access is an `STFE` that waits at its bank. -/
def AccOp.isStfe : AccOp → Bool
  | .stfe _ _ => true
  | _ => false

/-- Whether a thread has no access outstanding but for `STFE`s that wait at a bank: its reads are bound. -/
def State.readsBound (s : State) (g l : Nat) : Bool :=
  s.acc.all fun p => !p.2.of g l || p.2.op.isStfe || p.2.op.isPref

/-- Whether an `STFE` of the thread below a number waits at its bank (R173, R402). -/
def State.stfeAhead (s : State) (g l id : Nat) : Bool :=
  s.acc.any fun p => decide (p.1 < id) && p.2.g == g && p.2.lane == l && p.2.op.isStfe

/-- The least number that a new access would have. -/
def State.now (s : State) : Nat := s.nextId

/-! ## The store buffer (R164) -/

/-- The sector that an entry holds bytes of: its place, or, where it is not translated, its context and address. -/
def SbEntry.sector (x : SbEntry) : Loc × Nat × Nat :=
  match x.loc with
  | some l => (l.line, l.sec, 0)
  | none => (.node 0, x.slot + 1, x.va.toNat / 64)

/-- The entries of a core's store buffer: stores to one sector share one (R164, log 77). -/
def State.sbUsed (s : State) (core : Nat) : List (Loc × Nat × Nat) :=
  ((s.sb.filter fun p => p.2.core = core).map fun p => p.2.sector).eraseDups

/-- Whether a core's store buffer has room for an entry more. -/
def State.sbRoom (s : State) (core : Nat) : Bool := decide ((s.sbUsed core).length < 128)

/-- The room for a number of entries; a store of more than the whole buffer needs it empty. -/
def State.sbFits (s : State) (core n : Nat) : Bool := decide ((s.sbUsed core).length + min n 128 ≤ 128)

/-- Whether a resolved store of a thread finds room in the store buffer: a store to a bank needs none, and one to a sector that
the buffer holds joins it (R164). -/
def State.storeRoom (s : State) (g : Nat) (va : Dword) (r : Rsv) : Bool :=
  let key : Option (Loc × Nat × Nat) := match r with
    | .mem l _ => some (l.line, l.sec, 0)
    | .park _ => some (.node 0, s.slotOf g + 1, va.toNat / 64)
    | _ => none
  match key with
  | none => true
  | some k => s.sbRoom (s.coreOf g) || (s.sbUsed (s.coreOf g)).contains k

/-- A store entered in the store buffer, its sectors dropped from the core's own L1 (R162). `lanes` are the other lanes that its outcome
concerns (R41). -/
def State.bufferStore (s : State) (g l : Nat) (lanes : List Nat) (va : Dword) (loc : Option Loc) (home : Nat) (bs : List Byte)
    (l2 : Nat) (spill : Bool) (park : Option Park) : State :=
  let (n, s1) := s.fresh
  let core := s.coreOf g
  let x : SbEntry :=
    { core := core, g := g, lane := l, slot := s.slotOf g, va := va, loc := loc, home := home, bytes := bs, l2 := l2,
      spill := spill, park := park, ns := s.ns, pc := (s.thread g l).pc, cyc := s.cycle, mark := (s.thread g l).issues + 1,
      parked := park.isSome, lanes := lanes, readers := [], rel := none }
  let s2 := { s1 with sb := alSet s1.sb n x }
  match loc with
  | some p => s2.dropL1 core p bs.length
  | none => s2

/-- Whether a deferred scratchpad store of a lower lane of the thread's group has bytes of a run (R163). -/
def State.sstAhead (s : State) (g id : Nat) (t : Target) (n : Nat) : Bool :=
  s.acc.any fun p => decide (p.1 < id) && p.2.g == g && (match p.2.op, p.2.tgt with
    | .sst bs, some u => overlapTgt u bs.length t n
    | _, _ => false)

/-- A resolved store of a thread: to the bank, to the store buffer, or parked in it. Control-path and refused addresses
are handled before. -/
def State.store (s : State) (g l : Nat) (lanes : List Nat) (va : Dword) (r : Rsv) (bs : List Byte) (l2 : Nat) (spill : Bool) : State :=
  match r with
  | .mem p h => s.bufferStore g l lanes va (some p) h bs l2 spill none
  | .park p => (s.bufferStore g l lanes va none 0 bs l2 spill (some p)).parkFault p.slot (s.coreOf g) 0 p
  | .spad t i o =>
    if s.earlierSame g l s.now (some (.spad t i o)) va bs.length || s.sstAhead g s.now (.spad t i o) bs.length then
      s.addAcc { s.newAcc g l va (.sst bs) with tgt := some (.spad t i o), lanes := lanes }
    else s.modSpad t i fun x => x.write o bs
  | _ => s

/-! ## What a load reads (R163, R164, R400) -/

/-- The offset in an entry of the byte at a place, reached by a context at an address: by the entry's own place, or, where it has none,
by its context and address (a parked store keeps its place in the buffer; R115). -/
def SbEntry.offsetOf (x : SbEntry) (slot : Nat) (va : Dword) (p : Loc) : Option Nat :=
  match x.loc with
  | some y => if y.line = p.line ∧ y.off ≤ p.off ∧ p.off < y.off + x.bytes.length then some (p.off - y.off) else none
  | none => if x.slot = slot ∧ x.va.toNat ≤ va.toNat ∧ va.toNat < x.va.toNat + x.bytes.length then some (va.toNat - x.va.toNat) else none

/-- The entry of a core's store buffer that holds a byte for a read, with its offset there: the latest; the threads of some lanes of a
group do not see their stores issued after the access `id`. -/
def State.holder (s : State) (core slot g : Nat) (ls : List Nat) (id : Nat) (va : Dword) (p : Loc) : Option ((Nat × SbEntry) × Nat) :=
  (s.sb.filterMap fun q =>
    if q.2.core = core ∧ (q.2.g ≠ g ∨ !ls.contains q.2.lane ∨ q.1 < id) then (q.2.offsetOf slot va p).map fun o => (q, o)
    else none).getLast?

/-- A run of bytes as the store buffer of a core has it, over what lies below. -/
def State.forward (s : State) (core slot g : Nat) (ls : List Nat) (id : Nat) (va : Dword) (p : Loc) (bs : List Byte) : List Byte :=
  (List.range bs.length).map fun i => match s.holder core slot g ls id (va + BitVec.ofNat 64 i) (p.add i) with
    | some (q, o) => q.2.bytes.getD o 0
    | none => bs.getD i 0

/-- The entries whose bytes a read of some lanes takes note that those have read them (R402). -/
def State.noteRead (s : State) (core slot g : Nat) (ls : List Nat) (id : Nat) (va : Dword) (p : Loc) (n : Nat) : State :=
  let hit := (List.range n).filterMap fun i => (s.holder core slot g ls id (va + BitVec.ofNat 64 i) (p.add i)).map fun q => q.1.1
  if hit = [] then s
  else { s with sb := s.sb.map fun q =>
    if hit.contains q.1 then (q.1, { q.2 with readers := (q.2.readers ++ ls.map fun l => (g, l)).eraseDups }) else q }

/-- Whether a core's store buffer holds bytes of a run that an access, of a number, is to find at their home: an atomic step of the core
waits for every store of the core that has entered it before (R399, R401). -/
def State.bufferedBefore (s : State) (core slot id : Nat) (loc : Option Loc) (va : Dword) (n : Nat) : Bool :=
  s.sb.any fun q => decide (q.1 < id) && q.2.core == core && ((q.2.loc.isSome && loc.isSome) || q.2.slot == slot) &&
    overlapLoc q.2.loc q.2.va q.2.bytes.length loc va n

/-- Whether the core's store buffer holds a store to the sector of a place that a context reaches at an address (R161). -/
def State.sbHolds (s : State) (core slot : Nat) (va : Dword) (p : Loc) : Bool :=
  s.sb.any fun q => q.2.core == core && (match q.2.loc with
    | some y => y.line == p.line && (y.sec == p.sec || (y.add (q.2.bytes.length - 1)).sec == p.sec)
    | none => q.2.slot == slot && q.2.va.toNat / 64 == va.toNat / 64)

/-- The start of the sector of a place. -/
def Loc.sector (p : Loc) : Loc :=
  match p with
  | .node a => .node (a / 64 * 64)
  | .pool c d o => .pool c d (o / 64 * 64)
  | .peer c i v => .peer c i (v / 64 * 64)

/-- The 64-byte sector of a place below L1: the home for node space; the RDC's copy or the answer from outside for pool
and peer places. None where the answer has not come. A pool or peer read with `home` or the no-allocate hint is served
past the RDC (R121, R123, R400). -/
def State.sectorBelow (s : State) (core : Nat) (p : Loc) (home : Bool) (l2 : Nat) (ans : RemoteAns) :
    Option (List Byte) :=
  match p with
  | .node a => some (s.readNode (a / 64 * 64) 64)
  | _ =>
    let copy := cacheSector (s.die (dieOf core)).rdc p
    if copy.isSome ∧ ¬ home ∧ l2 ≠ 3 then copy
    else match ans with
      | .data bs => some bs
      | _ => none

/-- Bytes of a place within its sector. -/
def sectorBytes (sec : List Byte) (p : Loc) (n : Nat) : List Byte :=
  (List.range n).map fun i => sec.getD (p.off % 64 + i) 0

/-- How a read goes past the caches: past L1, dropping its sector (`.fresh`); past L1 (`.acq`); past the RDC on the pool and
peer paths; and whether it is of the constant path, which only L1 serves (R118, R161, R400). -/
structure Past where
  drop : Bool
  l1 : Bool
  rdc : Bool
  const : Bool
  deriving DecidableEq, Repr

/-- A read that any cache may serve. -/
def Past.none : Past := ⟨false, false, false, false⟩

/-- A read of the constant path. -/
def Past.constant : Past := ⟨false, false, false, true⟩

/-- Whether L1 serves a read of a place (R126, R161). -/
def State.l1Serves (s : State) (core : Nat) (p : Loc) (past : Past) : Bool :=
  !past.drop && !past.l1 && (cacheSector (s.core core).l1 p).isSome

/-- The sector that a read brings into the die cache of its home class, by the L2 hint (R117, R118, R121, R123). -/
def State.fillDie (s : State) (core : Nat) (p : Loc) (home l2 : Nat) (sec : List Byte) : State :=
  let s1 := s.touchDie (dieOf core) home p l2 false
  match p with
  | .node _ => s1
  | _ =>
    if l2 = 3 then s1.modDie (dieOf core) fun d => { d with rdc := cacheDrop d.rdc p }
    else match retOf l2 with
      | some r => s1.modDie (dieOf core) fun d => { d with rdc := cacheFill geoRdc d.rdc p r false sec }
      | none => s1

/-- The sector that a read brings into L1, by the L1 hint, unless the store buffer holds a store to it (R161). -/
def State.fillL1 (s : State) (core slot : Nat) (va : Dword) (p : Loc) (l1 : Nat) (sec : List Byte) : State :=
  if s.sbHolds core slot va p then s
  else s.modCore core fun c => { c with l1 := cacheFill geoL1 c.l1 p ([1, 1, 0, 2].getD l1 1) false sec }

/-- The sector that a read brings into the caches (R117, R161): a `.fresh` read drops the core's own copies of it, and an `.acq` read
that finds one renews it, so that no copy of the core is older than what the thread has read (R399); one of the constant path fills L1
alone. -/
def State.fillFor (s : State) (core slot : Nat) (va : Dword) (p : Loc) (home : Nat) (past : Past) (l1 l2 : Nat) (sec : List Byte) : State :=
  let s0 := if past.drop ∨ past.l1 then s.modCore core fun c =>
      { c with l1 := if past.drop then cacheDrop c.l1 p else c.l1, mcache := c.mcache.filter fun x => x.loc != p.line }
    else s
  let s1 := if past.const then s0 else s0.fillDie core p home l2 sec
  if past.drop then s1 else s1.fillL1 core slot va p l1 sec

/-- A sector that a `PREF` brings: into the die cache and, but under `.fresh`, into L1; one of the constant path into L1 alone
(R118, R175). -/
def State.prefetched (s : State) (core slot : Nat) (va : Dword) (p : Loc) (home : Nat) (const : Bool) (l1 l2 : Nat) (sec : List Byte) :
    State :=
  let s1 := if const then s else s.fillDie core p home l2 sec
  if l1 = 1 ∨ (cacheSector (s.core core).l1 p).isSome then s1 else s1.fillL1 core slot va p l1 sec

/-- A read of bytes of one sector by threads of a core (R161, R164, R400): from L1 where it serves, otherwise from the store
buffer over what lies below, the caches being filled. None where an answer from outside is awaited. -/
def State.readPlace (s : State) (core g : Nat) (ls : List Nat) (id : Nat) (va : Dword) (p : Loc) (home n : Nat) (past : Past)
    (l1 l2 : Nat) (ans : RemoteAns) : Option (List Byte × State) :=
  match if s.l1Serves core p past then cacheSector (s.core core).l1 p else none with
  | some sec => some (sectorBytes sec p n, s)
  | none => match s.sectorBelow core p past.rdc l2 ans with
    | none => none
    | some sec =>
      let slot := s.slotOf g
      some (s.forward core slot g ls id va p (sectorBytes sec p n),
        ((s.fillFor core slot va p home past l1 l2 sec).noteRead core slot g ls id va p n).countFor g 5 1)

/-! ## Values into registers -/

/-- The words a load writes for the bytes it read: narrow types extended to 32 bits (R169). -/
def loadWords (ty : Ty) (bs : List Byte) : List Word :=
  if tyBits ty < 32 then
    let w := tyBits ty
    let x := ofBytes (bs.take (w / 8))
    [BitVec.ofNat 32 (if tySigned ty then wrapN 32 (toSigned w x) else x)]
  else (chunksOf 4 (bs.length + 1) bs).map fun c => BitVec.ofNat 32 (ofBytes c)

/-- Whether a destination register of an access is locked by an operation issued before it (R231, R313). -/
def State.dstLocked (s : State) (id : Nat) (a : Acc) : Bool :=
  ((s.group? a.g).map fun x => a.dst.any fun r =>
    x.locks.any fun k => k.1 == r && decide (k.2 < id) && !s.lockedWith a.g k.2 a.cyc).getD false

/-- An access that lands: it is no longer outstanding, its destination registers hold the words and cursors and are full,
its flags are written, and its acquire is complete (R167, R403). The results of an exited thread are discarded (R366). -/
def State.landWith (s : State) (id : Nat) (a : Acc) (ws : List Word) (cs : List (BitVec 192)) (fl : Option (BitVec 4)) :
    State :=
  let s1 := { s with acc := alDel s.acc id }.modThread a.g a.lane fun t =>
    let t1 := { t with vEmpty := t.vEmpty.filter fun r => !a.dst.contains r,
                       cEmpty := t.cEmpty.filter fun r => !a.cdst.contains r }
    if t.exited then t1
    else
      let t2 := (a.dst.zip ws).foldl (fun (u : Thread) (r : Nat × Word) => u.setV r.1 r.2) t1
      let t3 := (a.cdst.zip cs).foldl (fun (u : Thread) (r : Nat × BitVec 192) => { u with c := alSet u.c r.1 r.2 }) t2
      match a.cc, fl with
      | some n, some x => t3.setFlags n x
      | _, _ => t3
  let s2 := s1.landTags a.g a.lane a.dst
  match a.acq with
  | some sc => (a.lane :: a.lanes).foldl (fun (t : State) l => t.acquired a.g l sc) s2
  | none => s2

/-- An access that lands with words for its vector registers. -/
def State.land (s : State) (id : Nat) (a : Acc) (ws : List Word) : State := s.landWith id a ws [] none

/-! ## Words at their homes -/

/-- The bytes at a bound target: the bank or the home. A place outside the device has none here. -/
def State.targetBytes (s : State) (t : Target) (n : Nat) : Option (List Byte) :=
  match t with
  | .spad tm i o => if (alGet? s.teams tm).isSome then some ((s.spad tm i).read o n) else none
  | .mem (.node a) => some (s.readNode a n)
  | _ => none

/-- The natural at a bound target on the device. -/
def State.targetNat (s : State) (t : Target) (n : Nat) : Option Nat := (s.targetBytes t n).map ofBytes

/-- A write at a bound target, performed at the bank or at the home, whose L2 allocates it under a hint (R117, R123); the RDC copies of every
die go (R119, R120). -/
def State.targetWrite (s : State) (home : Nat) (t : Target) (l2 : Nat) (bs : List Byte) : State :=
  match t with
  | .spad tm i o => s.modSpad tm i fun x => x.write o bs
  | .mem (.node a) => s.homeWrite home a l2 bs
  | _ => s

/-- The copies that the home of a target drops for an atomic there: those of every die's RDC (R119, R120). -/
def State.atomicHome (s : State) (t : Target) (n : Nat) : State :=
  match t with
  | .mem (.node a) => (linesOf a n).foldl (fun (u : State) k => u.invalidateRdc none k) s
  | _ => s

/-- What an atomic of a core does to copies of the bytes at a target, even where it writes nothing: they leave the core's L1 and
every die's RDC (R119, R120, R162). A pool or peer place leaves the issuing die's RDC. -/
def State.atomicDrop (s : State) (core : Nat) (t : Target) (n : Nat) : State :=
  match t with
  | .mem (.node a) => (s.dropL1 core (.node a) n).atomicHome t n
  | .mem p =>
    (s.dropL1 core p n).modDie (dieOf core) fun d => { d with rdc := cacheDrop (cacheDrop d.rdc p) (p.add (n - 1)) }
  | _ => s

/-- Whether a target's line is owned by an engine command, so that an access waits (R126). -/
def State.targetOwned (s : State) (t : Target) (n : Nat) : Bool :=
  match t with
  | .mem (.node a) => s.ownedBy none a n
  | _ => false

/-- Whether a target on the device holds a poisoned sector (R416). -/
def State.targetPoisoned (s : State) (t : Target) (n : Nat) : Bool :=
  match t with
  | .mem (.node a) => s.poisoned a n
  | _ => false

/-- The target of a resolved address, where it is memory or scratchpad. -/
def Rsv.target? : Rsv → Option (Target × Nat)
  | .mem l h => some (.mem l, h)
  | .const l h => some (.mem l, h)
  | .spad t i o => some (.spad t i o, 0)
  | _ => none

/-- The deferral of pre-emption by an instruction that has changed memory (R168, R199). -/
def State.defer (s : State) (g l : Nat) : State := s.modThread g l fun t => { t with deferral := true }

/-! ## Traps of accesses (R167, R474) -/

/-- Whether an access of one thread holds another lane of its group: an `HFREE` holds every passing lane until each has been
performed (R217). -/
def AccOp.holdsLane : AccOp → Nat → Bool
  | .walk (.free _ _ lanes) _, l => lanes.contains l
  | _, _ => false

/-- Whether an access holds its thread even while it is parked: one that its instruction waits for. -/
def AccOp.holdsParked : AccOp → Bool
  | .refill _ | .value _ | .spawn _ _ => true
  | .walk op _ => match op with
    | .free _ _ _ => true
    | _ => false
  | _ => false

/-- Whether an access waits on a line whose owning command is itself parked, and so counts as parked with it (R127). One that has no
place of its own waits on whatever its reads reach (log 105). -/
def State.withParked (s : State) (a : Acc) : Bool :=
  !a.op.holdsParked && s.owners.any fun o => ((o.2.head?.bind (alGet? s.cmds)).map fun c => c.park.isSome).getD false && (match a.tgt with
    | some (.mem (.node x)) => (linesOf x (max 1 a.op.size)).contains o.1
    | some _ => false
    | none => true)

/-- Whether a thread may not issue: an access holds it, or a store of its own on the pool or peer path, whose outcome is not known
and which has not parked (log 74: an access that may be refused ends before the thread goes on, so that its trap is precise). -/
def State.heldBy (s : State) (g l : Nat) : Bool :=
  (s.acc.any fun p => p.2.g == g && ((p.2.of g l && p.2.hold && !s.withParked p.2) || p.2.op.holdsLane l || p.2.holds.contains l)) ||
    s.sb.any fun p => p.2.of g l && !p.2.parked && (p.2.loc.map Loc.untracked).getD false

/-- An access that parked and then ends in a fatal cause, in one of its threads: it performs nothing, and the trap waits for the
thread's next instruction; its destination registers stay empty until the trap is delivered. -/
def State.lateFault (s : State) (id : Nat) (g l : Nat) (cause : Nat) (va : Dword) (dst : List Nat) : State :=
  { s with acc := alDel s.acc id, sb := alDel s.sb id }.modThread g l fun t =>
    if t.exited then t
    else { t with late := sortBy (fun (x y : Late) => decide (x.order ≤ y.order)) (t.late ++ [(⟨cause, va, id, dst, .late⟩ : Late)]) }

/-- A fatal cause of an access in one thread: a precise trap at its instruction where it has not parked, and otherwise a late one
(R167, R474). -/
def State.accFault (s : State) (id g l cause : Nat) (va : Dword) (dst cdst : List Nat) (pc : Dword) (late : Bool) : State :=
  if late then s.lateFault id g l cause va dst
  else
    let s1 := { s with acc := alDel s.acc id, sb := alDel s.sb id }.modGroup g fun x =>
      (x.modLane l fun t =>
        { t with vEmpty := t.vEmpty.filter fun r => !dst.contains r, cEmpty := t.cEmpty.filter fun r => !cdst.contains r }).untag l dst
    if (s1.thread g l).exited then s1 else s1.trapWith g l cause va pc false false

/-- A fatal cause of an access in each of the threads that it concerns (R41). -/
def State.faultEach (s : State) (id g l : Nat) (lanes : List Nat) (cause : Nat) (va : Dword) (dst cdst : List Nat) (pc : Dword)
    (mark : Nat) (parked : Bool) : State :=
  let late := parked || (s.thread g l).issues != mark
  (l :: lanes).foldl (fun (t : State) k => if (t.group? g).isSome then t.accFault id g k cause va dst cdst pc late else t) s

/-- A fatal cause of an outstanding access, at an address. -/
def State.failed (s : State) (id : Nat) (a : Acc) (cause : Nat) (va : Dword) : State :=
  s.faultEach id a.g a.lane a.lanes cause va a.dst a.cdst a.pc a.mark a.parked

/-- The state without the other entries of a store's instruction and lane (R299). -/
def State.dropMates (s : State) (id : Nat) (x : SbEntry) : State :=
  { s with sb := s.sb.filter fun q =>
      q.1 == id || !(q.2.g == x.g && q.2.pc == x.pc && q.2.cyc == x.cyc && q.2.lane == x.lane) }

/-- A call whose spill is refused at once: nothing is pushed (R360). -/
def Thread.unpush (t : Thread) (bs : List Byte) : Thread :=
  { t with rs := t.rs.drop 1 ++ [BitVec.ofNat 64 (ofBytes bs)], depth := t.depth - 1 }

/-- A fatal cause of a store in the store buffer: 0x148 for a spill (R360). Where the trap is precise, nothing more of the instruction is
stored (R299), and a call has pushed nothing. -/
def State.failedStore (s : State) (id : Nat) (x : SbEntry) (cause : Nat) : State :=
  let undone := if x.spill then s.modThread x.g x.lane fun t => t.unpush x.bytes else s.dropMates id x
  (if x.parked then s else undone).faultEach id x.g x.lane x.lanes (if x.spill then 0x148 else cause) x.va [] [] x.pc x.mark x.parked

/-- The delivery of a thread's first waiting trap, at its next instruction or where it belongs: the destination registers of a late one
become full with zero (R474). -/
def State.deliverLate (s : State) (g l : Nat) : State :=
  match (s.thread g l).late with
  | [] => s
  | x :: xs =>
    let s1 := s.modThread g l fun t =>
      let t1 := { t with late := xs, vEmpty := t.vEmpty.filter fun r => !x.vdst.contains r }
      x.vdst.foldl (fun u r => u.setV r 0) t1
    let s2 := s1.landTags g l x.vdst
    if (s2.thread g l).exited then s2
    else match x.at' with
      | .late => s2.trapWith g l x.cause x.tval (s2.thread g l).pc false true
      | .next => s2.trapWith g l x.cause x.tval (s2.thread g l).pc false false
      | .here epc defr => s2.trapWith g l x.cause x.tval epc defr false

/-! ## Accesses that park -/

/-- An outstanding access that parks on a non-fatal fault, for a unit (R113, R115). -/
def State.parkAcc (s : State) (id : Nat) (a : Acc) (p : Park) (unit : Nat) : State :=
  { s with acc := alSet s.acc id { a with park := some p, parked := true, hold := a.hold && a.op.holdsParked } }.parkFault p.slot
    a.core unit p

end Sys2Proof.Machine
end

