-- ==== Sys2Proof/Machine/Tensor.lean ====
section
/-! DEFINITION. Tensors: reads by walkers and engines, records and their binding (R84 to R89), level descriptors (R88, R190),
fibres of every kind (R185 to R188, Tables 8-1, 8-3, 8-6), and the compressed view (R102). -/

namespace Sys2Proof.Machine

open Sys2Proof

/-! ## Work that may stop -/

/-- Why a walk or an engine's read ends without a value: a cause and its TVAL, a park, or a wait for a line that a command
owns, for the thread's own store to reach home, or without end. -/
inductive Stop
  | fault (cause : Nat) (tval : Dword)
  | park (p : Park)
  | wait
  deriving DecidableEq, Repr

/-- Work over the state that may stop. -/
abbrev Wk (α : Type) := EStateM Stop State α

/-- Work that ends in a cause. -/
def wkFault {α : Type} (cause : Nat) (tval : Dword) : Wk α := fun s => .error (.fault cause tval) s

/-- Work that waits. -/
def wkWait {α : Type} : Wk α := fun s => .error .wait s

/-- A read of the state. -/
def wkGet {α : Type} (f : State → α) : Wk α := fun s => .ok (f s) s

/-- A change of the state. -/
def wkMod (f : State → State) : Wk Unit := fun s => .ok () (f s)

/-- Who reads: the issuer; the thread and access number whose stores are seen through the core's store buffer (R164, R197);
whether the core's metadata cache serves it (R196); the engine command whose own lines it may read; the records and levels that
it has bound (R89); its L2 hint (R123); and how it reads the compressed view of a tensor from an element on, with what is bound
(R102: a read of that path binds on its own). -/
structure Via where
  iss : Issuer
  who : Option (Nat × Nat × Nat)
  cached : Bool
  cmd : Option Nat
  bound : List Tens
  hint : Nat
  view : List Tens → Nat → Nat → Nat → Dword → Wk (List Byte)

/-- Whether a place is at a peer. -/
def Loc.isPeer : Loc → Bool
  | .peer _ _ _ => true
  | _ => false

/-- The sector of a place outside the device, as it answers (log 10): the die's copy, or free bytes, or a refusal. Under
`.noalloc` the copy is passed by and dropped, and under another hint a hit may raise its line (R123). -/
def State.remoteSector (s : State) (die : Nat) (p : Loc) (hint : Nat) : Option (List Byte) × State :=
  match if hint = 3 then none else cacheSector (s.die die).rdc p with
  | some sec => (some sec, match retOf hint with
      | some r => s.modDie die fun d => { d with rdc := cacheFill geoRdc d.rdc p r false sec }
      | none => s)
  | none =>
    let s1 := { s with freeTick := s.freeTick + 1 }
    if Config.remoteRefused s.freeTick || (s.sec.linksDown && p.isPeer) then (none, s1)
    else
      let sec := (List.range 64).map (Config.remoteByte s.freeTick)
      (some sec, s1.modDie die fun d =>
        { d with rdc := match retOf hint with
                   | some r => cacheFill geoRdc d.rdc p r false sec
                   | none => cacheDrop d.rdc p })

/-- The cause of a refusal at a place outside the device (R103). -/
def Loc.refusal : Loc → Nat
  | .pool _ _ _ => 0x087
  | _ => 0x088

/-- A miss of the metadata cache counted (R430). -/
def Via.countMiss (v : Via) (s : State) (core : Nat) : State :=
  match v.who with
  | some (g, _, _) => s.countFor g 6 1
  | none => s.count core none 6 1

/-- What the store buffer of the reading thread's core holds over bytes, for a reader that sees it (R164, R197). -/
def Via.seen (v : Via) (s : State) (va : Dword) (p : Loc) (bs : List Byte) : List Byte :=
  match v.who with
  | some (g, l, id) => s.forward (s.coreOf g) v.iss.slot g [l] id va p bs
  | none => bs

/-- The note that the reading thread has read what the store buffer holds of some bytes (R402). -/
def Via.noted (v : Via) (s : State) (va : Dword) (p : Loc) (n : Nat) : State :=
  match v.who with
  | some (g, l, id) => s.noteRead (s.coreOf g) v.iss.slot g [l] id va p n
  | none => s

/-- Whether bytes of a place are poisoned for a reader: for a thread's read since before its access was issued (R128, R416). -/
def Via.poisoned (v : Via) (s : State) (p : Loc) (n : Nat) : Bool :=
  match p, v.who with
  | .node a, some (_, _, id) => s.poisonedFor id a n
  | .node a, none => s.poisoned a n
  | _, _ => false

/-- An address with some bytes of its sector before it. -/
def sectorVa (va : Dword) (p : Loc) : Dword := va - BitVec.ofNat 64 (p.off % 64)

/-- The bytes of a place within one sector, for a reader (R128, R164, R196, R197): a line of the metadata cache serves them as L1 serves a
load; the constant path enters no die cache (R118). -/
def Via.place (v : Via) (const : Bool) (va : Dword) (p : Loc) (home n : Nat) : Wk (List Byte) := fun s =>
  let behind := match v.who with
    | some (g, l, id) => s.earlierSame g l id (some (.mem p)) va n
    | none => false
  let core := v.iss.core.getD 0
  if behind then .error .wait s
  else match if v.cached then cacheSector (s.core core).mcache p else none with
  | some sec => .ok (v.seen s va p (sectorBytes sec p n)) (v.noted s va p n)
  | none =>
    let owned := match p with
      | .node a => s.ownedBy v.cmd a n
      | _ => false
    if owned then .error .wait s
    else if v.poisoned s p n then .error (.fault 0x169 va) s
    else
      let r : Option (List Byte) × State := match p with
        | .node a => (some (s.readNode (a / 64 * 64) 64), s)
        | q => s.remoteSector v.iss.die q v.hint
      match r with
      | (none, s1) => .error (.fault p.refusal va) s1
      | (some sec, s1) =>
        let all := v.seen s1 (sectorVa va p) p.sector sec
        let s0 := v.noted (if v.cached then v.countMiss s1 core else s1) va p n
        let s2 := if const then s0 else s0.touchDie v.iss.die home p v.hint false
        .ok (sectorBytes all p n)
          (if v.cached then s2.modCore core fun c => { c with mcache := cacheFill geoMeta c.mcache p 1 false all } else s2)

/-- The bytes of a bank, for a reader, behind an earlier access of its thread to them (R399). -/
def Via.bank (v : Via) (va : Dword) (t i o n : Nat) : Wk (List Byte) := fun s =>
  let behind := match v.who with
    | some (g, l, id) => s.earlierSame g l id (some (.spad t i o)) va n
    | none => false
  if behind then .error .wait s else .ok ((s.spad t i).read o n) s

/-- The bytes of a constant-path read of which `m` lie in the sector of a place: the constant section is aligned to 16
bytes only (R60), so a read may go on in the next sector. -/
def Via.constPiece (v : Via) (va : Dword) (p : Loc) (h m n : Nat) : Wk (List Byte) := do
  let a ← v.place true va p h m
  let b ← fun s => match s.reach v.iss .load (va + BitVec.ofNat 64 m) (n - m) 1 0x094 false with
    | (.fault c, s1) => .error (.fault c va) s1
    | (.park q, s1) => .error (.park q) s1
    | (.wait, s1) => .error .wait s1
    | (.const q k, s1) => v.place true va q k (n - m) s1
    | (_, s1) => .error (.fault 0x086 va) s1
  pure (a ++ b)

/-- The bytes at an address within one sector, for a reader. -/
def Via.piece (v : Via) (va : Dword) (n : Nat) : Wk (List Byte) := fun s =>
  match s.reach v.iss .load va n 1 0x094 false with
  | (.fault c, s1) => .error (.fault c va) s1
  | (.park p, s1) => .error (.park p) s1
  | (.wait, s1) => .error .wait s1
  | (.mem p h, s1) => v.place false va p h n s1
  | (.const p h, s1) =>
    if n ≤ p.room then v.place true va p h n s1 else v.constPiece va p h p.room n s1
  | (.spad t i o, s1) => v.bank va t i o n s1
  | (.view tid idx, s1) => v.view v.bound tid idx n va s1
  | (.param o, s1) =>
    .ok ((List.range n).map fun k => (((alGet? s1.launches v.iss.launch).map (·.params)).getD []).getD (o + k) 0) s1
  | (_, s1) => .error (.fault 0x086 va) s1

/-- The bytes of the pieces of a run. -/
def Via.pieces (v : Via) (va : Dword) : List (Nat × Nat) → Wk (List Byte)
  | [] => pure []
  | q :: qs => do
    let a ← v.piece (va + BitVec.ofNat 64 q.1) q.2
    let b ← v.pieces va qs
    pure (a ++ b)

/-- The bytes at an address, for a reader. An address of the compressed view counts elements, and is read whole (R102). -/
def Via.rd (v : Via) (va : Dword) (n : Nat) : Wk (List Byte) :=
  if fld va 60 4 = 5 then v.piece va n else v.pieces va (piecesOf va 0 n)

/-- The little-endian number at an address, for a reader. -/
def Via.rdN (v : Via) (va : Dword) (n : Nat) : Wk Nat := do
  let bs ← v.rd va n
  pure (ofBytes bs)

/-- An address of a base and an offset. -/
def Dword.at' (base : Nat) (off : Nat) : Dword := BitVec.ofNat 64 (base + off)

/-! ## Records (R84 to R87) -/

/-- BASE. -/
def recBase (r : BitVec 512) : Nat := fld r 0 64
/-- LVLT. -/
def recLvlt (r : BitVec 512) : Nat := fld r 64 64
/-- FMT. -/
def recFmt (r : BitVec 512) : Nat := fld r 128 8
/-- RANK. -/
def recRank (r : BitVec 512) : Nat := fld r 136 3
/-- The kind of a level. -/
def recKind (r : BitVec 512) (i : Nat) : Nat := fld r (140 + 3 * i) 3
/-- The dimension of a level. -/
def recDim (r : BitVec 512) (i : Nat) : Nat := fld r (160 + 32 * i) 32
/-- X4. -/
def recX4 (r : BitVec 512) : Nat := fld r 352 16
/-- QGRP. -/
def recQgrp (r : BitVec 512) : Nat := fld r 368 2
/-- STID. -/
def recStid (r : BitVec 512) : Nat := fld r 370 16
/-- VER. -/
def recVer (r : BitVec 512) : Nat := fld r 386 16
/-- OOR. -/
def recOor (r : BitVec 512) : Nat := fld r 402 2
/-- SWZ. -/
def recSwz (r : BitVec 512) : Nat := fld r 404 8
/-- ANC. -/
def recAnc (r : BitVec 512) : BitVec 10 := BitVec.ofNat 10 (fld r 412 10)

/-- The length of a quantisation group of a QGRP code (Table 3-7). -/
def qgrpLen (q : Nat) : Nat := [0, 32, 64, 128].getD q 0

/-- The element type of a format code; none for the link formats (Table 3-7). -/
def fmtTy (f : Nat) : Option Ty :=
  [none, some Ty.f32, some .f16, some .bf16, some .f8e4, some .f8e5, some .f4, some .qi8, some .qi4, some .s32, some .s16,
    some .s8, some .n32, some .n16, some .n8, some .s64, some .n64].getD f none

/-- The bits of an element of a format code. -/
def fmtBits (f : Nat) : Nat := ((fmtTy f).map tyBits).getD 8

/-- `swizzle(o, code)` of R87. -/
def swizzle (o code : Nat) : Nat :=
  let k := fldN code 0 3
  if k = 0 then o
  else
    let u := 16 * 2 ^ fldN code 3 3
    let c := o / u % 2 ^ k
    let line := o / (u * 2 ^ k)
    o - c * u + Nat.xor c (line % 2 ^ k) * u

/-- The first reason of Table 3-8 that a record has but for those about its side tensor. -/
def recReason (r : BitVec 512) : Option Nat :=
  let f := recFmt r
  let rk := recRank r
  let qi := f = 7 ∨ f = 8
  if f = 0 ∨ 0x13 < f then some 1
  else if rk = 0 ∨ rk = 7 then some 2
  else if (List.range 6).any fun i =>
      if i < rk then recKind r i == 7 else recKind r i != 0 || recDim r i != 0 then some 3
  else if (qi ∧ recQgrp r = 0) ∨ (¬ qi ∧ recQgrp r ≠ 0) then some 4
  else if recOor r = 3 then some 5
  else if fld r 139 1 ≠ 0 ∨ fld r 158 2 ≠ 0 ∨ fld (BitVec.ofNat 8 (recSwz r)) 6 2 ≠ 0 ∨ fld r 422 90 ≠ 0 then some 6
  else none

/-- Whether a record is the side tensor that R70 describes for another. -/
def sideShaped (r side : BitVec 512) : Bool :=
  (recReason side).isNone && recFmt side == 0x0C && recRank side == recRank r &&
    (List.range (recRank r)).all fun i =>
      recKind side i == 0 &&
        recDim side i == (if i + 1 = recRank r then ceilDiv (recDim r i) (qgrpLen (recQgrp r)) else recDim r i)

/-- The place of a record in its context's table (R84). -/
def State.recAddr (s : State) (slot tid : Nat) : Dword := (s.ctx slot).tbase + BitVec.ofNat 64 (64 * tid)

/-- A reader of records: at the home, for the die. -/
def Via.forRecord (v : Via) : Via := { v with iss := { v.iss with core := none }, who := none, cached := false }

/-- Whether a thread has its own store to a run of bytes still in the store buffer. -/
def State.ownStore (s : State) (who : Option (Nat × Nat × Nat)) (va : Dword) (n : Nat) : Bool :=
  match who with
  | none => false
  | some (g, l, id) => s.sb.any fun q => decide (q.1 < id) && q.2.of g l &&
      overlapLoc none q.2.va q.2.bytes.length none va n

/-- A record as the reader has bound it, or as it is read through the die's record cache (R89, R92); an id outside the table is
0x101. -/
def Via.record (v : Via) (tid : Nat) : Wk (BitVec 512) := do
  let c ← wkGet fun s => s.ctx v.iss.slot
  if let some t := v.bound.find? fun t => t.tid == tid then pure t.r
  else if c.tcount.toNat ≤ tid then wkFault 0x101 (BitVec.ofNat 64 tid)
  else
    let key := 65536 * v.iss.slot + tid
    let hit ← wkGet fun s => alGet? (s.die v.iss.die).recs key
    match hit with
    | some r => pure r
    | none =>
      let va := c.tbase + BitVec.ofNat 64 (64 * tid)
      let own ← wkGet fun s => s.ownStore v.who va 64
      if own then wkWait
      else
        let x ← v.forRecord.rdN va 64
        wkMod fun s => s.modDie v.iss.die fun d => { d with recs := alSet d.recs key (BitVec.ofNat 512 x) }
        pure (BitVec.ofNat 512 x)

/-- The binding of a record (R86, R89): read and checked, with the record of its side tensor, where it has one, after it. -/
def Via.binds (v : Via) (tid : Nat) : Wk (List Tens) := do
  let r ← v.record tid
  let bad := fun n : Nat => (wkFault 0x100 (BitVec.ofNat 64 (tid + n * 65536)) : Wk (List Tens))
  match recReason r with
  | some n => bad n
  | none =>
    if recFmt r = 7 ∨ recFmt r = 8 then
      let n ← wkGet fun s => (s.ctx v.iss.slot).tcount.toNat
      if n ≤ recStid r ∧ ¬ (v.bound.any fun t => t.tid = recStid r) then bad 7
      else
        let side ← v.record (recStid r)
        if sideShaped r side then pure [⟨tid, r, []⟩, ⟨recStid r, side, []⟩] else bad 7
    else pure [⟨tid, r, []⟩]

/-- The record that a reader binds. -/
def Via.bind (v : Via) (tid : Nat) : Wk (BitVec 512) := do
  let ts ← v.binds tid
  pure (ts.headD ⟨0, 0, []⟩).r

/-! ## Level descriptors (R88, R190) -/

/-- Whether a descriptor is unusable (R190). -/
def Lv.unusable (x : Lv) (rank : Nat) : Bool :=
  match x.kind with
  | 0 => x.m0 != 0 && decide (x.m0 < x.n)
  | 1 => x.p0 % (if x.m0 % 2 = 1 then 8 else 4) != 0 || x.p1 % (if x.m0 / 2 % 2 = 1 then 2 else 4) != 0
  | 2 => x.p0 % 8 != 0 || x.p1 % 8 != 0
  | 3 => decide (24 < x.m0) || x.p0 % 8 != 0
  | 4 => x.p0 % 8 != 0 || x.p1 % 16 != 0
  | 5 => x.m0 == 0 || x.m1 == 0 || decide (1024 < x.m0) || decide (1024 < x.m1) || decide (x.i + 1 ≠ rank) ||
      x.p0 % 8 != 0 || x.p1 % 4 != 0
  | _ => !(([256, 512, 1024, 2048, 4096, 8192, 16384, 32768, 65536, 131072, 262144, 524288, 1048576] : List Nat).contains
      x.m0) || x.m1 == 0 || decide (x.m0 < 16 + 8 * x.m1) || x.p0 % 8 != 0

/-- A level of a bound record with its descriptor; an unusable one is 0x106. -/
def mkLv (tid : Nat) (r : BitVec 512) (i desc : Nat) : Wk Lv :=
  let x : Lv := ⟨tid, i, recKind r i, recDim r i, recLvlt r + 32 * i, fldN desc 0 64, fldN desc 64 64, fldN desc 128 32,
    fldN desc 160 32⟩
  if x.unusable (recRank r) then wkFault 0x106 (BitVec.ofNat 64 x.at') else pure x

/-- A level of a bound record: as the reader has bound it, or its descriptor read now (R89, R197); a level at or above RANK is
0x103. Table 3-7 says that LVLT is 32-byte aligned and gives no effect where it is not: its address is used as it stands (DESIGN CHOICE,
log 81). -/
def Via.level (v : Via) (tid : Nat) (r : BitVec 512) (i : Nat) : Wk Lv := do
  if recRank r ≤ i then wkFault 0x103 (BitVec.ofNat 64 (tid + i % 8 * 65536))
  else if let some x := (v.bound.find? fun t => t.tid == tid).bind fun t => t.lv[i]? then pure x
  else
    let d ← v.rdN (Dword.at' (recLvlt r) (32 * i)) 32
    mkLv tid r i d

/-- The levels of a bound record. -/
def Via.levels (v : Via) (tid : Nat) (r : BitVec 512) : Nat → Nat → Wk (List Lv)
  | 0, _ => pure []
  | k + 1, i => do
    let x ← v.level tid r i
    let xs ← v.levels tid r k (i + 1)
    pure (x :: xs)

/-- A tensor bound with its levels (R89). -/
def Via.tensor (v : Via) (tid : Nat) : Wk Tens := do
  let r ← v.bind tid
  let ls ← v.levels tid r (recRank r) 0
  pure ⟨tid, r, ls⟩

/-- What a command or a compressed-view access binds of a tensor: its record and levels, and those of its side tensor (R89). -/
def Via.bindAll (v : Via) (tid : Nat) : Wk (List Tens) := do
  let t ← v.tensor tid
  if recFmt t.r = 7 ∨ recFmt t.r = 8 then
    let side ← v.tensor (recStid t.r)
    pure [t, side]
  else pure [t]

/-- TVAL of a tensor and level. -/
def Lv.tval (x : Lv) : Dword := BitVec.ofNat 64 (x.tid + x.i % 8 * 65536)

/-- The stride of a dense level (Table 3-9). -/
def Lv.stride (x : Lv) : Nat := if x.m0 = 0 then x.n else x.m0

/-- The bytes of a compressed level's pos entry. -/
def Lv.posSize (x : Lv) : Nat := if x.kind = 1 ∧ x.m0 % 2 = 0 then 4 else 8

/-- The bytes of a compressed or block level's coordinate. -/
def Lv.crdSize (x : Lv) : Nat := if x.kind = 1 ∧ x.m0 / 2 % 2 = 1 then 2 else 4

/-- The address of a pos, prefix or run-index entry (Table 8-1). -/
def Lv.posAddr (x : Lv) (q : Nat) : Dword :=
  if x.kind = 2 then Dword.at' x.p1 (8 * q) else Dword.at' x.p0 (x.posSize * q)

/-! ## Cursors (Table 8-2) -/

/-- A cursor, field by field. -/
structure Cur where
  tid : Nat
  level : Nat
  kind : Nat
  done : Bool
  append : Bool
  valid : Bool
  pos : Nat
  endAt : Nat
  aux : Nat
  coord : Nat
  parent : Nat
  deriving DecidableEq, Repr

/-- The fields of a cursor register. -/
def curOf (c : BitVec 192) : Cur :=
  ⟨fld c 0 16, fld c 16 3, fld c 19 3, bit c 22, bit c 23, bit c 24, fld c 32 40, fld c 72 40, fld c 112 16, fld c 128 32,
    fld c 160 32⟩

/-- The cursor register of fields, each cut to its width: an END of 2^40 to 0, and an entry index of 65,536 or more of a paged cursor to its low
16 bits (DESIGN CHOICE, log 106). -/
def Cur.bits (c : Cur) : BitVec 192 :=
  BitVec.ofNat 192 (c.tid % 2 ^ 16 + c.level % 8 * 2 ^ 16 + c.kind % 8 * 2 ^ 19 + b2n c.done * 2 ^ 22 +
    b2n c.append * 2 ^ 23 + b2n c.valid * 2 ^ 24 + c.pos % 2 ^ 40 * 2 ^ 32 + c.endAt % 2 ^ 40 * 2 ^ 72 +
    c.aux % 2 ^ 16 * 2 ^ 112 + c.coord % 2 ^ 32 * 2 ^ 128 + c.parent % 2 ^ 32 * 2 ^ 160)

/-- `finish(x, code)` (R193). -/
def Cur.finish (x : Cur) (code : Nat) : Cur :=
  let e := if x.kind = 6 then 0 else x.endAt
  { x with valid := true, done := true, coord := 2 ^ 32 - 1, pos := e, endAt := e, aux := code }

/-- The fault form of a cause (R193): the request's tensor, level and kind, `.nf`, the cause and its TVAL. -/
def faultForm (tid level kind : Nat) (nf : Bool) (cause : Nat) (tval : Dword) : Cur :=
  { tid := tid, level := level, kind := kind, done := true, append := false, valid := false, pos := fld tval 0 40,
    endAt := fld tval 40 16, aux := 0, coord := cause % 1024 + b2n nf * 2 ^ 31, parent := 0 }

/-- Whether a cursor is a fault form, and whether it was made with `.nf`. -/
def Cur.isFault (c : Cur) : Bool := !c.valid && c.done
/-- Whether a fault form was made with `.nf`. -/
def Cur.nf (c : Cur) : Bool := 2 ^ 31 ≤ c.coord
/-- The TVAL that a fault form records. -/
def Cur.faultTval (c : Cur) : Dword := BitVec.ofNat 64 (c.pos + c.endAt % 2 ^ 16 * 2 ^ 40)

/-! ## Arrays of a level -/

/-- A position that is 2^40 or more is 0x10D (R190). -/
def Lv.checkPos (x : Lv) (p : Nat) : Wk Unit := if 2 ^ 40 ≤ p then wkFault 0x10D x.tval else pure ()

/-- The bounds of the fibre of a parent in a compressed, block, bitmap or run-length level. -/
def Via.bounds (v : Via) (x : Lv) (q : Nat) : Wk (Nat × Nat) := do
  let a ← v.rdN (x.posAddr q) x.posSize
  let b ← v.rdN (x.posAddr (q + 1)) x.posSize
  if b < a then wkFault 0x104 (x.posAddr (q + 1))
  else
    if a < b then x.checkPos (b - 1)
    pure (a, b)

/-- The coordinate of a compressed or block entry, above the one read before it in the same operation. -/
def Via.crd (v : Via) (x : Lv) (p : Nat) (prev : Option Nat) : Wk Nat := do
  let a := Dword.at' x.p1 (x.crdSize * p)
  let c ← v.rdN a x.crdSize
  if x.n ≤ c ∨ prev.any (c ≤ ·) then wkFault 0x104 a else pure c

/-- A map word of a bitmap level. -/
def Via.word (v : Via) (x : Lv) (q wi : Nat) : Wk Nat := do
  let nw := ceilDiv x.n 64
  let a := Dword.at' x.p0 (8 * (q * nw + wi))
  let w ← v.rdN a 8
  if wi + 1 = nw ∧ x.n % 64 ≠ 0 ∧ w >>> (x.n % 64) ≠ 0 then wkFault 0x104 a else pure w

/-- The lowest set bit of a parent's map at or above a coordinate, by words. -/
def Via.bitFrom (v : Via) (x : Lv) (q : Nat) : Nat → Nat → Wk (Option Nat)
  | 0, _ => pure none
  | k + 1, c =>
    if x.n ≤ c then pure none
    else do
      let w ← v.word x q (c / 64)
      match (List.range 64).find? fun b => decide (c % 64 ≤ b) && fldN w b 1 == 1 with
      | some b => pure (some (c / 64 * 64 + b))
      | none => v.bitFrom x q k (c / 64 * 64 + 64)

/-- The set bits of a parent's map from a coordinate up to another, by words. -/
def Via.countBits (v : Via) (x : Lv) (q : Nat) : Nat → Nat → Nat → Wk Nat
  | 0, _, _ => pure 0
  | k + 1, lo, hi =>
    if hi ≤ lo then pure 0
    else do
      let w ← v.word x q (lo / 64)
      let top := min hi (lo / 64 * 64 + 64)
      let rest ← v.countBits x q k (lo / 64 * 64 + 64) hi
      pure (popN 64 (fldN w (lo % 64) (top - lo)) + rest)

/-- `n`-th set bit from a coordinate on. -/
def Via.nthBit (v : Via) (x : Lv) (q : Nat) : Nat → Nat → Wk (Option Nat)
  | 0, c => v.bitFrom x q (ceilDiv x.n 64 + 1) c
  | n + 1, c => do
    match ← v.bitFrom x q (ceilDiv x.n 64 + 1) c with
    | none => pure none
    | some b => v.nthBit x q n (b + 1)

/-- A bucket of a hashed level: whether it is occupied and its coordinate. -/
def Via.bucket (v : Via) (x : Lv) (p : Nat) : Wk (Option Nat) := do
  let a := Dword.at' x.p0 (8 * p)
  let b ← v.rdN a 8
  if fldN b 63 1 = 0 then pure none
  else if x.n ≤ fldN b 0 32 then wkFault 0x104 a
  else pure (some (fldN b 0 32))

/-- The lowest occupied bucket in a range, by fuel. -/
def Via.occupied (v : Via) (x : Lv) : Nat → Nat → Nat → Wk (Option (Nat × Nat))
  | 0, _, _ => pure none
  | k + 1, p, e =>
    if e ≤ p then pure none
    else do
      match ← v.bucket x p with
      | some c => pure (some (p, c))
      | none => v.occupied x k (p + 1) e

/-- `hash_slot(c, L, k)` (R187). -/
def hashSlot (c L k : Nat) : Nat := if L = 0 then 0 else (((c * 0x9E3779B1) % 2 ^ 32) >>> (32 - L) + k) % 2 ^ L

/-- The lookup of a coordinate among the buckets of a parent (R187): bucket and probe step. -/
def Via.probe (v : Via) (x : Lv) (q c : Nat) : Nat → Nat → Wk (Option (Nat × Nat))
  | 0, _ => pure none
  | n + 1, k => do
    let p := q * 2 ^ x.m0 + hashSlot c x.m0 k
    match ← v.bucket x p with
    | none => pure none
    | some d => if d = c then pure (some (p, k)) else v.probe x q c n (k + 1)

/-- A triple of a run-length level: start, length and value position; `after` is the end of the run read before it in the
same operation. -/
def Via.triple (v : Via) (x : Lv) (p : Nat) (after : Nat) : Wk (Nat × Nat × Nat) := do
  let a := Dword.at' x.p1 (16 * p)
  let t ← v.rdN a 16
  let st := fldN t 0 32
  let len := fldN t 32 32
  if len = 0 ∨ 65536 < len ∨ st < after ∨ x.n < st + len then wkFault 0x104 a else pure (st, len, fldN t 64 40)

/-- The header of a page: the next page and the count. -/
def Via.pageHead (v : Via) (x : Lv) (page : Nat) : Wk (Nat × Nat) := do
  let h ← v.rdN (BitVec.ofNat 64 page) 16
  if x.m1 < fldN h 64 32 then wkFault 0x104 (BitVec.ofNat 64 page) else pure (fldN h 0 64, fldN h 64 32)

/-- An entry of a page: coordinate and position. -/
def Via.pageEntry (v : Via) (x : Lv) (page e : Nat) : Wk (Nat × Nat) := do
  let a := BitVec.ofNat 64 (page + 16 + 8 * e)
  let y ← v.rdN a 8
  if x.n ≤ fldN y 0 32 then wkFault 0x104 a else pure (fldN y 0 32, fldN y 32 32)

/-- The pages of a chain that are walked before a walk is taken to be endless (R189). -/
def chainFuel : Nat := 2 ^ 42

/-- The first page with an entry on a chain: the page and its count. `src` is where its address was read. -/
def Via.pageFrom (v : Via) (x : Lv) : Nat → Nat → Dword → Wk (Option (Nat × Nat))
  | 0, _, _ => wkWait
  | k + 1, page, src =>
    if page = 0 then pure none
    else if page % x.m0 ≠ 0 ∨ 2 ^ 48 ≤ page then wkFault 0x104 src
    else do
      let h ← v.pageHead x page
      if 0 < h.2 then pure (some (page, h.2)) else v.pageFrom x k h.1 (BitVec.ofNat 64 page)

/-- The first entry of a page's remaining ones with a coordinate, by fuel. -/
def Via.entryWith (v : Via) (x : Lv) (page cnt c : Nat) : Nat → Nat → Wk (Option Nat)
  | 0, _ => pure none
  | k + 1, e =>
    if cnt ≤ e then pure none
    else do
      let y ← v.pageEntry x page e
      if y.1 = c then pure (some e) else v.entryWith x page cnt c k (e + 1)

/-- The first entry with a coordinate from an entry of a page to the end of its chain: page, count and entry. -/
def Via.chainWith (v : Via) (x : Lv) (c : Nat) : Nat → Nat → Nat → Dword → Wk (Option (Nat × Nat × Nat))
  | 0, _, _, _ => wkWait
  | k + 1, page, e, src =>
    if page = 0 then pure none
    else if page % x.m0 ≠ 0 ∨ 2 ^ 48 ≤ page then wkFault 0x104 src
    else do
      let h ← v.pageHead x page
      match ← v.entryWith x page h.2 c (h.2 + 1) e with
      | some j => pure (some (page, h.2, j))
      | none => v.chainWith x c k h.1 0 (BitVec.ofNat 64 page)

/-! ## Traversal (Table 8-6) -/

/-- A paged cursor at an entry. -/
def Via.atEntry (v : Via) (x : Lv) (c : Cur) (page cnt e : Nat) : Wk Cur := do
  let y ← v.pageEntry x page e
  pure { c with pos := page / 256, endAt := cnt, aux := e, coord := y.1 }

/-- The cursor that opens the fibre of a parent (R201). -/
def Via.openFibre (v : Via) (x : Lv) (q : Nat) : Wk Cur := do
  if 2 ^ 32 ≤ q then wkFault 0x10D x.tval
  else
    let c : Cur := { tid := x.tid, level := x.i, kind := x.kind, done := false, append := false, valid := true, pos := 0,
                     endAt := 0, aux := 0, coord := 0, parent := q }
    match x.kind with
    | 0 =>
      let p := q * x.stride
      let c1 := { c with pos := p, endAt := p + x.n }
      if x.n = 0 then pure (c1.finish 0)
      else
        x.checkPos (p + x.n - 1)
        pure c1
    | 2 =>
      let (a, b) ← v.bounds x q
      let c1 := { c with pos := a, endAt := b }
      match ← v.bitFrom x q (ceilDiv x.n 64 + 1) 0 with
      | none => if a < b then wkFault 0x104 (x.posAddr (q + 1)) else pure (c1.finish 0)
      | some k =>
        let w ← v.word x q (k / 64)
        if b ≤ a ∨ (k / 64 + 1 = ceilDiv x.n 64 ∧ popN 64 w ≠ b - a) then wkFault 0x104 (x.posAddr (q + 1))
        else pure { c1 with coord := k, aux := k % 64 }
    | 3 =>
      let p := q * 2 ^ x.m0
      let e := (q + 1) * 2 ^ x.m0
      x.checkPos (e - 1)
      let c1 := { c with pos := p, endAt := e }
      match ← v.occupied x (2 ^ x.m0) p e with
      | none => pure (c1.finish 0)
      | some (k, d) => pure { c1 with pos := k, coord := d }
    | 4 =>
      let (a, b) ← v.bounds x q
      let c1 := { c with pos := a, endAt := b }
      if a = b then pure (c1.finish 0)
      else
        let t ← v.triple x a 0
        pure { c1 with coord := t.1 }
    | 6 =>
      let src := Dword.at' x.p0 (8 * q)
      let head ← v.rdN src 8
      match ← v.pageFrom x chainFuel head src with
      | none => pure (c.finish 0)
      | some (page, cnt) => v.atEntry x c page cnt 0
    | _ =>
      let (a, b) ← v.bounds x q
      let c1 := { c with pos := a, endAt := b }
      if a = b then pure (c1.finish 0)
      else
        let d ← v.crd x a none
        pure { c1 with coord := d }

/-- The next entry of a live cursor (R202, R203). `read` says that its entry was read in the same operation (R189). The header of
a page gives only the address of the next page, its count having been read as the cursor came to it (R202). AUX of a hashed cursor becomes 0
(Table 8-3 says the probe step of the last lookup, or 0; DESIGN CHOICE, log 106). -/
def Via.next (v : Via) (x : Lv) (c : Cur) (read : Bool) : Wk Cur := do
  let p := c.pos + 1
  match x.kind with
  | 0 => pure (if c.endAt ≤ p then c.finish 1 else { c with pos := p, coord := c.coord + 1 })
  | 2 =>
    if c.endAt ≤ p then pure (c.finish 1)
    else match ← v.bitFrom x c.parent (ceilDiv x.n 64 + 1) (c.coord + 1) with
      | none => wkFault 0x104 (x.posAddr (c.parent + 1))
      | some k => pure { c with pos := p, coord := k, aux := k % 64 }
  | 3 =>
    match ← v.occupied x (2 ^ 24) p c.endAt with
    | none => pure (c.finish 1)
    | some (k, d) => pure { c with pos := k, coord := d, aux := 0 }
  | 4 =>
    let t ← v.triple x c.pos 0
    if c.aux + 1 < t.2.1 then pure { c with aux := c.aux + 1, coord := c.coord + 1 }
    else if c.endAt ≤ p then pure (c.finish 1)
    else
      let u ← v.triple x p (t.1 + t.2.1)
      pure { c with pos := p, aux := 0, coord := u.1 }
  | 6 =>
    let page := c.pos * 256
    if c.aux + 1 < c.endAt then v.atEntry x c page c.endAt (c.aux + 1)
    else
      let nx ← v.rdN (BitVec.ofNat 64 page) 8
      match ← v.pageFrom x chainFuel nx (BitVec.ofNat 64 page) with
      | none => pure (c.finish 1)
      | some (pg, cnt) => v.atEntry x c pg cnt 0
  | _ =>
    if c.endAt ≤ p then pure (c.finish 1)
    else
      let d ← v.crd x p (if read then some c.coord else none)
      pure { c with pos := p, coord := d }

/-- The forward scan of a compressed or block fibre for a coordinate. -/
def Via.scanCrd (v : Via) (x : Lv) (c : Cur) (to' : Nat) : Nat → Nat → Option Nat → Wk Cur
  | 0, _, _ => pure (c.finish 1)
  | k + 1, p, prev =>
    if c.endAt ≤ p then pure (c.finish 1)
    else do
      let d ← v.crd x p prev
      if to' ≤ d then pure { c with pos := p, coord := d } else v.scanCrd x c to' k (p + 1) (some d)

/-- The forward scan of a run-length fibre for the first run that ends above a coordinate. -/
def Via.scanRun (v : Via) (x : Lv) (c : Cur) (to' : Nat) : Nat → Nat → Nat → Wk Cur
  | 0, _, _ => pure (c.finish 1)
  | k + 1, p, after =>
    if c.endAt ≤ p then pure (c.finish 1)
    else do
      let t ← v.triple x p after
      if to' < t.1 + t.2.1 then
        pure { c with pos := p, aux := to' - t.1, coord := t.1 + (to' - t.1) }
      else v.scanRun x c to' k (p + 1) (t.1 + t.2.1)

/-- The seek of a live cursor to a coordinate (R202, R204). `read` says that its entry was read in the same operation (R189). -/
def Via.seek (v : Via) (x : Lv) (c : Cur) (to' : Nat) (read : Bool) : Wk Cur := do
  match x.kind with
  | 3 =>
    match ← (if x.n ≤ to' then pure none else v.probe x c.parent to' (2 ^ x.m0) 0) with
    | none => pure (c.finish 2)
    | some (p, k) =>
      x.checkPos p
      pure (if c.endAt ≤ p then c.finish 2 else { c with pos := p, coord := to', aux := k })
  | 6 =>
    let page := c.pos * 256
    match ← v.entryWith x page c.endAt to' (c.endAt + 1) c.aux with
    | some e => v.atEntry x c page c.endAt e
    | none =>
      let nx ← v.rdN (BitVec.ofNat 64 page) 8
      match ← v.chainWith x to' chainFuel nx 0 (BitVec.ofNat 64 page) with
      | none => pure (c.finish 2)
      | some (pg, cnt, e) => v.atEntry x c pg cnt e
  | kind =>
    if to' ≤ c.coord then pure c
    else match kind with
    | 0 =>
      let p := c.parent * x.stride + to'
      pure (if x.n ≤ to' ∨ c.endAt ≤ p then c.finish 1 else { c with pos := p, coord := to' })
    | 2 =>
      let (a, b) ← v.bounds x c.parent
      let found ← v.bitFrom x c.parent (ceilDiv x.n 64 + 1) to'
      let n ← v.countBits x c.parent (ceilDiv x.n 64 + 1) 0 (found.getD (min to' x.n))
      match found with
      | none => if n = b - a then pure (c.finish 1) else wkFault 0x104 (x.posAddr (c.parent + 1))
      | some k =>
        let w ← v.word x c.parent (k / 64)
        let all := k / 64 + 1 = ceilDiv x.n 64
        if b ≤ a + n ∨ (all ∧ n + popN 64 (w >>> (k % 64)) ≠ b - a) then wkFault 0x104 (x.posAddr (c.parent + 1))
        else pure (if c.endAt ≤ a + n then c.finish 1 else { c with pos := a + n, coord := k, aux := k % 64 })
    | 4 => v.scanRun x c to' (c.endAt - c.pos + 1) c.pos 0
    | _ => v.scanCrd x c to' (c.endAt - c.pos + 1) (c.pos + 1) (if read then some c.coord else none)

/-- The binary search of a compressed or block fibre, with the coordinates of the entries just outside the range where they were
read (R189). -/
def Via.searchCrd (v : Via) (x : Lv) (to' : Nat) : Nat → Nat → Nat → Option Nat → Option Nat → Wk (Option Nat)
  | 0, _, _, _, _ => pure none
  | k + 1, lo, hi, below, above =>
    if hi ≤ lo then pure none
    else do
      let mid := (lo + hi) / 2
      let d ← v.crd x mid (if mid = lo then below else none)
      if mid + 1 = hi ∧ above.any (· ≤ d) then wkFault 0x104 (Dword.at' x.p1 (x.crdSize * mid))
      else if d = to' then pure (some mid)
      else if d < to' then v.searchCrd x to' k (mid + 1) hi (some d) above
      else v.searchCrd x to' k lo mid below (some d)

/-- The binary search of a run-length fibre: the triple and the offset in its run. `below` is the end of the run before the range
and `above` the start of the one after it, where they were read (R189). -/
def Via.searchRun (v : Via) (x : Lv) (to' : Nat) : Nat → Nat → Nat → Nat → Option Nat → Wk (Option (Nat × Nat))
  | 0, _, _, _, _ => pure none
  | k + 1, lo, hi, below, above =>
    if hi ≤ lo then pure none
    else do
      let mid := (lo + hi) / 2
      let t ← v.triple x mid (if mid = lo then below else 0)
      if mid + 1 = hi ∧ above.any (· < t.1 + t.2.1) then wkFault 0x104 (Dword.at' x.p1 (16 * mid))
      else if to' < t.1 then v.searchRun x to' k lo mid below (some t.1)
      else if to' < t.1 + t.2.1 then pure (some (mid, to' - t.1))
      else v.searchRun x to' k (mid + 1) hi (t.1 + t.2.1) above

/-- The lookup of a coordinate in the whole fibre of a cursor's parent (R206); none where nothing is found. -/
def Via.lookup (v : Via) (x : Lv) (c : Cur) (to' : Nat) : Wk (Option Cur) := do
  let q := c.parent
  let at' := fun (p aux e : Nat) => ({ c with pos := p, aux := aux, coord := to', endAt := e, done := false } : Cur)
  if x.n ≤ to' then pure none
  else match x.kind with
  | 0 =>
    let p := q * x.stride + to'
    x.checkPos p
    pure (some (at' p 0 (q * x.stride + x.n)))
  | 2 =>
    let (a, b) ← v.bounds x q
    let w ← v.word x q (to' / 64)
    if fldN w (to' % 64) 1 = 0 then
      if ceilDiv x.n 64 = 1 ∧ popN 64 w ≠ b - a then wkFault 0x104 (x.posAddr (q + 1)) else pure none
    else
      let n ← v.countBits x q (ceilDiv x.n 64 + 1) 0 to'
      let all := to' / 64 + 1 = ceilDiv x.n 64
      if b ≤ a + n ∨ (all ∧ n + popN 64 (w >>> (to' % 64)) ≠ b - a) then wkFault 0x104 (x.posAddr (q + 1))
      else pure (some (at' (a + n) (to' % 64) b))
  | 3 =>
    match ← v.probe x q to' (2 ^ x.m0) 0 with
    | none => pure none
    | some (p, k) =>
      x.checkPos p
      pure (some (at' p k ((q + 1) * 2 ^ x.m0)))
  | 4 =>
    let (a, b) ← v.bounds x q
    match ← v.searchRun x to' 64 a b 0 none with
    | none => pure none
    | some (p, k) => pure (some (at' p k b))
  | 6 =>
    let src := Dword.at' x.p0 (8 * q)
    let head ← v.rdN src 8
    match ← v.chainWith x to' chainFuel head 0 src with
    | none => pure none
    | some (page, cnt, e) =>
      let y ← v.atEntry x c page cnt e
      pure (some { y with done := false })
  | _ =>
    let (a, b) ← v.bounds x q
    match ← v.searchCrd x to' 64 a b none none with
    | none => pure none
    | some p => pure (some (at' p 0 b))

/-- The position that a cursor's entry passes down (Table 8-6). -/
def Via.passDown (v : Via) (x : Lv) (c : Cur) : Wk Nat := do
  match x.kind with
  | 4 =>
    let t ← v.triple x c.pos 0
    pure t.2.2
  | 6 =>
    let y ← v.pageEntry x (c.pos * 256) c.aux
    pure y.2
  | _ => pure c.pos

/-! ## Elements (R67, R85, R102, R188) -/

/-- A cursor that only names a parent. -/
def Cur.ofParent (x : Lv) (q : Nat) : Cur :=
  { tid := x.tid, level := x.i, kind := x.kind, done := false, append := false, valid := true, pos := 0, endAt := 0, aux := 0,
    coord := 0, parent := q }

/-- The position of the entry at coordinates, level by level; none where a level stores nothing there. -/
def Via.locate (v : Via) : List Lv → List Nat → Nat → Wk (Option Nat)
  | x :: xs, i :: is, q => do
    if 2 ^ 32 ≤ q then wkFault 0x10D x.tval
    else match ← v.lookup x (Cur.ofParent x q) i with
      | none => pure none
      | some c =>
        let p ← v.passDown x c
        v.locate xs is p
  | _, _, q => pure (some q)

/-- The block of a bound tensor's last level: rows and columns; 1 × 1 where it is no block level. -/
def Tens.block (t : Tens) : Nat × Nat :=
  match t.lv.getLast? with
  | some x => if x.kind = 5 then (x.m0, x.m1) else (1, 1)
  | none => (1, 1)

/-- The dimensions of the dense equivalent (R102). -/
def Tens.dims (t : Tens) : List Nat :=
  let (br, bc) := t.block
  let ds := t.lv.map (·.n)
  let k := ds.length
  if k = 1 then [ds.getD 0 0 * br * bc]
  else (List.range k).map fun i => ds.getD i 0 * (if i + 2 = k then br else if i + 1 = k then bc else 1)

/-- The coordinates of a row-major index. -/
def unravel : List Nat → Nat → List Nat
  | [], _ => []
  | _ :: ds, n => (n / ds.foldl (· * ·) 1) :: unravel ds (n % ds.foldl (· * ·) 1)

/-- The coordinates of the entry that holds an element of the dense equivalent, and the element's place in its block. -/
def Tens.entryOf (t : Tens) (cs : List Nat) : List Nat × Nat :=
  let (br, bc) := t.block
  let k := cs.length
  if k = 1 then ([cs.getD 0 0 / (br * bc)], cs.getD 0 0 % (br * bc))
  else
    ((List.range k).map fun i => cs.getD i 0 / (if i + 2 = k then br else if i + 1 = k then bc else 1),
      cs.getD (k - 2) 0 % br * bc + cs.getD (k - 1) 0 % bc)

/-- The final position of the element at coordinates of the dense equivalent; none where it is not stored. -/
def Via.elemPos (v : Via) (t : Tens) (cs : List Nat) : Wk (Option Nat) := do
  let (es, inner) := t.entryOf cs
  let p ← v.locate t.lv es 0
  let (br, bc) := t.block
  match p, t.lv.getLast? with
  | some q, some x =>
    x.checkPos (q * (br * bc) + inner)
    pure (some (q * (br * bc) + inner))
  | _, _ => pure (p.map fun q => q * (br * bc) + inner)

/-- The address of the byte that holds the element at a final position (R85, R87). -/
def recElemAddr (r : BitVec 512) (pos : Nat) : Dword :=
  Dword.at' (recBase r) (swizzle (pos * fmtBits (recFmt r) / 8) (recSwz r))

/-- The bits of the element at a final position (R67). -/
def Via.elemAt (v : Via) (r : BitVec 512) (pos : Nat) : Wk Nat := do
  let w := fmtBits (recFmt r)
  let x ← v.rdN (recElemAddr r pos) (max 1 (w / 8))
  pure (if w = 4 then fldN x (4 * (pos % 2)) 4 else x)

/-- The scale and zero point of the group of an element of a qi tensor (R69, R70). -/
def Via.groupOf (v : Via) (t : Tens) (cs : List Nat) : Wk (Nat × Nat) := do
  let k := cs.length
  let gs := (List.range k).map fun i =>
    if i + 1 = k then cs.getD i 0 / max 1 (qgrpLen (recQgrp t.r)) else cs.getD i 0
  let side ← v.tensor (recStid t.r)
  match ← v.elemPos side gs with
  | none => pure (0, 0)
  | some p =>
    let e ← v.elemAt side.r p
    pure (fldN e 0 16, fldN e 16 8)

/-- The bits of the element of a bound tensor at coordinates of its dense equivalent: zero, or the group's zero point, where
it is not stored. -/
def Via.elem (v : Via) (t : Tens) (cs : List Nat) : Wk Nat := do
  match ← v.elemPos t cs with
  | some p => v.elemAt t.r p
  | none =>
    if recFmt t.r = 7 ∨ recFmt t.r = 8 then
      let g ← v.groupOf t cs
      pure (g.2 % 2 ^ fmtBits (recFmt t.r))
    else pure 0

/-- The element of a compressed view at an index, under the record's out-of-range policy (R102). -/
def Via.viewElem (v : Via) (t : Tens) (va : Dword) (idx : Nat) : Wk Nat := do
  let ds := t.dims
  let total := ds.foldl (· * ·) 1
  if idx < total then v.elem t (unravel ds idx)
  else match recOor t.r with
    | 1 => if total = 0 then pure 0 else v.elem t (unravel ds (total - 1))
    | 2 => wkFault 0x086 va
    | _ => pure 0

/-- Elements of a compressed view from an index on. -/
def Via.viewElems (v : Via) (t : Tens) (va : Dword) : Nat → Nat → Wk (List Nat)
  | 0, _ => pure []
  | k + 1, idx => do
    let x ← v.viewElem t va idx
    let xs ← v.viewElems t va k (idx + 1)
    pure (x :: xs)

/-- Elements of `w` bits packed from the lowest bit up (R67). -/
def packElems (w : Nat) : List Nat → Nat
  | [] => 0
  | x :: xs => x % 2 ^ w + 2 ^ w * packElems w xs

/-- The `n` bytes that a compressed view of a bound tensor gives from an element on (R102). A link format is 0x086. -/
def Via.viewBytes (v : Via) (t : Tens) (idx n : Nat) (va : Dword) : Wk (List Byte) := do
  let w := fmtBits (recFmt t.r)
  if 0x11 ≤ recFmt t.r then wkFault 0x086 va
  else
    let xs ← v.viewElems t va (ceilDiv (8 * n) w) idx
    pure (toBytes n (packElems w xs))

/-- The bytes of a compressed-view access, which must cover whole elements (R102, R169). -/
def Via.viewWhole (v : Via) (t : Tens) (idx n : Nat) (va : Dword) : Wk (List Byte) := do
  if 8 * n % fmtBits (recFmt t.r) ≠ 0 then wkFault 0x086 va else v.viewBytes t idx n va

/-- A view's reader: at the home, past every cache of the core, with what the access has bound (R89, R102, R399). -/
def Via.forView (v : Via) (bound : List Tens) : Via := { v with who := none, cached := false, bound := bound }

/-- A read of the compressed view of a tensor by a reader with some records bound, by fuel: an array or BASE of the tensor may lie on that
path in turn. A read whose views lead back to it is without end. -/
def Via.viewVia (v : Via) : Nat → List Tens → Nat → Nat → Nat → Dword → Wk (List Byte)
  | 0, _, _, _, _, _ => wkWait
  | k + 1, bound, tid, idx, n, va => do
    let w : Via := { v.forView bound with view := v.viewVia k }
    let ts ← w.bindAll tid
    ({ w with bound := ts ++ bound }).viewWhole (ts.headD ⟨0, 0, []⟩) idx n va

/-- A reader (R89 to R128). -/
def Via.make (iss : Issuer) (who : Option (Nat × Nat × Nat)) (cached : Bool) (cmd : Option Nat) (bound : List Tens) (hint : Nat) : Via :=
  let v : Via := ⟨iss, who, cached, cmd, bound, hint, fun _ _ _ _ _ => wkWait⟩
  { v with view := v.viewVia 65536 }

/-- A walker's reads for a thread (R195 to R197). -/
def State.viaWalker (s : State) (g l id : Nat) : Via := Via.make (s.issuerOf g l 1) (some (g, l, id)) true none [] 0

end Sys2Proof.Machine
end

