-- ==== Sys2Proof/Machine/Loads.lean ====
section
/-! DEFINITION. How an access of a thread is issued once its checks are made (R89, R102, R113, R167). -/

namespace Sys2Proof.Machine

open Sys2Proof

/-- An access that parks at issue joins the fault of its page (R113). -/
def State.addParked (s : State) (a : Acc) (p : Park) (unit : Nat) : State :=
  (s.addAcc { a with park := some p, parked := true, hold := a.hold && a.op.holdsParked }).parkFault p.slot a.core unit p

/-- Whether a bound place on the device holds a poisoned sector (R416). -/
def State.rsvPoisoned (s : State) (r : Rsv) (n : Nat) : Bool :=
  match r with
  | .mem (.node a) _ => s.poisoned a n
  | .const (.node a) _ => s.poisoned a n
  | _ => false

/-- A resolved access made outstanding: bound, or parked. One on the pool or peer path holds its thread until it is answered, and one
of a poisoned sector until it lands, so that its trap is precise (log 74). -/
def State.issueAcc (s : State) (a : Acc) (r : Rsv) : State :=
  match r with
  | .park p => s.addParked a p 0
  | r =>
    let t := r.target?
    s.addAcc { a with
      tgt := t.map (·.1), home := (t.map (·.2)).getD 0,
      hold := a.hold || (((t.map (·.1)).bind Target.loc?).map Loc.untracked).getD false || s.rsvPoisoned r a.op.size }

/-- Whether L1 serves a read of what an address reaches. -/
def State.rsvInL1 (s : State) (core : Nat) (r : Rsv) (past : Past) : Bool :=
  match r with
  | .mem p _ => s.l1Serves core p past
  | .const p _ => s.l1Serves core p past
  | _ => false

/-- What the bytes of a constant-path read reach that lie in the sector after the one it is bound to (R60). -/
def State.tailOf (s : State) (a : Acc) (r : Rsv) (n : Nat) : Option (Rsv × Nat) :=
  match r with
  | .const p _ =>
    if p.room < n then
      some ((s.reach (s.issuerOf a.g a.lane 0) .load (a.va + BitVec.ofNat 64 p.room) (n - p.room) 1 0x094 false).1, n - p.room)
    else none
  | _ => none

/-- Whether a read meets a poisoned sector, which L1 does not serve (R161, R416), in what an address reaches or in the tail of it. -/
def State.readPoisoned (s : State) (a : Acc) (r : Rsv) (n : Nat) (past : Past) : Bool :=
  (s.rsvPoisoned r n && !s.rsvInL1 a.core r past) ||
    (s.tailOf a r n).any fun q => s.rsvPoisoned q.1 q.2 && !s.rsvInL1 a.core q.1 past

/-- A read of the compressed view (R102): it binds its records and levels at issue (R89). Where nothing holds it back it has read by then,
and only has to land (`known` makes its operation of the bytes); otherwise it holds its thread until it lands, so that its causes are
precise, unless it parks. -/
def State.issueView (s : State) (a : Acc) (tid idx n : Nat) (known : Option (List Byte → AccOp)) : Res :=
  let v := (s.viaWalker a.g a.lane s.now).forView []
  let later := fun (b : Acc) (t : State) => Res.ok (t.addAcc { b with hold := true })
  let stop := fun (b : Acc) (q : Stop) (t : State) => match q with
    | .fault c tv => Res.trap c tv
    | .park p => if s.parkTraps a.g a.lane then .trap 0x098 p.va else .ok (t.addParked b p 1)
    | .wait => later b t
  match v.bindAll tid s with
  | .error q t => stop a q t
  | .ok ts t =>
    let b := { a with recs := ts }
    match (v.forView ts).viewWhole (ts.headD ⟨0, 0, []⟩) idx n a.va t, known with
    | .error q u, _ => stop b q u
    | .ok bs u, some f => if s.readsBound a.g a.lane then .ok (u.addAcc { b with op := f bs }) else later b u
    | .ok _ u, none => later b u

/-- A read of `n` bytes on any path but the control path: a cause traps, and otherwise the access is outstanding. -/
def State.issueLoad (s : State) (a : Acc) (n : Nat) (past : Past) (known : Option (List Byte → AccOp)) (r : Rsv) : Res :=
  match r with
  | .fault c => .trap c a.va
  | .wait => .stay
  | .park p => .ok (s.addParked a p 0)
  | .ctl _ => .trap 0x094 a.va
  | .param _ => .ok (s.addAcc a)
  | .view tid idx => s.issueView a tid idx n known
  | r =>
    if s.readPoisoned a r n past then .trap 0x169 a.va
    else .ok (s.issueAcc { a with hold := a.hold || (s.tailOf a r n).any fun q => s.rsvPoisoned q.1 q.2 } r)

/-- The records of some tensors as a cursor instruction binds them at issue (R89, R197), and what stopped the first that could not be. -/
def State.bindRecs (s : State) (g l : Nat) : List Nat → List Tens × Option Stop × State
  | [] => ([], none, s)
  | tid :: ts =>
    match (s.viaWalker g l s.now).binds tid s with
    | .error q s1 => ([], some q, s1)
    | .ok r s1 =>
      let (rs, q, s2) := s1.bindRecs g l ts
      (r ++ rs, q, s2)

/-- Runs of bytes joined where one goes on where another ends. -/
def joinRuns : List (Nat × List Byte) → List (Nat × List Byte)
  | [] => []
  | p :: ps => match joinRuns ps with
    | [] => [p]
    | q :: qs => if p.1 + p.2.length = q.1 then (p.1, p.2 ++ q.2) :: qs else p :: q :: qs

/-- Runs of addresses joined where one goes on where another ends. -/
def joinSpans : List (Nat × Nat) → List (Nat × Nat)
  | [] => []
  | p :: ps => match joinSpans ps with
    | [] => [p]
    | q :: qs => if p.1 + p.2 = q.1 then (p.1, p.2 + q.2) :: qs else p :: q :: qs

/-- A memory access of a thread waits for its unfinished acquires (R403), and, where it releases, until what it covers is
performed at the scope that its address gives (R47, R402). -/
def readyAt (e : Eff) (s : State) (g l : Nat) (rel : Bool) (va : Dword) : Bool :=
  !s.acqPending g l && (!rel || s.releaseReady g l (scopeOn e.scope va))

end Sys2Proof.Machine
end

