-- ==== Sys2Proof/Machine/Command.lean ====
section
/-! DEFINITION. What every command shares (R130 to R141): the read of its block, the completion table, ownership of lines,
writes of an engine, completion, and barrier objects. -/

namespace Sys2Proof.Machine

open Sys2Proof

/-! ## Reads at issue (R131) -/

/-- What a read that an instruction makes before it issues ends with: a trap, a wait, or the number read. -/
inductive IssueRd
  | trap (cause : Nat) (tval : Dword) (s : State)
  | stay (s : State)
  | ok (x : Nat) (s : State)
  deriving DecidableEq, Repr

/-- Whether an access only holds an instruction that has not issued. -/
def AccOp.isIssue (o : AccOp) : Bool := o == .value []

/-- An instruction whose issue is parked (R115, R131): the thread stays at it and issues nothing until the answer. -/
def State.parkIssue (s : State) (g l : Nat) (p : Park) (unit : Nat) : State :=
  (s.addAcc { s.newAcc g l p.va (.value []) with hold := true, park := some p, parked := true }).parkFault p.slot
    (if unit = 2 then 1024 + dieOf (s.coreOf g) else s.coreOf g) unit p

/-- What a read on a thread's load path comes to for an instruction that makes it before it issues; a non-fatal fault of a handler's
may trap (R420). -/
def IssueRd.of (g l unit : Nat) (r : EStateM.Result Stop State (List Byte)) : IssueRd :=
  match r with
  | .ok bs s => .ok (ofBytes bs) s
  | .error (.fault c tv) s => .trap c tv s
  | .error (.park p) s => if s.parkTraps g l then .trap 0x098 p.va s else .stay (s.parkIssue g l p unit)
  | .error .wait s => .stay s

/-- The bytes of one sector on a thread's load path at issue, as a load reads them: what L1 serves waits for no owner (R126). -/
def State.issueSector (s : State) (g l : Nat) (va : Dword) (r : Rsv) (n : Nat) : IssueRd :=
  let core := s.coreOf g
  let via := Via.make (s.issuerOf g l 0) (some (g, l, s.now)) false none [] 0
  let plain := fun (p : Loc) (home : Nat) (past : Past) => match s.readPlace core g [l] s.now va p home n past 0 0 .local with
    | some (bs, s1) => IssueRd.ok (ofBytes bs) s1
    | none => .stay s
  match r with
  | .wait => .stay s
  | .mem (.node a) h =>
    if s.earlierSame g l s.now (some (.mem (.node a))) va n then .stay s
    else if s.l1Serves core (.node a) .none then plain (.node a) h .none
    else if s.ownedBy none a n then .stay s
    else if s.poisoned a n then .trap 0x169 va s
    else plain (.node a) h .none
  | .spad t i o =>
    if s.earlierSame g l s.now (some (.spad t i o)) va n then .stay s else .ok (ofBytes ((s.spad t i).read o n)) s
  | r =>
    match r with
    | .const p h =>
      if n ≤ p.room ∧ s.l1Serves core p .constant then plain p h .constant
      else IssueRd.of g l 0 (via.piece va n s)
    | _ => IssueRd.of g l 0 (via.piece va n s)

/-- The sectors of a run read one after the other; each is `n` bytes. -/
def State.issueSectors (s : State) (g l : Nat) (va : Dword) (n : Nat) : List Nat → IssueRd
  | [] => .ok 0 s
  | k :: ks =>
    match s.resolve g l .load (va + BitVec.ofNat 64 k) n 1 0x094 false with
    | (.fault c, s1) => .trap c va s1
    | (.park p, s1) => .stay (s1.parkIssue g l p 0)
    | (r, s1) => match s1.issueSector g l (va + BitVec.ofNat 64 k) r n with
      | .ok x s2 => (match s2.issueSectors g l va n ks with
        | .ok y s3 => .ok (x + y * 2 ^ (8 * n)) s3
        | q => q)
      | q => q

/-- The bytes of a compressed view from an element on: its records and levels are bound, with what the reader has bound already
(R89, R102). -/
def Via.viewRead (v : Via) (tid idx n : Nat) (va : Dword) : Wk (List Byte) := do
  let ts ← (v.forView v.bound).bindAll tid
  (v.forView (ts ++ v.bound)).viewBytes (ts.headD ⟨0, 0, []⟩) idx n va

/-- A block of one or more 64-byte sectors read on a thread's load path; a misaligned one raises a cause of its own. -/
def State.issueRead (s : State) (g l : Nat) (va : Dword) (bytes alignCause : Nat) : IssueRd :=
  match s.resolve g l .load va 1 bytes alignCause false with
  | (.fault c, s1) => .trap c va s1
  | (.view tid idx, s1) => IssueRd.of g l 1 ((s1.viaWalker g l s1.now).viewRead tid idx bytes va s1)
  | _ => s.issueSectors g l va (min bytes 64) ((List.range (bytes / min bytes 64)).map fun i => 64 * i)

/-- Whether a lower lane of a thread's instruction has still to issue it: one whose read waits or is parked, so that the commands
of one instruction are entered in lane order (R131). -/
def State.laneAhead (s : State) (e : Eff) (g l : Nat) : Bool :=
  let pc := (s.thread g l).pc
  (s.acc.any fun p => p.2.g == g && decide (p.2.lane < l) && p.2.op.isIssue && p.2.pc == pc) ||
    (((s.cur.map fun i => i.lanes).getD []).any fun k => decide (k < l) && (s.thread g k).pc == pc &&
      e.guard.passes (s.thread g k) && s.screenReady g k e)

/-! ## The completion table (R138) -/

/-- The next slot of a die's table whose command has ended, from the pointer on. -/
def Die.nextEntry (d : Die) : Option Nat :=
  ((List.range (d.ctab.length + 1)).map fun i => (d.rr + i) % 65536).find? fun i =>
    ((alGet? d.ctab i).map fun x => x.cmd.isNone).getD true

/-- The handle id of a slot (Table 6-9). -/
def handleOf (die slot gen : Nat) : Word := BitVec.ofNat 32 (slot + die * 2 ^ 16 + gen % 4096 * 2 ^ 19 + 2 ^ 31)

/-- A slot taken for a command: its number, the handle and the state. A slot's first generation is 0. -/
def State.takeEntry (s : State) (die ctxSlot cmd : Nat) (sc : Scope) : Option (Nat × Word × State) :=
  (s.die die).nextEntry.map fun i =>
    let gen := match alGet? (s.die die).ctab i with
      | some x => (x.gen + 1) % 4096
      | none => 0
    (i, handleOf die i gen, s.modDie die fun d =>
      { d with ctab := alSet d.ctab i ⟨gen, ctxSlot, some cmd, sc, 0⟩, rr := (i + 1) % 65536 })

/-- The slot that a handle names in a context; none where the handle is retired. -/
def State.handleSlot (s : State) (ctxSlot : Nat) (h : Word) : Option CSlot :=
  (alGet? (s.die (fld h 16 3)).ctab (fld h 0 16)).filter fun x => bit h 31 && x.gen == fld h 19 12 && x.slot == ctxSlot

/-- What a handle answers in a context: none where it is retired; whether the command has ended with which status. -/
def State.handleState (s : State) (ctxSlot : Nat) (h : Word) : Option (Option Word) :=
  (s.handleSlot ctxSlot h).map fun x => if x.cmd.isSome then none else some x.status

/-- The wider of two scopes. -/
def widest (a b : Scope) : Scope := if scopeCode a < scopeCode b then b else a

/-- The status word (Table 6-6). -/
def statusWord (state count : Nat) (fl : BitVec 5) : Word :=
  BitVec.ofNat 32 (state + fl.toNat * 8 + min count 0xFFFFFF * 256)

/-! ## Ownership (R124 to R127) -/

/-- A line claimed by a command: it joins the claims in order of arrival, and every RDC copy goes. -/
def State.claimLine (s : State) (id line : Nat) : State :=
  let l := alGet s.owners [] line
  if l.contains id then s
  else { s with owners := alSet s.owners line (l ++ [id]) }.invalidateRdc none line

/-- A line released by a command. -/
def State.releaseLine (s : State) (id line : Nat) : State :=
  match (alGet s.owners [] line).filter fun c => c != id with
  | [] => { s with owners := alDel s.owners line }
  | l => { s with owners := alSet s.owners line l }

/-- Every line of a command released. -/
def State.releaseLines (s : State) (id : Nat) : State :=
  { s with owners := (s.owners.map fun p => (p.1, p.2.filter fun c => c != id)).filter fun p => p.2 != [] }

/-- The line of bulk or bonded memory that an address of a command reaches, where it is translated. -/
def State.lineAt (s : State) (iss : Issuer) (va : Dword) : Option Nat :=
  if fld va 56 8 ≠ 0 then none
  else match s.xlatePeek none iss.die iss.slot va.toNat .write with
    | .ok a _ => some (a / 128)
    | _ => none

/-- A command claims every line that it has still to claim and whose page is translated now; the others stay (R124, log 52). -/
def State.claimWant (s : State) (id : Nat) : State :=
  match alGet? s.cmds id with
  | none => s
  | some c =>
    let t := c.want.foldl (fun (u : State) va => match u.lineAt c.iss va with
      | some l => u.claimLine id l
      | none => u) s
    { t with cmds := alMod t.cmds id fun x => { x with want := x.want.filter fun va => (t.lineAt x.iss va).isNone } }

/-- Every command claims the lines that it has still to claim and whose pages have become present (R140). -/
def State.claimWants (s : State) : State :=
  s.cmds.foldl (fun (t : State) p => if p.2.want = [] then t else t.claimWant p.1) s

/-- A run of destination bytes claimed, as far as its pages are translated (R124). Only bulk and bonded lines are owned. -/
def State.claimRun (s : State) (id : Nat) (va : Dword) (n : Nat) : State :=
  let new := ((piecesOf va 0 n).map fun q => va + BitVec.ofNat 64 q.1).filter fun a => fld a 56 8 == 0
  { s with cmds := alMod s.cmds id fun c => { c with want := c.want ++ new } }.claimWant id

/-! ## Swizzled runs (R87) -/

/-- A run of offsets cut at 16-byte units, by fuel. -/
def cut16 : Nat → Nat → Nat → List (Nat × Nat)
  | 0, _, _ => []
  | k + 1, o, n => if n = 0 then [] else (o, min n (16 - o % 16)) :: cut16 k (o + min n (16 - o % 16)) (n - min n (16 - o % 16))

/-- The places of a run of offsets under a swizzle code: offset and length of each part. -/
def swzRuns (code o n : Nat) : List (Nat × Nat) :=
  if fldN code 0 3 = 0 then [(o, n)] else (cut16 (n / 16 + 2) o n).map fun q => (swizzle q.1 code, q.2)

/-- Nothing counted. -/
def Tally.zero : Tally := ⟨0, 0, 0, 0⟩

/-- Two counts together. -/
def Tally.add (x y : Tally) : Tally := ⟨x.flg ||| y.flg, x.oorc + y.oorc, x.satc + y.satc, x.uniq + y.uniq⟩

/-- The pieces that write bytes at a run of offsets from a base; the last piece, and each that reaches a multiple of 512
bytes, ends at a boundary. Their order for CRC-32C is that of the offsets before the swizzle (R146). -/
def piecesAt (base : Dword) (code o : Nat) (bs : List Byte) : List Piece :=
  let runs := (swzRuns code o bs.length).foldl (fun (acc : List (Nat × Nat × Nat) × Nat) q =>
      (acc.1 ++ (piecesOf (base + BitVec.ofNat 64 q.1) 0 q.2).map fun c => (q.1 + c.1, acc.2 + c.1, c.2), acc.2 + q.2)) ([], 0)
  runs.1.map fun q =>
    { va := base + BitVec.ofNat 64 q.1, bytes := (bs.drop q.2.1).take q.2.2,
      ends := q.2.1 + q.2.2 == bs.length || (o + q.2.1 + q.2.2) % 512 == 0, key := base.toNat + o + q.2.1, tally := .zero }

/-- A command with a count added. -/
def Cmd.tallied (c : Cmd) (t : Tally) : Cmd :=
  { c with flg := c.flg ||| t.flg, oorc := c.oorc + t.oorc, satc := c.satc + t.satc, uniq := c.uniq + t.uniq }

/-- Pieces with a count on the last of them. -/
def tallyLast (t : Tally) : List Piece → List Piece
  | [] => []
  | [p] => [{ p with tally := p.tally.add t }]
  | p :: q :: ps => p :: tallyLast t (q :: ps)

/-- A command that has to write some pieces more, with a count that is made as the last of them is written; where there is none,
it is made at once. -/
def Cmd.addPieces (c : Cmd) (ps : List Piece) (t : Tally) : Cmd :=
  let c1 := { c with plan := some (c.plan.getD [] ++ tallyLast t ps) }
  if ps = [] then c1.tallied t else c1

/-! ## Engine writes (R134, R155) -/

/-- The reads of a command, with what it has bound and its L2 hint (R89, R130). -/
def Cmd.via (c : Cmd) (id : Nat) : Via := Via.make c.iss none false (some id) c.bound c.l2

/-- A run of bytes at a path that may be a compressed view (R134). -/
def Via.srcRun (v : Via) (base : Dword) (o n : Nat) : Wk (List Byte) :=
  if fld base 60 4 = 5 then do
    let bs ← v.viewRead (fld base 44 16) (fld base 0 44) (o + n) base
    pure (bs.drop o)
  else v.rd (base + BitVec.ofNat 64 o) n

/-- The parts of a run, read in order. -/
def Via.srcRuns (v : Via) (base : Dword) : List (Nat × Nat) → Wk (List Byte)
  | [] => pure []
  | q :: qs => do
    let a ← v.srcRun base q.1 q.2
    let b ← v.srcRuns base qs
    pure (a ++ b)

/-- The source bytes of a run of offsets under a swizzle code. -/
def Via.src (v : Via) (base : Dword) (code o n : Nat) : Wk (List Byte) := v.srcRuns base (swzRuns code o n)

/-- Whether a run of bytes touches a granule of a scratchpad path. -/
def touchesGranule (va : Dword) (n k : Nat) : Bool := decide (va.toNat / 16 ≤ k) && decide (k ≤ (va.toNat + n - 1) / 16)

/-- What the writing of one piece ends with. -/
inductive PutRes
  | done (s : State)
  | wait
  | park (p : Park) (s : State)
  | fault (cause : Nat)
  deriving DecidableEq, Repr

/-- The granules of a run of bytes. -/
def granulesOf (a n : Nat) : List Nat := if n = 0 then [] else (List.range ((a + n - 1) / 16 + 1 - a / 16)).map fun i => a / 16 + i

/-- A piece written by an engine under an L2 hint: at the bank, setting each granule full after the command's last byte of it, or at
the home, once the command owns the line; the home's L2 takes the hint on the issuing die alone (R123). `rest` are the runs still to come.
A granule that a command leaves written only in part, because it fails or is cancelled, keeps the bit that it had: its last byte has not
been written (R134 names no other end; DESIGN CHOICE, log 107). -/
def State.putPiece (s : State) (id : Nat) (iss : Issuer) (hint : Nat) (p : Piece) (rest : List (Dword × Nat)) : PutRes :=
  match s.reach iss .store p.va p.bytes.length 1 0x094 false with
  | (.fault c, _) => .fault c
  | (.park q, s1) => .park q s1
  | (.wait, _) => .wait
  | (.spad t i o, s1) =>
    .done (s1.modSpad t i fun x =>
      (granulesOf p.va.toNat p.bytes.length).foldl (fun (y : Spad) k =>
        if rest.any fun r => touchesGranule r.1 r.2 k then y else y.setFull (o / 16 * 16 + 16 * (k - p.va.toNat / 16)) true)
        (x.write o p.bytes))
  | (.mem (.node a) h, s1) =>
    if s1.ownedBy (some id) a p.bytes.length then .wait else .done (s1.homeWrite h a (if h = iss.die then hint else 0) p.bytes)
  | (.mem l _, s1) =>
    let t := { s1 with freeTick := s1.freeTick + 1 }
    if Config.remoteRefused s1.freeTick || (s1.sec.linksDown && l.isPeer) then .fault l.refusal
    else .done (t.modDie iss.die fun d => { d with rdc := cacheDrop d.rdc l })
  | (_, _) => .fault 0x084

/-- Whether the line of a piece is held by the command, or is no line that can be owned. -/
def State.mayPut (s : State) (id : Nat) (iss : Issuer) (p : Piece) : Bool :=
  match s.lineAt iss p.va with
  | some l => !s.ownedBy (some id) (128 * l) 1
  | none => true

/-- The CORE field of a command's fault records (Table 4-7). -/
def Cmd.source (c : Cmd) : Nat := if c.iss.unit = 2 then 1024 + c.iss.die else c.core

/-- A list without its element at a place. -/
def dropAt {α : Type} (l : List α) (i : Nat) : List α := l.take i ++ l.drop (i + 1)

/-- Whether a run of bytes of a command lies on a line. -/
def State.runOn (s : State) (iss : Issuer) (r : Dword × Nat) (l : Nat) : Bool :=
  (piecesOf r.1 0 r.2).any fun q => s.lineAt iss (r.1 + BitVec.ofNat 64 q.1) == some l

/-- Whether a command computes a checksum (R146). -/
def Cmd.sums (c : Cmd) : Bool := c.op != .coll && fldN c.blk 178 1 == 1

/-- A command with one of its pieces written. BYTES counts what is written in its destination (Table 6-8): every piece of an engine, and of a
collective those of its results, whose key is 1. -/
def Cmd.wrote (c : Cmd) (p : Piece) (rest : List Piece) : Cmd :=
  { c.tallied p.tally with
    plan := some rest, mid := !p.ends,
    bytes := if c.coll.isNone ∨ p.key = 1 then c.bytes + p.bytes.length else c.bytes,
    done := if c.sums then c.done ++ [(p.key, p.bytes)] else c.done }

/-- The next piece of a command written: the first whose line it holds. `later` are runs that it will write beyond its pieces. A line
is released with its last byte (R125). -/
def State.putNext (s0 : State) (id : Nat) (c0 : Cmd) (ps : List Piece) (later : List (Dword × Nat)) : State :=
  let s := s0.claimWant id
  let c := (alGet? s.cmds id).getD c0
  match (List.range ps.length).find? fun i => (ps[i]?.map fun p => s.mayPut id c.iss p).getD false with
  | none => s
  | some i => match ps[i]? with
    | none => s
    | some p =>
      let rest := ((dropAt ps i).map fun q => (q.va, q.bytes.length)) ++ later
      match s.putPiece id c.iss c.l2 p rest with
      | .wait => s
      | .fault cause => { s with cmds := alSet s.cmds id { c with result := some (3, cause), plan := some [], rows := [] } }
      | .park q t =>
        { t with cmds := alSet t.cmds id { c with park := some q } }.parkFault q.slot c.source c.iss.unit q
      | .done t =>
        let t1 := { t with cmds := alSet t.cmds id (c.wrote p (dropAt ps i)) }
        match t1.lineAt c.iss p.va with
        | none => t1
        | some l => if rest.any fun r => t1.runOn c.iss r l then t1 else t1.releaseLine id l

/-! ## Barrier objects (R141) -/

/-- The object after `n` arrivals: EXPECT, COUNT and PHASE. -/
def barrierArrive (x n : Nat) : Nat :=
  let e := fldN x 0 32
  let c := fldN x 32 32
  let p := fldN x 64 32
  if e = 0 then e + c * 2 ^ 32 + (p + n) % 2 ^ 32 * 2 ^ 64
  else e + (c + n) % e * 2 ^ 32 + (p + (c + n) / e) % 2 ^ 32 * 2 ^ 64

/-- `n` arrivals at the object at a bank. Its reserved field stays. -/
def State.arrive (s : State) (t i o n : Nat) : State :=
  s.modSpad t i fun x => x.write o (toBytes 12 (barrierArrive (ofBytes (x.read o 16)) n))

/-- The arrival of a command at the object, which a `BWAIT` that it lets return observes at the command's scope (R140). -/
def State.arriveCmd (s : State) (t i o : Nat) (sc : Scope) : State :=
  (s.arrive t i o 1).modSpad t i fun x => { x with came := alSet x.came (o / 16) (widest (alGet x.came .thr (o / 16)) sc) }

/-! ## Completion (R136, R137) -/

/-- One step of the reflected CRC-32C (R146). -/
def crcBit (c : Nat) : Nat := if c % 2 = 1 then Nat.xor (c / 2) 0x82F63B78 else c / 2

/-- CRC-32C of bytes (R146). -/
def crc32c (bs : List Byte) : Nat :=
  Nat.xor (bs.foldl (fun c b => (List.range 8).foldl (fun d _ => crcBit d) (Nat.xor c b.toNat)) 0xFFFFFFFF) 0xFFFFFFFF

/-- What of a block a command uses at its end: CREC, and BARE with BAR; a collective has no barrier. -/
def Cmd.crec (c : Cmd) : Nat := if c.op = .coll then fldN c.blk 640 64 else fldN c.blk 320 64

/-- Whether a command arrives at a barrier. -/
def Cmd.bare (c : Cmd) : Bool := c.op != .coll && fldN c.blk 177 1 == 1

/-- STATE and COUNT with which a command ends (Tables 6-6, 6-7). -/
def Cmd.ending (c : Cmd) : Nat × Nat :=
  match c.result with
  | some r => (r.1, if r.1 = 4 then 0 else r.2)
  | none =>
    if c.plan ≠ some [] ∨ c.rows ≠ [] then (4, 0)
    else match c.op with
      | .xform => (1, c.satc)
      | .gathr | .scatr _ => (if c.oorc = 0 then 1 else 2, c.oorc)
      | .sortu _ => (1, c.uniq)
      | .coll => (if c.mid then 2 else 1, c.uniq)
      | _ => (1, 0)

/-- Whether a command's work is over: it failed, wrote its last byte, or was cancelled at a boundary (R139). -/
def Cmd.over (c : Cmd) : Bool :=
  c.park.isNone && (c.result.isSome || (c.plan == some [] && c.rows == [] && c.op != .coll) ||
    (c.cancel && !c.mid && c.op != .coll))

/-- Written runs in rising order of their keys, as CRC-32C takes them (R146). -/
def runsCrc (segs : List (Nat × List Byte)) : Nat :=
  crc32c ((sortBy (fun (a b : Nat × List Byte) => decide (a.1 ≤ b.1)) segs).flatMap fun p => p.2)

/-- The checksum of a command: of the bytes that it read (XOP 5) or has written; 0 without CSUM (Table 6-8, R146). -/
def Cmd.checksum (c : Cmd) : Nat := if !c.sums then 0 else if c.op = .xform ∧ fldN c.blk 180 4 = 5 then c.crc else runsCrc c.done

/-- The completion record (Table 6-8). -/
def Cmd.record (c : Cmd) (status : Word) : List Byte :=
  let ver := match c.tens with
    | some t => recVer t.r
    | none => 0
  toBytes 32 (status.toNat + c.oorc % 2 ^ 32 * 2 ^ 32 + c.satc % 2 ^ 32 * 2 ^ 64 + c.uniq % 2 ^ 32 * 2 ^ 96 +
    c.bytes % 2 ^ 64 * 2 ^ 128 + c.checksum % 2 ^ 32 * 2 ^ 192 + (if c.op = .coll then 0 else ver) * 2 ^ 224)

/-- The steps after the record: lines released, arrival at the barrier, status in the completion table, and the future
filled. An arrival at an address outside the team's mapped scratchpad reaches no object (R136 gives no outcome; log 79). -/
def State.endCmd (s : State) (id : Nat) (c : Cmd) (status : Word) : State :=
  let s1 := { s.releaseLines id with cmds := alDel s.cmds id }
  let s2 := if c.bare then
      match s1.reach c.iss .load (BitVec.ofNat 64 (fldN c.blk 256 64)) 16 16 0x111 false with
      | (.spad t i o, s') => s'.arriveCmd t i o c.scope
      | (_, s') => s'
    else s1
  let close := fun x : CSlot => if x.cmd = some id then { x with cmd := none, status := status } else x
  let s3 := if c.op = .pref then s2 else s2.modDie c.iss.die fun d => { d with ctab := alMod d.ctab c.entry close }
  match c.dst with
  | none => s3
  | some r =>
    (s3.modThread c.g c.lane fun t =>
      let t1 := { t with vEmpty := t.vEmpty.filter fun k => k != r }
      if t.exited then t1 else { (t1.setV r status) with futures := alSet t1.futures r c.scope }).landTags c.g c.lane [r]

/-- The end of a command whose work is over (R136, R137). -/
def State.completeCmd (s : State) (id : Nat) (c : Cmd) : State :=
  let (st, n) := c.ending
  let word := statusWord st n c.flg
  let crec := c.crec
  if c.op = .pref ∨ crec = 0 ∨ crec % 32 ≠ 0 ∨ c.norec then s.endCmd id c word
  else match s.putPiece id c.iss c.l2 ⟨BitVec.ofNat 64 crec, c.record word, true, 0, .zero⟩ [] with
    | .done t => t.endCmd id c word
    | .fault cause => s.endCmd id c (statusWord 3 cause c.flg)
    | .wait => s
    | .park p t =>
      { t with cmds := alSet t.cmds id { c with park := some p, closing := true } }.parkFault p.slot c.source c.iss.unit p

/-! ## Issue (R131) -/

/-- What a command instruction of a thread needs before it issues: its release, with the thread's stores at their homes whatever
the scope (R412), room in the queue and in the completion table for
every passing lane, and no unfinished acquire. -/
def cmdReady (cap : Nat) (mine : EngOp → Bool) (e : Eff) (s : State) (g l : Nat) : Bool :=
  let n := match s.cur with
    | some i => (s.passing g i.lanes e).length
    | none => 1
  let die := dieOf (s.coreOf g)
  !s.acqPending g l && s.releaseReady g l .dev &&
    decide ((s.cmds.filter fun p => (p.2.op == .coll || p.2.iss.die == die) && !p.2.started && mine p.2.op).length + n ≤ cap) &&
    decide (((s.die die).ctab.filter fun p => p.2.cmd.isSome).length + n ≤ 65536)

/-- A command with nothing done. -/
def Cmd.new (op : EngOp) (iss : Issuer) (g l core : Nat) (e : Eff) (mode : Dword) (blk : Nat) : Cmd :=
  { op := op, iss := iss, g := g, lane := l, core := core, seq := bit e.var 0, scope := e.scope, l2 := e.l2, mode := mode,
    blk := blk, tens := none, bound := [], header := 0, entry := 0, dst := none, started := false, cancel := false, park := none,
    want := [], plan := none, rows := [], tail := none, done := [], mid := false, flg := 0, oorc := 0, satc := 0, uniq := 0, bytes := 0, crc := 0,
    result := none, closing := false, norec := false, coll := none }

/-- A command entered in its queue: a completion-table slot, the handle in D + 1 and D empty (R131). A command with
`.nofut` has a slot too, which no handle names. -/
def State.enterCmd (s : State) (g l : Nat) (e : Eff) (c : Cmd) : Nat × State :=
  let (id, s1) := s.fresh
  match s1.takeEntry c.iss.die c.iss.slot id c.scope with
  | none => (id, s)
  | some (i, h, s2) =>
    let fut := if bit e.var 1 then none else match e.d with
      | .v k => some k.toNat
      | _ => none
    let s3 := { s2 with cmds := alSet s2.cmds id { c with entry := i, dst := fut } }
    (id, match fut with
      | none => s3
      | some r => (s3.modThread g l fun t => { (t.setV (r + 1) h) with vEmpty := r :: t.vEmpty.filter (fun k => k != r) }).retag
          g [l] [r + 1])

end Sys2Proof.Machine
end

