-- ==== Sys2Proof/Machine/Engine.lean ====
section
/-! DEFINITION. Copy engines (opcodes 0xB0 to 0xB4, 0xB9 to 0xBE and the index-list `PREF`): the checks of a command block,
Mordant transforms, index lists, sort-unique, futures and barrier instructions. -/

namespace Sys2Proof.Machine

open Sys2Proof

/-! ## The command block (Tables 6-2 to 6-4) -/

/-- SRC. -/
def bSrc (b : Nat) : Dword := BitVec.ofNat 64 (fldN b 0 64)
/-- DST. -/
def bDst (b : Nat) : Dword := BitVec.ofNat 64 (fldN b 64 64)
/-- LEN. -/
def bLen (b : Nat) : Nat := fldN b 128 32
/-- TID. -/
def bTid (b : Nat) : Nat := fldN b 160 16
/-- TIDV. -/
def bTidv (b : Nat) : Bool := fldN b 176 1 == 1
/-- CSUM. -/
def bCsum (b : Nat) : Bool := fldN b 178 1 == 1
/-- XOP. -/
def bXop (b : Nat) : Nat := fldN b 180 4
/-- SFMT. -/
def bSfmt (b : Nat) : Nat := fldN b 184 8
/-- DFMT. -/
def bDfmt (b : Nat) : Nat := fldN b 192 8
/-- RM. -/
def bRm (b : Nat) : Nat := fldN b 200 3
/-- SAT. -/
def bSat (b : Nat) : Bool := fldN b 203 1 == 1
/-- IW. -/
def bIw (b : Nat) : Nat := fldN b 204 1
/-- SSWZ. -/
def bSswz (b : Nat) : Nat := fldN b 208 8
/-- DSWZ. -/
def bDswz (b : Nat) : Nat := fldN b 216 8
/-- CNT2. -/
def bCnt2 (b : Nat) : Nat := fldN b 224 32
/-- AUX0. -/
def bAux0 (b : Nat) : Nat := fldN b 384 64
/-- AUX1. -/
def bAux1 (b : Nat) : Nat := fldN b 448 64

/-- The formats that a conversion takes (Table 6-5). -/
def isConvFmt (f : Nat) : Bool := (decide (1 ≤ f) && decide (f ≤ 6)) || (decide (9 ≤ f) && decide (f ≤ 0x10))
/-- The float formats. -/
def isFloatFmt (f : Nat) : Bool := decide (1 ≤ f) && decide (f ≤ 6)
/-- The element formats. -/
def isElemFmt (f : Nat) : Bool := decide (1 ≤ f) && decide (f ≤ 0x10)

/-- Which fields of the block the opcode and its transform do not use (Table 6-3, R142 to R144, R150), as the parts of the
block that must be zero. -/
def unusedZero (op : EngOp) (b : Nat) : Bool :=
  let x := bXop b
  let z := fun (l : List Nat) => l.all fun v => v == 0
  let conv := match op with
    | .gathr => z [bSfmt b] && (x == 2 || z [bDfmt b, bRm b, fldN b 203 1])
    | .scatr _ => x == 2 || z [bSfmt b, bDfmt b, bRm b, fldN b 203 1]
    | .xform => (match x with
      | 1 => z [bDfmt b, bRm b, fldN b 203 1]
      | 2 => true
      | 3 => z [bDfmt b, fldN b 203 1, (bDst b).toNat, bDswz b]
      | 4 => z [bSfmt b, (bSrc b).toNat, bSswz b]
      | 5 => z [bSfmt b, bDfmt b, bRm b, fldN b 203 1, (bDst b).toNat, bDswz b]
      | 0 => z [bSfmt b, bDfmt b, bRm b, fldN b 203 1]
      | _ => true)
    | _ => z [bSfmt b, bDfmt b, bRm b, fldN b 203 1]
  let tid := z [bTid b, fldN b 176 1]
  conv && match op with
    | .copy => tid && z [bAux0 b, bAux1 b, bCnt2 b, bIw b]
    | .xform => z [bAux1 b, bCnt2 b, bIw b] && (x == 1 || x == 3 || x == 4 || z [bAux0 b]) &&
        (x == 3 || x == 4 || 6 ≤ x || (x == 2 && bSfmt b == 6 && (bTidv b || bTid b == 0)) || tid)
    | .gathr => z [bLen b, bAux0 b, bAux1 b / 2 ^ 32, bCnt2 b, bIw b, bSswz b]
    | .scatr _ => z [(bDst b).toNat, bIw b, bDswz b]
    | .sortu _ => tid
    | _ => true

/-- Whether an address lies on the control path. -/
def onCtl (a : Nat) : Bool := fldN a 60 4 == 15
/-- Whether an address lies on the constant or compressed-view path. -/
def onRead (a : Nat) : Bool := fldN a 60 4 == 4 || fldN a 60 4 == 5

/-- Whether a format code of the block is not allowed for the transform (Table 6-5). A SCATR with XOP 2 may name any convertible
DFMT, or none, and its target is the table's format (log 51). -/
def badFormat (op : EngOp) (b : Nat) : Bool :=
  decide (0x11 ≤ bSfmt b) || decide (0x11 ≤ bDfmt b) || (match op, bXop b with
    | .xform, 1 => !isElemFmt (bSfmt b)
    | .xform, 2 => !isConvFmt (bSfmt b) || !isConvFmt (bDfmt b)
    | .xform, 3 => !isFloatFmt (bSfmt b)
    | .xform, 4 => !isFloatFmt (bDfmt b)
    | .gathr, 2 => !isConvFmt (bDfmt b)
    | .scatr _, 2 => !isConvFmt (bSfmt b) || (bDfmt b != 0 && !isConvFmt (bDfmt b))
    | _, _ => false)

/-- The first condition of Table 6-4 that the block alone decides (R133). -/
def blockReason (op : EngOp) (b : Nat) : Option Nat :=
  let x := bXop b
  let table := op = .gathr ∨ op = .scatr true ∨ op = .scatr false
  let named := table ∨ (op = .xform ∧ (x = 3 ∨ x = 4))
  let aux := match op with
    | .scatr _ | .sortu _ => [bAux0 b, bAux1 b]
    | _ => []
  let sorts := match op with
    | .sortu _ => true
    | _ => false
  if fldN b 179 1 ≠ 0 ∨ fldN b 205 3 ≠ 0 ∨ !unusedZero op b then some 1
  else if (match op with
    | .xform => decide (5 < x)
    | .gathr | .scatr _ => x != 0 && x != 2
    | _ => x != 0) then some 2
  else if badFormat op b then some 3
  else if bRm b = 6 then some 4
  else if named ∧ !bTidv b then some 5
  else if onRead (bDst b).toNat ∨ (sorts ∧ aux.any onRead) ∨
      ([(bSrc b).toNat, (bDst b).toNat, fldN b 256 64, fldN b 320 64] ++ aux).any onCtl then some 7
  else if op = .xform ∧ x = 1 ∧ bLen b ≠ fldN (bAux0 b) 0 32 * fldN (bAux0 b) 32 32 then some 8
  else if fldN b 177 1 = 1 ∧ (fldN b 256 64 % 16 ≠ 0 ∨ (fldN b 316 4 ≠ 2 ∧ fldN b 316 4 ≠ 3)) then some 9
  else if 64 ≤ bSswz b ∨ 64 ≤ bDswz b then some 10
  else none

/-- The elements of one row of a table: the product of the dimensions below level 0 (R147). -/
def rowElems (r : BitVec 512) : Nat := ((List.range (recRank r - 1)).map fun i => recDim r (i + 1)).foldl (· * ·) 1

/-- The bytes of one row. -/
def rowBytes (r : BitVec 512) : Nat := rowElems r * fmtBits (recFmt r) / 8

/-- The descriptors of a record's levels, unchecked. -/
def Via.rawLevels (v : Via) (r : BitVec 512) : Wk (List Nat) :=
  let rec go : Nat → Nat → Wk (List Nat)
    | 0, _ => pure []
    | k + 1, i => do
      let d ← v.rdN (Dword.at' (recLvlt r) (32 * i)) 32
      let ds ← go k (i + 1)
      pure (d :: ds)
  go (recRank r) 0

/-- The first condition of Table 6-4 that the bound record decides: reason 3, then reason 6 (R143, R147, R151). -/
def recordReason (op : EngOp) (b : Nat) (r : BitVec 512) (ds : List Nat) : Option Nat :=
  let f := recFmt r
  let dense := (List.range (recRank r)).all fun i => recKind r i == 0
  let plain := (List.range (recRank r)).all fun i =>
    recKind r i == 0 && (fldN (ds.getD i 0) 128 32 == 0 || fldN (ds.getD i 0) 128 32 == recDim r i)
  let whole := rowElems r * fmtBits f % 8 = 0
  match op with
  | .gathr => if 0x11 ≤ f ∨ (bXop b = 2 ∧ !isConvFmt f) then some 3 else if plain ∧ whole then none else some 6
  | .scatr add =>
    if 0x11 ≤ f ∨ (bXop b = 2 ∧ !isConvFmt f) ∨
        (add ∧ !(([1, 2, 3, 9, 10, 11, 12, 13, 14] : List Nat).contains f)) then some 3
    else if plain ∧ whole then none else some 6
  | .xform =>
    if 0x11 ≤ f then some 3
    else if (bXop b = 3 ∨ bXop b = 4) ∧ ¬ ((f = 7 ∨ f = 8) ∧ dense) then some 6 else none
  | _ => none

/-- Whether a command reads the levels of its record: one that names a table or a quantised tensor. -/
def usesLevels (op : EngOp) (b : Nat) : Bool := op != .xform || bXop b == 3 || bXop b == 4

/-- What a command binds at issue (R89, R133): its record with its levels, and the side tensor of a quantised one. Cause 0x110
carries the reason. -/
def Via.bindBlock (v : Via) (op : EngOp) (b : Nat) : Wk (List Tens) := do
  if !bTidv b then pure []
  else
    let r ← v.bind (bTid b)
    if let some n := recordReason op b r [] then wkFault 0x110 (BitVec.ofNat 64 n)
    else if !usesLevels op b then pure [⟨bTid b, r, []⟩]
    else
      let ds ← v.rawLevels r
      match recordReason op b r ds with
      | some n => wkFault 0x110 (BitVec.ofNat 64 n)
      | none =>
        let ls ← v.levels (bTid b) r (recRank r) 0
        if op == .xform then
          let side ← v.tensor (recStid r)
          pure [⟨bTid b, r, ls⟩, side]
        else pure [⟨bTid b, r, ls⟩]

/-! ## Mordant transforms (R142 to R146) -/

/-- The rounding mode of a command. -/
def Cmd.rm (c : Cmd) : Rm := if bRm c.blk = 7 then modeRm c.mode else rmOf (bRm c.blk)

/-- The x4 scale of an f4 source: the bound record's where TIDV is set, else MODE's (R142). -/
def Cmd.x4 (c : Cmd) : Nat :=
  match c.tens with
  | some t => recX4 t.r
  | none => modeX4 c.mode

/-- The elements of `w` bits of packed bytes (R67). -/
def unpack (w n : Nat) (bs : List Byte) : List Nat := (List.range n).map fun i => fldN (ofBytes bs) (w * i) w

/-- Elements of `w` bits packed into whole bytes, the last one's spare bits zero. -/
def repack (w : Nat) (xs : List Nat) : List Byte := toBytes ((w * xs.length + 7) / 8) (packElems w xs)

/-- Whether a result was clamped (R142). -/
def clamped (ty : Ty) (sat : Bool) (x : Ex) (fl : Flg) : Bool :=
  let inf := match x with
    | .inf _ => true
    | _ => false
  if tyFloat ty then sat && (fld fl 2 1 == 1 || inf) else fld fl 0 1 == 1 && !x.isNan

/-- An element converted (XOP 2): the result and what it counts. -/
def Cmd.convertOne (c : Cmd) (sf df x : Nat) : Nat × Tally :=
  let dt := (fmtTy df).getD .n8
  let e := decodeElem ((fmtTy sf).getD .n8) c.x4 (modeFtzi c.mode) x
  let (y, fl) := roundTo e dt c.rm (bSat c.blk) (modeFtzo c.mode)
  (y, ⟨fl, 0, b2n (clamped dt (bSat c.blk) e fl), 0⟩)

/-- Counts together. -/
def sumTally (ts : List Tally) : Tally := ts.foldl Tally.add .zero

/-- Elements converted, packed, and what they count. -/
def Cmd.convert (c : Cmd) (sf df : Nat) (xs : List Nat) : List Byte × Tally :=
  let ys := xs.map (c.convertOne sf df)
  (repack (fmtBits df) (ys.map fun y => y.1), sumTally (ys.map fun y => y.2))

/-- The counts of packed elements of `w` bits on the pieces that write their last bytes; `base` is the key of the first byte. -/
def tallyElems (base w : Nat) (ts : List Tally) (ps : List Piece) : List Piece :=
  ps.map fun p =>
    let last := fun i : Nat => base + (w * (i + 1) - 1) / 8
    let mine := ts.zipIdx.filter fun x => decide (p.key ≤ last x.2) && decide (last x.2 < p.key + p.bytes.length)
    { p with tally := p.tally.add (sumTally (mine.map fun x => x.1)) }

/-- An element to be written: the address of its byte, its place there (0 the low nibble or whole bytes, 1 the high nibble, 2 the
low nibble of a byte whose high one is unused), its code, and what it counts. -/
structure ElemPut where
  at' : Dword
  nib : Nat
  x : Nat
  tally : Tally
  deriving DecidableEq, Repr

/-- The byte that an element of 4 bits leaves of an old one (R67). -/
def ElemPut.over (e : ElemPut) (old : Nat) : Byte :=
  BitVec.ofNat 8 (match e.nib with
    | 0 => old / 16 * 16 + e.x % 16
    | 1 => old % 16 + e.x % 16 * 16
    | _ => e.x % 16)

/-- Elements of `w` bits laid over the bytes that stand there (R67, R143): the bytes by address. -/
def Via.overlay (v : Via) (w : Nat) : List ElemPut → AL Byte → Wk (AL Byte)
  | [], m => pure m
  | e :: es, m => do
    if w = 4 then
      let old ← match alGet? m e.at'.toNat with
        | some b => pure b.toNat
        | none => if e.nib = 2 then pure 0 else v.rdN e.at' 1
      v.overlay w es (alSet m e.at'.toNat (e.over old))
    else
      v.overlay w es ((List.range (w / 8)).foldl (fun (n : AL Byte) i =>
        alSet n (e.at'.toNat + i) (BitVec.ofNat 8 (fldN e.x (8 * i) 8))) m)

/-- Bytes by address as pieces of one byte, each with the counts of the elements that begin in it. -/
def bytePieces (es : List ElemPut) (m : AL Byte) : List Piece :=
  m.map fun p =>
    { va := BitVec.ofNat 64 p.1, bytes := [p.2], ends := p.1 % 512 == 511 || (m.getLast?.map (·.1)) == some p.1, key := p.1,
      tally := sumTally ((es.filter fun e => e.at'.toNat == p.1).map fun e => e.tally) }

/-- A command that has to write pieces formed from its whole source, and then ends as it is told. -/
def Cmd.planned (c : Cmd) (ps : List Piece) : Cmd := { c with plan := some ps }

/-- The elements of a quantise or dequantise that lie inside the tensor, and what the others do (R143, R144): they are counted, or
under the fault policy end the command after the ones before them. -/
def Cmd.span (c : Cmd) (t : Tens) : Nat × Tally × Option (Nat × Nat) :=
  let total := t.dims.foldl (· * ·) 1
  let n := min (bLen c.blk) (total - bAux0 c.blk)
  if recOor t.r = 2 then (n, .zero, if n < bLen c.blk then some (5, 0x119) else none)
  else (n, { Tally.zero with oorc := bLen c.blk - n }, none)

/-- The scale of a group under the command's FTZI (R79). -/
def Cmd.scale (c : Cmd) (x : Nat) : Ex := decodeElem .f16 0 (modeFtzi c.mode) x

/-- The elements of a quantise (R143), the codes of `xs` from element `i` on. -/
def Cmd.quantised (c : Cmd) (v : Via) (t : Tens) : Nat → List Nat → Wk (List ElemPut)
  | _, [] => pure []
  | i, x :: xs => do
    let st := (fmtTy (bSfmt c.blk)).getD .f32
    let n := bAux0 c.blk + i
    let cs := unravel t.dims n
    let g ← v.groupOf t cs
    let pos := (← v.elemPos t cs).getD 0
    let (q, sat, fl) := quantiseCode (decodeElem st c.x4 (modeFtzi c.mode) x) (c.scale g.1) g.2 c.rm
      (if fmtBits (recFmt t.r) = 8 then 255 else 15)
    let nib := if pos % 2 = 1 then 1 else if n + 1 = t.dims.foldl (· * ·) 1 then 2 else 0
    let rest ← c.quantised v t (i + 1) xs
    pure (⟨recElemAddr t.r pos, nib, q, ⟨fl, 0, b2n sat, 0⟩⟩ :: rest)

/-- Quantise (R143). -/
def Cmd.quantise (c : Cmd) (v : Via) (t : Tens) : Wk Cmd := do
  let w := fmtBits (bSfmt c.blk)
  let bs ← v.src (bSrc c.blk) (bSswz c.blk) 0 (ceilDiv (w * bLen c.blk) 8)
  let (k, out, tail) := c.span t
  let es ← c.quantised v t 0 (unpack w k bs)
  let m ← v.overlay (fmtBits (recFmt t.r)) es []
  pure { (c.addPieces (bytePieces es m) out) with tail := tail }

/-- The elements of a dequantise (R144), from element `i` on: the results and what they count. -/
def Cmd.dequantised (c : Cmd) (v : Via) (t : Tens) : Nat → Nat → Wk (List (Nat × Tally))
  | 0, _ => pure []
  | k + 1, i => do
    let dt := (fmtTy (bDfmt c.blk)).getD .f32
    let cs := unravel t.dims (bAux0 c.blk + i)
    let g ← v.groupOf t cs
    let q ← v.elem t cs
    let (x, bad) := Ex.mul (c.scale g.1) (Ex.ofInt ((q : Int) - g.2))
    let (y, fl) := roundTo x dt c.rm (bSat c.blk) (modeFtzo c.mode)
    let rest ← c.dequantised v t k (i + 1)
    pure ((y, ⟨fl ||| (if bad then flNV else 0), 0, b2n (clamped dt (bSat c.blk) x fl), 0⟩) :: rest)

/-- Dequantise (R144). -/
def Cmd.dequantise (c : Cmd) (v : Via) (t : Tens) : Wk Cmd := do
  let (k, out, tail) := c.span t
  let dw := fmtBits (bDfmt c.blk)
  let ys ← c.dequantised v t k 0
  let ps := tallyElems (bDst c.blk).toNat dw (ys.map fun y => y.2)
    (piecesAt (bDst c.blk) (bDswz c.blk) 0 (repack dw (ys.map fun y => y.1)))
  pure { (c.addPieces ps out) with tail := tail }

/-- `XFORM` (R142 to R146). LEN counts bytes where no format is named. -/
def Cmd.xform (c : Cmd) (v : Via) : Wk Cmd := do
  let b := c.blk
  let n := bLen b
  let w := fmtBits (bSfmt b)
  match bXop b with
  | 1 =>
    let bs ← v.src (bSrc b) (bSswz b) 0 (ceilDiv (w * n) 8)
    let r := fldN (bAux0 b) 0 32
    let k := fldN (bAux0 b) 32 32
    let xs := unpack w n bs
    let ys := (List.range n).map fun i => xs.getD (i % r * k + i / r) 0
    pure (c.planned (piecesAt (bDst b) (bDswz b) 0 (repack w ys)))
  | 2 =>
    let bs ← v.src (bSrc b) (bSswz b) 0 (ceilDiv (w * n) 8)
    let ys := (unpack w n bs).map (c.convertOne (bSfmt b) (bDfmt b))
    let out := repack (fmtBits (bDfmt b)) (ys.map fun y => y.1)
    pure (c.planned (tallyElems (bDst b).toNat (fmtBits (bDfmt b)) (ys.map fun y => y.2) (piecesAt (bDst b) (bDswz b) 0 out)))
  | 3 => match c.tens with
    | some t => c.quantise v t
    | none => pure (c.planned [])
  | 4 => match c.tens with
    | some t => c.dequantise v t
    | none => pure (c.planned [])
  | 5 =>
    let bs ← v.src (bSrc b) (bSswz b) 0 n
    pure { c.planned [] with crc := crc32c bs }
  | _ =>
    let bs ← v.src (bSrc b) (bSswz b) 0 n
    pure (c.planned (piecesAt (bDst b) (bDswz b) 0 bs))

/-! ## Index lists (R147 to R151) -/

/-- The end of a command by a cause: STATE 5 for the causes of an index list, else 3 (R155, R157). -/
def endOf (cause : Nat) : Nat × Nat := (if 0x118 ≤ cause ∧ cause ≤ 0x11A then 5 else 3, cause)

/-- Work whose cause, where it ends in one, is a result. -/
def wkCatch {α : Type} (m : Wk α) : Wk (α ⊕ Nat) := fun s =>
  match m s with
  | .ok a t => .ok (.inl a) t
  | .error (.fault c _) t => .ok (.inr c) t
  | .error e t => .error e t

/-- One tile of a list at a byte offset: its rows, the offset of the next one, and the entries not yet counted; 0x118 where it is
malformed or holds more than those (R148). -/
def Via.tile (v : Via) (base : Dword) (code o left : Nat) : Wk (List Nat × Nat × Nat) := do
  let h := ofBytes (← v.src base code o 16)
  let n := fldN h 64 32
  let iw := 1 + fldN h 48 1
  if fldN h 49 15 ≠ 0 ∨ fldN h 96 32 ≠ 0 ∨ left < n then wkFault 0x118 0
  else
    let bs ← v.src base code (o + 16) (iw * n)
    pure ((unpack (8 * iw) n bs).map fun e => fldN h 0 48 + e, o + 16 + ceilDiv (iw * n) 16 * 16, left - n)

/-- The rows that the tiles of a list name, in list order, and the end that follows them where a tile fails (R148). -/
def Via.listTiles (v : Via) (base : Dword) (code : Nat) : Nat → Nat → Nat → Wk (List Nat × Option (Nat × Nat))
  | 0, _, left => pure ([], if left = 0 then none else some (endOf 0x118))
  | k + 1, o, left => do
    match ← wkCatch (v.tile base code o left) with
    | .inr c => pure ([], some (endOf c))
    | .inl (rows, o1, left1) =>
      let (rest, e) ← v.listTiles base code k o1 left1
      pure (rows ++ rest, e)

/-- The rows of an index list with the header given, and the end that follows them. -/
def Via.listRows (v : Via) (base : Dword) (code header : Nat) : Wk (List Nat × Option (Nat × Nat)) :=
  if fldN header 64 64 ≠ 0 then pure ([], some (endOf 0x118)) else v.listTiles base code (fldN header 0 32) 16 (fldN header 32 32)

/-- The table row that an entry names under the out-of-range policy: none where it is not handled as a row; and whether it
was out of range (R149). -/
def tableRow (r : BitVec 512) (x : Nat) : Option Nat × Bool :=
  if x < recDim r 0 then (some x, false)
  else (if recOor r = 1 ∧ recDim r 0 ≠ 0 then some (recDim r 0 - 1) else none, true)

/-- The bytes of a table row. -/
def Via.tableBytes (v : Via) (r : BitVec 512) (row : Nat) : Wk (List Byte) :=
  v.src (BitVec.ofNat 64 (recBase r)) (recSwz r) (row * rowBytes r) (rowBytes r)

/-- The bytes of a `GATHR` row after conversion. -/
def Cmd.outBytes (c : Cmd) (r : BitVec 512) : Nat :=
  if bXop c.blk = 2 then ceilDiv (rowElems r * fmtBits (bDfmt c.blk)) 8 else rowBytes r

/-- The pitch of a `GATHR`'s rows (R150). -/
def Cmd.pitch (c : Cmd) (r : BitVec 512) : Nat :=
  if fldN (bAux1 c.blk) 0 32 = 0 then c.outBytes r else fldN (bAux1 c.blk) 0 32

/-- The bytes that a row gives a `GATHR`, and what it counts: none in the table under the zero policy gives zeros (R149). -/
def Cmd.gatherRow (c : Cmd) (v : Via) (r : BitVec 512) (x : Nat) : Wk (List Byte × Tally) := do
  let (row, oor) := tableRow r x
  let (bs, t) ← match row with
    | none => pure (List.replicate (c.outBytes r) (0 : Byte), Tally.zero)
    | some k => do
      let raw ← v.tableBytes r k
      if bXop c.blk = 2 then pure (c.convert (recFmt r) (bDfmt c.blk) (unpack (fmtBits (recFmt r)) (rowElems r) raw))
      else pure (raw, Tally.zero)
  pure (bs, t.add ⟨0, b2n oor, 0, 1⟩)

/-- The rows of a `GATHR` from entry `i` on, and the end that follows them; the fault policy or a fatal access ends it after the
rows before (R149, R155). -/
def Cmd.gatherRows (v : Via) (r : BitVec 512) (e : Option (Nat × Nat)) : List Nat → Nat → Cmd → Wk Cmd
  | [], _, c => pure { c with tail := e }
  | x :: xs, i, c => do
    if recDim r 0 ≤ x ∧ recOor r = 2 then pure { c with tail := some (endOf 0x119) }
    else match ← wkCatch (c.gatherRow v r x) with
      | .inr cause => pure { c with tail := some (endOf cause) }
      | .inl (bs, t) =>
        Cmd.gatherRows v r e xs (i + 1) (c.addPieces (piecesAt (bDst c.blk) (bDswz c.blk) (i * c.pitch r) bs) t)

/-- `GATHR` (R150). Its list's header was read at issue. -/
def Cmd.gathr (c : Cmd) (v : Via) (t : Tens) : Wk Cmd := do
  let (rows, e) ← v.listRows (bSrc c.blk) 0 c.header
  Cmd.gatherRows v t.r e rows 0 (c.planned [])

/-- The source rows of a `SCATR`, converted: the bytes of each and what it counts (R151). Rows follow one another at CNT2 bytes or,
where that is 0, at the bytes that a row has in the source's format (log 51). -/
def Cmd.scatSource (c : Cmd) (v : Via) (r : BitVec 512) : Nat → Nat → Wk (List (List Byte × Tally))
  | 0, _ => pure []
  | k + 1, j => do
    let conv := bXop c.blk = 2
    let w := if conv then fmtBits (bSfmt c.blk) else fmtBits (recFmt r)
    let size := ceilDiv (rowElems r * w) 8
    let raw ← v.src (bSrc c.blk) (bSswz c.blk) (j * (if bCnt2 c.blk = 0 then size else bCnt2 c.blk)) size
    let rest ← c.scatSource v r k (j + 1)
    pure ((if conv then c.convert (bSfmt c.blk) (recFmt r) (unpack w (rowElems r) raw) else (raw, .zero)) :: rest)

/-- The entry that each source row goes to: its own number, or what the inverse map says (R151). -/
def Cmd.scatMap (c : Cmd) (v : Via) : Wk (List Nat) :=
  if bAux1 c.blk = 0 then pure (List.range (bLen c.blk))
  else do
    let bs ← v.src (BitVec.ofNat 64 (bAux1 c.blk)) 0 0 (4 * bLen c.blk)
    pure (unpack 32 (bLen c.blk) bs)

/-- A source row added to what its table row receives: the last one under `.st`, all of them under `.add`. -/
def scatPut (add : Bool) (m : AL (Tally × List (List Byte))) (k : Nat) (x : List Byte × Tally) : AL (Tally × List (List Byte)) :=
  let old := alGet m (Tally.zero, []) k
  alSet m k (old.1.add x.2, if add then old.2 ++ [x.1] else [x.1])

/-- `SCATR`'s list, map and source (R151): the rows to claim with their contributions in order of j. A list that does not hold LEN
entries, then an entry out of range under the fault policy, then a tile that fails end the command before any row. -/
def Cmd.scatr (c : Cmd) (v : Via) (t : Tens) (add : Bool) : Wk Cmd := do
  let list := BitVec.ofNat 64 (bAux0 c.blk)
  let h := ofBytes (← v.src list 0 0 16)
  let (rows, e) ← v.listRows list 0 h
  let oor := rows.filter fun x => decide (recDim t.r 0 ≤ x)
  let ended : Option (Nat × Nat) :=
    if bAux1 c.blk = 0 ∧ bLen c.blk ≠ fldN h 32 32 then some (endOf 0x118)
    else if recOor t.r = 2 ∧ oor ≠ [] then some (endOf 0x119) else e
  match ended with
  | some x => pure { c.planned [] with tail := some x }
  | none =>
    let map ← c.scatMap v
    let src ← c.scatSource v t.r (bLen c.blk) 0
    let dropped := (map.filter fun e => decide (rows.length ≤ e)).length
    let put := (map.zip src).foldl (fun (m : AL (Tally × List (List Byte))) p =>
      match rows[p.1]?.bind fun x => (tableRow t.r x).1 with
      | none => m
      | some k => scatPut add m k p.2) []
    pure { c.planned [] with rows := put, oorc := oor.length + dropped }

/-- A table row as a `SCATR` leaves it (R151): the last source row, or the prior value and every contribution summed in ply
form at ANC and resolved once. -/
def Cmd.scatValue (c : Cmd) (r : BitVec 512) (prior : List Byte) (rows : List (List Byte)) : List Byte × Flg × Nat :=
  match c.op with
  | .scatr true =>
    let ty := (fmtTy (recFmt r)).getD .f32
    let w := fmtBits (recFmt r)
    let n := rowElems r
    let cols := (prior :: rows).map fun bs => unpack w n bs
    let anc := ancInt (recAnc r)
    let res := (List.range n).map fun i =>
      let e := cols.foldl (fun (e : PElem) xs => plyAdd e (decodeElem ty 0 (modeFtzi c.mode) (xs.getD i 0)) anc) .zero
      let (y, fl) := plyResolve e anc ty c.rm (bSat c.blk) (modeFtzo c.mode)
      (y, fl, b2n (clamped ty (bSat c.blk) (plyEx e anc) fl))
    (repack w (res.map (·.1)), res.foldl (fun f x => f ||| x.2.1) 0, (res.map fun x => x.2.2).foldl (· + ·) 0)
  | _ => (rows.getLast?.getD prior, 0, 0)

/-! ## Sort-unique (R152) -/

/-- A sorted list without repeats. -/
def uniqSorted : List Nat → List Nat
  | [] => []
  | a :: l => match uniqSorted l with
    | [] => [a]
    | b :: m => if a = b then b :: m else a :: b :: m

/-- The tiles of sorted unique indices, by fuel: base row and indices of each (R152). -/
def tilesOf (w : Nat) : Nat → List Nat → List (Nat × List Nat)
  | 0, _ => []
  | _ + 1, [] => []
  | k + 1, a :: l =>
    (a, 0 :: (l.takeWhile fun x => decide (x < a + 2 ^ w)).map fun x => x - a) ::
      tilesOf w k (l.dropWhile fun x => decide (x < a + 2 ^ w))

/-- The bytes of an index list of tiles (R148). -/
def listBytes (iw : Nat) (ts : List (Nat × List Nat)) : List Byte :=
  toBytes 16 (ts.length + (ts.map fun t => t.2.length).foldl (· + ·) 0 * 2 ^ 32) ++ ts.flatMap fun t =>
    toBytes 16 (t.1 + iw * 2 ^ 48 + t.2.length * 2 ^ 64) ++
      toBytes (ceilDiv ((1 + iw) * t.2.length) 16 * 16) (packElems (8 * (1 + iw)) t.2)

/-- Bytes that the manual leaves unspecified, from a counter on (log 2). -/
def freeBytes (tick n : Nat) : List Byte := (List.range n).map fun i => Config.freeByte (tick + i)

/-- `SORTU` (R152). -/
def Cmd.sortu (c : Cmd) (v : Via) (wide : Bool) : Wk Cmd := do
  let b := c.blk
  let w := if wide then 64 else 32
  let bs ← v.src (bSrc b) (bSswz b) 0 (bLen b * w / 8)
  let xs := unpack w (bLen b) bs
  let kept := xs.filter fun x => decide (x < 2 ^ 48)
  let us := uniqSorted (sortBy (fun (x y : Nat) => decide (x ≤ y)) kept)
  let out := listBytes (bIw b) (tilesOf (8 * (1 + bIw b)) us.length us)
  let mult := us.flatMap fun u => toBytes 4 (xs.filter fun x => x == u).length
  let inv := xs.flatMap fun x => toBytes 4 (if x < 2 ^ 48 then (us.takeWhile fun u => u != x).length else 2 ^ 32 - 1)
  let at' := fun (a : Nat) (d : List Byte) => if a = 0 then [] else [(a, d)]
  let segs := fun (x y z : List Byte) => [((bDst b).toNat, x)] ++ at' (bAux0 b) y ++ at' (bAux1 b) z
  let pieces := fun (l : List (Nat × List Byte)) => l.flatMap fun p =>
    piecesAt (BitVec.ofNat 64 p.1) (if p.1 = (bDst b).toNat then bDswz b else 0) 0 p.2
  let drops : Tally := { Tally.zero with oorc := xs.length - kept.length }
  if bCnt2 b < out.length then
    let n := 4 * bLen b
    let tick ← wkGet fun s => s.freeTick
    wkMod fun s => { s with freeTick := s.freeTick + bCnt2 b + 2 * n }
    let junk := segs (freeBytes tick (bCnt2 b)) (freeBytes (tick + bCnt2 b) n) (freeBytes (tick + bCnt2 b + n) n)
    pure { c.addPieces (pieces junk) drops with tail := some (endOf 0x11A) }
  else pure (c.addPieces (pieces (segs out mult inv)) { drops with uniq := us.length })

/-! ## Running a command -/

/-- Work of which nothing but a wait is told (R153). -/
def wkDrop {α : Type} (m : Wk α) : Wk (Option α) := fun s =>
  match m s with
  | .ok a t => .ok (some a) t
  | .error .wait t => .error .wait t
  | .error _ t => .ok none t

/-- The table rows of a prefetch read; a row out of range and a fault are passed over (R153). -/
def Via.touchRows (v : Via) (r : BitVec 512) : List Nat → Wk Unit
  | [] => pure ()
  | x :: xs => do
    match tableRow r x with
    | (some k, false) =>
      let _ ← wkDrop (v.tableBytes r k)
      v.touchRows r xs
    | _ => v.touchRows r xs

/-- The rows that the tiles of a prefetch's list name read, as far as its tiles can be (R153). -/
def Via.touchTiles (v : Via) (r : BitVec 512) (base : Dword) : Nat → Nat → Nat → Wk Unit
  | 0, _, _ => pure ()
  | k + 1, o, left => do
    match ← wkDrop (v.tile base 0 o left) with
    | none => pure ()
    | some (rows, o1, left1) =>
      v.touchRows r rows
      v.touchTiles r base k o1 left1

/-- Whether a table's rows can be gathered (Table 6-4). -/
def gathers (t : Tens) : Bool := (recordReason .gathr 0 t.r (t.lv.map fun x => x.m0 * 2 ^ 128)).isNone

/-- The rows of a prefetch's list read (R153). -/
def Cmd.touch (c : Cmd) (v : Via) (t : Tens) : Wk Cmd := do
  match ← wkDrop (v.src (bSrc c.blk) 0 0 16) with
  | some bs =>
    let h := ofBytes bs
    if fldN h 64 64 = 0 then v.touchTiles t.r (bSrc c.blk) (fldN h 0 32) 16 (fldN h 32 32)
    pure (c.planned [])
  | none => pure (c.planned [])

/-- The command with its source read and its result formed. A prefetch that could not bind its table at issue binds it first. -/
def Cmd.work (c : Cmd) (v : Via) : Wk Cmd := do
  match c.op, c.tens with
  | .copy, _ =>
    let bs ← v.src (bSrc c.blk) (bSswz c.blk) 0 (bLen c.blk)
    pure (c.planned (piecesAt (bDst c.blk) (bDswz c.blk) 0 bs))
  | .xform, _ => c.xform v
  | .gathr, some t => c.gathr v t
  | .scatr add, some t => c.scatr v t add
  | .sortu w, _ => c.sortu v w
  | .pref, some t => c.touch v t
  | .pref, none =>
    match ← wkDrop (v.tensor c.header) with
    | some t => if gathers t then ({ c with tens := some t, bound := [t] } : Cmd).touch { v with bound := [t] } t else pure (c.planned [])
    | none => pure (c.planned [])
  | _, _ => pure (c.planned [])

/-- Whether a command may start: `.seq` waits for the thread's earlier commands on the die, and a die has 16 engines
(R132). -/
def State.mayStart (s : State) (id : Nat) (c : Cmd) : Bool :=
  (!c.seq || s.cmds.all fun p => decide (id ≤ p.1) || p.2.g != c.g || p.2.lane != c.lane || p.2.iss.die != c.iss.die ||
    p.2.op == .pref || (match p.2.op with
      | .launch _ _ => true
      | _ => false)) &&
    (c.op == .coll || decide ((s.cmds.filter fun p => p.2.started && p.2.iss.die == c.iss.die && p.2.op != .coll).length < 16))

/-- The state with a command replaced. -/
def State.setCmd (s : State) (id : Nat) (c : Cmd) : State := { s with cmds := alSet s.cmds id c }

/-- A command that parks on a non-fatal fault of its own access (R155). -/
def State.parkCmd (s : State) (id : Nat) (c : Cmd) (p : Park) : State :=
  (s.setCmd id { c with park := some p }).parkFault p.slot c.source c.iss.unit p

/-- The first work of a command: its source. A fatal cause ends it (R155, R157). -/
def State.startCmd (s : State) (id : Nat) (c : Cmd) : State :=
  let c1 := { c with started := true }
  let t0 := s.setCmd id c1
  match c1.work (c1.via id) t0 with
  | .ok x t => t.setCmd id x
  | .error .wait _ => t0
  | .error (.park p) t => t.parkCmd id c1 p
  | .error (.fault cause _) t => t.setCmd id { c1 with plan := some [], result := some (endOf cause) }

/-- A command whose pieces and rows are written ends as its source told: an index under the fault policy, or a list too long. -/
def Cmd.settle (c : Cmd) : Cmd :=
  if c.plan = some [] ∧ c.rows = [] ∧ c.result = none then { c with result := c.tail } else c

/-- The runs that a `SCATR` will write beyond its pieces: the rows it has still to claim. -/
def Cmd.rowRuns (c : Cmd) : List (Dword × Nat) :=
  match c.tens with
  | none => []
  | some t => c.rows.flatMap fun r => (swzRuns (recSwz t.r) (r.1 * rowBytes t.r) (rowBytes t.r)).map fun q =>
      (BitVec.ofNat 64 (recBase t.r + q.1), q.2)

/-- Whether an operation enters the copy engines' queue. -/
def EngOp.copies : EngOp → Bool
  | .coll | .launch _ _ => false
  | _ => true

/-- The next work of a command of a copy engine: its source is read, or its next piece is written (R134). -/
def State.engineStep (s : State) (id : Nat) (c : Cmd) : State :=
  if c.park.isSome ∨ c.over then s
  else
    let t := match c.plan with
      | none => if s.mayStart id c then s.startCmd id c else s
      | some ps => s.putNext id c ps c.rowRuns
    { t with cmds := alMod t.cmds id Cmd.settle }

/-- `SCATR_ROW_CLAIM` (R124): the next table row's lines are claimed; once the command holds them the prior value is read
and the row formed. -/
def execScatrRowClaim (id : Nat) (s : State) : Out :=
  .next (match alGet? s.cmds id with
    | none => s
    | some c => match c.tens, c.plan, c.rows with
      | some t, some [], (row, tally, srcs) :: rest =>
        if c.park.isSome ∨ c.over then s
        else
          let base := BitVec.ofNat 64 (recBase t.r)
          let runs := swzRuns (recSwz t.r) (row * rowBytes t.r) (rowBytes t.r)
          let s1 := runs.foldl (fun (u : State) q => u.claimRun id (base + BitVec.ofNat 64 q.1) q.2) s
          let c1 := (alGet? s1.cmds id).getD c
          match (c.via id).tableBytes t.r row s1 with
          | .ok prior s2 =>
            let (bs, fl, sat) := c.scatValue t.r prior srcs
            let ps := (piecesAt base (recSwz t.r) (row * rowBytes t.r) bs).map fun p => { p with key := p.va.toNat }
            s2.setCmd id ({ c1 with rows := rest, mid := true }.addPieces ps (tally.add ⟨fl, 0, sat, 1⟩))
          | .error .wait _ => s1
          | .error (.park p) s2 => s2.parkCmd id c1 p
          | .error (.fault cause _) s2 => s2.setCmd id { c1 with rows := [], result := some (3, cause) }
      | _, _, _ => s)

/-! ## Command instructions -/

/-- The row of a command instruction (Table 6-1). -/
def specCmd (ok : BitVec 4 → BitVec 4) (scope : Scope) (f : Fields) : Spec :=
  { Spec.plain with
    var := ok f.var, d := if bit f.var 1 then slNone else slPair, a := slPair, scope := some scope, l2 := true, imm := true,
    rels := true }

/-- The position of an element at coordinates of a dense tensor. -/
def Tens.densePos (t : Tens) (cs : List Nat) : Nat := (t.lv.zip cs).foldl (fun q x => q * x.1.stride + x.2) 0

/-- The destination runs known at issue (R124): base, swizzle code, and offset and length of each. -/
def Cmd.claims (c : Cmd) : List (Dword × Nat × Nat × Nat) :=
  let b := c.blk
  match c.op, c.tens with
  | .copy, _ => [(bDst b, bDswz b, 0, bLen b)]
  | .xform, t => match bXop b, t with
    | 1, _ => [(bDst b, bDswz b, 0, ceilDiv (bLen b * fmtBits (bSfmt b)) 8)]
    | 2, _ => [(bDst b, bDswz b, 0, ceilDiv (bLen b * fmtBits (bDfmt b)) 8)]
    | 4, some t => [(bDst b, bDswz b, 0, ceilDiv ((c.span t).1 * fmtBits (bDfmt b)) 8)]
    | 3, some t => (List.range (c.span t).1).map fun i =>
        (BitVec.ofNat 64 (recBase t.r), recSwz t.r, t.densePos (unravel t.dims (bAux0 b + i)) * fmtBits (recFmt t.r) / 8, 1)
    | 0, _ => [(bDst b, bDswz b, 0, bLen b)]
    | _, _ => []
  | .gathr, some t =>
    (List.range (if fldN c.header 64 64 = 0 then fldN c.header 32 32 else 0)).map fun i =>
      (bDst b, bDswz b, i * c.pitch t.r, c.outBytes t.r)
  | .sortu _, _ =>
    (bDst b, bDswz b, 0, bCnt2 b) :: ([bAux0 b, bAux1 b].filter fun a => a != 0).map fun a =>
      (BitVec.ofNat 64 a, 0, 0, 4 * bLen b)
  | _, _ => []

/-- The tensors whose compressed views a bound tensor's arrays and elements lie on. -/
def Tens.views (t : Tens) : List Nat :=
  ((recBase t.r :: t.lv.flatMap fun x => [x.p0, x.p1]).filter fun a => fldN a 60 4 == 5).map fun a => fldN a 44 16

/-- The tensors of some compressed views bound, with those whose views they read in turn, before what is bound already (R89, R97). -/
def Via.bindViews (v : Via) : Nat → List Nat → List Tens → Wk (List Tens)
  | 0, _, bound => pure bound
  | _, [], bound => pure bound
  | k + 1, tid :: todo, bound =>
    if bound.any fun t => t.tid == tid && t.lv != [] then v.bindViews k todo bound
    else do
      let ts ← (v.forView bound).bindAll tid
      v.bindViews k (todo ++ ts.flatMap Tens.views) (ts ++ bound)

/-- The tensors whose compressed views a command reads: of the addresses of its block that it reads, and of the tensors that it has
bound. -/
def viewsOf (op : EngOp) (b : Nat) (ts : List Tens) : List Nat :=
  let more := match op with
    | .scatr _ => [bAux0 b, bAux1 b]
    | _ => []
  (((bSrc b).toNat :: more).filter fun a => fldN a 60 4 == 5).map (fun a => fldN a 44 16) ++ ts.flatMap Tens.views

/-- The claims of a command made (R124). -/
def State.claimAll (s : State) (id : Nat) (c : Cmd) : State :=
  c.claims.foldl (fun (t : State) r => (swzRuns r.2.1 r.2.2.1 r.2.2.2).foldl (fun (u : State) q =>
    u.claimRun id (r.1 + BitVec.ofNat 64 q.1) q.2) t) s

/-- The issuer of a thread's commands (unit 2, the die's TLB). -/
def State.cmdIssuer (s : State) (g l : Nat) : Issuer := { s.issuerOf g l 2 with core := none, above := false }

/-- A command entered with all that it has bound; `result` is the end that a compressed view gives it whose record does not bind (R102,
R155). -/
def State.launchCmd (s : State) (g l : Nat) (e : Eff) (c : Cmd) : State :=
  let (id, s1) := s.enterCmd g l e c
  let s2 := s1.claimAll id c
  if c.op = .scatr true ∨ fldN c.blk 177 1 = 1 then s2.defer g l else s2

/-- The issue of one thread's command (R131 to R133). The header of a `GATHR`'s list is read as a 16-byte load that must be
aligned (log 80). The compressed views that it reads are bound with it (R89, R97); a cause of theirs is one of its own accesses, and ends
it. -/
def issueCmd (op : EngOp) (e : Eff) (s : State) (g l : Nat) : Res :=
  if s.laneAhead e g l then .stay
  else match s.issueRead g l (s.addrA g l e) 64 0x111 with
  | .trap c tv _ => .trap c tv
  | .stay t => .wait t
  | .ok blk s1 =>
    match blockReason op blk with
    | some n => .trap 0x110 (BitVec.ofNat 64 n)
    | none =>
      let v := Via.make (s1.cmdIssuer g l) (some (g, l, s1.now)) false none [] 0
      let hold := fun (q : Stop) (t : State) => match q with
        | .fault c tv => Res.trap c tv
        | .park p => .wait (t.parkIssue g l p 2)
        | .wait => .wait t
      match v.bindBlock op blk s1 with
      | .error q s2 => hold q s2
      | .ok ts s2 =>
        let head : IssueRd := if op = .gathr then s2.issueRead g l (bSrc blk) 16 0x094 else .ok 0 s2
        match head with
        | .trap c tv _ => .trap c tv
        | .stay u => .wait u
        | .ok h s3 =>
          let c := { Cmd.new op (s3.cmdIssuer g l) g l (s3.coreOf g) e (s3.mode g) blk with
            tens := ts.head?, bound := ts, header := h }
          match v.bindViews 65536 (viewsOf op blk ts) ts s3 with
          | .ok all s4 => .ok (s4.launchCmd g l e { c with bound := all })
          | .error (.fault cause _) s4 => .ok (s4.launchCmd g l e { c with plan := some [], result := some (3, cause) })
          | .error q s4 => hold q s4

/-- A command instruction. -/
def execCmd (op : Fields → EngOp) (ok : BitVec 4 → BitVec 4) (f : Fields) : State → Out :=
  issueThreads (specCmd ok .core) (cmdReady 1024 EngOp.copies) (issueCmd (op f)) f

/-- VAR with bits [3:2] cut to one choice, `.seq` and `.nofut` kept (R130). -/
def varTwo (v : BitVec 4) : BitVec 4 := if fld v 2 2 ≤ 1 then v else v &&& 3

/-- `COPY` (R131). -/
def execCopy (f : Fields) : State → Out := execCmd (fun _ => .copy) (fun v => v &&& 3) f

/-- `XFORM` (R142). -/
def execXform (f : Fields) : State → Out := execCmd (fun _ => .xform) (fun v => v &&& 3) f

/-- `GATHR` (R150). -/
def execGathr (f : Fields) : State → Out := execCmd (fun _ => .gathr) (fun v => v &&& 3) f

/-- `SCATR` (R151). -/
def execScatr (f : Fields) : State → Out := execCmd (fun f => .scatr (fld f.var 2 2 == 1)) varTwo f

/-- `SORTU` (R152). -/
def execSortu (f : Fields) : State → Out := execCmd (fun f => .sortu (fld f.var 2 2 == 1)) varTwo f

/-- `PREF.list` (R153, R176): the list goes to an engine; the table is bound now, or by the engine where that has to wait; nothing is
reported, and the thread goes on at once. -/
def execPrefList : Fields → State → Out :=
  issueThreads (fun _ => { Spec.plain with types := [.n32], var := 1, a := slPair, b := slSrc32, l1 := true, l2 := true, imm := true })
    always fun e s g l =>
      let va := s.addrA g l e
      let tid := s.rdB g l e % 65536
      let enter := fun (ts : List Tens) (t : State) =>
        let (id, t1) := t.fresh
        Res.ok (t1.setCmd id { Cmd.new .pref (t1.cmdIssuer g l) g l (t1.coreOf g) e (t1.mode g) va.toNat with
          tens := ts.head?, bound := ts, header := tid, seq := false })
      match (Via.make (s.cmdIssuer g l) (some (g, l, s.now)) false none [] 0).tensor tid s with
      | .error .wait _ => enter [] s
      | .ok t s1 => if gathers t then enter [t] s1 else .ok s1
      | .error _ s1 => .ok s1

/-! ## Futures (R139) -/

/-- `FTEST` (R139). -/
def execFtest : Fields → State → Out :=
  issueThreads (fun _ => { Spec.plain with d := slCc, a := slSrc32 }) always fun e s g l =>
    let fl := match s.handleState (s.slotOf g) (BitVec.ofNat 32 (s.rdA g l e)) with
      | none => mkFlags true false false false
      | some none => mkFlags false false false false
      | some (some w) =>
        let st := fld w 0 3
        mkFlags false (decide (1 ≤ st) && decide (st ≤ 5)) (decide (3 ≤ st) && decide (st ≤ 5))
          ((st == 1 || st == 2) && fld w 8 24 != 0)
    .ok (s.modThread g l fun t => t.writeCc e.d fl)

/-- `FWAIT` (R139, R140): D is empty until the command has ended; an acquire at its scope and at the command's. -/
def execFwait : Fields → State → Out :=
  issueThreads (fun _ => { Spec.plain with d := slVec32, a := slSrc32, scope := some .core })
    (fun _ s g l => !s.acqPending g l) fun e s g l =>
      let h := BitVec.ofNat 32 (s.rdA g l e)
      let sc := ((s.handleSlot (s.slotOf g) h).map fun x => widest e.scope x.scope).getD e.scope
      .ok (s.addAcc { s.newAcc g l 0 (.fwait h) with dst := e.d.vregs 1, acq := some sc })

/-- A command asked to cancel; a `LAUNCH` future cannot be (R380). -/
def State.cancelHandle (s : State) (ctxSlot : Nat) (h : Word) : State :=
  if s.handleState ctxSlot h ≠ some none then s
  else match (alGet? (s.die (fld h 16 3)).ctab (fld h 0 16)).bind fun x => x.cmd with
    | none => s
    | some id => { s with cmds := alMod s.cmds id fun c => if c.op.copies || c.op == .coll then { c with cancel := true } else c }

/-- `FCNCL` (R139). -/
def execFcncl : Fields → State → Out :=
  issueThreads (fun _ => { Spec.plain with a := slSrc32 }) always fun e s g l =>
    .ok (s.cancelHandle (s.slotOf g) (BitVec.ofNat 32 (s.rdA g l e)))

/-! ## Barrier instructions (R141) -/

/-- The object that an address names: its place at a bank, or the cause. -/
def State.barrierAt (s : State) (g l : Nat) (va : Dword) : (Nat ⊕ (Nat × Nat × Nat)) × State :=
  match s.resolve g l .fe va 16 16 0x111 false with
    | (.fault c, s1) => (.inl (if c = 0x096 then 0x111 else c), s1)
    | (.spad t i o, s1) => (.inr (t, i, o), s1)
    | (_, s1) => (.inl 0x111, s1)

/-- The row of a barrier instruction. -/
def specBar (d : Slot) (var : BitVec 4) (rel : Bool) : Spec :=
  { Spec.plain with var := var, d := d, a := slPair, b := slSrc32, scope := some .core, imm := true, rels := rel }

/-- Whether a thread's release at the scope that its address gives is complete (R47). -/
def relReady (e : Eff) (s : State) (g l : Nat) : Bool := readyAt e s g l true (s.addrA g l e)

/-- `BINIT` (R141). -/
def execBinit : Fields → State → Out :=
  issueThreads (fun _ => specBar slNone 0 true) relReady fun e s g l =>
    let va := s.addrA g l e
    match s.barrierAt g l va with
    | (.inl c, _) => .trap c va
    | (.inr (t, i, o), s1) =>
      .ok (s1.modSpad t i fun x => { (x.write o (toBytes 16 (max (s.rdB g l e) 1))).setFull o true with
        came := alDel x.came (o / 16) })

/-- `BARV` (R141): D receives PHASE from before the arrival. -/
def execBarv : Fields → State → Out :=
  issueThreads (fun f => specBar (if bit f.var 0 then slVec32 else slNone) (f.var &&& 1) true) relReady fun e s g l =>
    let va := s.addrA g l e
    match s.barrierAt g l va with
    | (.inl c, _) => .trap c va
    | (.inr (t, i, o), s1) =>
      let x := ofBytes ((s1.spad t i).read o 16)
      .ok (((s1.arrive t i o (s.rdB g l e)).modThread g l fun u => u.write e.d 1 (fldN x 64 32)).defer g l)

/-- `BWAIT` (R141): D is empty until PHASE differs from B. -/
def execBwait : Fields → State → Out :=
  issueThreads (fun _ => specBar slVec32 0 false) (fun _ s g l => !s.acqPending g l) fun e s g l =>
    let va := s.addrA g l e
    match s.barrierAt g l va with
    | (.inl c, _) => .trap c va
    | (.inr (t, i, o), s1) =>
      .ok (s1.addAcc { s1.newAcc g l va (.bwait (BitVec.ofNat 32 (s.rdB g l e))) with
        tgt := some (.spad t i o), dst := e.d.vregs 1, acq := some (scopeOn e.scope va) })

end Sys2Proof.Machine
end

