-- ==== Sys2Proof/Machine/Flags.lean ====
section
/-! DEFINITION. The integer results and flags of Table 10-1 and R241 to R254, and the comparison flags of R253 and
R272, as functions of operand bits. -/

namespace Sys2Proof.Machine

open Sys2Proof

/-- The value of a pattern under an integer type (R68). -/
def tyVal (ty : Ty) (x : Nat) : Int :=
  let w := tyBits ty
  if tySigned ty then toSigned w (x % 2 ^ w) else (x % 2 ^ w : Nat)

/-- The least value of an integer type. -/
def tyMin (ty : Ty) : Int := if tySigned ty then -(2 ^ (tyBits ty - 1) : Nat) else 0

/-- The greatest value of an integer type. -/
def tyMax (ty : Ty) : Int := if tySigned ty then (2 ^ (tyBits ty - 1) : Nat) - 1 else (2 ^ tyBits ty : Nat) - 1

/-- Whether an exact result lies outside a type. -/
def tyOut (ty : Ty) (x : Int) : Bool := decide (x < tyMin ty) || decide (tyMax ty < x)

/-- Whether an exact signed result lies outside `w` bits. -/
def signedOut (w : Nat) (x : Int) : Bool := decide (x < -(2 ^ (w - 1) : Nat)) || decide ((2 ^ (w - 1) : Nat) ≤ x)

/-- An exact result written under `.sat` or wrapped (R243). -/
def narrow (ty : Ty) (sat : Bool) (x : Int) : Nat :=
  wrapN (tyBits ty) (if sat then min (max x (tyMin ty)) (tyMax ty) else x)

/-- A result with its C and V. -/
structure IntRes where
  r : Nat
  c : Bool
  v : Bool
  deriving DecidableEq, Repr

/-- The flags of a result of `w` bits (R241). -/
def IntRes.flags (x : IntRes) (w : Nat) : BitVec 4 := mkFlags (fldN x.r (w - 1) 1 == 1) (x.r == 0) x.c x.v

/-- The natural patterns of two operands at a type's width. -/
def pat (ty : Ty) (x : Nat) : Nat := x % 2 ^ tyBits ty

/-- `IADD` (R243). -/
def resAdd (ty : Ty) (sat : Bool) (a b : Nat) : IntRes :=
  let w := tyBits ty
  ⟨narrow ty sat (tyVal ty a + tyVal ty b), decide (2 ^ w ≤ pat ty a + pat ty b),
    signedOut w (toSigned w (pat ty a) + toSigned w (pat ty b))⟩

/-- `ISUB` (R243). -/
def resSub (ty : Ty) (sat : Bool) (a b : Nat) : IntRes :=
  let w := tyBits ty
  ⟨narrow ty sat (tyVal ty a - tyVal ty b), decide (pat ty a < pat ty b),
    signedOut w (toSigned w (pat ty a) - toSigned w (pat ty b))⟩

/-- `IMUL` (R243). -/
def resMul (ty : Ty) (sat : Bool) (a b : Nat) : IntRes :=
  ⟨narrow ty sat (tyVal ty a * tyVal ty b), false, tyOut ty (tyVal ty a * tyVal ty b)⟩

/-- `IMAD` (R243). -/
def resMad (ty : Ty) (sat : Bool) (a b c : Nat) : IntRes :=
  ⟨narrow ty sat (tyVal ty a * tyVal ty b + tyVal ty c), false, tyOut ty (tyVal ty a * tyVal ty b + tyVal ty c)⟩

/-- `IMULH` (R244). -/
def resMulh (ty : Ty) (a b : Nat) : Nat := wrapN (tyBits ty) ((tyVal ty a * tyVal ty b) / (2 ^ tyBits ty : Nat))

/-- `IMIN` and `IMAX` (R243). -/
def resMinMax (ty : Ty) (isMax : Bool) (a b : Nat) : Nat :=
  wrapN (tyBits ty) (if isMax then max (tyVal ty a) (tyVal ty b) else min (tyVal ty a) (tyVal ty b))

/-- `IABS` (R243). -/
def resAbs (ty : Ty) (sat : Bool) (a : Nat) : IntRes :=
  ⟨narrow ty sat (tyVal ty a).natAbs, false, tyOut ty (tyVal ty a).natAbs⟩

/-- `INEG` (R243). -/
def resNeg (ty : Ty) (sat : Bool) (a : Nat) : IntRes :=
  let w := tyBits ty
  ⟨narrow ty sat (0 - tyVal ty a), pat ty a != 0, signedOut w (0 - toSigned w (pat ty a))⟩

/-- `ADDC` (R245). -/
def resAddc (ty : Ty) (a b cin : Nat) : IntRes :=
  let w := tyBits ty
  ⟨(pat ty a + pat ty b + cin) % 2 ^ w, decide (2 ^ w ≤ pat ty a + pat ty b + cin),
    signedOut w (toSigned w (pat ty a) + toSigned w (pat ty b) + cin)⟩

/-- `SUBB` (R245). -/
def resSubb (ty : Ty) (a b cin : Nat) : IntRes :=
  let w := tyBits ty
  ⟨wrapN w ((pat ty a : Int) - pat ty b - cin), decide (pat ty a < pat ty b + cin),
    signedOut w (toSigned w (pat ty a) - toSigned w (pat ty b) - cin)⟩

/-- The quotient and the remainder of R246 with V; none where the divisor is zero without `.nt`. -/
def resDiv (ty : Ty) (nt : Bool) (a b : Nat) : Option (Nat × Nat × Bool) :=
  let w := tyBits ty
  let x := tyVal ty a
  let y := tyVal ty b
  if y = 0 then (if nt then some (2 ^ w - 1, pat ty a, true) else none)
  else if tySigned ty ∧ x = tyMin ty ∧ y = -1 then some (wrapN w (tyMin ty), 0, true)
  else some (wrapN w (Int.tdiv x y), wrapN w (Int.tmod x y), false)

/-- `ISAT` (R247): A as s32, or as n32 under `.un`, clamped and extended to 32 bits. -/
def resSat (ty : Ty) (un : Bool) (a : Nat) : IntRes :=
  let x : Int := if un then (a % 2 ^ 32 : Nat) else toSigned 32 (a % 2 ^ 32)
  ⟨wrapN 32 (min (max x (tyMin ty)) (tyMax ty)), false, tyOut ty x⟩

/-- `SHL` (R248). -/
def resShl (w : Nat) (a n : Nat) : IntRes :=
  ⟨if n < w then a * 2 ^ n % 2 ^ w else 0, n != 0 && decide (n ≤ w) && fldN a (w - n) 1 == 1, false⟩

/-- `SHR` (R248). -/
def resShr (w : Nat) (a n : Nat) : IntRes :=
  ⟨if n < w then a / 2 ^ n else 0, n != 0 && decide (n ≤ w) && fldN a (n - 1) 1 == 1, false⟩

/-- `SAR` (R248). -/
def resSar (w : Nat) (a n : Nat) : IntRes :=
  ⟨wrapN w (toSigned w a / (2 ^ min n w : Nat)), n != 0 && fldN a (min n w - 1) 1 == 1, false⟩

/-- `ROT` (R248). -/
def resRot (w : Nat) (right : Bool) (a n : Nat) : Nat :=
  let m := if right then (w - n % w) % w else n % w
  (a * 2 ^ m % 2 ^ w) + a / 2 ^ (w - m)

/-- `CLZ` (R249). -/
def resClz (w a : Nat) : Nat := if a = 0 then w else w - 1 - Nat.log2 a

/-- `BREV` (R249). -/
def resBrev (w a : Nat) : Nat := (List.range w).foldl (fun r i => r + fldN a i 1 * 2 ^ (w - 1 - i)) 0

/-- `BFE` (R250). -/
def resBfe (ty : Ty) (a pos len : Nat) : Nat :=
  let w := tyBits ty
  let p := min pos w
  let n := min len w
  if n = 0 then 0
  else
    let x : Int := if tySigned ty then toSigned w a else a
    let f := wrapN n (x / (2 ^ p : Nat))
    if tySigned ty then wrapN w (toSigned n f) else f

/-- `BFI` (R250): the low `len` bits of A put into B at `pos`. -/
def resBfi (w a b pos len : Nat) : Nat :=
  let p := min pos w
  let n := min (min len w) (w - p)
  fldN b 0 p + fldN a 0 n * 2 ^ p + (b / 2 ^ (p + n)) * 2 ^ (p + n)

/-- `PRMT` (R251). -/
def resPrmt (a b sel : Nat) : Nat :=
  let bytes := a % 2 ^ 32 + b % 2 ^ 32 * 2 ^ 32
  (List.range 4).foldl (fun r i =>
    let nib := fldN sel (4 * i) 4
    let y := fldN bytes (8 * (nib % 8)) 8
    r + (if 8 ≤ nib then (if 128 ≤ y then 255 else 0) else y) * 2 ^ (8 * i)) 0

/-- The flags of `ICMP` (R253). -/
def cmpFlags (ty : Ty) (a b : Nat) : BitVec 4 :=
  let w := if tyBits ty < 32 then 32 else tyBits ty
  let x := if tyBits ty < 32 then wrapN 32 (tyVal ty a) else a % 2 ^ w
  let y := if tyBits ty < 32 then wrapN 32 (tyVal ty b) else b % 2 ^ w
  mkFlags (fldN (wrapN w ((x : Int) - y)) (w - 1) 1 == 1) (x == y) (decide (x < y))
    (signedOut w (toSigned w x - toSigned w y))

/-- The flags of `FCMP` (Table 11-2). -/
def fcmpFlags (a b : Ex) : BitVec 4 :=
  if a.isNan || b.isNan then mkFlags true false true true
  else match Ex.cmp a b with
    | .lt => mkFlags true false true false
    | .eq => mkFlags false true false false
    | .gt => mkFlags false false false false

/-- A function of one element applied to every element of packed operands (R240): the results packed again. -/
def packed (ty : Ty) (f : List Nat → Nat) (ops : List Nat) : Nat :=
  if 32 ≤ tyBits ty then f ops
  else (List.range (tyElems ty)).foldl (fun r i =>
    r + f (ops.map fun x => packedElem ty x i) % 2 ^ tyBits ty * 2 ^ (tyBits ty * i)) 0

end Sys2Proof.Machine
end

