-- ==== Sys2Proof/Machine/Int.lean ====
section
/-! DEFINITION. The integer and address instructions, opcodes 0x00 to 0x21 (Table 10-1). -/

namespace Sys2Proof.Machine

open Sys2Proof

/-- `IADD`'s types (Table 10-1). -/
def tysInt : List Ty := [.s32, .n32, .s64, .n64, .s16, .n16, .s8, .n8]

/-- n32 and n64. -/
def tysN : List Ty := [.n32, .n64]

/-- The type an instruction executes with (row 3). -/
def effTy (types : List Ty) (f : Fields) : Ty := if types.contains f.typ then f.typ else types.headD .s32

/-- The row of an integer instruction with sources A and B (Table 10-1): VAR keeps the bits of a mask, and E is unused
under a packed type (R241). -/
def specInt (types : List Ty) (mask : BitVec 4) (a b c : Slot) (flags : Bool) (f : Fields) : Spec :=
  { Spec.plain with
    types := types, var := f.var &&& mask, d := slSrc, a := a, b := b, c := c,
    e := if flags && decide (32 ≤ tyBits (effTy types f)) then slCcOpt else slNone, hOk := true }

/-- A thread with a result in D and its flags in E. -/
def State.putRes (s : State) (g l : Nat) (e : Eff) (x : IntRes) (w : Nat) : State :=
  s.modThread g l fun t => (t.write e.d e.nd x.r).writeCc e.e (x.flags w)

/-- A thread with a result in D. -/
def State.putD (s : State) (g l : Nat) (e : Eff) (x : Nat) : State :=
  s.modThread g l fun t => t.write e.d e.nd x

/-- A result of packed elements, or one with flags (R240, R241). -/
def State.putInt (s : State) (g l : Nat) (e : Eff) (f : List Nat → IntRes) (ops : List Nat) : State :=
  if 32 ≤ tyBits e.ty then s.putRes g l e (f ops) (tyBits e.ty)
  else s.putD g l e (packed e.ty (fun xs => (f xs).r) ops)

/-- `.sat`, `.nt`, `.wrap`, `.right` and `.un`: VAR[0]. -/
def Eff.v0 (e : Eff) : Bool := bit e.var 0

/-- A shift amount under `.wrap` (R248). -/
def Eff.amount (e : Eff) (n : Nat) : Nat := if e.v0 then n % tyBits e.ty else n

/-- `NOP` (R255). -/
def execNop : Fields → State → Out := issueThreads (fun _ => Spec.plain) always fun _ s _ _ => .ok s

/-- The row of `MOV`. -/
def specMov (f : Fields) : Spec :=
  { Spec.plain with types := tysN, var := if f.var.toNat ≤ 2 then f.var else 0, d := slSrc, a := slSrc, hOk := true }

/-- `MOV` (R255): per thread; `.u` once, into every lane of the group, with the tag uniform; `.g` with the tag raw. -/
def execMov (f : Fields) (s : State) : Out :=
  if (specMov f).var = 1 then
    issueOnce specMov
      (fun e s g _ _ => ((s.group? g).map fun y => y.lanes.all fun t => t.full e.d e.nd).getD true)
      (fun e s g l act =>
        let x := s.rdA g l e
        .halt (((s.raise g (s.plyFlags g l e)).modGroup g fun y =>
          { y with lanes := y.lanes.map fun t => t.write e.d e.nd x,
                   tags := (e.d.vregs e.nd).foldl (fun m r => alSet m r .uniform) y.tags }).passEach g act e.stall)) f s
  else match issueThreads specMov always (fun e s g l => .ok (s.putD g l e (s.rdA g l e))) f s, s.cur with
    | .next t, some i =>
      if (specMov f).var = 2 ∧ (s.group? i.g).isSome then
        let e := (legalize (specMov f) f).1
        .next (if (s.passing i.g i.lanes e).any fun l =>
            (t.thread i.g l).level == (s.thread i.g l).level && (t.thread i.g l).pc != (s.thread i.g l).pc then
          t.modGroup i.g fun y => { y with tags := (e.d.vregs e.nd).foldl (fun m r => alSet m r .raw) y.tags }
          else t)
      else .next t
    | o, _ => o

/-- `LDI` (R255): IMM extended by the type. -/
def execLdi : Fields → State → Out :=
  issueThreads (fun _ => { Spec.plain with types := [.n32, .s64, .n64], d := slSrc, imm := true, hOk := true }) always
    fun e s g l => .ok (s.putD g l e (if e.ty = .s64 then (sext64 32 e.imm.toNat).toNat else e.imm.toNat))

/-- `IADD` (R243). -/
def execIadd : Fields → State → Out :=
  issueThreads (specInt tysInt 1 slSrc slSrc slNone true) always fun e s g l =>
    .ok (s.putInt g l e (fun xs => resAdd e.ty e.v0 (xs.getD 0 0) (xs.getD 1 0)) [s.rdA g l e, s.rdB g l e])

/-- `ISUB` (R243). -/
def execIsub : Fields → State → Out :=
  issueThreads (specInt tysInt 1 slSrc slSrc slNone true) always fun e s g l =>
    .ok (s.putInt g l e (fun xs => resSub e.ty e.v0 (xs.getD 0 0) (xs.getD 1 0)) [s.rdA g l e, s.rdB g l e])

/-- `IMUL` (R243). -/
def execImul : Fields → State → Out :=
  issueThreads (specInt tysInt 1 slSrc slSrc slNone true) always fun e s g l =>
    .ok (s.putInt g l e (fun xs => resMul e.ty e.v0 (xs.getD 0 0) (xs.getD 1 0)) [s.rdA g l e, s.rdB g l e])

/-- `IMULH` (R244). -/
def execImulh : Fields → State → Out :=
  issueThreads (specInt [.s32, .n32, .s64, .n64] 0 slSrc slSrc slNone false) always fun e s g l =>
    .ok (s.putD g l e (resMulh e.ty (s.rdA g l e) (s.rdB g l e)))

/-- `IMAD` (R243). -/
def execImad : Fields → State → Out :=
  issueThreads (specInt tysInt 1 slSrc slSrc slSrc true) always fun e s g l =>
    .ok (s.putInt g l e (fun xs => resMad e.ty e.v0 (xs.getD 0 0) (xs.getD 1 0) (xs.getD 2 0)) [s.rdA g l e, s.rdB g l e, s.rdC g l e])

/-- `IDIV` (R246). -/
def execIdiv : Fields → State → Out :=
  issueThreads (specInt [.s32, .n32, .s64, .n64] 1 slSrc slSrc slNone true) always fun e s g l =>
    match resDiv e.ty e.v0 (s.rdA g l e) (s.rdB g l e) with
    | none => .trap 0x040 0
    | some x => .ok (s.putRes g l e ⟨x.1, false, x.2.2⟩ (tyBits e.ty))

/-- `IREM` (R246). -/
def execIrem : Fields → State → Out :=
  issueThreads (specInt [.s32, .n32, .s64, .n64] 1 slSrc slSrc slNone true) always fun e s g l =>
    match resDiv e.ty e.v0 (s.rdA g l e) (s.rdB g l e) with
    | none => .trap 0x040 0
    | some x => .ok (s.putRes g l e ⟨x.2.1, false, x.2.2⟩ (tyBits e.ty))

/-- `IMIN` (R243). -/
def execImin : Fields → State → Out :=
  issueThreads (specInt tysInt 0 slSrc slSrc slNone false) always fun e s g l =>
    .ok (s.putD g l e (packed e.ty (fun xs => resMinMax e.ty false (xs.getD 0 0) (xs.getD 1 0)) [s.rdA g l e, s.rdB g l e]))

/-- `IMAX` (R243). -/
def execImax : Fields → State → Out :=
  issueThreads (specInt tysInt 0 slSrc slSrc slNone false) always fun e s g l =>
    .ok (s.putD g l e (packed e.ty (fun xs => resMinMax e.ty true (xs.getD 0 0) (xs.getD 1 0)) [s.rdA g l e, s.rdB g l e]))

/-- `IABS` (R243). -/
def execIabs : Fields → State → Out :=
  issueThreads (specInt [.s32, .s64, .s16, .s8] 1 slSrc slNone slNone true) always fun e s g l =>
    .ok (s.putInt g l e (fun xs => resAbs e.ty e.v0 (xs.getD 0 0)) [s.rdA g l e])

/-- `INEG` (R243). -/
def execIneg : Fields → State → Out :=
  issueThreads (specInt tysInt 1 slSrc slNone slNone true) always fun e s g l =>
    .ok (s.putInt g l e (fun xs => resNeg e.ty e.v0 (xs.getD 0 0)) [s.rdA g l e])

/-- `ISAT` (R247); its narrow types are not packed and keep E (R240, R241). -/
def execIsat : Fields → State → Out :=
  issueThreads (fun f => { Spec.plain with
      types := [.s8, .n8, .s16, .n16, .s32, .n32], var := f.var &&& 1, d := slSrc, a := slSrc, e := slCcOpt, hOk := true })
    always fun e s g l => .ok (s.putRes g l e (resSat e.ty e.v0 (s.rdA g l e)) 32)

/-- `AND` (R248). -/
def execAnd : Fields → State → Out :=
  issueThreads (specInt tysN 0 slSrc slSrc slNone true) always fun e s g l =>
    .ok (s.putRes g l e ⟨Nat.land (s.rdA g l e) (s.rdB g l e), false, false⟩ (tyBits e.ty))

/-- `OR` (R248). -/
def execOr : Fields → State → Out :=
  issueThreads (specInt tysN 0 slSrc slSrc slNone true) always fun e s g l =>
    .ok (s.putRes g l e ⟨Nat.lor (s.rdA g l e) (s.rdB g l e), false, false⟩ (tyBits e.ty))

/-- `XOR` (R248). -/
def execXor : Fields → State → Out :=
  issueThreads (specInt tysN 0 slSrc slSrc slNone true) always fun e s g l =>
    .ok (s.putRes g l e ⟨Nat.xor (s.rdA g l e) (s.rdB g l e), false, false⟩ (tyBits e.ty))

/-- `NOT` (R248). -/
def execNot : Fields → State → Out :=
  issueThreads (specInt tysN 0 slSrc slNone slNone true) always fun e s g l =>
    .ok (s.putRes g l e ⟨2 ^ tyBits e.ty - 1 - s.rdA g l e, false, false⟩ (tyBits e.ty))

/-- `SHL` (R248). -/
def execShl : Fields → State → Out :=
  issueThreads (specInt tysN 1 slSrc slSrc32 slNone true) always fun e s g l =>
    .ok (s.putRes g l e (resShl (tyBits e.ty) (s.rdA g l e) (e.amount (s.rdB g l e))) (tyBits e.ty))

/-- `SHR` (R248). -/
def execShr : Fields → State → Out :=
  issueThreads (specInt tysN 1 slSrc slSrc32 slNone true) always fun e s g l =>
    .ok (s.putRes g l e (resShr (tyBits e.ty) (s.rdA g l e) (e.amount (s.rdB g l e))) (tyBits e.ty))

/-- `SAR` (R248). -/
def execSar : Fields → State → Out :=
  issueThreads (specInt [.s32, .s64] 1 slSrc slSrc32 slNone true) always fun e s g l =>
    .ok (s.putRes g l e (resSar (tyBits e.ty) (s.rdA g l e) (e.amount (s.rdB g l e))) (tyBits e.ty))

/-- `ROT` (R248). -/
def execRot : Fields → State → Out :=
  issueThreads (specInt tysN 1 slSrc slSrc32 slNone false) always fun e s g l =>
    .ok (s.putD g l e (resRot (tyBits e.ty) e.v0 (s.rdA g l e) (s.rdB g l e)))

/-- `POPC` (R249): one 32-bit register at either width. -/
def execPopc : Fields → State → Out :=
  issueThreads (fun _ => { Spec.plain with types := tysN, d := slSrc32, a := slSrc, hOk := true }) always fun e s g l =>
    .ok (s.putD g l e (popN (tyBits e.ty) (s.rdA g l e)))

/-- `CLZ` (R249): one 32-bit register at either width. -/
def execClz : Fields → State → Out :=
  issueThreads (fun _ => { Spec.plain with types := tysN, d := slSrc32, a := slSrc, hOk := true }) always fun e s g l =>
    .ok (s.putD g l e (resClz (tyBits e.ty) (s.rdA g l e)))

/-- `BREV` (R249). -/
def execBrev : Fields → State → Out :=
  issueThreads (specInt tysN 0 slSrc slNone slNone false) always fun e s g l =>
    .ok (s.putD g l e (resBrev (tyBits e.ty) (s.rdA g l e)))

/-- `BFE` (R250). -/
def execBfe : Fields → State → Out :=
  issueThreads (specInt [.n32, .s32, .n64, .s64] 0 slSrc slSrc32 slSrc32 false) always fun e s g l =>
    .ok (s.putD g l e (resBfe e.ty (s.rdA g l e) (s.rdB g l e) (s.rdC g l e)))

/-- `BFI` (R250): pos in C, len in E. -/
def execBfi : Fields → State → Out :=
  issueThreads (fun _ => { Spec.plain with
      types := tysN, d := slSrc, a := slSrc, b := slSrc, c := slSrc32, e := slSrc32, hOk := true }) always fun e s g l =>
    .ok (s.putD g l e (resBfi (tyBits e.ty) (s.rdA g l e) (s.rdB g l e) (s.rdC g l e) (s.rdE g l e)))

/-- `PRMT` (R251). -/
def execPrmt : Fields → State → Out :=
  issueThreads (specInt [.n32] 0 slSrc slSrc slSrc false) always fun e s g l =>
    .ok (s.putD g l e (resPrmt (s.rdA g l e) (s.rdB g l e) (s.rdC g l e)))

/-- `SEL` (R252): VAR is the condition. -/
def execSel : Fields → State → Out :=
  issueThreads (fun f => { Spec.plain with
      types := tysN, var := f.var, d := slSrc, a := slSrc, b := slSrc, c := slCc, hOk := true }) always fun e s g l =>
    .ok (s.putD g l e
      (if (condOf e.var.toNat).test (s.rdCc g l e.c) then s.rdA g l e else s.rdB g l e))

/-- `ICMP` (R253). -/
def execIcmp : Fields → State → Out :=
  issueThreads (fun _ => { Spec.plain with types := tysInt, d := slCc, a := slSrc, b := slSrc, hOk := true }) always
    fun e s g l => .ok (s.modThread g l fun t => t.writeCc e.d (cmpFlags e.ty (s.rdA g l e) (s.rdB g l e)))

/-- `LEA` (R254): D := pair A + ext(B) × 2^VAR + sext(IMM), mod 2^64. -/
def execLea : Fields → State → Out :=
  issueThreads (fun f => { Spec.plain with
      types := [.s32, .n32, .s64, .n64], var := f.var, d := ⟨.pair, 2⟩, a := slPair, b := ⟨.srcReg, 0⟩, imm := true,
      hOk := true }) always fun e s g l =>
    .ok (s.putD g l e (BitVec.ofNat 64 (s.rdA g l e) +
      BitVec.ofInt 64 (tyVal e.ty (s.rdB g l e)) * BitVec.ofNat 64 (2 ^ e.var.toNat) + sext64 32 e.imm.toNat).toNat)

/-- `ADDC` (R245). -/
def execAddc : Fields → State → Out :=
  issueThreads (specInt [.n32, .s32, .n64, .s64] 0 slSrc slSrc slCc true) always fun e s g l =>
    .ok (s.putRes g l e (resAddc e.ty (s.rdA g l e) (s.rdB g l e) (b2n (bit (s.rdCc g l e.c) 1))) (tyBits e.ty))

/-- `SUBB` (R245). -/
def execSubb : Fields → State → Out :=
  issueThreads (specInt [.n32, .s32, .n64, .s64] 0 slSrc slSrc slCc true) always fun e s g l =>
    .ok (s.putRes g l e (resSubb e.ty (s.rdA g l e) (s.rdB g l e) (b2n (bit (s.rdCc g l e.c) 1))) (tyBits e.ty))

end Sys2Proof.Machine
end

