-- ==== Sys2Proof/Machine/Float.lean ====
section
/-! DEFINITION. The floating-point instructions, opcodes 0x28 to 0x37 (Table 11-1). -/

namespace Sys2Proof.Machine

open Sys2Proof

/-- The types of `FADD` (Table 11-1). -/
def tysFloat : List Ty := [.f32, .f16, .bf16]

/-- VAR of an instruction with a rounding mode in [2:0]: 7 falls back to 0 (R267). -/
def fixRm (mask v : BitVec 4) : BitVec 4 := if fld v 0 3 = 7 then v &&& 8 &&& mask else v &&& mask

/-- The row of a float instruction that raises flags of its own. -/
def specFloat (types : List Ty) (mask : BitVec 4) (d a b c : Slot) (f : Fields) : Spec :=
  { Spec.plain with types := types, var := fixRm mask f.var, d := d, a := a, b := b, c := c, flg := true }

/-- The rounding mode of an instruction (R267). -/
def Eff.rm (e : Eff) (mode : Dword) : Rm :=
  let k := fld e.var 0 3
  if k = 0 then modeRm mode else rmOf (k - 1)

/-- `.sat`: VAR[3]. -/
def Eff.sat (e : Eff) : Bool := bit e.var 3

/-- A packed float operation (R268): element by element, flags ORed. -/
def floatElems (ty : Ty) (x4 : Nat) (ftzi : Bool) (f : List Ex → Nat × Flg) (ops : List Nat) : Nat × Flg :=
  (List.range (tyElems ty)).foldl (fun (acc : Nat × Flg) i =>
    let (r, fl) := f (ops.map fun x => decodeElem ty x4 ftzi (packedElem ty x i))
    (acc.1 + r % 2 ^ tyBits ty * 2 ^ (tyBits ty * i), acc.2 ||| fl)) (0, 0)

/-- A float result in D with its flags. -/
def State.putFloat (s : State) (g l : Nat) (e : Eff) (f : List Ex → Nat × Flg) (ops : List Nat) : Res :=
  let m := s.mode g
  let (r, fl) := floatElems e.ty (modeX4 m) (modeFtzi m) f ops
  s.flagged g l e fl fun t => .ok (t.putD g l e r)

/-- An exact result, rounded once (R269, R270): an invalid operation on sources that are not NaN raises NV, and an exact
infinity stays infinite but for `.sat`. -/
def roundExact (ty : Ty) (rm : Rm) (sat ftzo : Bool) (srcs : List Ex) (x : Ex) (bad : Bool) : Nat × Flg :=
  if srcs.any Ex.isNan then roundTo .nan ty rm sat ftzo
  else if bad then ((roundTo .nan ty rm sat ftzo).1, flNV)
  else match x with
    | .inf n => roundTo (.inf n) ty .rn sat ftzo
    | y => roundTo y ty rm sat ftzo

/-- An arithmetic instruction of R270, by its exact result and whether it is invalid. -/
def floatArith (exact : Bool → List Ex → Ex × Bool) (n : Nat) : Fields → State → Out :=
  issueThreads (specFloat tysFloat 0xF slVec slSrc slSrc (if n = 3 then slSrc else slNone)) always fun e s g l =>
    let m := s.mode g
    let rm := e.rm m
    s.putFloat g l e
      (fun xs => let (x, bad) := exact (rm = .rd) xs; roundExact e.ty rm e.sat (modeFtzo m) xs x bad)
      ([s.rdA g l e, s.rdB g l e, s.rdC g l e].take n)

/-- Source `i` of an element operation. -/
def exAt (xs : List Ex) (i : Nat) : Ex := xs.getD i .nan

/-- `FADD` (R270). -/
def execFadd : Fields → State → Out := floatArith (fun rd xs => Ex.add rd (exAt xs 0) (exAt xs 1)) 2

/-- `FSUB` (R270). -/
def execFsub : Fields → State → Out := floatArith (fun rd xs => Ex.add rd (exAt xs 0) (exAt xs 1).negate) 2

/-- `FMUL` (R270). -/
def execFmul : Fields → State → Out := floatArith (fun _ xs => Ex.mul (exAt xs 0) (exAt xs 1)) 2

/-- `FFMA` (R270). -/
def execFfma : Fields → State → Out :=
  floatArith (fun rd xs =>
    let (p, bad) := Ex.mul (exAt xs 0) (exAt xs 1)
    if bad then (.nan, true) else Ex.add rd p (exAt xs 2)) 3

/-- The lesser or greater of two numbers (R263, R271): −0 below +0, a NaN ignored. -/
def exMinMax (isMax : Bool) (a b : Ex) : Ex :=
  if a.isNan then b else if b.isNan then a
  else match Ex.cmp a b with
    | .lt => if isMax then b else a
    | .gt => if isMax then a else b
    | .eq => if a.isZero then (if isMax then (if a.neg? then b else a) else (if a.neg? then a else b)) else a

/-- A float minimum or maximum (R271). -/
def floatMinMax (isMax : Bool) : Fields → State → Out :=
  issueThreads (specFloat tysFloat 0 slVec slSrc slSrc slNone) always fun e s g l =>
    s.putFloat g l e (fun xs => ((roundTo (exMinMax isMax (exAt xs 0) (exAt xs 1)) e.ty .rn false false).1, 0))
      [s.rdA g l e, s.rdB g l e]

/-- `FMIN` (R271). -/
def execFmin : Fields → State → Out := floatMinMax false

/-- `FMAX` (R271). -/
def execFmax : Fields → State → Out := floatMinMax true

/-- `FCMP` (R272): element 0 of each source. -/
def execFcmp : Fields → State → Out :=
  issueThreads (fun f => { specFloat tysFloat 0 slCc slSrc slSrc slNone f with flg := false }) always fun e s g l =>
    let dec := fun x => decodeElem e.ty 0 (modeFtzi (s.mode g)) (packedElem e.ty x 0)
    .ok (s.modThread g l fun t => t.writeCc e.d (fcmpFlags (dec (s.rdA g l e)) (dec (s.rdB g l e))))

/-- The class bit of a number of a format (R273). -/
def classOf (f : FFmt) (x : Ex) : Nat :=
  match x with
  | .nan => 8
  | .inf n => if n then 0 else 7
  | .fin n num den =>
    if num = 0 then (if n then 3 else 4)
    else if floorLog2 num den < f.emin then (if n then 2 else 5)
    else if n then 1 else 6

/-- `FCLASS` (R273). f4's code 8 sets bit 9 and is classed by MODE.X4, an f16. -/
def execFclass : Fields → State → Out :=
  issueThreads (fun f => { specFloat [.f32, .f16, .bf16, .f8e4, .f8e5, .f4] 0 slVec slSrc slNone slNone f with flg := false }) always fun e s g l =>
    let x := packedElem e.ty (s.rdA g l e) 0
    let v := decodeElem e.ty (modeX4 (s.mode g)) false x
    let f4x := e.ty = .f4 ∧ x = 8
    let fmt := (fmtOf (if f4x then .f16 else e.ty)).getD ⟨32, 23, 127, -126, 0, 0, 0⟩
    .ok (s.putD g l e (2 ^ classOf fmt v + (if f4x then 512 else 0)))

/-- `FRND` (R274): an integral value in the same format, with no flags. -/
def execFrnd : Fields → State → Out :=
  issueThreads (specFloat tysFloat 7 slVec slSrc slNone slNone) always fun e s g l =>
    let rm := e.rm (s.mode g)
    s.putFloat g l e (fun xs => match exAt xs 0 with
      | .fin n num den => ((roundTo (.fin n (roundInt num den rm n) 1) e.ty rm false false).1, 0)
      | .inf n => ((roundTo (.inf n) e.ty .rn false false).1, 0)
      | .nan => ((roundTo .nan e.ty rm false false).1, 0)) [s.rdA g l e]

/-- `FSCL` (R275): a × 2^n; an n beyond ±1,000 has the effect of ±1,000. -/
def execFscl : Fields → State → Out :=
  issueThreads (specFloat tysFloat 0xF slVec slSrc slSrc32 slNone) always fun e s g l =>
    let m := s.mode g
    let n := max (-1000) (min 1000 (toSigned 32 (s.rdB g l e)))
    s.putFloat g l e (fun xs => match exAt xs 0 with
      | .fin sg num den =>
        roundExact e.ty (e.rm m) e.sat (modeFtzo m) xs
          (if 0 ≤ n then .fin sg (num * 2 ^ n.toNat) den else .fin sg num (den * 2 ^ (-n).toNat)) false
      | x => roundExact e.ty (e.rm m) e.sat (modeFtzo m) xs x false) [s.rdA g l e]

/-- The source type of `CVT`'s descriptor (R276). -/
def cvtSource (c : Nat) : Ty := if 14 ≤ c % 16 then .f32 else tyOf (c % 16)

/-- The row of `CVT` (R276), whose field C is a descriptor. -/
def specCvt (f : Fields) : Spec :=
  let c := opndCode f.c
  { specFloat [.s32, .n32, .s16, .n16, .s8, .n8, .s64, .n64, .f32, .f16, .bf16, .f8e4, .f8e5, .f4] 0xF slVec
      ⟨.src, if tyBits (cvtSource c) = 64 then 2 else 1⟩ slNone ⟨.raw, 1⟩ f with
    tyA := some (cvtSource c)
    warn := BitVec.ofNat 16 (Nat.lor (b2n (decide (c / 32 ≠ 0) || (c / 16 % 2 == 1 && bit f.var 3)) * 2)
      (b2n (decide (14 ≤ c % 16)) * 8)) }

/-- `CVT` (R276). Operand A is read under the source type. -/
def execCvt : Fields → State → Out :=
  issueThreads specCvt always fun e s g l =>
    let m := s.mode g
    let c := e.words.getD 3 0
    let st := cvtSource c
    let sat := e.sat || ((e.ty == .f8e4 || e.ty == .f8e5) && modeSat8 m && !(c / 16 % 2 == 1))
    let n := max 1 (32 / max (tyBits st) (tyBits e.ty))
    let a := s.read g l (e.under st) e.a e.na
    let (r, fl) := (List.range n).foldl (fun (acc : Nat × Flg) i =>
      let x := decodeElem st (modeX4 m) (modeFtzi m) (fldN a (tyBits st * i) (tyBits st))
      let (y, f) := roundTo x e.ty (e.rm m) sat (modeFtzo m)
      (acc.1 + y * 2 ^ (tyBits e.ty * i), acc.2 ||| f)) (0, 0)
    s.flagged g l e fl fun t => .ok (t.putD g l e r)

/-- `QNT` (R277): an f32 by the entry's scale and zero point. -/
def execQnt : Fields → State → Out :=
  issueThreads (fun f => { specFloat [.qi8, .qi4] 7 slVec32 slSrc32 slSrc32 slNone f with e := slCcOpt }) always
    fun e s g l =>
      let m := s.mode g
      let b := s.rdB g l e
      let x := decodeElem .f32 0 (modeFtzi m) (s.read g l (e.under .f32) e.a 1)
      let (q, sat, fl) := quantiseCode x (decodeElem .f16 0 (modeFtzi m) (fldN b 0 16)) (fldN b 16 8) (e.rm m)
        (if e.ty = .qi4 then 15 else 255)
      s.flagged g l e fl fun t =>
        .ok ((t.putD g l e q).modThread g l fun u => u.writeCc e.e (mkFlags false false false sat))

/-- `DQNT` (R278): exact in f32. -/
def execDqnt : Fields → State → Out :=
  issueThreads (specFloat [.qi8, .qi4] 0 slVec32 slSrc32 slSrc32 slNone) always fun e s g l =>
    let b := s.rdB g l e
    let q := fldN (s.rdA g l e) 0 (tyBits e.ty)
    let sc := decodeElem .f16 0 (modeFtzi (s.mode g)) (fldN b 0 16)
    let (x, bad) := Ex.mul sc (Ex.ofInt ((q : Int) - fldN b 16 8))
    s.flagged g l e (if bad then flNV else 0) fun t =>
      .ok (t.putD g l e (roundTo x .f32 .rn false false).1)

/-- A dot product (R279): the exact sum of C and the products, rounded once to f32. -/
def floatDot (types : List Ty) : Fields → State → Out :=
  issueThreads (fun f => { specFloat types 0xF slVec32 slSrc32 slSrc32 slSrc32 f with tyC := some .f32 }) always fun e s g l =>
    let m := s.mode g
    let rm := e.rm m
    let a := s.rdA g l e
    let b := s.rdB g l e
    let dec := fun x i => decodeElem e.ty (modeX4 m) (modeFtzi m) (packedElem e.ty x i)
    let c := decodeElem .f32 0 (modeFtzi m) (s.read g l (e.under .f32) e.c 1)
    let idx := List.range (tyElems e.ty)
    let srcs := c :: (idx.map (dec a) ++ idx.map (dec b))
    let prods := idx.map fun i => Ex.mul (dec a i) (dec b i)
    let (x, bad) := prods.foldl (fun (acc : Ex × Bool) p =>
      let (y, w) := Ex.add (rm = .rd) acc.1 p.1; (y, acc.2 || p.2 || w)) (c, false)
    let (r, fl) := if srcs.any Ex.isNan then roundTo .nan .f32 rm e.sat (modeFtzo m)
      else if bad then ((roundTo .nan .f32 rm e.sat (modeFtzo m)).1, flNV)
      else roundTo x .f32 rm e.sat (modeFtzo m)
    s.flagged g l e fl fun t => .ok (t.putD g l e r)

/-- `FDOT2` (R279). -/
def execFdot2 : Fields → State → Out := floatDot [.f16, .bf16]

/-- `FDOT4` (R279). -/
def execFdot4 : Fields → State → Out := floatDot [.f8e4, .f8e5]

/-- `FDOT8` (R279). -/
def execFdot8 : Fields → State → Out := floatDot [.f4]

end Sys2Proof.Machine
end

