-- ==== Sys2Proof/Machine/Lane.lean ====
section
/-! DEFINITION. The lane instructions, opcodes 0x58 to 0x61 (Table 10-2). -/

namespace Sys2Proof.Machine

open Sys2Proof

/-- The width of the issuing group. -/
def State.curWidth (s : State) : Nat := ((s.cur.bind fun i => s.group? i.g).map (·.width)).getD 0

/-- The registers of a lane mask: a pair in a 64-lane group (R257). -/
def State.maskRegs (s : State) : Nat := if s.curWidth = 64 then 2 else 1

/-- The row of a lane instruction. -/
def specLane (types : List Ty) (var : BitVec 4) (d a b : Slot) (cc : Bool) : Spec :=
  { Spec.plain with types := types, var := var, d := d, a := a, b := b, e := if cc then slCcOpt else slNone }

/-- VAR where it is at most a bound; otherwise 0 (row 4). -/
def fixVar (bound : Nat) (v : BitVec 4) : BitVec 4 := if v.toNat ≤ bound then v else 0

/-- The same result for each active lane, by a function of the lane. -/
def State.putLanes (s : State) (g : Nat) (act : List Nat) (e : Eff) (f : Nat → Nat) : State :=
  let rs := act.map fun l => (l, f l)
  rs.foldl (fun t r => t.putD g r.1 e r.2) s

/-- Flags for each active lane in operand E or D. -/
def State.putLaneCc (s : State) (g : Nat) (act : List Nat) (o : Opnd) (f : Nat → BitVec 4) : State :=
  let rs := act.map fun l => (l, f l)
  rs.foldl (fun t r => t.modThread g r.1 fun u => u.writeCc o r.2) s

/-- Every active lane's own operand. -/
def readsOwn : Reads := ⟨fun _ _ _ l => [l], false⟩

/-- The source lane of `SHFL` for a lane, where it is in its segment (R259). -/
def shflSource (var : BitVec 4) (width t n : Nat) : Option Nat :=
  let g := min width ([width, 4, 8, 16].getD (fld var 2 2) width)
  let base := t - t % g
  let j : Int := (t % g : Nat)
  let k : Int := match fld var 0 2 with
    | 0 => n
    | 1 => j - n
    | 2 => j + n
    | _ => (Nat.xor (t % g) n : Nat)
  if 0 ≤ k ∧ k < g then some (base + k.toNat) else none

/-- The lane that a thread of `SHFL` reads. -/
def State.shflLane (s : State) (g l : Nat) (e : Eff) : Nat := (shflSource e.var s.curWidth l (s.rdB g l e)).getD l

/-- `SHFL` (R259). -/
def execShfl : Fields → State → Out :=
  issueGroup (fun f => specLane tysN f.var slVec slVec slSrc32 true) ⟨fun e s g l => [s.shflLane g l e], false⟩
    fun e s g act =>
      let s1 := s.putLanes g act e fun l => s.rdA g (s.shflLane g l e) e
      s1.putLaneCc g act e.e fun l => mkFlags false (shflSource e.var s.curWidth l (s.rdB g l e)).isNone false false

/-- `VOTE` (R260). -/
def execVote : Fields → State → Out :=
  issueGroup (fun f => specLane tysN (fixVar 2 f.var) slCc slVec slNone false) readsOwn
    fun e s g act =>
      let pred := fun l => s.rdA g l e != 0
      let vote := match e.var.toNat with
        | 0 => act.all pred
        | 1 => act.any pred
        | _ => act.all fun l => s.rdA g l e == s.rdA g (act.headD 0) e
      s.putLaneCc g act e.d fun l => mkFlags false vote (pred l) false

/-- `BALLOT` (R260). -/
def execBallot (f : Fields) (s : State) : Out :=
  issueGroup (fun _ => specLane tysN 0 ⟨.vec, s.maskRegs⟩ slVec slNone false) readsOwn
    (fun e s g act => s.putLanes g act e fun _ => maskOf (act.filter fun l => s.rdA g l e != 0)) f s

/-- The count of active lanes whose A has bit `j` set (R261). -/
def planeCount (s : State) (g : Nat) (e : Eff) (act : List Nat) (j : Nat) : Nat :=
  (act.filter fun l => fldN (s.rdA g l e) j 1 == 1).length

/-- `BPLANE` (R261). -/
def execBplane : Fields → State → Out :=
  issueGroup (fun _ => specLane tysN 0 slVec slVec slNone false) readsOwn
    fun e s g act =>
      let w := s.curWidth
      s.putLanes g act e fun t =>
        (((List.range (tyBits e.ty)).filter fun j => j % w = t).foldl (fun x j =>
          x + planeCount s g e act j * 2 ^ (16 * (j / w))) 0) % 2 ^ (32 * e.nd)

/-- The key of `SELK` as an integer in the order of its type (R262). -/
def selKey (ty : Ty) (x : Nat) : Int :=
  let w := tyBits ty
  let y := x % 2 ^ w
  if tyFloat ty then (if 2 ^ (w - 1) ≤ y then (2 ^ w - 1 - y : Nat) else (y + 2 ^ (w - 1) : Nat))
  else tyVal ty y

/-- `SELK` (R262). -/
def execSelk : Fields → State → Out :=
  issueGroup (fun f => specLane [.n32, .s32, .f32, .n64, .s64, .f16, .bf16] (f.var &&& 1) slVec32 slVec slSrc32 true)
    { readsOwn with once := true }
    fun e s g act =>
      let k := s.rdB g (act.headD 0) e
      let key := fun l => let x := selKey e.ty (s.rdA g l e); if e.v0 then x else -x
      let rank := fun l =>
        (act.filter fun m => decide (key m < key l) || (decide (key m = key l) && decide (m < l))).length
      let s1 := s.putLanes g act e fun l => if rank l < k then rank l else 0xFFFFFFFF
      s1.putLaneCc g act e.e fun l => mkFlags false (decide (k ≤ rank l)) false false

/-- The types of a reduction operation (Table 10-3). -/
def gredTypes (op : Nat) : List Ty :=
  match op with
  | 0 => [.n32, .s32, .n64, .s64]
  | 1 | 2 => [.s32, .n32, .s64, .n64]
  | 3 | 4 | 5 => [.n32, .n64]
  | _ => [.f32, .f16, .bf16]

/-- The identity of a reduction (Table 10-3), as bits. -/
def gredIdentity (op : Nat) (ty : Ty) : Nat :=
  match op with
  | 0 | 4 | 5 => 0
  | 1 => wrapN (tyBits ty) (tyMax ty)
  | 2 => wrapN (tyBits ty) (tyMin ty)
  | 3 => 2 ^ tyBits ty - 1
  | 6 => (roundTo (.inf false) ty .rn false false).1
  | _ => (roundTo (.inf true) ty .rn false false).1

/-- One combination of a reduction (Table 10-3), on bits. -/
def gredCombine (op : Nat) (ty : Ty) (ftzi : Bool) (x y : Nat) : Nat :=
  match op with
  | 0 => (x + y) % 2 ^ tyBits ty
  | 1 => resMinMax ty false x y
  | 2 => resMinMax ty true x y
  | 3 => Nat.land x y
  | 4 => Nat.lor x y
  | 5 => Nat.xor x y
  | _ => (roundTo (exMinMax (op == 7) (decodeElem ty 0 ftzi x) (decodeElem ty 0 ftzi y)) ty .rn false false).1

/-- The combination of the listed lanes' A; the identity for none (R263). -/
def gredLanes (s : State) (g : Nat) (e : Eff) (op : Nat) (ls : List Nat) : Nat :=
  let ftzi := modeFtzi (s.mode g)
  match ls.map fun l => s.rdA g l e % 2 ^ tyBits e.ty with
  | [] => gredIdentity op e.ty
  | x :: xs => xs.foldl (gredCombine op e.ty ftzi) (if 6 ≤ op then gredCombine op e.ty ftzi x x else x)

/-- `GRED` (R263). -/
def execGred : Fields → State → Out :=
  issueGroup (fun f => specLane (gredTypes (fld f.var 0 3)) (f.var &&& 7) slVec slVec slNone false) readsOwn
    fun e s g act =>
      let r := gredLanes s g e (fld e.var 0 3) act
      s.putLanes g act e fun _ => r

/-- `GSCAN` (R263). -/
def execGscan : Fields → State → Out :=
  issueGroup (fun f => specLane (gredTypes (fld f.var 0 3)) f.var slVec slVec slNone false) readsOwn
    fun e s g act =>
      s.putLanes g act e fun t => gredLanes s g e (fld e.var 0 3)
        (act.filter fun l => decide (l < t) || (!bit e.var 3 && decide (l = t)))

/-- `MATCH` (R260). -/
def execMatchLanes (f : Fields) (s : State) : Out :=
  issueGroup (fun _ => specLane tysN 0 ⟨.vec, s.maskRegs⟩ slVec slNone false) readsOwn
    (fun e s g act => s.putLanes g act e fun t => maskOf (act.filter fun l => s.rdA g l e == s.rdA g t e)) f s

/-- `LNMASK` (R260). -/
def execLnmask (f : Fields) (s : State) : Out :=
  issueGroup (fun f => specLane [] (fixVar 3 f.var) ⟨.vec, s.maskRegs⟩ slNone slNone false) ⟨fun _ _ _ _ => [], false⟩
    (fun e s g act => s.putLanes g act e fun t => match e.var.toNat with
      | 0 => maskOf act
      | 1 => 2 ^ t - 1
      | 2 => 2 ^ s.curWidth - 2 ^ (t + 1)
      | _ => 2 ^ s.curWidth - 1) f s

/-- `CCMOV.tov` (R264); h registers are accepted (R422). -/
def execCcmovTov : Fields → State → Out :=
  issueThreads (fun _ => { Spec.plain with d := slVec32, a := slCc, hOk := true }) always fun e s g l =>
    .ok (s.putD g l e (s.rdCc g l e.a).toNat)

/-- `CCMOV.tocc` (R264). -/
def execCcmovTocc : Fields → State → Out :=
  issueThreads (fun _ => { Spec.plain with var := 1, d := slCc, a := slSrc32, hOk := true }) always fun e s g l =>
    .ok (s.modThread g l fun t => t.writeCc e.d (BitVec.ofNat 4 (s.rdA g l e)))

/-- `CCMOV.copy` (R264). -/
def execCcmovCopy : Fields → State → Out :=
  issueThreads (fun _ => { Spec.plain with var := 2, d := slCc, a := slCc, hOk := true }) always fun e s g l =>
    .ok (s.modThread g l fun t => t.writeCc e.d (s.rdCc g l e.a))

end Sys2Proof.Machine
end

