-- ==== Sys2Proof/Machine/Span.lean ====
section
/-! DEFINITION. Tirudra Span (R336 to R339): the peer table, handshakes, packets, keys and retries. -/

namespace Sys2Proof.Machine

open Sys2Proof

/-! ## The peer table (Table 14-4) -/

/-- A Span peer entry. -/
def State.spanEntry (s : State) (e : Nat) : BitVec 256 := alGet s.span (BitVec.ofNat 256 (0x0400 * 2 ^ 192)) e

/-- STATE of an entry: 0 closed, 1 handshaking, 2 open, 3 failed. -/
def State.spanState (s : State) (e : Nat) : Nat := fld (s.spanEntry e) 208 16

/-- An entry with its STATE set. -/
def State.setSpanState (s : State) (e n : Nat) : State := { s with span := alSet s.span e (setFld (s.spanEntry e) 208 16 n) }

/-- A session with nothing in it. -/
def Session.zero : Session :=
  { id := 0, secret := [], keys := [], oldKeys := [], oldUntil := 0, opened := 0, tried := 0, rekeying := false, sent := 0,
    keyFrom := 0, underNew := 0, unacked := [], waiting := [], next := 0, held := [], top := 0, seen := [], dropped := 0,
    tagFails := 0, minute := 0 }

/-- The session of an entry. -/
def State.sessionOf (s : State) (e : Nat) : Session := alGet s.sessions .zero e

/-- The session of an entry changed. -/
def State.modSession (s : State) (e : Nat) (f : Session → Session) : State :=
  { s with sessions := alSet s.sessions e (f (s.sessionOf e)) }

/-- A session closed: its keys are gone. The messages that have not left wait for the next one: Span gives up on none because of
delay (R336). -/
def State.closeSpan (s : State) (e st : Nat) : State :=
  (s.modSession e fun x => { Session.zero with tried := x.tried, dropped := x.dropped, waiting := x.waiting }).setSpanState e st

/-- Whether the LSP may open sessions: the links run and the identity seed is there (R447). -/
def State.spanUp (s : State) : Bool := !s.sec.linksDown && !s.sec.seedErased

/-- The hash of a transcript. -/
def transcriptHash (t : List Byte) : List Byte := Config.shake256 t 64

/-- The identity key: SHAKE256 over the response of the physical unclonable function followed by the fused seed (R443). An erased
seed gives none. -/
def State.identityKey (s : State) : List Byte :=
  if s.sec.seedErased then [] else Config.shake256 (Config.puf ++ Config.identitySeed) 57

/-- The device certificate, as BAR0 offset 0x5000 serves it (R443). -/
def certificateBytes : List Byte := (List.range 2048).map Config.certificate

/-- The 24-byte header of a packet (R336). -/
def spanHeader (typ : Nat) (id : BitVec 32) (n : Nat) : List Byte := toBytes 24 (1 + typ * 2 ^ 8 + id.toNat * 2 ^ 16 + n % 2 ^ 64 * 2 ^ 48)

/-- What a side sends in a handshake (R337): its ephemeral X448 public key, its certificate chain and its Ed448 signature over the
transcript of the two. -/
def State.hello (s : State) (secret : List Byte) : List Byte :=
  let own := Config.x448Public secret ++ certificateBytes
  own ++ Config.ed448 s.identityKey (transcriptHash own)

/-- A handshake packet (type 3, or 4 for a rekey) with a fresh ephemeral key leaves (R336 to R338). -/
def State.sendHello (s : State) (e typ : Nat) : State :=
  let secret := Config.ephemeral s.freeTick
  let t := { s with freeTick := s.freeTick + 1 }.modSession e fun x => { x with secret := secret }
  { t with spanOut := t.spanOut ++ [⟨e, spanHeader typ (t.sessionOf e).id 0 ++ Config.helloBody e (t.hello secret)⟩] }

/-- An attempt to open the session of an entry. -/
def State.trySpan (s : State) (e : Nat) : State :=
  ((s.modSession e fun x => { x with tried := s.ns }).setSpanState e 1).sendHello e 3

/-- Whether the LSP may try again now: after a failure no more often than once per second (R338). -/
def State.mayTry (s : State) (e : Nat) : Bool :=
  s.spanState e == 0 || (s.spanState e == 3 && decide ((s.sessionOf e).tried + 1000000000 ≤ s.ns))

/-- `SPAN_PEER_ENTRY_WRITE` (R339): the writable fields; V = 1 lets the LSP open the session, V = 0 closes it. -/
def execSpanPeerEntryWrite (e : Nat) (v : BitVec 256) (s : State) : Out :=
  let x := BitVec.ofNat 256 (fld v 0 169 + fld v 176 32 * 2 ^ 176 + s.spanState e * 2 ^ 208)
  let s1 := { s with span := alSet s.span e x }
  .next (if !bit v 164 then s1.closeSpan e 0
    else if s1.spanUp && s1.mayTry e then s1.trySpan e else s1)

/-! ## Handshakes (R337, R338) -/

/-- A handshake or rekey that fails: the session closes and source 6 is raised (R338). -/
def State.failSpan (s : State) (e : Nat) : State := (s.closeSpan e 3).irq 6

/-- The characters "span-v1". -/
def spanLabel : List Byte := [0x73, 0x70, 0x61, 0x6E, 0x2D, 0x76, 0x31]

/-- The session keys of a handshake, with the ephemeral private key of this side (R337). -/
def spanKeys (secret : List Byte) (h : SpanHandshake) : List Byte :=
  Config.shake256 (Config.x448 secret h.peerKey ++ transcriptHash h.transcript ++ spanLabel) 72

/-- Whether a handshake passes the checks of the peer's chain, device number, firmware version and signature (R337). -/
def State.handshakeOk (s : State) (h : SpanHandshake) : Bool :=
  let x := s.spanEntry h.entry
  match Config.deviceCert Config.root h.chain with
  | none => false
  | some (dev, fw) =>
    dev.toNat == fld x 144 20 && decide (fld x 176 16 ≤ fw.toNat) &&
      Config.signatureOk h.chain (transcriptHash h.transcript) h.signature

/-! ## Packets that leave (R336, R337) -/

/-- A packet number as a 64-bit big-endian integer. -/
def bigEndian64 (n : Nat) : List Byte := (toBytes 8 n).reverse

/-- The key and salt of one direction: the first half of the key bytes belongs to the packets of the side with the lower device number
(log 16). -/
def State.directionKey (s : State) (e : Nat) (keys : List Byte) (received : Bool) : List Byte × List Byte :=
  let half := if decide (fld (s.spanEntry e) 144 20 < Config.device.toNat) == received then keys.take 36 else keys.drop 36
  (half.take 32, (half.drop 32).take 4)

/-- The key and salt of the direction in which this device receives. -/
def State.receiveKey (s : State) (e : Nat) (keys : List Byte) : List Byte × List Byte := s.directionKey e keys true

/-- The key and salt of the direction in which this device sends. -/
def State.sendKey (s : State) (e : Nat) (keys : List Byte) : List Byte × List Byte := s.directionKey e keys false

/-- A packet of an open session leaves: sealed under the sending key, its nonce from its number, its header as associated data. It is
kept until it is acknowledged. -/
def State.sendPacket (s : State) (e typ : Nat) (text : List Byte) : State :=
  let x := s.sessionOf e
  let key := s.sendKey e x.keys
  let header := spanHeader typ x.id x.sent
  let padded := text ++ List.replicate (64 - text.length) 0
  let (body, tag) := Config.gcmSeal key.1 (key.2 ++ bigEndian64 x.sent) header padded
  let p := header ++ body ++ tag
  { s.modSession e fun y => { y with sent := x.sent + 1, unacked := y.unacked ++ [(x.sent, p)] } with
    spanOut := s.spanOut ++ [⟨e, p⟩] }

/-- The parts of a message, of at most 8,192 bytes each. -/
def packetParts : Nat → List Byte → List (List Byte)
  | 0, bs => [bs]
  | n + 1, bs => if bs.length ≤ 8192 then [bs] else bs.take 8192 :: packetParts n (bs.drop 8192)

/-- A message that leaves through the session of an entry, as data packets; it waits while the session is not open. -/
def State.spanSend (s : State) (e : Nat) (text : List Byte) : State :=
  if s.spanState e ≠ 2 then s.modSession e fun x => { x with waiting := x.waiting ++ [text] }
  else (packetParts (text.length / 8192) text).foldl (fun (t : State) p => t.sendPacket e 1 p) s

/-- The messages that wait for a session leave. -/
def State.flushSpan (s : State) (e : Nat) : State :=
  (s.sessionOf e).waiting.foldl (fun (t : State) m => t.spanSend e m) (s.modSession e fun x => { x with waiting := [] })

/-- `SPAN_HANDSHAKE` (R337, R338): a session opens, or rekeys and keeps the old key for a while; a failure closes it. A rekey that the
peer began is answered with a handshake of this side. -/
def execSpanHandshake (h : SpanHandshake) (s : State) : Out :=
  let e := h.entry
  .next (if !bit (s.spanEntry e) 164 ∨ !s.spanUp ∨ (s.spanState e ≠ 1 ∧ s.spanState e ≠ 2) then s
    else if !s.handshakeOk h then s.failSpan e
    else if s.spanState e = 1 then
      ((s.modSession e fun x => { Session.zero with
        id := h.session, keys := spanKeys x.secret h, opened := s.ns, tried := x.tried, dropped := x.dropped,
        waiting := x.waiting }).setSpanState e 2).flushSpan e
    else
      let s1 := if (s.sessionOf e).rekeying then s else s.sendHello e 4
      s1.modSession e fun x =>
        { x with oldKeys := x.keys, oldUntil := s.ns + 5000000000, keys := spanKeys x.secret h, opened := s.ns, rekeying := false,
                 keyFrom := x.sent, underNew := 0 })

/-- Whether a session has to rekey: 2^32 packets in a direction, or an hour (R338). -/
def Session.rekeyDue (x : Session) (ns : Nat) : Bool :=
  x.keys != [] && !x.rekeying &&
    (decide (2 ^ 32 ≤ x.sent - x.keyFrom) || decide (2 ^ 32 ≤ x.underNew) || decide (x.opened + 3600000000000 ≤ ns))

/-- `SPAN_REKEY` (R338): a new handshake of type 4 begins. -/
def execSpanRekey (e : Nat) (s : State) : Out :=
  .next (if (s.sessionOf e).rekeyDue s.ns ∧ s.spanState e = 2 then
      (s.modSession e fun x => { x with rekeying := true, tried := s.ns }).sendHello e 4
    else s)

/-- Whether the packets of the old key are no longer accepted: 2^12 packets under the new one, or 5 s (R338). -/
def Session.oldOver (x : Session) (ns : Nat) : Bool :=
  x.oldKeys != [] && (decide (4096 ≤ x.underNew) || decide (x.oldUntil ≤ ns))

/-- `SPAN_OLD_KEY_EXPIRY` (R338). -/
def execSpanOldKeyExpiry (e : Nat) (s : State) : Out :=
  .next (if (s.sessionOf e).oldOver s.ns then s.modSession e fun x => { x with oldKeys := [] } else s)

/-- Whether the LSP may try a closed session again: no more often than once per second (R338). -/
def State.retryDue (s : State) (e : Nat) : Bool :=
  bit (s.spanEntry e) 164 && s.spanUp && (s.spanState e == 0 || s.spanState e == 3) &&
    decide ((s.sessionOf e).tried + 1000000000 ≤ s.ns)

/-- `SPAN_SESSION_RETRY` (R338). -/
def execSpanSessionRetry (e : Nat) (s : State) : Out := .next (if s.retryDue e then s.trySpan e else s)

/-! ## Packets that arrive (R336, R338) -/

/-- A packet opened under key bytes; none where its tag fails. -/
def State.openPacket (s : State) (e : Nat) (keys header body tag : List Byte) (n : Nat) : Option (List Byte) :=
  if keys = [] then none
  else Config.gcmOpen (s.receiveKey e keys).1 ((s.receiveKey e keys).2 ++ bigEndian64 n) header body tag

/-- A packet that is dropped and counted (R338). -/
def State.dropPacket (s : State) (e : Nat) : State := s.modSession e fun x => { x with dropped := x.dropped + 1 }

/-- A packet whose tag fails: beyond the entry's limit in a minute the session closes (R338). -/
def State.tagFailure (s : State) (e : Nat) : State :=
  let x := s.sessionOf e
  let m := s.ns / 60000000000
  let n := (if x.minute = m then x.tagFails else 0) + 1
  let s1 := (s.dropPacket e).modSession e fun y => { y with tagFails := n, minute := m }
  if fld (s.spanEntry e) 192 16 < n then s1.failSpan e else s1

/-- Packets that have been accepted reach the collective engine in packet-number order (R336): those from `n` on that follow each
other, and the number and the packets that are left. -/
def inOrder : Nat → Nat → AL (Option (List Byte)) → Nat × List (List Byte) × AL (Option (List Byte))
  | 0, n, held => (n, [], held)
  | f + 1, n, held =>
    match alGet? held n with
    | none => (n, [], held)
    | some t =>
      let (m, ts, rest) := inOrder f (n + 1) (held.filter fun p => p.1 != n)
      (m, t.toList ++ ts, rest)

/-- A packet that is accepted: its number is seen, an acknowledgement takes the packets it names off the list, and a data packet is
delivered in its turn and acknowledged. -/
def State.acceptPacket (s : State) (e n typ : Nat) (new : Bool) (text : List Byte) : State :=
  let x := s.sessionOf e
  let top := max x.top n
  let seen := (n :: x.seen).filter fun m => decide (top < m + 65536)
  let held := alSet x.held n (if typ = 1 then some text else none)
  let (next, ts, rest) := inOrder held.length x.next held
  let s1 := { s.modSession e fun y =>
      { y with top := top, seen := seen, underNew := y.underNew + b2n new, next := next, held := rest,
               unacked := if typ = 2 then y.unacked.filter fun m => !Config.acks text m.1 else y.unacked } with
    spanIn := s.spanIn ++ ts.map fun t => (e, t) }
  if typ = 1 then s1.sendPacket e 2 (Config.ackText e seen) else s1

/-- `SPAN_PACKET_RECEIVE` (R336, R338). -/
def execSpanPacketReceive (p : SpanPacket) (s : State) : Out :=
  let e := p.entry
  let x := s.sessionOf e
  let len := p.bytes.length
  let header := p.bytes.take 24
  let h := ofBytes header
  let n := fldN h 48 64
  let body := (p.bytes.drop 24).take (len - 40)
  let tag := p.bytes.drop (len - 16)
  .next (if s.spanState e ≠ 2 then s
    else if len < 104 ∨ 8232 < len ∨ fldN h 0 8 ≠ 1 ∨ fldN h 8 8 = 0 ∨ 4 < fldN h 8 8 ∨ fldN h 112 80 ≠ 0 ∨
        fldN h 16 32 ≠ x.id.toNat then s.dropPacket e
    else if n + 65536 ≤ x.top ∨ x.seen.contains n then s.dropPacket e
    else match s.openPacket e x.keys header body tag n with
      | some text => s.acceptPacket e n (fldN h 8 8) true text
      | none => match s.openPacket e (if x.oldOver s.ns then [] else x.oldKeys) header body tag n with
        | some text => s.acceptPacket e n (fldN h 8 8) false text
        | none => s.tagFailure e)

/-- The collective engine takes a message that a session has delivered. -/
def State.takeMessage (s : State) (text : List Byte) : State := { s with spanIn := s.spanIn.eraseP fun p => p.2 == text }

/-- `SPAN_RETRANSMIT` (R336): the oldest packet that is not acknowledged is sent again. -/
def execSpanRetransmit (e : Nat) (s : State) : Out :=
  .next (match (s.sessionOf e).unacked with
    | [] => s
    | p :: _ => if s.spanState e = 2 then { s with spanOut := s.spanOut ++ [⟨e, p.2⟩] } else s)

end Sys2Proof.Machine
end

