-- ==== Sys2Proof/Machine/Collective.lean ====
section
/-! DEFINITION. The collective engine (opcode 0xBF): the descriptor and roster, contributions, chunks and their owners, results,
misses and drops, compression (R340 to R348, R475), and the events of every engine command. -/

namespace Sys2Proof.Machine

open Sys2Proof

/-! ## The descriptor (Tables 14-5, 14-6) -/

/-- OP. -/
def kOp (b : Nat) : Nat := fldN b 0 8
/-- RED. -/
def kRed (b : Nat) : Nat := fldN b 8 4
/-- DTYPE as a type. -/
def kTy (b : Nat) : Ty := tyOf (fldN b 12 4)
/-- RM. -/
def kRm (b : Nat) : Nat := fldN b 16 3
/-- SAT. -/
def kSat (b : Nat) : Bool := fldN b 19 1 == 1
/-- CMP. -/
def kCmp (b : Nat) : Nat := fldN b 20 3
/-- LATE. -/
def kLate (b : Nat) : Bool := fldN b 23 1 == 1
/-- EFV. -/
def kEfv (b : Nat) : Bool := fldN b 24 1 == 1
/-- ROSTER. -/
def kRoster (b : Nat) : Nat := fldN b 32 16
/-- GEN. -/
def kGen (b : Nat) : Nat := fldN b 64 32
/-- STREAM. -/
def kStream (b : Nat) : Nat := fldN b 96 32
/-- QUORUM. -/
def kQuorum (b : Nat) : Nat := fldN b 128 32
/-- DEADLINE in nanoseconds. -/
def kDeadline (b : Nat) : Nat := fldN b 160 26 * 1000
/-- ROOT. -/
def kRoot (b : Nat) : Nat := fldN b 192 32
/-- ANC. -/
def kAnc (b : Nat) : Int := toSigned 10 (fldN b 224 10)
/-- EFTID. -/
def kEftid (b : Nat) : Nat := fldN b 240 16
/-- GSK. -/
def kGsk (b : Nat) : Nat := fldN b 256 13
/-- SRC. -/
def kSrc (b : Nat) : Dword := BitVec.ofNat 64 (fldN b 384 64)
/-- DST. -/
def kDst (b : Nat) : Dword := BitVec.ofNat 64 (fldN b 448 64)
/-- COUNT. -/
def kCount (b : Nat) : Nat := fldN b 512 40
/-- BMADDR. -/
def kBm (b : Nat) : Dword := BitVec.ofNat 64 (fldN b 576 64)

/-- The types of a sum. -/
def kSumTypes : List Ty := [.f32, .f16, .bf16, .s32, .n32, .s64, .n64]

/-- Whether DTYPE is allowed (Table 14-6, reason 2). -/
def kTypeOk (b : Nat) : Bool :=
  if 2 ≤ kOp b then decide (fldN b 12 4 ≤ 0xD)
  else kSumTypes.contains (kTy b) || (kRed b != 0 && ([.s16, .n16, .s8, .n8] : List Ty).contains (kTy b))

/-- Whether an address of the descriptor is on a path that the engine does not take, or misaligned. -/
def kBadAddr (a align : Nat) : Bool := onRead a || onCtl a || a % align != 0

/-- The first condition of Table 14-6 that the descriptor decides, with RSBASE. -/
def collReason (b : Nat) (rsbase : Dword) : Option Nat :=
  let al := max 1 (tyBits (kTy b) / 8)
  if fldN b 25 7 ≠ 0 ∨ fldN b 48 16 ≠ 0 ∨ fldN b 186 6 ≠ 0 ∨ fldN b 234 6 ≠ 0 ∨ fldN b 269 115 ≠ 0 ∨ fldN b 552 24 ≠ 0 ∨
      fldN b 704 320 ≠ 0 ∨ 4 < kOp b ∨ 2 < kRed b ∨ 5 < kRm b ∨ 3 < kCmp b then some 1
  else if !kTypeOk b then some 2
  else if kCmp b ≠ 0 ∧ (1 < kOp b ∨ kRed b ≠ 0 ∨ !tyFloat (kTy b) ∨ (kCmp b = 3 ∧ (kGsk b = 0 ∨ 4096 < kGsk b))) then some 3
  else if kEfv b ≠ (kCmp b != 0) then some 4
  else if kDeadline b = 0 ∨ 60000000000 < kDeadline b ∨ kQuorum b = 0 then some 5
  else if rsbase = 0 then some 6
  else if kCount b = 0 then some 7
  else if kBadAddr (kSrc b).toNat al ∨ kBadAddr (kDst b).toNat al ∨ (kBm b ≠ 0 ∧ kBadAddr (kBm b).toNat 16) then some 8
  else none

/-! ## Rosters (R342) -/

/-- A bound roster: its generation, this device's rank, the place of its members and their entries. -/
structure Roster where
  gen : Nat
  rank : Nat
  memb : Dword
  members : List Nat
  deriving DecidableEq, Repr

/-- Whether a member entry is live. -/
def memberLive (e : Nat) : Bool := fldN e 63 1 == 0

/-- The live ranks of a list of entries, rising. -/
def liveRanks (ms : List Nat) : List Nat := (List.range ms.length).filter fun r => memberLive (ms.getD r 0)

/-- The member entries at an address. -/
def Via.members (v : Via) (at' : Dword) : Nat → Wk (List Nat)
  | 0 => pure []
  | n + 1 => do
    let x ← v.rdN at' 8
    let xs ← v.members (at' + 8) n
    pure (x :: xs)

/-- Reason 6 or 7 of Table 14-6. -/
def kFail {α : Type} (n : Nat) : Wk α := wkFault 0x128 (BitVec.ofNat 64 n)

/-- The roster that a descriptor names, bound and checked (R342). -/
def Via.roster (v : Via) (b : Nat) : Wk Roster := do
  let base ← wkGet fun s => (s.ctx v.iss.slot).rsbase
  let r ← v.rdN (base + BitVec.ofNat 64 (64 * kRoster b)) 64
  let n := fldN r 32 17
  let rank := fldN r 64 16
  let memb := fldN r 128 64
  if fldN r 49 15 ≠ 0 ∨ fldN r 80 48 ≠ 0 ∨ fldN r 192 320 ≠ 0 ∨ n = 0 ∨ 65536 < n ∨ n ≤ rank ∨ memb % 8 ≠ 0 then kFail 6
  else
    let ms ← v.members (BitVec.ofNat 64 memb) n
    let me := ms.getD rank 0
    let live := (liveRanks ms).length
    if (ms.any fun e => fldN e 21 11 != 0 || fldN e 48 15 != 0) ∨ !memberLive me ∨ fldN me 0 20 ≠ Config.device.toNat ∨
        live < kQuorum b then kFail 6
    else if (kOp b = 1 ∨ kOp b = 4) ∧ kCount b % live ≠ 0 then kFail 7
    else pure ⟨fldN r 0 32, rank, BitVec.ofNat 64 memb, ms⟩

/-- The error-feedback tensor of a descriptor, bound and checked. -/
def Via.feedback (v : Via) (b : Nat) : Wk (Option Tens) := do
  if !kEfv b then pure none
  else
    let r ← v.bind (kEftid b)
    if recFmt r ≠ 1 ∨ ((List.range (recRank r)).any fun i => recKind r i != 0) ∨
        ((List.range (recRank r)).map fun i => recDim r i).foldl (· * ·) 1 ≠ kCount b then kFail 4
    else
      let ls ← v.levels (kEftid b) r (recRank r) 0
      pure (some ⟨kEftid b, r, ls⟩)

/-! ## Chunks (R343) -/

/-- The live ranks of an operation as bound. -/
def Coll.live (k : Coll) : List Nat := liveRanks k.members

/-- The live ranks that have not been dropped since (R346). -/
def Coll.liveNow (k : Coll) : List Nat := k.live.filter fun r => !k.dropped.contains r

/-- Whether the data is cut into one part per member. -/
def kParts (b : Nat) : Bool := kOp b == 1 || kOp b == 4

/-- The chunks of an operation. -/
def chunkCount (b n : Nat) : Nat := if kParts b then n else ceilDiv (kCount b) 4096

/-- The first element of a chunk and its length. -/
def chunkSpan (b n c : Nat) : Nat × Nat :=
  if kParts b then (c * (kCount b / n), kCount b / n) else (4096 * c, min 4096 (kCount b - 4096 * c))

/-- The rank that owns a chunk. -/
def Coll.owner (k : Coll) (c : Nat) : Nat := k.live.getD (c % max 1 k.live.length) 0

/-- A chunk with nothing in it. -/
def Chunk.zero : Chunk := ⟨[], [], none, false, false, none, none⟩

/-- A chunk of an operation. -/
def Coll.chunk (k : Coll) (c : Nat) : Chunk := alGet k.chunks .zero c

/-- An operation with a chunk changed. -/
def Coll.modChunk (k : Coll) (c : Nat) (f : Chunk → Chunk) : Coll := { k with chunks := alSet k.chunks c (f (k.chunk c)) }

/-- Whether every chunk has its result. -/
def Coll.allIn (k : Coll) (b : Nat) : Bool :=
  (List.range (chunkCount b k.live.length)).all fun c => (k.chunk c).result.isSome

/-! ## Compression (R348, R72) -/

/-- The place of a value in the order of a group; a NaN's is free. -/
def gqPlace (tick : Nat) (x : Ex) : Ex := if x.isNan then Ex.ofInt (Config.nanPlace tick) else x

/-- The lesser or greater of two values that are no NaN. -/
def exLess (a b : Ex) : Ex := if a.cmp b = .gt then b else a
/-- The greater of two values that are no NaN. -/
def exMore (a b : Ex) : Ex := if a.cmp b = .lt then b else a

/-- A value divided by a positive integer. -/
def Ex.over (x : Ex) (n : Nat) : Ex :=
  match x with
  | .fin s a d => .fin s a (d * n)
  | y => y

/-- The scale and zero point of a group of 64 (R348). -/
def gqScale (tick qmax : Nat) (ys : List Ex) : Nat × Nat :=
  let zero := Ex.ofInt 0
  let lo := ys.foldl (fun m y => exLess m (gqPlace tick y)) zero
  let hi := ys.foldl (fun m y => exMore m (gqPlace tick y)) zero
  let s := (roundTo (((hi.add false lo.negate).1).over qmax) .f16 .ru true false).1
  if s % 32768 = 0 then (0x3C00, 0)
  else
    let z := match lo, decodeElem .f16 0 false s with
      | .fin _ n d, .fin _ m e => min (roundInt (n * e) (d * m) .rn false) qmax
      | .inf _, _ => qmax
      | _, _ => 0
    (s, z)

/-- One group of GQ8 or GQ4: its record, the decoded values and the saturations. -/
def gqGroup (tick w : Nat) (ys : List Ex) : List Byte × List Ex × Nat :=
  let qmax := 2 ^ w - 1
  let full := ys ++ List.replicate (64 - ys.length) (Ex.ofInt 0)
  let (s, z) := gqScale tick qmax full
  let qs := full.map fun y => quantiseCode y (decodeElem .f16 0 false s) z .rn qmax
  (toBytes 4 (s + z * 65536) ++ repack w (qs.map fun q => q.1), (qs.map fun q => qiValue q.1 s z).take ys.length,
    (qs.take ys.length).foldl (fun n q => n + b2n q.2.1) 0)

/-- The magnitude of a value. -/
def exAbs : Ex → Ex
  | .fin _ n d => .fin false n d
  | .inf _ => .inf false
  | .nan => .nan

/-- One block of GS: its record and the decoded values. -/
def gsBlock (tick keep : Nat) (ys : List Ex) : List Byte × List Ex × Nat :=
  let nz := (List.range ys.length).filter fun i => !(ys.getD i .nan).isZero
  let mag := fun i : Nat => exAbs (gqPlace tick (ys.getD i .nan))
  let best := (sortBy (fun (i j : Nat) => (mag i).cmp (mag j) != .lt) nz).take keep
  let kept := nz.filter fun i => best.contains i
  let code := fun i : Nat => (roundTo (ys.getD i .nan) .bf16 .rn false false).1
  let body := toBytes 4 kept.length ++ kept.flatMap fun i => toBytes 4 (i + code i * 65536)
  (body ++ List.replicate (ceilDiv body.length 16 * 16 - body.length) 0,
    (List.range ys.length).map fun i => if kept.contains i then decodeElem .bf16 0 false (code i) else Ex.ofInt 0, 0)

/-- A contribution in its link format: the bytes, the decoded values and the saturations. -/
def encodeLink (b tick : Nat) (ys : List Ex) : List Byte × List Ex × Nat :=
  let size := if kCmp b = 3 then 4096 else 64
  (chunksOf size (ys.length + 1) ys).foldl (fun (acc : List Byte × List Ex × Nat) g =>
    let r := if kCmp b = 3 then gsBlock tick (kGsk b) g else gqGroup tick (if kCmp b = 1 then 8 else 4) g
    (acc.1 ++ r.1, acc.2.1 ++ r.2.1, acc.2.2 + r.2.2)) ([], [], 0)

/-- The values of GQ records. -/
def gqDecode (w n : Nat) (bs : List Byte) : List Ex :=
  (List.range n).map fun i =>
    let r := (bs.drop (i / 64 * (4 + 8 * w))).take (4 + 8 * w)
    qiValue (fldN (ofBytes (r.drop 4)) (i % 64 * w) w) (ofBytes (r.take 2)) (ofBytes ((r.drop 2).take 1))

/-- The values of GS records, block by block. -/
def gsDecode : Nat → Nat → List Byte → List Ex
  | 0, _, _ => []
  | f + 1, n, bs =>
    if n = 0 then []
    else
      let k := ofBytes (bs.take 4)
      let ps := (List.range k).map fun j => ofBytes ((bs.drop (4 + 4 * j)).take 4)
      let m := min n 4096
      ((List.range m).map fun i => match ps.find? fun p => fldN p 0 16 == i with
        | some p => decodeElem .bf16 0 false (fldN p 16 16)
        | none => Ex.ofInt 0) ++ gsDecode f (n - m) (bs.drop (ceilDiv (4 + 4 * k) 16 * 16))

/-- The addends of a contribution as it was sent. -/
def addendsOf (b n : Nat) (bs : List Byte) : List Ex :=
  match kCmp b with
  | 0 => (unpack (tyBits (kTy b)) n bs).map (decodeElem (kTy b) 0 false)
  | 1 => gqDecode 8 n bs
  | 2 => gqDecode 4 n bs
  | _ => gsDecode (n + 1) n bs

/-! ## Results (R344, R345) -/

/-- The elements of one minimum or maximum. -/
def reduceBits (b : Nat) (xs : List Nat) : Nat :=
  let op := if tyFloat (kTy b) then 5 + kRed b else kRed b
  match xs with
  | [] => 0
  | x :: ys => ys.foldl (gredCombine op (kTy b) false) (if 6 ≤ op then gredCombine op (kTy b) false x x else x)

/-- The addends of parts of contributions that cover element `i`, each with the descriptor under which it was sent. -/
def partsAt {α : Type} (i : Nat) (cols : List (Nat × List α)) : List α :=
  cols.filterMap fun p => if p.1 ≤ i then p.2[i - p.1]? else none

/-- The reduction of `n` elements from element `e` on, of parts of contributions (R345): of a late one the elements that it covers
(R346). -/
def reduceElems (b e n : Nat) (parts : List LatePart) : List Nat :=
  if kRed b = 0 then
    let cols := parts.map fun p => (p.first, addendsOf p.blk p.count p.bytes)
    (List.range n).map fun i =>
      let x := (partsAt (e + i) cols).foldl (fun (x : PElem) y => plyAdd x y (kAnc b)) .zero
      (plyResolve x (kAnc b) (kTy b) (rmOf (kRm b)) (kSat b) false).1
  else
    let cols := parts.map fun p => (p.first, unpack (tyBits (kTy b)) p.count p.bytes)
    (List.range n).map fun i => reduceBits b (partsAt (e + i) cols)

/-- The elements that the result of a chunk holds. -/
def chunkResult (k : Coll) (b c : Nat) (from' : List Nat) : List Nat :=
  let (e, n) := chunkSpan b k.live.length c
  let x := k.chunk c
  let part := fun r : Nat => if from'.contains r then unpack (tyBits (kTy b)) n (alGet x.parts [] r) else List.replicate n 0
  match kOp b with
  | 0 | 1 => reduceElems b e n (from'.map (fun r => ⟨r, b, e, n, alGet x.parts [] r⟩) ++ x.late)
  | 2 => (List.range k.members.length).flatMap part
  | 3 => part (kRoot b)
  | _ => k.live.flatMap part

/-- The first element of DST and the elements of a result that it takes: runs of equal length (R345). -/
def dstRuns (k : Coll) (b c : Nat) : List (Nat × Nat) :=
  let (e, n) := chunkSpan b k.live.length c
  match kOp b with
  | 2 => (List.range k.members.length).map fun r => (r * kCount b + e, n)
  | 1 => [(0, n)]
  | 4 => [(0, n * k.live.length)]
  | _ => [(e, n)]

/-- The elements of DST that an operation may write. -/
def dstElems (k : Coll) (b : Nat) : Nat :=
  match kOp b with
  | 2 => k.members.length * kCount b
  | 1 => kCount b / max 1 k.live.length
  | _ => kCount b

/-- Elements written at places of a DST of `total` elements, as pieces: an odd last element of 4 bits leaves its spare bits zero
(R67). -/
def Via.dstPieces (v : Via) (base : Dword) (w total : Nat) (runs : List (Nat × List Nat)) : Wk (List Piece) :=
  if w = 4 then do
    let es := runs.flatMap fun r => r.2.zipIdx.map fun x =>
      let i := r.1 + x.2
      (⟨base + BitVec.ofNat 64 (i / 2), if i % 2 = 1 then 1 else if i + 1 = total then 2 else 0, x.1, .zero⟩ : ElemPut)
    let m ← v.overlay 4 es []
    pure (bytePieces es m)
  else pure (runs.flatMap fun r => piecesAt base 0 (r.1 * (w / 8)) (repack w r.2))

/-- The bytes of DST that results still to be written will take (R125). -/
def Coll.later (k : Coll) (b : Nat) : List (Dword × Nat) :=
  let w := tyBits (kTy b)
  let cs := (List.range (chunkCount b k.live.length)).filter fun c =>
    let x := k.chunk c
    (x.out.isSome || (x.result.isNone && !k.timedOut)) && (!kParts b || k.owner c == k.rank)
  cs.flatMap fun c => (dstRuns k b c).map fun r =>
    (kDst b + BitVec.ofNat 64 (w * r.1 / 8), ceilDiv (w * (r.1 + r.2)) 8 - w * r.1 / 8)

/-- The runs of a result's elements. -/
def splitRuns : List (Nat × Nat) → List Nat → List (Nat × List Nat)
  | [], _ => []
  | r :: rs, xs => (r.1, xs.take r.2) :: splitRuns rs (xs.drop r.2)

/-! ## Issue (R340 to R342) -/

/-- The next ordinal of a stream. -/
def State.nextOrdinal (s : State) (slot roster stream : Nat) : Nat :=
  ((s.collOrd.find? fun x => x.slot == slot && x.roster == roster && x.key == stream).map fun x => x.n).getD 0

/-- A count set. -/
def setCount (l : List CollCount) (slot roster key n : Nat) : List CollCount :=
  (l.filter fun x => !(x.slot == slot && x.roster == roster && x.key == key)) ++ [⟨slot, roster, key, n⟩]

/-- Whether a late contribution to an operation is folded into the next one of the stream (R346). -/
def foldsInto (old new : Nat) : Bool :=
  kLate old && decide (kOp new ≤ 1) && kOp old == kOp new && kRed old == kRed new && kTy old == kTy new &&
    kCount old == kCount new && fldN old 224 10 == fldN new 224 10

/-- A contribution that reaches an open chunk of its owner: kept once for each live rank; the first starts the deadline
(R343). -/
def Coll.take (k : Coll) (b at' : Nat) (m : Contribution) : Coll :=
  if k.owner m.chunk ≠ k.rank ∨ !k.liveNow.contains m.rank ∨ chunkCount b k.live.length ≤ m.chunk then k
  else k.modChunk m.chunk fun x =>
    if x.closed ∨ (alGet? x.parts m.rank).isSome then x
    else { x with parts := alSet x.parts m.rank m.bytes, deadline := some (min (x.deadline.getD (at' + kDeadline b)) (at' + kDeadline b)) }

/-- The chunks of an operation that hold elements of a late contribution to the one before (R346). -/
def lateChunks (b n : Nat) (h : CollHist) (chunk : Nat) : List Nat :=
  let (e, c) := chunkSpan h.blk h.live.length chunk
  (List.range (chunkCount b n)).filter fun i => let (f, d) := chunkSpan b n i; decide (f < e + c) && decide (e < f + d)

/-- A late contribution to the operation before, folded into the open chunks owned here that hold its element indices (R346). -/
def Coll.takeLate (k : Coll) (b : Nat) (h : CollHist) (m : Contribution) : Coll :=
  let (e, n) := chunkSpan h.blk h.live.length m.chunk
  let mine := (lateChunks b k.live.length h m.chunk).filter fun c => k.owner c == k.rank
  mine.foldl (fun (x : Coll) c => x.modChunk c fun y =>
    if y.closed ∨ (y.late.any fun p => p.rank == m.rank && p.first == e) then y
    else { y with late := y.late ++ [⟨m.rank, h.blk, e, n, m.bytes⟩] }) k

/-- The other members that own chunks with elements of a late contribution: its owner under the operation before passes it on to
them. -/
def Coll.lateOwners (k : Coll) (b : Nat) (h : CollHist) (m : Contribution) : List Nat :=
  if h.live.getD (m.chunk % max 1 h.live.length) 0 ≠ h.rank then []
  else ((lateChunks b k.live.length h m.chunk).map fun c => k.owner c).eraseDups.filter fun r => r != k.rank

/-- What was held for an operation, taken by it at its issue. -/
def Coll.takeHeld (k : Coll) (b : Nat) (h : CollIn) : Coll :=
  match h.late with
  | none => if h.msg.ordinal = k.ordinal then k.take b h.at' h.msg else k
  | some old => if h.msg.ordinal + 1 = k.ordinal ∧ foldsInto old.blk b then k.takeLate b old h.msg else k

/-- The contributions held for an operation that are passed on at its issue, with their new owners. -/
def Coll.passHeld (k : Coll) (b : Nat) (h : CollIn) : List (Nat × Contribution) :=
  match h.late with
  | none => []
  | some old =>
    if h.msg.ordinal + 1 = k.ordinal ∧ foldsInto old.blk b then (k.lateOwners b old h.msg).map fun r => (r, h.msg) else []

/-- Whether a held contribution is of a stream. -/
def CollIn.ofStream (h : CollIn) (slot roster stream : Nat) : Bool :=
  h.msg.slot == slot && h.msg.roster == roster && h.msg.stream == stream

/-- Whether a held contribution is spent once an operation is issued. -/
def CollIn.spent (h : CollIn) (ordinal : Nat) : Bool :=
  match h.late with
  | none => decide (h.msg.ordinal ≤ ordinal)
  | some _ => decide (h.msg.ordinal + 1 ≤ ordinal)

/-- A message to a member whose route is Span leaves in packets of its session (R336, R342). -/
def State.sendTo (s : State) (k : Coll) (r : Nat) (text : List Byte) : State :=
  let e := k.members.getD r 0
  if r ≠ k.rank ∧ fldN e 20 1 = 1 then s.spanSend (fldN e 32 16) text else s

/-- Contributions that leave for their owners. -/
def State.sendOut (s : State) (k : Coll) (ms : List (Nat × Contribution)) : State :=
  ms.foldl (fun (t : State) m =>
    { t.sendTo k m.1 (Config.contributionText m.2) with collOut := t.collOut ++ [m.2] }) s

/-- Whether an operation cannot send: the links are down, and there are other members (R447). -/
def State.collStopped (s : State) (k : Coll) : Bool := s.sec.linksDown && k.liveNow.any fun r => r != k.rank

/-- Whether a message may have arrived: over a link that runs, or delivered by Span before the links stopped (R447). -/
def State.arrives (s : State) (text : List Byte) : Bool := !s.sec.linksDown || s.spanIn.any fun p => p.2 == text

/-- A collective entered in its queue. -/
def State.enterColl (s : State) (g l : Nat) (e : Eff) (b : Nat) (r : Roster) (ef : Option Tens) : State :=
  let slot := s.slotOf g
  let n := s.nextOrdinal slot (kRoster b) (kStream b)
  let k0 : Coll :=
    { roster := kRoster b, gen := r.gen, rank := r.rank, memb := r.memb, members := r.members, ordinal := n, issued := s.ns,
      sent := false, timedOut := false, final := false, dropped := [], drops := [], chunks := [] }
  let bad := decide (r.gen ≠ kGen b)
  let own := (List.range (chunkCount b k0.live.length)).filter fun c => k0.owner c == k0.rank
  let k1 := own.foldl (fun (k : Coll) c => k.modChunk c fun x => { x with deadline := some (s.ns + kDeadline b) }) k0
  let held := s.collIn.filter fun h => h.ofStream slot (kRoster b) (kStream b)
  let k2 := if bad then k0 else held.foldl (fun k h => k.takeHeld b h) k1
  let c0 := { Cmd.new .coll { s.cmdIssuer g l with unit := 4 } g l (s.coreOf g) e (s.mode g) b with
    tens := ef, bound := ef.toList, coll := some k2, result := if bad then some (5, 0x129) else none, plan := if bad then some [] else none }
  let (id, s1) := s.enterCmd g l e c0
  let s2 := { s1.sendOut k2 (if bad then [] else held.flatMap fun h => k2.passHeld b h) with
    collOrd := setCount s1.collOrd slot (kRoster b) (kStream b) (n + 1)
    collHist := s1.collHist ++ [⟨slot, kRoster b, kStream b, n, b, k0.live, k0.rank⟩]
    collIn := s1.collIn.filter fun h => !(h.ofStream slot (kRoster b) (kStream b) && h.spent n) }
  if bad then s2 else s2.claimRun id (kDst b) (ceilDiv (dstElems k2 b * tyBits (kTy b)) 8)

/-- The issue of one thread's collective (R340). -/
def issueColl (e : Eff) (s : State) (g l : Nat) : Res :=
  if s.laneAhead e g l then .stay
  else match s.issueRead g l (s.addrA g l e) 128 0x12C with
  | .trap c tv _ => .trap c tv
  | .stay t => .wait t
  | .ok b s1 =>
    match collReason b (s1.ctx (s1.slotOf g)).rsbase with
    | some n => .trap 0x128 (BitVec.ofNat 64 n)
    | none =>
      let v := Via.make (s1.issuerOf g l 0) (some (g, l, s1.now)) false none [] 0
      let bindAll : Wk (Option Tens × Roster) := do
        let t ← v.feedback b
        let r ← v.roster b
        pure (t, r)
      match bindAll s1 with
      | .error (.fault c tv) _ => .trap c tv
      | .error (.park p) s2 => .wait (s2.parkIssue g l p 0)
      | .error .wait s2 => .wait s2
      | .ok (t, r) s2 => .ok (s2.enterColl g l e b r t)

/-- `COLL` (R340). -/
def execColl : Fields → State → Out :=
  issueThreads (specCmd (fun v => v &&& 3) .dev) (cmdReady 4096 fun o => o == .coll) issueColl

/-! ## Contributions (R343, R347, R348) -/

/-- The elements of this member's contribution, exactly, with the error that is fed back (R348). -/
def Cmd.fedBack (v : Via) (t : Tens) : List Ex → Nat → Wk (List Ex)
  | [], _ => pure []
  | x :: xs, i => do
    let ef ← v.elem t (unravel t.dims i)
    let ys ← Cmd.fedBack v t xs (i + 1)
    pure ((x.add false (decodeElem .f32 0 false ef)).1 :: ys)

/-- The error values written back (R348). -/
def Cmd.errors (v : Via) (t : Tens) : List (Ex × Ex) → Nat → Wk (List ElemPut)
  | [], _ => pure []
  | (y, d) :: xs, i => do
    let p ← v.elemPos t (unravel t.dims i)
    let rest ← Cmd.errors v t xs (i + 1)
    pure (⟨recElemAddr t.r (p.getD 0), 0, (roundTo (y.add false d.negate).1 .f32 .rn false false).1, .zero⟩ :: rest)

/-- The contribution of a chunk in the form in which it is sent. -/
def chunkSend (b w n : Nat) (xs : List Nat) (c : Nat) : List Byte :=
  let (e, m) := chunkSpan b n c
  repack w ((xs.drop e).take m)

/-- A collective with its contribution read: the payload of each chunk, the pieces of the error feedback, the saturations. A
member that is not the source of a broadcast sends nothing but its presence. -/
def Cmd.contribute (c : Cmd) (v : Via) (k : Coll) : Wk (List (List Byte) × List Piece × Nat) := do
  let b := c.blk
  let n := k.live.length
  let w := tyBits (kTy b)
  let cs := List.range (chunkCount b n)
  if kOp b = 3 ∧ kRoot b ≠ k.rank then pure (cs.map fun _ => [], [], 0)
  else
    let bs ← v.srcRun (kSrc b) 0 (ceilDiv (w * kCount b) 8)
    let xs := unpack w (kCount b) bs
    match c.tens with
    | none => pure (cs.map fun i => chunkSend b w n xs i, [], 0)
    | some t =>
      let tick ← wkGet fun s => s.freeTick
      wkMod fun s => { s with freeTick := s.freeTick + 1 }
      let ys ← Cmd.fedBack v t (xs.map (decodeElem (kTy b) 0 false)) 0
      let enc := cs.map fun i => let (e, m) := chunkSpan b n i; encodeLink b tick ((ys.drop e).take m)
      let es ← Cmd.errors v t (ys.zip (enc.flatMap fun r => r.2.1)) 0
      let m ← v.overlay 32 es []
      pure (enc.map fun r => r.1, (bytePieces es m).map fun p => { p with key := 0 }, enc.foldl (fun z r => z + r.2.2) 0)

/-- The contributions leave: those of chunks owned here are taken, the others go to their owners. -/
def State.sendColl (s : State) (id : Nat) (c : Cmd) (k : Coll) (ps : List (List Byte)) (ef : List Piece) (sat : Nat) : State :=
  let msgs := ps.zipIdx.map fun p =>
    ({ slot := c.iss.slot, roster := k.roster, stream := kStream c.blk, ordinal := k.ordinal, chunk := p.2, rank := k.rank,
       bytes := p.1 } : Contribution)
  let k1 := (msgs.filter fun m => k.owner m.chunk == k.rank).foldl (fun x m => x.take c.blk s.ns m) { k with sent := true }
  (s.sendOut k ((msgs.filter fun m => k.owner m.chunk != k.rank).map fun m => (k.owner m.chunk, m))).setCmd id
    { c with started := true, coll := some k1, plan := some ef, satc := sat }

/-- The outstanding collective of a context with an ordinal of a stream: its number, command and operation. -/
def State.findColl (s : State) (slot roster stream ordinal : Nat) : Option (Nat × Cmd × Coll) :=
  s.cmds.findSome? fun p => match p.2.coll with
    | some k => if p.2.iss.slot == slot && k.roster == roster && kStream p.2.blk == stream && k.ordinal == ordinal &&
        p.2.result.isNone then some (p.1, p.2, k) else none
    | none => none

/-- A command with its operation changed. -/
def State.setColl (s : State) (id : Nat) (c : Cmd) (k : Coll) : State := s.setCmd id { c with coll := some k }

/-- A late contribution to an operation (R346): folded into the next one where that is open, or passed on to its owner there; held
where that has not been issued, and otherwise dropped. -/
def State.lateContribution (s : State) (m : Contribution) (old : CollHist) : State :=
  if !kLate old.blk ∨ 1 < kOp old.blk then s
  else if s.nextOrdinal m.slot m.roster m.stream ≤ m.ordinal + 1 then
    { s with collIn := s.collIn ++ [⟨m, s.ns, some old⟩] }
  else match s.findColl m.slot m.roster m.stream (m.ordinal + 1) with
    | some (id, c, k) =>
      if foldsInto old.blk c.blk then
        (s.setColl id c (k.takeLate c.blk old m)).sendOut k ((k.lateOwners c.blk old m).map fun r => (r, m))
      else s
    | none => s

/-- What is kept of the operation with an ordinal of a stream (R346). -/
def State.histOf (s : State) (m : Contribution) : Option CollHist :=
  s.collHist.find? fun h => h.slot == m.slot && h.roster == m.roster && h.stream == m.stream && h.ordinal == m.ordinal

/-- `COLL_CONTRIBUTION_RECEIVE` (R343, R346): to the open chunk it is for; held where the operation has not been issued here; late
otherwise, as where another member owns the chunk and passes it on. None comes over a stopped link (R447). -/
def execCollContributionReceive (m : Contribution) (s : State) : Out :=
  let text := Config.contributionText m
  .next (if !s.arrives text then s
    else
      let s1 := s.takeMessage text
      if s1.nextOrdinal m.slot m.roster m.stream ≤ m.ordinal then { s1 with collIn := s1.collIn ++ [⟨m, s1.ns, none⟩] }
      else
        let late := match s1.histOf m with
          | some h => s1.lateContribution m h
          | none => s1
        match s1.findColl m.slot m.roster m.stream m.ordinal with
        | some (id, c, k) =>
          if (k.chunk m.chunk).closed ∨ k.owner m.chunk ≠ k.rank then late else s1.setColl id c (k.take c.blk s1.ns m)
        | none => late)

/-! ## Closing (R343, R344) -/

/-- Whether a chunk may close: it is owned here and open, and every live member has contributed or its deadline has run. -/
def Coll.closable (k : Coll) (b c : Nat) : Bool :=
  decide (c < chunkCount b k.live.length) && k.owner c == k.rank && !(k.chunk c).closed &&
    ((k.chunk c).expired || k.liveNow.all fun r => (alGet? (k.chunk c).parts r).isSome)

/-- Whether the deadline of a chunk has run out and has not been noted. -/
def Coll.due (k : Coll) (c ns : Nat) : Bool :=
  !(k.chunk c).closed && !(k.chunk c).expired && ((k.chunk c).deadline.map fun d => decide (d ≤ ns)).getD false

/-- `COLL_DEADLINE` (R343). -/
def execCollDeadline (id chunk : Nat) (s : State) : Out :=
  .next (match alGet? s.cmds id with
    | none => s
    | some c => match c.coll with
      | some k => if k.due chunk s.ns then s.setColl id c (k.modChunk chunk fun x => { x with expired := true }) else s
      | none => s)

/-- The misses of a rank of a roster in a row. -/
def State.misses (s : State) (slot roster rank : Nat) : Nat :=
  ((s.collMiss.find? fun x => x.slot == slot && x.roster == roster && x.key == rank).map fun x => x.n).getD 0

/-- The live ranks that are dropped because a contributor set lacks them: those that miss a third operation in a row (R346). -/
def State.dropsFor (s : State) (slot : Nat) (k : Coll) (from' : List Nat) : List Nat :=
  k.liveNow.filter fun r => !from'.contains r && decide (3 ≤ s.misses slot k.roster r + 1)

/-- The result of a chunk leaves for every live member; over a stopped link it is lost (R447). -/
def State.sendResult (s : State) (k : Coll) (r : ChunkResult) : State :=
  { k.liveNow.foldl (fun (t : State) m => t.sendTo k m (Config.resultText r)) s with
    collSent := if s.collStopped k then s.collSent else s.collSent ++ [r] }

/-- `COLL_CHUNK_CLOSE` (R344): the contributor set is fixed, and the result goes to every live member. -/
def execCollChunkClose (id chunk : Nat) (s : State) : Out :=
  .next (match alGet? s.cmds id with
    | none => s
    | some c => match c.coll with
      | none => s
      | some k =>
        if !k.closable c.blk chunk ∨ c.result.isSome then s
        else
          let x := k.chunk chunk
          let from' := k.liveNow.filter fun r => (alGet? x.parts r).isSome
          let late := (x.late.map fun p => p.rank).eraseDups
          let ok := decide (kQuorum c.blk ≤ from'.length) && (kOp c.blk != 3 || from'.contains (kRoot c.blk))
          let out := if ok then repack (tyBits (kTy c.blk)) (chunkResult k c.blk chunk from') else []
          let drops := s.dropsFor c.iss.slot k from'
          let k1 := { k.modChunk chunk fun y =>
              { y with closed := true, result := some (ok, from', late), out := if ok then some out else none } with
            drops := k.drops ++ drops.filter fun r => !k.drops.contains r }
          (s.setColl id c k1).sendResult k ⟨id, chunk, ok, if kParts c.blk then [] else out, from', late, drops⟩)

/-- `COLL_RESULT_RECEIVE` (R475): the result of a chunk owned elsewhere, or its owner's report that the quorum failed. -/
def execCollResultReceive (r : ChunkResult) (s : State) : Out :=
  let text := Config.resultText r
  .next (if !s.arrives text then s
    else
      let s1 := s.takeMessage text
      match alGet? s1.cmds r.id with
      | none => s1
      | some c => match c.coll with
        | none => s1
        | some k =>
          if (k.chunk r.chunk).result.isSome ∨ k.owner r.chunk = k.rank ∨ chunkCount c.blk k.live.length ≤ r.chunk ∨ c.result.isSome ∨
              k.timedOut then s1
          else
            s1.setColl r.id c { k.modChunk r.chunk fun y =>
                { y with closed := true, result := some (r.ok, r.contributors, r.late),
                         out := if r.ok && !kParts c.blk then some r.bytes else none } with
              drops := k.drops ++ r.dropped.filter fun x => k.live.contains x && !k.drops.contains x })

/-- Whether an operation has waited for results for twice its deadline (R344). -/
def Coll.overdue (k : Coll) (b ns : Nat) : Bool :=
  !k.timedOut && !k.allIn b && decide (k.issued + 2 * kDeadline b ≤ ns)

/-- `COLL_RESULT_TIMEOUT` (R344). -/
def execCollResultTimeout (id : Nat) (s : State) : Out :=
  .next (match alGet? s.cmds id with
    | none => s
    | some c => match c.coll with
      | some k => if k.overdue c.blk s.ns && c.result.isNone then s.setColl id c { k with timedOut := true } else s
      | none => s)

/-! ## The end of an operation (R346, R347, R475) -/

/-- The ranks in the contributor set of every chunk. -/
def Coll.contributors (k : Coll) (b : Nat) : List Nat :=
  k.live.filter fun r => (List.range (chunkCount b k.live.length)).all fun c =>
    (((k.chunk c).result.map fun x => x.2.1).getD []).contains r

/-- The ranks whose late contributions were folded into a chunk. -/
def Coll.lateRanks (k : Coll) (b : Nat) : List Nat :=
  (List.range k.members.length).filter fun r => (List.range (chunkCount b k.live.length)).any fun c =>
    (((k.chunk c).result.map fun x => x.2.2).getD []).contains r

/-- A cause with which an operation ends: 0x12A before 0x12B (R475). -/
def Coll.cause (k : Coll) (b : Nat) : Option Nat :=
  if (List.range (chunkCount b k.live.length)).any fun c => ((k.chunk c).result.map fun x => !x.1).getD false then some 0x12A
  else if k.timedOut then some 0x12B else none

/-- A bitmap of ranks, padded to 16 bytes (R347). -/
def rankMap (n : Nat) (rs : List Nat) : List Byte := toBytes (ceilDiv (ceilDiv n 8) 16 * 16) (maskOf rs)

/-- The pieces that write ranks' DROP bits and the generation (R346). -/
def Via.dropPieces (v : Via) (base : Dword) (k : Coll) (drops : List Nat) : Wk (List Piece) := do
  if drops = [] then pure []
  else
    let g ← v.rdN base 4
    pure ((drops.flatMap fun r =>
      piecesAt (k.memb + BitVec.ofNat 64 (8 * r)) 0 0 (toBytes 8 (k.members.getD r 0 % 2 ^ 63 + 2 ^ 63))) ++
      piecesAt base 0 0 (toBytes 4 (g + drops.length)))

/-- The last writes of an operation: bitmaps where it succeeds, and the roster entry where ranks are dropped (R346). -/
def State.finishColl (s : State) (id : Nat) (c : Cmd) (k : Coll) : State :=
  let b := c.blk
  let from' := k.contributors b
  let live := k.liveNow
  let absent' := fun r : Nat => (List.range (chunkCount b k.live.length)).any fun i =>
    ((k.chunk i).result.map fun x => !x.2.1.contains r).getD false
  let missed := fun r : Nat =>
    if absent' r then s.misses c.iss.slot k.roster r + 1 else if k.allIn b then 0 else s.misses c.iss.slot k.roster r
  let drops := live.filter fun r => k.drops.contains r || decide (3 ≤ missed r)
  let base := (s.ctx c.iss.slot).rsbase + BitVec.ofNat 64 (64 * k.roster)
  let bm := if (k.cause b).isNone ∧ kBm b ≠ 0 then
      piecesAt (kBm b) 0 0 (rankMap k.members.length from' ++ rankMap k.members.length (k.lateRanks b))
    else []
  match (c.via id).dropPieces base k drops s with
  | .error .wait _ => s
  | .error (.park p) t => t.parkCmd id c p
  | .error (.fault cause _) t => t.setCmd id { c with plan := some [], result := some (3, cause) }
  | .ok ps t =>
    let miss := live.foldl (fun l r => setCount l c.iss.slot k.roster r (if drops.contains r then 0 else missed r)) t.collMiss
    let absent := fun x : Cmd => match x.coll with
      | some y => if x.iss.slot == c.iss.slot && y.roster == k.roster then
          { x with coll := some { y with dropped := y.dropped ++ drops.filter fun r => !y.dropped.contains r } } else x
      | none => x
    let others := t.cmds.map fun p : Nat × Cmd => if p.1 = id then p else (p.1, absent p.2)
    let t1 := { t with collMiss := miss, cmds := others }
    t1.setCmd id { c with plan := some ((bm ++ ps).map fun p => { p with key := 0 }), coll := some { k with final := true, drops := drops } }

/-- The status of an operation whose last writes are made, and the sizes of its sets (R340, R475). -/
def Cmd.collEnd (c : Cmd) (k : Coll) : Cmd :=
  let from' := k.contributors c.blk
  { c with
    uniq := from'.length, oorc := (k.lateRanks c.blk).length,
    result := some (match k.cause c.blk with
      | some e => (5, e)
      | none => (if k.liveNow.all fun r => from'.contains r then 1 else 2, from'.length)) }

/-- The pieces of a result that has come, formed: they alone count as bytes of the destination (Table 6-8). -/
def State.writeResult (s : State) (id : Nat) (c : Cmd) (k : Coll) (ch : Nat) (bs : List Byte) : State :=
  let runs := dstRuns k c.blk ch
  let w := tyBits (kTy c.blk)
  let n := runs.foldl (fun z r => z + r.2) 0
  match (c.via id).dstPieces (kDst c.blk) w (dstElems k c.blk) (splitRuns runs (unpack w n bs)) s with
  | .error .wait _ => s
  | .error (.park p) t => t.parkCmd id c p
  | .error (.fault cause _) t => t.setCmd id { c with plan := some [], result := some (3, cause) }
  | .ok ps t =>
    t.setCmd id { c with plan := some (ps.map fun p => { p with key := 1 }), coll := some (k.modChunk ch fun x => { x with out := none }) }

/-- The next work of a collective: its contribution leaves, a piece is written, a result that has come is formed, or it ends. A
cancelled one whose contribution has not left ends with STATE 4 (R347). Once the roster entry of a drop is written, source 3 is
raised (R346). -/
def State.collStep (s : State) (id : Nat) (c : Cmd) (k : Coll) : State :=
  if c.park.isSome ∨ c.result.isSome then s
  else if !k.sent then
    if c.cancel then s.setCmd id { c with plan := some [], result := some (4, 0) }
    else if !s.mayStart id c ∨ s.collStopped k then s
    else match c.contribute (c.via id) k s with
      | .ok (ps, ef, sat) t => t.sendColl id c k ps ef sat
      | .error .wait _ => s
      | .error (.park p) t => t.parkCmd id c p
      | .error (.fault cause _) t => t.setCmd id { c with plan := some [], result := some (3, cause) }
  else match c.plan with
    | some (p :: ps) => s.putNext id c (p :: ps) (k.later c.blk)
    | _ =>
      if k.final then
        let t := s.setCmd id (c.collEnd k)
        if k.drops = [] then t else t.irq 3
      else match k.chunks.find? fun x => x.2.out.isSome with
        | some (ch, x) => s.writeResult id c k ch (x.out.getD [])
        | none => if k.allIn c.blk || k.timedOut then s.finishColl id c k else s

/-! ## Events of every command -/

/-- `ENGINE_WRITE` (R134): the next work of a command. -/
def execEngineWrite (id : Nat) (s : State) : Out :=
  .next (match alGet? s.cmds id with
    | none => s
    | some c => match c.coll with
      | some k => s.collStep id c k
      | none => if c.op.copies then s.engineStep id c else s)

/-- What is kept of a stream's operations once one has ended: late contributions to it may still come (R346). -/
def State.pruneHist (s : State) (c : Cmd) : State :=
  match c.coll with
  | none => s
  | some k => { s with collHist := s.collHist.filter fun h =>
      !(h.slot == c.iss.slot && h.roster == k.roster && h.stream == kStream c.blk && decide (h.ordinal < k.ordinal)) }

/-- `COMMAND_COMPLETE` (R136): a command whose work is over ends. -/
def execCommandComplete (id : Nat) (s : State) : Out :=
  .next (match alGet? s.cmds id with
    | none => s
    | some c => if c.over then (s.completeCmd id c).pruneHist c else s)

end Sys2Proof.Machine
end

