-- ==== Sys2Proof/Machine/Cursor.lean ====
section
/-! DEFINITION. The cursor instructions, opcodes 0x90 to 0x9D (Table 8-5), Bobbin's heaps (R215 to R217) and the landing
of walker operations. -/

namespace Sys2Proof.Machine

open Sys2Proof

/-! ## Walker writes -/

/-- A write by a walker, performed at its home; it waits for an owned line and for the thread's own earlier stores to the
same bytes (R164, R196). -/
def Via.put (v : Via) (va : Dword) (bs : List Byte) : Wk Unit := fun s =>
  if s.ownStore v.who va bs.length then .error .wait s
  else match s.reach v.iss .store va bs.length 1 0x094 false with
  | (.fault c, s1) => .error (.fault c va) s1
  | (.park p, s1) => .error (.park p) s1
  | (.wait, s1) => .error .wait s1
  | (.mem (.node a) h, s1) =>
    if s1.ownedBy v.cmd a bs.length then .error .wait s1
    else .ok () ((s1.targetWrite h (.mem (.node a)) 0 bs).dropL1 (v.iss.core.getD 0) (.node a) bs.length)
  | (.mem p _, s1) => .ok () (s1.atomicDrop (v.iss.core.getD 0) (.mem p) bs.length)
  | (.spad t i o, s1) => .ok () (s1.modSpad t i fun x => x.write o bs)
  | (_, s1) => .error (.fault 0x094 va) s1

/-- The same reader past the metadata cache: values, heap descriptors and page links. -/
def Via.plain (v : Via) : Via := { v with cached := false }

/-! ## Bobbin (R215, R216) -/

/-- A heap descriptor: its address, BASE, SPAN, log2 of the block, and the die's BUMP and FREE. -/
structure Heap where
  at' : Dword
  base : Nat
  span : Nat
  lbs : Nat
  raw : Nat
  deriving DecidableEq, Repr

/-- A valid heap descriptor; another raises 0x109. -/
def Via.heap (v : Via) (h : Nat) : Wk Heap := do
  let bad : Wk Heap := wkFault 0x109 (BitVec.ofNat 64 h)
  if 64 ≤ h then bad
  else
    let base ← wkGet fun s => (s.ctx v.iss.slot).heapbase
    let at' := base + BitVec.ofNat 64 (256 * h)
    let x ← v.plain.rdN at' 256
    let y : Heap := ⟨at', fldN x 0 64, fldN x 64 64, fldN x 128 5, x⟩
    if fldN x 136 1 = 0 ∨ y.lbs < 8 ∨ 20 < y.lbs ∨ fldN x 133 3 ≠ 0 ∨ fldN x 137 119 ≠ 0 ∨ fldN x 1280 768 ≠ 0 ∨
        2 ^ 48 < y.base + 8 * y.span then bad
    else pure y

/-- BUMP of a die. -/
def Heap.bump (h : Heap) (d : Nat) : Nat := fldN h.raw (256 + 128 * d) 64
/-- FREE of a die. -/
def Heap.free (h : Heap) (d : Nat) : Nat := fldN h.raw (256 + 128 * d + 64) 64

/-- BUMP and FREE of a die written as one step. -/
def Via.setHeap (v : Via) (h : Heap) (d bump free : Nat) : Wk Unit :=
  v.put (h.at' + BitVec.ofNat 64 (32 + 16 * d)) (toBytes 8 bump ++ toBytes 8 free)

/-- `bobbin_alloc(h, d)` of R216. -/
def Via.heapAlloc (v : Via) (h : Nat) : Wk Nat := do
  let x ← v.heap h
  let d := v.iss.die
  if x.free d ≠ 0 then
    let n ← v.plain.rdN (BitVec.ofNat 64 (x.free d)) 8
    v.setHeap x d (x.bump d) n
    pure (x.free d)
  else if x.bump d + 2 ^ x.lbs ≤ x.span then
    v.setHeap x d (x.bump d + 2 ^ x.lbs) (x.free d)
    pure (x.base + d * x.span + x.bump d)
  else pure 0

/-- `bobbin_free(h, b)` of R216. -/
def Via.heapFree (v : Via) (h b : Nat) : Wk Unit := do
  let x ← v.heap h
  let d := if x.span = 0 then 8 else (b - x.base) / x.span
  let o := b - x.base - d * x.span
  if b < x.base ∨ 7 < d ∨ o % 2 ^ x.lbs ≠ 0 ∨ x.bump d ≤ o then wkFault 0x10A (BitVec.ofNat 64 b)
  else
    v.put (BitVec.ofNat 64 b) (toBytes 8 (x.free d))
    v.setHeap x d (x.bump d) b

/-! ## Append lists (R214, R218 to R220) -/

/-- `link(pg, i, q)` of R218, as one step: the new page's header, then the head. -/
def Via.link (v : Via) (x : Lv) (pg q : Nat) : Wk Unit := do
  let a := Dword.at' x.p0 (8 * q)
  let h ← v.plain.rdN a 8
  v.put (BitVec.ofNat 64 pg) (toBytes 8 h ++ toBytes 8 0)
  v.put a (toBytes 8 pg)

/-- A block for a page; an exhausted region is 0x108. -/
def Via.page (v : Via) (h : Nat) : Wk Nat := do
  let pg ← v.heapAlloc h
  if pg = 0 then wkFault 0x108 (BitVec.ofNat 64 h) else pure pg

/-- `commit(x)` of R219: the tail page's count, by a write of the 16-byte header. -/
def Via.commit (v : Via) (c : Cur) : Wk Unit := do
  let page := BitVec.ofNat 64 (c.pos * 256)
  let next ← v.plain.rdN page 8
  v.put page (toBytes 8 next ++ toBytes 8 c.aux)

/-- `APPND.open` (R218). -/
def Via.openList (v : Via) (tid i q h : Nat) : Wk Cur := do
  let r ← v.bind tid
  if recRank r ≤ i then wkFault 0x103 (BitVec.ofNat 64 (tid + i % 8 * 65536))
  else if recKind r i ≠ 6 then wkFault 0x105 (BitVec.ofNat 64 (tid + i % 8 * 65536))
  else
    let x ← v.level tid r i
    let hp ← v.heap h
    if 2 ^ hp.lbs ≠ x.m0 then wkFault 0x109 (BitVec.ofNat 64 h)
    else
      let pg ← v.page h
      v.link x pg q
      pure { tid := tid, level := i, kind := 6, done := false, append := true, valid := true, pos := pg / 256, endAt := x.m1,
             aux := 0, coord := h, parent := q }

/-- `APPND` (R219): the one that fills a page commits it. -/
def Via.append (v : Via) (c : Cur) (coord pos : Nat) : Wk Cur := do
  let r ← v.bind c.tid
  let x ← v.level c.tid r c.level
  if x.n ≤ coord then
    v.commit c
    wkFault 0x10E (BitVec.ofNat 64 coord)
  else
    let c1 ← (if c.aux = c.endAt then do
        let pg ← v.page (c.coord % 64)
        v.link x pg c.parent
        pure { c with pos := pg / 256, aux := 0 }
      else pure c)
    v.put (BitVec.ofNat 64 (c1.pos * 256 + 16 + 8 * c1.aux)) (toBytes 4 coord ++ toBytes 4 pos)
    let c2 := { c1 with aux := c1.aux + 1 }
    if c2.aux = c2.endAt then v.commit c2
    pure c2

/-! ## Co-iteration (R206 to R208) -/

/-- The method of a pair of kinds under `.and` (Table 8-7): none; A drives; B drives; merge. -/
def coitMethod (a b : Nat) : Option Nat :=
  ([[1, 2, 2, 2, 2, 2, 2], [1, 3, 1, 1, 3, 3, 2], [1, 2, 3, 1, 2, 2, 2], [1, 2, 2, 1, 2, 2, 2], [1, 3, 1, 1, 3, 3, 2],
    [1, 3, 1, 1, 3, 3, 2], [1, 1, 1, 1, 1, 1, 0]] : List (List Nat)).getD a [] |>.getD b 0 |> fun m =>
      if m = 0 then none else some m

/-- Whether `.or` admits a kind (R208). -/
def unionKind (k : Nat) : Bool := k != 3 && decide (k < 6)

/-- The next entry of a cursor on its own tensor; `read` says that its entry was read in the same operation. -/
def Via.step (v : Via) (c : Cur) (read : Bool) : Wk Cur := do
  if c.done then pure c
  else
    let r ← v.bind c.tid
    let x ← v.level c.tid r c.level
    v.next x c read

/-- A cursor sought to a coordinate on its own tensor. -/
def Via.seekOwn (v : Via) (c : Cur) (to' : Nat) (read : Bool) : Wk Cur := do
  if c.done then pure c
  else
    let r ← v.bind c.tid
    let x ← v.level c.tid r c.level
    v.seek x c to' read

/-- The merge of two cursors to a common coordinate, by fuel; `ra` and `rb` say whose entry has been read in the operation. -/
def Via.merge (v : Via) : Nat → Cur → Cur → Bool → Bool → Wk (Cur × Cur)
  | 0, _, _, _, _ => wkWait
  | k + 1, a, b, ra, rb =>
    if a.done ∨ b.done ∨ a.coord = b.coord then pure (a, b)
    else if a.coord < b.coord then do
      let a1 ← v.seekOwn a b.coord ra
      v.merge k a1 b true rb
    else do
      let b1 ← v.seekOwn b a.coord rb
      v.merge k a b1 ra true

/-- A cursor that a lookup has found: one that `CSPLIT` gave a part keeps the part's end, and an entry from there on is none of its
(R194, log 78). -/
def Cur.within (y p : Cur) : Option Cur :=
  if p.kind = 6 then some y else if p.endAt ≤ y.pos then none else some { y with endAt := p.endAt }

/-- A driver moved on until its coordinate is found on the probed side, by fuel. -/
def Via.drive (v : Via) : Nat → Cur → Cur → Bool → Wk (Cur × Cur)
  | 0, _, _, _ => wkWait
  | k + 1, d, p, read =>
    if d.done ∨ p.done then pure (d, p)
    else do
      let r ← v.bind p.tid
      let x ← v.level p.tid r p.level
      match (← v.lookup x p d.coord).bind fun y => y.within p with
      | some y => pure (d, y)
      | none =>
        let d1 ← v.step d read
        v.drive k d1 p true

/-- `COIT` (R206): the two cursors and the flags. -/
def Via.coit (v : Via) (or' adv : Bool) (a b : Cur) : Wk (Cur × Cur × BitVec 4) := do
  let m := if or' then 3 else (coitMethod a.kind b.kind).getD 3
  let low := min a.coord b.coord
  let (a1, b1) ← (if adv then
      (if m = 1 then do let x ← v.step a false; pure (x, b)
      else if m = 2 then do let y ← v.step b false; pure (a, y)
      else do
        let x ← (if !a.done && a.coord = low then v.step a false else pure a)
        let y ← (if !b.done && b.coord = low then v.step b false else pure b)
        pure (x, y))
    else pure (a, b))
  let (a2, b2) ← (if or' then pure (a1, b1)
    else if m = 1 then v.drive chainFuel a1 b1 adv
    else if m = 2 then do let (d, p) ← v.drive chainFuel b1 a1 adv; pure (p, d)
    else v.merge chainFuel a1 b1 (adv && !a.done && a.coord == low) (adv && !b.done && b.coord == low))
  let low2 := min a2.coord b2.coord
  let s := (a2.done && a2.aux == 0) || (b2.done && b2.aux == 0)
  let z := if or' then a2.done && b2.done else a2.done || b2.done
  let cf := if or' then !a2.done && a2.coord == low2 else !z
  let vf := if or' then !b2.done && b2.coord == low2 else !z
  pure (a2, b2, mkFlags s z cf vf)

/-! ## Splitting (R212) -/

/-- The part of a live cursor's remaining range. A later part that begins at the cursor's own POS, those before it being empty, keeps its AUX
as part 0 does (DESIGN CHOICE, log 106). -/
def Via.split (v : Via) (x : Lv) (c : Cur) (n k : Nat) : Wk Cur := do
  let len := c.endAt - c.pos
  let lo := c.pos + k * len / n
  let hi := c.pos + (k + 1) * len / n
  let y := { c with endAt := hi }
  if lo = hi then pure (y.finish 0)
  else if lo = c.pos ∧ x.kind ≠ 3 then pure y
  else match x.kind with
  | 0 => pure { y with pos := lo, coord := lo - c.parent * x.stride }
  | 2 =>
    match ← v.nthBit x c.parent (lo - c.pos) c.coord with
    | none => wkFault 0x104 (x.posAddr (c.parent + 1))
    | some b => pure { y with pos := lo, coord := b, aux := b % 64 }
  | 3 =>
    match ← v.occupied x (2 ^ 24) lo hi with
    | none => pure (y.finish 0)
    | some (p, d) => pure { y with pos := p, coord := d, aux := if p = c.pos then c.aux else 0 }
  | 4 =>
    let t ← v.triple x lo 0
    pure { y with pos := lo, aux := 0, coord := t.1 }
  | _ =>
    let d ← v.crd x lo none
    pure { y with pos := lo, coord := d }

/-! ## Values (R210) -/

/-- The words of the element at a cursor, two for one of 64 bits, read under an L2 hint. -/
def Via.value (v : Via) (c : Cur) (off l2 : Nat) : Wk (List Word) := do
  if c.done then pure [0, 0]
  else
    let r ← v.bind c.tid
    let f := recFmt r
    if 0x11 ≤ f then wkFault 0x105 (BitVec.ofNat 64 (c.tid + c.level * 65536))
    else
      let x ← v.level c.tid r c.level
      let p ← (if c.kind = 5 then
          (if x.m0 * x.m1 ≤ off then wkFault 0x10C (BitVec.ofNat 64 off)
          else do
            x.checkPos (c.pos * (x.m0 * x.m1) + off)
            pure (c.pos * (x.m0 * x.m1) + off))
        else v.passDown x c)
      let e ← ({ v.plain with hint := l2 }).elemAt r p
      match fmtTy f with
      | some .s64 | some .n64 => pure [BitVec.ofNat 32 e, BitVec.ofNat 32 (e / 2 ^ 32)]
      | some .s8 => pure [BitVec.ofNat 32 (wrapN 32 (toSigned 8 e))]
      | some .s16 => pure [BitVec.ofNat 32 (wrapN 32 (toSigned 16 e))]
      | _ => pure [BitVec.ofNat 32 e]

/-! ## Running an operation -/

/-- What a walker operation gives: words for vector registers, cursors for cursor registers, flags. -/
structure WalkRes where
  ws : List Word
  cs : List (BitVec 192)
  fl : Option (BitVec 4)
  deriving DecidableEq, Repr

/-- A result of one cursor. -/
def WalkRes.cur (c : Cur) : WalkRes := ⟨[], [c.bits], none⟩

/-- A walker operation. The done cursor that `DESC` of a done cursor gives has PARENT and POS 0 (R205 names neither; DESIGN CHOICE, log 106). -/
def Via.run (v : Via) (op : WalkOp) : Wk WalkRes := do
  match op with
  | .root tid i q =>
    let r ← v.bind tid
    let x ← v.level tid r i
    let c ← v.openFibre x q
    pure (.cur c)
  | .next c =>
    let y ← v.step (curOf c) false
    pure (.cur y)
  | .seek c to' =>
    let y ← v.seekOwn (curOf c) to' false
    pure (.cur y)
  | .desc c =>
    let x := curOf c
    let r ← v.bind x.tid
    if recRank r ≤ x.level + 1 then wkFault 0x103 (BitVec.ofNat 64 (x.tid + (x.level + 1) % 8 * 65536))
    else if x.done then
      pure (.cur (Cur.finish { tid := x.tid, level := x.level + 1, kind := recKind r (x.level + 1), done := true, append := false,
                               valid := true, pos := 0, endAt := 0, aux := 0, coord := 0, parent := 0 } 0))
    else
      let up ← v.level x.tid r x.level
      let q ← v.passDown up x
      let dn ← v.level x.tid r (x.level + 1)
      let y ← v.openFibre dn q
      pure (.cur y)
  | .coit or' adv a b =>
    let (x, y, fl) ← v.coit or' adv (curOf a) (curOf b)
    pure ⟨[], [x.bits, y.bits], some fl⟩
  | .split c n k =>
    let x := curOf c
    if x.done then pure (.cur x)
    else
      let r ← v.bind x.tid
      let l ← v.level x.tid r x.level
      let y ← v.split l x n k
      pure (.cur y)
  | .ldv c off l2 =>
    let ws ← v.value (curOf c) off l2
    pure ⟨ws, [], none⟩
  | .openList tid i q h =>
    let c ← v.openList tid i q h
    pure (.cur c)
  | .append c coord pos =>
    let y ← v.append (curOf c) coord pos
    pure (.cur y)
  | .commit c close =>
    v.commit (curOf c)
    pure ⟨[], [if close then 0 else c], none⟩
  | .alloc h =>
    let b ← v.heapAlloc h
    pure ⟨[BitVec.ofNat 32 b, BitVec.ofNat 32 (b / 2 ^ 32)], [], none⟩
  | .free a h _ =>
    v.heapFree h a.toNat
    pure ⟨[], [], none⟩
  | .got ws => pure ⟨ws, [], none⟩
  | .bad _ c tv => wkFault c tv

/-- The tensor, level and known kind of a request, for its fault form (R193). -/
def WalkOp.request (op : WalkOp) : List (Nat × Nat × Option Nat) :=
  let own := fun c : BitVec 192 => ((curOf c).tid, (curOf c).level, some (curOf c).kind)
  match op with
  | .root tid i _ => [(tid, i, none)]
  | .openList tid i _ _ => [(tid, i, none)]
  | .desc c => [((curOf c).tid, (curOf c).level + 1, none)]
  | .coit _ _ a b => [own a, own b]
  | .next c | .seek c _ | .split c _ _ | .ldv c _ _ | .append c _ _ | .commit c _ => [own c]
  | .alloc _ | .free _ _ _ | .got _ => []
  | .bad req _ _ => req

/-- The kind of a level of the record that an access bound, or that the die's record cache holds; 0 where it was not bound. -/
def State.boundKind (s : State) (a : Acc) (tid i : Nat) : Nat :=
  match ((a.recs.find? fun t => t.tid == tid).map fun t => t.r) <|> alGet? (s.die (dieOf a.core)).recs (65536 * a.slot + tid) with
  | some r => if (recReason r).isNone ∧ i < 6 then recKind r i else 0
  | none => 0

/-- Whether a walker operation writes cursor registers, so that its faults are deferred (Table 8-4). -/
def WalkOp.deferred : WalkOp → Bool
  | .ldv _ _ _ | .alloc _ | .free _ _ _ | .got _ => false
  | _ => true

/-- Whether a walker operation is ordered after its thread's earlier accesses and stores (R217, R218 to R220). -/
def WalkOp.releases : WalkOp → Bool
  | .openList _ _ _ _ | .append _ _ _ | .commit _ _ | .free _ _ _ => true
  | _ => false

/-- Whether a walker operation may take or return a block of a heap (R216, R217). -/
def WalkOp.heapStep : WalkOp → Bool
  | .alloc _ | .free _ _ _ | .openList _ _ _ _ | .append _ _ _ => true
  | _ => false

/-- Whether a walker operation may be performed now: the thread's earlier walker operations have landed, what it is ordered after
is performed, and the heap steps of an instruction's lower lanes have been taken (R195, R216, R402). -/
def State.walkMay (s : State) (id : Nat) (a : Acc) (op : WalkOp) : Bool :=
  a.park.isNone && !s.dstLocked id a &&
    (s.acc.all fun p => decide (id ≤ p.1) || p.2.g != a.g || p.2.lane != a.lane ||
      (match p.2.op with
        | .walk _ _ => false
        | q => !op.releases || q.isPref)) &&
    (!op.heapStep || s.acc.all fun p => decide (id ≤ p.1) || p.2.g != a.g || p.2.pc != a.pc || p.2.cyc != a.cyc ||
      (match p.2.op with
        | .walk o _ => !o.heapStep
        | _ => true)) &&
    (!op.releases || s.storesDone a.g a.lane .dev)

/-- The registers that the words of an operation go to, and whether the pair below an odd one is used: a 64-bit element takes the
pair, any other the register named (R210). -/
def ldvDst (dst : List Nat) (ws : List Word) : List Nat × Bool :=
  match dst, ws with
  | d :: _, [_, _] => ([d / 2 * 2, d / 2 * 2 + 1], d % 2 == 1)
  | d :: _, _ => ([d], false)
  | [], _ => ([], false)

/-- The landing of a walker operation; `none` where it has to wait. -/
def State.landWalk (s : State) (id : Nat) : Option State :=
  match alGet? s.acc id with
  | none => none
  | some a => match a.op with
    | .walk op nf =>
      if !s.walkMay id a op then none
      else match ({ s.viaWalker a.g a.lane id with bound := a.recs }).run op s with
      | .ok r t =>
        let (dst, odd) := match op with
          | .ldv _ _ _ | .got _ => ldvDst a.dst r.ws
          | _ => (a.dst, false)
        let t1 := t.modGroup a.g fun x =>
          { x with warn := if odd then x.warn ||| 0x4000 else x.warn }.untag a.lane (a.dst.filter fun n => !dst.contains n)
        let t2 := t1.modThread a.g a.lane fun u => { u with vEmpty := u.vEmpty.filter fun r => !a.dst.contains r }
        some (t2.landWith id { a with dst := dst } r.ws r.cs r.fl)
      | .error .wait _ => none
      | .error (.park p) _ => some (s.parkAcc id a p 1)
      | .error (.fault c tv) t =>
        if op.deferred then
          let forms := op.request.map fun q =>
            (faultForm q.1 q.2.1 (q.2.2.getD (t.boundKind a q.1 q.2.1)) nf c tv).bits
          some (t.landWith id a [] forms none)
        else some (t.failed id a c tv)
    | _ => none

/-- `WALKER_RESULT` (R195): the operation is carried out and its result lands. -/
def execWalkerResult (id : Nat) (s : State) : Out := .next ((s.landWalk id).getD s)

/-! ## Issue -/

/-- The fields of a cursor operand; a zero source is an invalid cursor (R200). -/
def State.cursor (s : State) (g l : Nat) (o : Opnd) : BitVec 192 :=
  match o with
  | .c k => (s.thread g l).creg k.toNat
  | _ => 0

/-- The operand check of a cursor source (R198, R200, R220): an ordinary cursor or an append cursor. -/
def curCheck (append : Bool) (c : BitVec 192) (tv : Dword) : Option (Nat × Dword) :=
  let x := curOf c
  if x.isFault then some (0x102, tv)
  else if append then (if x.valid && x.append then none else some (0x107, tv))
  else if !x.valid then some (0x102, tv)
  else if x.append then some (0x107, tv)
  else none

/-- The walker operations held for a quarter of a core (R195). -/
def State.walkersBusy (s : State) (core quarter : Nat) : Nat :=
  (s.acc.filter fun p => p.2.core == core && ((s.group? p.2.g).map (·.home.quarter)).getD 0 == quarter &&
    (match p.2.op with
      | .walk _ _ => true
      | _ => false)).length

/-- Whether the walker has room for every passing thread of the issuing sub-group, and no acquire is unfinished. -/
def walkReady (e : Eff) (s : State) (g l : Nat) : Bool :=
  let n := match s.cur with
    | some i => (s.passing g i.lanes e).length
    | none => 1
  !s.acqPending g l &&
    decide (s.walkersBusy (s.coreOf g) (((s.group? g).map (·.home.quarter)).getD 0) + n ≤ 64)

/-- The tensors that an operation binds at issue (R197). -/
def WalkOp.tids (op : WalkOp) : List Nat := op.request.map fun q => q.1

/-- A walker operation of a thread made outstanding, with the records that it binds (R197): its cursor destinations are empty until it
lands. One whose record cannot be bound is a deferred fault; one that parks binds when it walks again. -/
def State.walkIssue (s : State) (g l : Nat) (e : Eff) (op : WalkOp) (n : Nat) (cc : Option (BitVec 2)) : State :=
  let (recs, stop, s1) := s.bindRecs g l op.tids
  let a := { s1.newAcc g l 0 (.walk op (bit e.var 3)) with
    recs := recs, cc := cc
    cdst := match e.d with
      | .c k => (List.range n).map fun i => k.toNat + i
      | _ => [] }
  match stop with
  | some (.fault c tv) => s1.addAcc { a with op := .walk (.bad op.request c tv) (bit e.var 3) }
  | some (.park p) => s1.addParked a p 1
  | _ => s1.addAcc a

/-- The row of a cursor instruction. -/
def specCur (var : BitVec 4) (d a b c : Slot) : Spec := { Spec.plain with var := var, d := d, a := a, b := b, c := c }

/-- `CROOT` (R201). -/
def execCroot : Fields → State → Out :=
  issueThreads (fun f =>
      let at' := bit f.var 0
      specCur (f.var &&& 9) slCur slSrc32 (if at' then slSrc32 else slNone) (if at' then slSrc32 else slNone)) walkReady
    fun e s g l =>
      let at' := e.v0
      .ok (s.walkIssue g l e (.root (s.rdA g l e % 65536) (if at' then s.rdB g l e else 0)
        (if at' then s.rdC g l e else 0)) 1 none)

/-- `NEXT` (R203). -/
def execNext : Fields → State → Out :=
  issueThreads (fun f => specCur (f.var &&& 8) slCur slCur slNone slNone) walkReady fun e s g l =>
    let c := s.cursor g l e.a
    match curCheck false c (e.tvalOf 0) with
    | some x => .trap x.1 x.2
    | none => .ok (s.walkIssue g l e (.next c) 1 none)

/-- `SEEK` (R204). -/
def execSeek : Fields → State → Out :=
  issueThreads (fun f => specCur (f.var &&& 8) slCur slCur slSrc32 slNone) walkReady fun e s g l =>
    let c := s.cursor g l e.a
    match curCheck false c (e.tvalOf 0) with
    | some x => .trap x.1 x.2
    | none => .ok (s.walkIssue g l e (.seek c (s.rdB g l e)) 1 none)

/-- `DESC` (R205). -/
def execDesc : Fields → State → Out :=
  issueThreads (fun f => specCur (f.var &&& 8) slCur slCur slNone slNone) walkReady fun e s g l =>
    let c := s.cursor g l e.a
    match curCheck false c (e.tvalOf 0) with
    | some x => .trap x.1 x.2
    | none => .ok (s.walkIssue g l e (.desc c) 1 none)

/-- `COIT` (R206 to R208). -/
def execCoit : Fields → State → Out :=
  issueThreads (fun f => { specCur (f.var &&& 0xB) ⟨.cur, 2⟩ slCur slCur slCc with outC := true }) walkReady fun e s g l =>
    let a := s.cursor g l e.a
    let b := s.cursor g l e.b
    let ka := (curOf a).kind
    let kb := (curOf b).kind
    match curCheck false a (e.tvalOf 0) <|> curCheck false b (e.tvalOf 1) with
    | some x => .trap x.1 x.2
    | none =>
      if (if e.v0 then unionKind ka && unionKind kb else (coitMethod ka kb).isSome) then
        .ok (s.walkIssue g l e (.coit e.v0 (bit e.var 1) a b) 2 (match e.c with
          | .cc k => some k
          | _ => none))
      else .trap 0x105 (e.tvalOf 0)

/-- The field of a cursor that `CRD` reads: its lowest bit and width (R209). -/
def crdField (v : Nat) : Nat × Nat := [(128, 32), (32, 40), (72, 40), (160, 32), (0, 32), (112, 16)].getD v (128, 32)

/-- The field that VAR of `CRD` selects; an undefined one is 0. VAR[3] is no part of the field: with it set a defined field stays (row 4 says
that every other VAR field keeps its value; DEDUCED, log 106). -/
def crdVar (v : BitVec 4) : BitVec 4 := if fld v 0 3 ≤ 5 then v &&& 7 else 0

/-- `CRD` (R209). -/
def execCrd : Fields → State → Out :=
  issueThreads (fun f =>
      let v := crdVar f.var
      specCur v ⟨.src, if v = 1 ∨ v = 2 then 2 else 1⟩ slCur slNone slNone) always fun e s g l =>
    let c := s.cursor g l e.a
    let x := curOf c
    if x.valid || (x.isFault && x.nf) then
      let (lo, w) := crdField e.var.toNat
      .ok (s.putD g l e (fld c lo w))
    else .trap 0x102 (e.tvalOf 0)

/-- A walker operation whose causes are precise (Table 8-4): it is tried at issue, and a cause traps. A value that can be read by then only
has to land; otherwise the operation holds its thread until it lands, unless it parks. -/
def State.issuePrecise (s : State) (g l : Nat) (a : Acc) (op : WalkOp) : Res :=
  match ({ s.viaWalker g l s.now with bound := a.recs }).run op s, op with
  | .error (.fault c tv) _, _ => .trap c tv
  | .error (.park p) t, _ => .ok (t.addParked a p 1)
  | .ok r t, .ldv _ _ _ =>
    if s.readsBound g l then .ok (t.addAcc { a with op := .walk (.got r.ws) false }) else .ok (s.addAcc { a with hold := true })
  | _, _ => .ok (s.addAcc { a with hold := true })

/-- The registers that a `CLDV` makes empty: the one that it names, first, and with it the pair's other one unless the bound record
gives a narrower element (R210). -/
def ldvMarks (recs : List Tens) (d : Nat) : List Nat :=
  if (recs.head?.map fun t => decide (fmtBits (recFmt t.r) < 64)).getD false then [d] else [d, d + 1 - 2 * (d % 2)]

/-- The tags of the second registers that `CLDV`s of an issue write, by the lanes that write each (R226). -/
def State.tagPairs (before after : State) : State :=
  match before.cur with
  | none => after
  | some i =>
    let mine := (after.acc.filter fun p => decide (before.nextId ≤ p.1) && p.2.g == i.g).map fun p => p.2
    let regs := (mine.filterMap fun a => a.dst[1]?).eraseDups
    regs.foldl (fun (t : State) r => t.retag i.g ((mine.filter fun a => a.dst[1]? == some r).map fun a => a.lane) [r]) after

/-- `CLDV` (R210). It waits while a register that it may write is empty. Of a done cursor it writes 0 to D alone, its record not being
read (DESIGN CHOICE, log 106). -/
def execCldv (f : Fields) (s0 : State) : Out :=
  match issueThreads (fun _ => { specCur 0 slSrc32 slCur slSrc32 slNone with l2 := true }) walkReady (fun e s g l =>
    let c := s.cursor g l e.a
    match curCheck false c (e.tvalOf 0) with
    | some x => .trap x.1 x.2
    | none =>
      if (curOf c).done then .ok (s.addAcc { s.newAcc g l 0 (.value [0]) with dst := e.d.vregs 1 })
      else
        let op : WalkOp := .ldv c (s.rdB g l e) e.l2
        let (recs, stop, s1) := s.bindRecs g l [(curOf c).tid]
        let dst := match e.d with
          | .v k => ldvMarks recs k.toNat
          | _ => []
        let a := { s1.newAcc g l 0 (.walk op false) with dst := dst, recs := recs }
        if dst.any fun r => (s1.thread g l).vEmpty.contains r then .stay
        else match stop with
        | some (.fault c tv) => .trap c tv
        | some (.park p) => .ok (s1.addParked a p 1)
        | some .wait => .ok (s1.addAcc { a with hold := true })
        | none => s1.issuePrecise g l a op) f s0 with
  | .next t => .next (s0.tagPairs t)
  | o => o

/-- `CTEST` (R211). -/
def execCtest : Fields → State → Out :=
  issueThreads (fun _ => specCur 0 slCc slCur slNone slNone) always fun e s g l =>
    let c := curOf (s.cursor g l e.a)
    .ok (s.modThread g l fun t =>
      t.writeCc e.d (mkFlags (!c.valid) c.done (c.done && c.aux == 0 && c.valid) c.append))

/-- Whether D and A of an append instruction name one cursor (R219, R220). -/
def sameCursor (e : Eff) : Bool := e.words.getD 0 0 == e.words.getD 1 0

/-- `APPND` (R219). -/
def execAppnd : Fields → State → Out :=
  issueThreads (fun f => { specCur (f.var &&& 8) slCur slCur slSrc32 slSrc32 with scope := some .core, rels := true }) walkReady
    fun e s g l =>
      let c := s.cursor g l e.a
      match curCheck true c (e.tvalOf 0) with
      | some x => .trap x.1 x.2
      | none =>
        if sameCursor e then
          .ok ((s.walkIssue g l e (.append c (s.rdB g l e) (s.rdC g l e)) 1 none).defer g l)
        else .trap 0x107 (e.tvalOf 0)

/-- `APPND.open` (R218). -/
def execAppndOpen : Fields → State → Out :=
  issueThreads (fun f => { specCur (f.var &&& 9) slCur slSrc32 slSrc32 slSrc32 with e := slSrc32, scope := some .core, rels := true })
    walkReady fun e s g l =>
      .ok ((s.walkIssue g l e (.openList (s.rdA g l e % 65536) (s.rdB g l e) (s.rdC g l e) (s.rdE g l e)) 1 none).defer g l)

/-- `ACOMMIT` (R220). -/
def execAcommit : Fields → State → Out :=
  issueThreads (fun f => { specCur (f.var &&& 9) slCur slCur slNone slNone with scope := some .core, rels := true }) walkReady
    fun e s g l =>
      let c := s.cursor g l e.a
      match curCheck true c (e.tvalOf 0) with
      | some x => .trap x.1 x.2
      | none =>
        if sameCursor e then .ok ((s.walkIssue g l e (.commit c e.v0) 1 none).defer g l)
        else .trap 0x107 (e.tvalOf 0)

/-- `CSPLIT` (R212). -/
def execCsplit : Fields → State → Out :=
  issueThreads (fun f => specCur (f.var &&& 8) slCur slCur slSrc32 slSrc32) walkReady fun e s g l =>
    let c := s.cursor g l e.a
    let n := s.rdB g l e
    let k := s.rdC g l e
    match curCheck false c (e.tvalOf 0) with
    | some x => .trap x.1 x.2
    | none =>
      if (curOf c).kind = 6 then .trap 0x105 (e.tvalOf 0)
      else if n = 0 ∨ n ≤ k then .trap 0x10B (BitVec.ofNat 64 n)
      else .ok (s.walkIssue g l e (.split c n k) 1 none)

/-- `HALLOC` (R217): an acquire at device scope. -/
def execHalloc : Fields → State → Out :=
  issueThreads (fun _ => specCur 0 slSrc64 slSrc32 slNone slNone) walkReady fun e s g l =>
    let op : WalkOp := .alloc (s.rdA g l e)
    match s.issuePrecise g l { s.newAcc g l 0 (.walk op false) with dst := e.d.vregs 2, acq := some .dev } op with
    | .ok t => .ok (t.defer g l)
    | r => r

/-- `HFREE` (R217): a release at device scope, complete before the thread's next instruction. -/
def execHfree : Fields → State → Out :=
  issueThreads (fun _ => { specCur 0 slNone slSrc64 slSrc32 slNone with rels := true })
    (fun e s g l => walkReady e s g l && s.releaseReady g l .dev) fun e s g l =>
      let lanes := match s.cur with
        | some i => s.passing g i.lanes e
        | none => []
      let op : WalkOp := .free (BitVec.ofNat 64 (s.rdA g l e)) (s.rdB g l e) lanes
      match s.issuePrecise g l { s.newAcc g l 0 (.walk op false) with hold := true } op with
      | .ok t => .ok (t.defer g l)
      | r => r

/-- The values of a cursor's entry read, every element of a block. -/
def Via.touchValues (v : Via) (c : Cur) (l2 : Nat) : Nat → Wk Unit
  | 0 => pure ()
  | k + 1 => do
    v.touchValues c l2 k
    let _ ← v.value c k l2

/-- The elements of a cursor's entry: those of its block in a block level. -/
def Via.entrySize (v : Via) (c : Cur) : Wk Nat := do
  if c.kind ≠ 5 then pure 1
  else
    let r ← v.bind c.tid
    let x ← v.level c.tid r c.level
    pure (x.m0 * x.m1)

/-- The entries that `CPREF` reads: those after a cursor's, with their values under an L2 hint where asked; a stop ends it
silently. -/
def Via.prefetch (v : Via) (val : Option Nat) : Nat → Cur → Bool → Wk Unit
  | 0, _, _ => pure ()
  | k + 1, c, read =>
    if c.done then pure ()
    else do
      let c1 ← v.step c read
      match val with
      | some l2 =>
        if !c1.done then
          let n ← v.entrySize c1
          v.touchValues c1 l2 n
      | none => pure ()
      v.prefetch val k c1 true

/-- `CPREF` (R213): it fills caches and translations and does nothing else. -/
def execCpref : Fields → State → Out :=
  issueThreads (fun f => { specCur (f.var &&& 1) slNone slCur slSrc32 slNone with l2 := true }) always fun e s g l =>
    let c := curOf (s.cursor g l e.a)
    if c.valid && !c.append then
      let (recs, _, s0) := s.bindRecs g l [c.tid]
      let v := { s0.viaWalker g l s0.now with bound := recs }
      .ok (match v.prefetch (if e.v0 then some e.l2 else none) (min (s.rdB g l e) 4096) c false s0 with
        | .ok _ t => t
        | .error _ t => t)
    else .ok s

end Sys2Proof.Machine
end

