-- ==== Sys2Proof/Machine/Translate.lean ====
section
/-! DEFINITION. Answers of the pager, invalidations, and the context CSRs (R112 to R115, R129, R428, Tables 4-6, 16-6,
18-5). -/

namespace Sys2Proof.Machine

open Sys2Proof

/-! ## Invalidations -/

/-- Whether two runs of addresses overlap. -/
def runsMeet (a n b m : Nat) : Bool := decide (a < b + m) && decide (b < a + n)

/-- The addresses that a PGINV write names: the first and how many; none for all of them. -/
def pginvRange (v : Dword) : Option (Nat × Nat) :=
  if bit v 62 then none
  else
    let va := fld v 12 44 * 4096
    let sz := fld v 56 3
    if sz = 7 then some (va, 1) else some (va / 2 ^ pageLog sz * 2 ^ pageLog sz, 2 ^ pageLog sz)

/-- Translations and walk-cache entries of a context dropped in a range, or all of them (R112). -/
def State.dropTranslations (s : State) (slot : Nat) (r : Option (Nat × Nat)) : State :=
  let hit := fun a n : Nat => match r with
    | none => true
    | some (b, m) => runsMeet a n b m
  let keep := fun t : Tlb => t.slot != slot || !hit t.base (2 ^ pageLog t.size)
  { s with
    cores := s.cores.map fun p : Nat × Core => (p.1, { p.2 with tlb := p.2.tlb.filter keep })
    dies := s.dies.map fun p : Nat × Die => (p.1, { p.2 with tlb := p.2.tlb.filter keep })
    walkCache := s.walkCache.filter fun w =>
      w.slot != slot || !hit (w.path * 2 ^ (12 + 9 * w.level)) (2 ^ (12 + 9 * w.level)) }

/-- The generic address through which an access was translated: its own, or that of the byte of the constant section that it
reads. -/
def State.generic (s : State) (a : Acc) : Option Dword :=
  match fld a.va 60 4, a.tgt with
  | 0, some (.mem _) => some a.va
  | 4, some (.mem _) =>
    let kn := s.kernel a.g
    some (kn.code + BitVec.ofNat 64 (kn.clen + (fld a.va 0 32 - 0x1000)))
  | _, _ => none

/-- Whether an invalidation drops the translation of an address: the address lies in its range, or in a page that a TLB holds and
that meets it (R112). -/
def State.usesDropped (s : State) (slot : Nat) (r : Option (Nat × Nat)) (va : Dword) : Bool :=
  match r with
  | none => true
  | some (b, m) =>
    let page := fun t : Tlb => t.slot == slot && runsMeet t.base (2 ^ pageLog t.size) b m &&
      decide (t.base ≤ va.toNat) && decide (va.toNat < t.base + 2 ^ pageLog t.size)
    runsMeet va.toNat 1 b m || s.cores.any (fun p => p.2.tlb.any page) || s.dies.any fun p => p.2.tlb.any page

/-- The outstanding accesses of a context that used a translation which an invalidation drops (R112). -/
def State.translated (s : State) (slot : Nat) (r : Option (Nat × Nat)) : List Nat :=
  (s.acc.filterMap fun p =>
    if p.2.slot == slot && ((s.generic p.2).map fun va => s.usesDropped slot r va).getD false then some p.1 else none) ++
    s.sb.filterMap fun p =>
      if p.2.slot == slot && p.2.loc.isSome && fld p.2.va 60 4 == 0 && s.usesDropped slot r p.2.va then some p.1 else none

/-- A bound place without the translation that gave it, where an invalidation drops that: only node memory is translated. -/
def State.unboundBy (s : State) (slot : Nat) (r : Option (Nat × Nat)) (va : Dword) (t : Target) : Bool :=
  match t with
  | .mem (.node _) => fld va 60 4 == 0 && s.usesDropped slot r va
  | _ => false

/-- A spawn record whose join word is to be translated anew (R112). -/
def SpawnRec.unbind (s : State) (slot : Nat) (r : Option (Nat × Nat)) (x : SpawnRec) : SpawnRec :=
  { x with join := x.join.filter fun j => !(x.slot == slot && s.unboundBy slot r x.joinAddr j.1) }

/-- A wait whose word is to be translated anew (R112). -/
def Wait.unbind (s : State) (slot : Nat) (r : Option (Nat × Nat)) (w : Wait) : Wait :=
  match w with
  | .join va t sc => .join va (t.filter fun j => !s.unboundBy slot r va j) sc
  | .signal va t v sc => .signal va (t.filter fun j => !s.unboundBy slot r va j) v sc
  | w => w

/-- The words that waits and spawn records of a context name, without the translations that an invalidation drops: the next use of each
translates it anew. Of a record in a ring only the place is kept here, so that every one of them is. -/
def State.unbind (s : State) (slot : Nat) (r : Option (Nat × Nat)) : State :=
  let thread := fun t : Thread => { t with wait := t.wait.unbind s slot r, spawn := t.spawn.map (SpawnRec.unbind s slot r) }
  let ring := fun x : RingInfo => { x with join := x.join.filter fun j => match j.1 with
    | .mem (.node _) => false
    | _ => true }
  { s with
    groups := s.groups.map fun p : Nat × Group =>
      (p.1, if p.2.slot = slot then { p.2 with lanes := p.2.lanes.map thread } else p.2)
    cores := s.cores.map fun p : Nat × Core =>
      (p.1, { p.2 with skein := p.2.skein.map fun q => (q.1, SpawnRec.unbind s slot r q.2) })
    acc := s.acc.map fun p : Nat × Acc => (p.1, match p.2.op with
      | .spawn x b => { p.2 with op := .spawn (SpawnRec.unbind s slot r x) b }
      | _ => p.2)
    ctxs := alMod s.ctxs slot fun c => { c with ringInfo := c.ringInfo.map fun q : Nat × RingInfo => (q.1, ring q.2) } }

/-- A PGINV write (R112): one made while BUSY is set waits. -/
def State.pginv (s : State) (slot : Nat) (v : Dword) : State :=
  if (s.ctx slot).pginvBusy then s.modCtx slot fun c => { c with pginvNext := c.pginvNext ++ [v] }
  else
    ((s.unbind slot (pginvRange v)).dropTranslations slot (pginvRange v)).modCtx slot fun c =>
      { c with pginvBusy := true, pginvWait := s.translated slot (pginvRange v) }

/-- `PGINV_WRITE` (R112). -/
def execPginvWrite (slot : Nat) (v : Dword) (s : State) : Out := .next (s.pginv slot v)

/-- Whether an invalidation may complete: what used a dropped translation has been performed or parked. -/
def State.pginvDone (s : State) (slot : Nat) : Bool :=
  (s.ctx slot).pginvBusy && (s.ctx slot).pginvWait.all fun i =>
    ((alGet? s.acc i).map fun a => a.park.isSome).getD true && ((alGet? s.sb i).map fun x => x.park.isSome).getD true

/-- `PGINV_COMPLETE` (R112). -/
def execPginvComplete (slot : Nat) (s : State) : Out :=
  .next (if !s.pginvDone slot then s
    else
      let s1 := s.modCtx slot fun c => { c with pginvBusy := false, pginvWait := [] }
      match (s.ctx slot).pginvNext with
      | [] => s1
      | v :: vs => (s1.modCtx slot fun c => { c with pginvNext := vs }).pginv slot v)

/-- An RDCINV write (R129, Table 5-3); one made while BUSY is set waits. -/
def State.rdcinv (s : State) (die : Nat) (v : Dword) : State :=
  if !bit v 0 then s
  else match (s.die die).rdcinv with
    | some _ => s.modDie die fun d => { d with rdcinvNext := d.rdcinvNext ++ [bit v 1] }
    | none => s.modDie die fun d =>
      { d with rdc := if bit v 1 then d.rdc.filter fun x => !x.loc.untracked else [],
               rdcinv := some (s.cycle + (if bit v 1 then 6 else 16384), bit v 1) }

/-- `RDCINV_WRITE` (R129). -/
def execRdcinvWrite (die : Nat) (v : Dword) (s : State) : Out := .next (s.rdcinv die v)

/-- `RDCINV_COMPLETE` (R129). -/
def execRdcinvComplete (die : Nat) (s : State) : Out :=
  .next (match (s.die die).rdcinv with
    | some (t, _) =>
      if s.cycle < t then s
      else
        let s1 := s.modDie die fun d => { d with rdcinv := none }
        match (s.die die).rdcinvNext with
        | [] => s1
        | u :: us => (s1.modDie die fun d => { d with rdcinvNext := us }).rdcinv die (BitVec.ofNat 64 (1 + 2 * b2n u))
    | none => s)

/-! ## Answers (R113 to R115) -/

/-- `FAULT_RECORD_DEFERRED` (R113): the oldest fault without a record is written where the queue has room. -/
def execFaultRecordDeferred (slot : Nat) (s : State) : Out := .next (s.writeFaultRecord slot)

/-- Whether a parked item waits on a fault record. -/
def Park.on (p : Park) (slot : Nat) (f : FaultRec) : Bool := p.slot == slot && f.same p.va p.kind

/-- Whether an optional park waits on a fault record. -/
def parkedOn (p : Option Park) (slot : Nat) (f : FaultRec) : Bool := (p.map fun x => x.on slot f).getD false

/-- A retry (R114): everything parked on the record walks again; lines that commands could not claim are claimed before it (R124,
R140). -/
def State.retry (s : State) (slot : Nat) (f : FaultRec) : State :=
  let free := fun p : Option Park => if parkedOn p slot f then none else p
  let s1 := s.dropTranslations slot (some (f.va.toNat / 2 ^ f.page * 2 ^ f.page, 2 ^ f.page))
  { s1 with
    acc := (s1.acc.filter fun p => !(parkedOn p.2.park slot f && p.2.op.isIssue)).map fun p =>
      (p.1, { p.2 with park := free p.2.park })
    sb := s1.sb.map fun p => (p.1, { p.2 with park := free p.2.park })
    cmds := s1.cmds.map fun p => (p.1, { p.2 with park := free p.2.park })
    cores := s1.cores.map fun p : Nat × Core =>
      (p.1, { p.2 with mq := p.2.mq.map fun m => { m with park := m.park.filter fun q => !q.on slot f } })
    queues := s1.queues.map fun p : Nat × LQueue => (p.1, { p.2 with parked := free p.2.parked })
    launches := s1.launches.map fun p : Nat × Launch => (p.1, { p.2 with park := free p.2.park })
    ctxs := s1.ctxs.map fun p : Nat × Ctx =>
      (p.1, { p.2 with ringPark := free p.2.ringPark, formPark := p.2.formPark.filter fun q => !q.2.on slot f })
    peerParked := s1.peerParked.map fun p => if p.2.on slot f then (p.1, { p.2 with lvl := 8 }) else p }

/-- A raw ply image that ends in a fatal cause (R299, R301): nothing of it is loaded, and the cause is raised in every passing thread,
precisely at the `PLDW` unless a piece of it has parked. The image is one access, whose address a precise cause of a piece names. -/
def State.failImage (s : State) (id : Nat) (a : Acc) (img cause : Nat) (va : Dword) : State :=
  match (s.group? a.g).bind fun x => alGet? x.pimgs img with
  | none => { s with acc := alDel s.acc id }
  | some m =>
    let mine := fun p : Nat × Acc => p.2.g == a.g && (match p.2.op with
      | .image i _ _ => i == img
      | _ => false)
    let parked := s.acc.any fun p => mine p && p.2.parked
    let s1 := { s with acc := s.acc.filter fun p => !mine p }.modGroup a.g fun x => { x with pimgs := alDel x.pimgs img }
    m.lanes.foldl (fun (t : State) l =>
      let t1 := t.modThread a.g l fun u => { u with wait := .none }
      if (t1.thread a.g l).exited ∨ (t1.group? a.g).isNone then t1
      else if parked then
        (t1.modThread a.g l fun u => u.advance (u.pc + 16) t.cycle 0).lateFault id a.g l cause va []
      else t1.trap a.g l cause (if va = a.va then m.va else va)) s1

/-- An access of a thread that ends in a fatal cause at an address: a raw image in every passing thread, a refill with its `RET` undone
and 0x148 (R360), an issue that its own read held as a late trap (R474), a wait on a word with the wait over, and otherwise as its
instruction's. A prefetch drops it (R175). -/
def State.endAcc (s : State) (id : Nat) (a : Acc) (cause : Nat) (va : Dword) : State :=
  match a.op with
  | .image img _ _ => s.failImage id a img cause va
  | .refill (pc, d, rs, out) =>
    ({ s with acc := alDel s.acc id }.modThread a.g a.lane fun t =>
      { t with pc := pc, depth := d, rs := rs, noRegion := out }).trap a.g a.lane 0x148 a.va
  | .value [] => s.lateFault id a.g a.lane cause va []
  | .pref _ _ => { s with acc := alDel s.acc id }
  | .poll => (s.modThread a.g a.lane fun t => { t with wait := .none }).failed id a cause va
  | _ => s.failed id a cause va

/-- A thread access whose parked work the pager failed (R114, R198, R474), with the address that faulted: a walker read's cause is deferred
into its cursors. -/
def State.failAcc (s : State) (id : Nat) (a : Acc) : State :=
  let va := (a.park.map fun p => p.va).getD a.va
  match a.op with
  | .walk op nf =>
    if op.deferred then
      let forms := op.request.map fun q => (faultForm q.1 q.2.1 (q.2.2.getD (s.boundKind a q.1 q.2.1)) nf 0x093 va).bits
      s.landWith id a [] forms none
    else s.failed id a 0x093 va
  | _ => s.endAcc id a 0x093 va

/-- Every thread of an operation's groups defers pre-emption until its next `RGN` (R323). -/
def State.deferQuad (s : State) (m : MOp) : State :=
  m.groups.foldl (fun (t : State) g => t.modGroup g fun x =>
    { x with lanes := x.lanes.map fun u => if u.exited then u else { u with deferral := true } }) s

/-- A matrix operation that ends in a fatal access (R325): its eight tiles are marked failed and its locks released. -/
def State.failMOp (s : State) (core : Nat) (m : MOp) (cause : Nat) (va : Dword) : State :=
  let s1 := m.groups.foldl (fun (t : State) g => t.modGroup g fun x =>
    { x with
      locks := x.locks.filter fun k => k.2 != m.id
      tileOut := x.tileOut.filter fun k => k.2 != m.id
      tiles := match m.c with
        | none => x.tiles
        | some c => x.tiles.map fun p =>
          if p.1 = c ∨ p.1 = c + 1 then (p.1, { p.2 with failed := some (cause, va) }) else p }) s
  (s1.deferQuad m).modCore core fun x => { x with mq := x.mq.filter fun n => n.id != m.id }

/-- A command whose parked access the pager failed (R114, R137): its work ends with STATE 3, or its record is given up where that was
what parked. -/
def Cmd.failed (c : Cmd) : Cmd :=
  if c.closing then { c with park := none, norec := true, result := some (3, 0x093) }
  else { c with park := none, plan := some [], rows := [], result := some (3, 0x093) }

/-- A fail (R114). -/
def State.failFault (s : State) (slot : Nat) (f : FaultRec) : State :=
  let s1 := s.acc.foldl (fun (t : State) p =>
    if parkedOn p.2.park slot f && (alGet? t.acc p.1).isSome then t.failAcc p.1 p.2 else t) s
  let s2 := s1.sb.foldl (fun (t : State) p => if parkedOn p.2.park slot f then t.failedStore p.1 p.2 0x093 else t) s1
  let s3 := s2.cores.foldl (fun (t : State) p => p.2.mq.foldl (fun (u : State) m =>
    match m.park.find? fun q => q.on slot f with
    | some q => u.failMOp p.1 m 0x093 q.va
    | none => u) t) s2
  let ring := parkedOn (s3.ctx slot).ringPark slot f || (s3.ctx slot).formPark.any fun q => q.2.on slot f
  let s4 := { s3 with
    cmds := s3.cmds.map fun p => if parkedOn p.2.park slot f then (p.1, p.2.failed) else p
    queues := s3.queues.map fun p : Nat × LQueue =>
      if parkedOn p.2.parked slot f then (p.1, { p.2 with parked := none, failed := p.2.parked.map fun q => q.va }) else p
    launches := s3.launches.map fun p : Nat × Launch =>
      if parkedOn p.2.park slot f then (p.1, { p.2 with park := none, failed := true }) else p
    peerOut := s3.peerOut ++ (s3.peerParked.filter fun p => p.2.on slot f).map fun p => (p.1.tag, .refused)
    peerParked := s3.peerParked.filter fun p => !p.2.on slot f }
  if ring then (s4.modCtx slot fun c => { c with ringPark := none, formPark := [] }).kill slot 0x164 0x093 none else s4

/-- A FQRESP write (R114): the record it names is answered; any other write changes nothing. -/
def State.fqresp (s : State) (slot : Nat) (v : Dword) : State :=
  match (s.ctx slot).faults.find? fun f => f.seq == some (BitVec.ofNat 32 (fld v 0 32)) with
  | none => s
  | some f =>
    let s1 := s.modCtx slot fun c => { c with faults := c.faults.filter fun x => x != f }
    match fld v 32 2 with
    | 1 => s1.retry slot f
    | 2 => s1.failFault slot f
    | _ => s

/-- `FQRESP_WRITE` (R114). -/
def execFqrespWrite (slot : Nat) (v : Dword) (s : State) : Out := .next (s.fqresp slot v)

/-! ## Context CSRs (R428, Table 18-5) -/

/-- The greatest 2^k − 1 that is at most a value, between 63 and 65,535 (Table 4-6). -/
def fqmaskOf (v : Nat) : Nat :=
  ([65535, 32767, 16383, 8191, 4095, 2047, 1023, 511, 255, 127].find? fun m => decide (m ≤ v % 65536)).getD 63

/-- The value of a context CSR; none where the number is not listed. -/
def Ctx.csr (c : Ctx) (n : Nat) : Option Dword :=
  match n with
  | 0x100 => some c.tbase | 0x101 => some c.tcount | 0x102 => some c.ptbase | 0x103 => some c.fqbase
  | 0x104 => some (c.fqmask.setWidth 64) | 0x105 => some (c.fqprod.setWidth 64) | 0x106 => some (c.fqcons.setWidth 64)
  | 0x107 => some 0 | 0x108 => some (BitVec.ofNat 64 (b2n c.pginvBusy * 2 ^ 63)) | 0x109 => some c.heapbase
  | 0x10A => some c.rstkbase | 0x10B => some c.dombase | 0x10C => some c.rsbase | 0x10D => some (c.skcfg.setWidth 64)
  | 0x10E => some c.srbase | 0x10F => some (BitVec.ofNat 64 c.srlog2) | 0x110 => some c.tvbase | 0x111 => some c.tcfg
  | 0x112 => some c.kslot | 0x113 => some c.savebase | 0x114 => some c.pimbase | 0x115 => some c.pimmax
  | 0x116 => some c.rsvbase | 0x117 => some c.rsvcnt | 0x118 => some (c.id.setWidth 64) | 0x119 => some c.wdog
  | _ => none

/-- A context CSR written (R8, R428): read-only fields stay, reserved fields ignore what is written. A TBASE that is not 64-byte
aligned and a TCOUNT above 65,536 are kept as they are written (R84 gives neither an effect of its own; log 81). -/
def State.writeCsr (s : State) (slot n : Nat) (v : Dword) : State :=
  let m := s.modCtx slot
  match n with
  | 0x100 => m fun c => { c with tbase := v }
  | 0x101 => m fun c => { c with tcount := v }
  | 0x102 => m fun c => { c with ptbase := setFld v 0 12 0 }
  | 0x103 => m fun c => { c with fqbase := setFld v 0 12 0 }
  | 0x104 => m fun c => { c with fqmask := BitVec.ofNat 16 (fqmaskOf v.toNat) }
  | 0x106 => m fun c => { c with fqcons := v.setWidth 32 }
  | 0x107 => s.fqresp slot v
  | 0x108 => s.pginv slot v
  | 0x109 => m fun c => { c with heapbase := v }
  | 0x10A => m fun c => { c with rstkbase := v }
  | 0x10B => m fun c => { c with dombase := v }
  | 0x10C => m fun c => { c with rsbase := v }
  | 0x10D => m fun c => { c with skcfg := BitVec.ofNat 16 (max 1 (fld v 0 16)) }
  | 0x10E => m fun c => { c with srbase := v }
  | 0x10F => m fun c => { c with srlog2 := min 24 (max 10 (fld v 0 5)) }
  | 0x110 => m fun c => { c with tvbase := v }
  | 0x111 => m fun c => { c with tcfg := BitVec.ofNat 64 (fld v 0 2) }
  | 0x112 => m fun c => { c with kslot := v }
  | 0x113 => m fun c => { c with savebase := v }
  | 0x114 => m fun c => { c with pimbase := v }
  | 0x115 => m fun c => { c with pimmax := v }
  | 0x116 => m fun c => { c with rsvbase := v }
  | 0x117 => m fun c => { c with rsvcnt := v }
  | 0x119 => m fun c => { c with wdog := if v = 0 then 1 else v }
  | _ => s

/-- The least trap level that may read a CSR; none where the number is not listed. -/
def csrReadLevel (n : Nat) : Option Nat :=
  if n < 4 then some 1 else if n < 8 then some 2
  else if n = 0x116 ∨ n = 0x117 then some 1
  else if 0x100 ≤ n ∧ n ≤ 0x119 then some 0 else none

/-- The least trap level that may write a CSR; none where it takes no writes. -/
def csrWriteLevel (n : Nat) : Option Nat :=
  if n = 0x106 ∨ n = 0x107 ∨ n = 0x108 then some 0
  else if 0x100 ≤ n ∧ n ≤ 0x119 ∧ n ≠ 0x118 then some 1 else none

/-- A word of a trap bank by its CSR's place: TCAUSE, TEPC, TVAL, TSTAT. -/
def Bank.csr (b : Bank) (i : Nat) : Dword :=
  match i with
  | 0 => b.cause.setWidth 64
  | 1 => b.epc
  | 2 => b.tval
  | _ => b.stat.setWidth 64

/-- The value that `CSRR` reads. -/
def State.readCsr (s : State) (g l n : Nat) : Dword :=
  let t := s.thread g l
  if n < 4 then (t.bank t.level.toNat).csr n
  else if n < 8 then t.bank1.csr (n - 4)
  else ((s.ctx (s.slotOf g)).csr n).getD 0

/-- `CSRR` (R428). -/
def execCsrr : Fields → State → Out :=
  issueThreads (fun _ => { Spec.plain with d := slPair, imm := true, hOk := true }) always fun e s g l =>
    let n := e.imm.toNat
    let tv := BitVec.ofNat 64 n
    match csrReadLevel n with
    | none => .trap 0x011 tv
    | some lv =>
      if (s.thread g l).level.toNat < lv then .trap 0x010 tv
      else .ok (s.modThread g l fun t => t.write e.d 2 (s.readCsr g l n).toNat)

/-- `CSRW` (R428): a release at device scope before the write, lanes in lane order. -/
def execCsrw : Fields → State → Out :=
  issueThreads (fun _ => { Spec.plain with a := slPair, imm := true, hOk := true, rels := true })
    (fun _ s g l => s.releaseReady g l .dev) fun e s g l =>
      let n := e.imm.toNat
      let tv := BitVec.ofNat 64 n
      match csrReadLevel n, csrWriteLevel n with
      | none, _ => .trap 0x011 tv
      | some _, none => .trap 0x011 tv
      | some _, some lv =>
        if (s.thread g l).level.toNat < lv then .trap 0x010 tv
        else .ok (s.writeCsr (s.slotOf g) n (BitVec.ofNat 64 (s.rdA g l e)))

end Sys2Proof.Machine
end

