-- ==== Sys2Proof/Machine/Bar0.lean ====
section
/-! DEFINITION. The registers of BAR0 that the control path opens (R332, Table 14-8): health, boot, the device certificate,
RDCINV and the context's own page. -/

namespace Sys2Proof.Machine

open Sys2Proof

/-- CTXCTL as it reads (R436). -/
def Ctx.ctl (c : Ctx) : Nat := c.state * 2 ^ 8 + c.kcause * 2 ^ 16 + c.id.toNat * 2 ^ 32

/-- Whether an access or doorbell of the host is taken now: it is the first of those that wait, or none waits (R328, R330). -/
def State.hostTurnNow (s : State) : Bool := s.hostTurn || s.hostHeld == []

/-- An access or doorbell of the host that waits: behind those that wait already, or where it stood. -/
def State.hostHold (s : State) (i : Instr) : State :=
  if s.hostTurn then { s with hostTurn := false } else { s with hostHeld := s.hostHeld ++ [i] }

/-- The state once it has been taken. -/
def State.hostTaken (s : State) : State := if s.hostTurn then { s with hostTurn := false, hostHeld := s.hostHeld.drop 1 } else s

/-- The boot record's entries as numbers. -/
def Boot.entries (b : Boot) : List Nat :=
  (List.range 7).flatMap fun i => let x := alGet b.record (⟨0, false, 0, []⟩ : BootStep) (i + 1); [x.a, b2n x.p, x.mark] ++ x.banks

/-- A health register (R453): the fields of a sensor reading. -/
def hlth (d n : Nat) : Nat :=
  let x := Config.sensor d n
  fld x 0 10 + fld x 16 10 * 2 ^ 16 + fld x 32 16 * 2 ^ 32

/-- A 64-bit word of BAR0 as a thread of a context slot reads it: none where the offset is closed to it. A field that reads
and clears does so for the halves in `mask` (R8). -/
def State.ctlWord (s : State) (slot off mask : Nat) : Option (Nat × State) :=
  let page := 0x800000 + 4096 * slot
  if 0x5000 ≤ off ∧ off < 0x5800 then some (ofBytes ((List.range 8).map fun i => Config.certificate (off - 0x5000 + i)), s)
  else if off = 0x5800 then some (s.boot.stat.toNat, s)
  else if 0x6000 ≤ off ∧ off < 0x7000 then
    some (ofBytes ((List.range 8).map fun i => Config.bootByte s.boot.entries (off - 0x6000 + i)), s)
  else if 0x7000 ≤ off ∧ off < 0x7080 then
    some (if off % 16 = 0 then hlth ((off - 0x7000) / 16) s.freeTick else 0, { s with freeTick := s.freeTick + 1 })
  else if off = 0x7100 then
    some (s.threv.toNat, if mask % 2 = 1 then { s with threv := setFld s.threv 0 32 0 } else s)
  else if off = 0x7108 then some (s.thcfg.toNat, s)
  else if 0x7200 ≤ off ∧ off < 0x7240 then
    let d := (off - 0x7200) / 8
    some ((s.die d).corrected + (s.die d).uncorrected * 2 ^ 32, s.modDie d fun x =>
      { x with corrected := if mask % 2 = 1 then 0 else x.corrected,
               uncorrected := if mask / 2 % 2 = 1 then 0 else x.uncorrected })
  else if 0x7300 ≤ off ∧ off < 0x7340 then some ((s.die ((off - 0x7300) / 8)).bondcap, s)
  else if off = 0x7340 then some (s.boot.rate, s)
  else if 0x8000 ≤ off ∧ off < 0x8040 then some (b2n (s.die ((off - 0x8000) / 8)).rdcinv.isSome * 2 ^ 63, s)
  else if off = page then some ((s.ctx slot).ctl, s)
  else if page + 0x100 ≤ off ∧ off < page + 0x1D0 then
    ((s.ctx slot).csr (0x100 + (off - page - 0x100) / 8)).map fun v => (v.toNat, s)
  else none

/-- A read of 4 or 8 bytes on the control path; none raises 0x089. -/
def State.ctlRead (s : State) (slot off n : Nat) : Option (Nat × State) :=
  if n = 8 then s.ctlWord slot off 3
  else (s.ctlWord slot (off / 8 * 8) (if off % 8 = 0 then 1 else 2)).map fun p => (fldN p.1 (32 * (off / 4 % 2)) 32, p.2)

/-- A 32-bit half written into a 64-bit register that reads as `old`. -/
def halfInto (old off v n : Nat) : Dword :=
  if n = 8 then BitVec.ofNat 64 v else setFld (BitVec.ofNat 64 old) (32 * (off / 4 % 2)) 32 v

/-- A write of 4 or 8 bytes on the control path; none raises 0x089. -/
def State.ctlWrite (s : State) (slot off n v : Nat) : Option State :=
  let o := off / 8 * 8
  let page := 0x800000 + 4096 * slot
  if 0x8000 ≤ o ∧ o < 0x8040 then some (s.rdcinv ((o - 0x8000) / 8) (halfInto 0 off v n))
  else if page + 0x100 ≤ o ∧ o < page + 0x1D0 then
    let k := 0x100 + (o - page - 0x100) / 8
    match csrWriteLevel k with
    | none => none
    | some _ => some (s.writeCsr slot k (halfInto (((s.ctx slot).csr k).getD 0).toNat off v n))
  else none

end Sys2Proof.Machine
end

