-- ==== Sys2Proof/Machine/Ply.lean ====
section
/-! DEFINITION. The ply instructions, opcodes 0x48 to 0x52 (Table 12-1), over SIMT ply registers, tiles and images. -/

namespace Sys2Proof.Machine

open Sys2Proof

/-! ## Holders (R286, R304) -/

/-- `ply_shift` of an element to another anchor, the same anchor leaving it. -/
def PElem.moved (e : PElem) (from' to' : BitVec 10) : PElem :=
  if from' = to' then e else plyShift e (ancInt from') (ancInt to')

/-- The shadow of a ply register as its next write leaves it: the lanes that it does not hold yet are copied from the register, at the
anchor of those that it holds. -/
def Group.shadowOf (x : Group) (n : Nat) : PReg :=
  let p := alGet x.p PReg.zero n
  let old := (alGet? x.shadowP n).getD ⟨p.anc, []⟩
  let new := (List.range x.lanes.length).filter fun l => (alGet? old.el l).isNone
  { old with el := old.el ++ new.map fun l => (l, (p.get l).moved p.anc old.anc) }

/-- A ply register at its threads' region entries. -/
def Group.unshadowed (x : Group) (n : Nat) (p : PReg) : PReg :=
  match alGet? x.shadowP n with
  | none => p
  | some o => { o with el := o.el ++ (p.el.filter fun q => (alGet? o.el q.1).isNone).map fun q => (q.1, q.2.moved p.anc o.anc) }

/-- A group one of whose threads begins a region: nothing that this thread has written is shadowed any more (R304, R433). -/
def Group.rearm (x : Group) (l : Nat) : Group :=
  let stays := fun k : Nat => k != l && !((x.lanes[k]?).map fun t => t.exited).getD true
  { x with
    shadowP := (x.shadowP.map fun q => (q.1, { q.2 with el := q.2.el.filter fun e => stays e.1 })).filter fun q => q.2.el != []
    shadowT := (x.shadowT.map fun q => (q.1, q.2.1, q.2.2.filter stays)).filter fun q => q.2.2 != [] }

/-- A group with a ply register changed; its state at region entry is kept in a shadow first. -/
def State.modPreg (s : State) (g n : Nat) (f : PReg → PReg) : State :=
  s.modGroup g fun x =>
    { x with shadowP := alSet x.shadowP n (x.shadowOf n), p := alSet x.p n (f (alGet x.p PReg.zero n)) }

/-- A ply register changed by an instruction from before a region of the thread of the lane: what the shadow holds of the lane changes
with it. -/
def State.modEarlier (s : State) (g n l : Nat) (f : PElem → BitVec 10 → PElem) : State :=
  s.modGroup g fun x =>
    let p := alGet x.p PReg.zero n
    { x with
      p := alSet x.p n { p with el := alSet p.el l (f (p.get l) p.anc) }
      shadowP := alMod x.shadowP n fun o =>
        if (alGet? o.el l).isSome then { o with el := alSet o.el l (f (o.get l) o.anc) } else o }

/-- A tile of a group. -/
def State.tile (s : State) (g n : Nat) : Tile := ((s.group? g).map fun x => alGet x.tiles Tile.zero n).getD Tile.zero

/-- A group with a mapped tile changed; its state at region entry is kept in a shadow first. -/
def State.modTile (s : State) (g n : Nat) (f : Tile → Tile) : State :=
  s.modGroup g fun x =>
    match alGet? x.tiles n with
    | none => x
    | some t =>
      { x with
        shadowT := if (alGet? x.shadowT n).isSome then x.shadowT else alSet x.shadowT n (t, List.range x.lanes.length)
        tiles := alSet x.tiles n (f t) }

/-- Elements re-expressed at a new anchor (R289); at the same anchor nothing changes. -/
def reanchor (m : AL PElem) (from' to' : BitVec 10) : AL PElem :=
  if from' = to' then m else m.map fun q => (q.1, plyShift q.2 (ancInt from') (ancInt to'))

/-- A ply register at a new anchor (R292, R296). -/
def PReg.anchored (p : PReg) (a : BitVec 10) : PReg := { p with anc := a, el := reanchor p.el p.anc a }

/-- A ply register with one lane's element changed. -/
def PReg.modLane (p : PReg) (l : Nat) (f : PElem → PElem) : PReg := { p with el := alSet p.el l (f (p.get l)) }

/-- The element of a lane of a ply operand and its anchor; another operand reads zero at anchor 0 (R291). -/
def State.plyElem (s : State) (g l : Nat) (o : Opnd) : PElem × BitVec 10 :=
  match o with
  | .p k => ((s.preg g k.toNat).get l, (s.preg g k.toNat).anc)
  | _ => (.zero, 0)

/-- A tile operand; another operand reads zero at anchor 0 (R291). -/
def State.tileOpnd (s : State) (g : Nat) (o : Opnd) : Tile :=
  match o with
  | .a k => s.tile g k.toNat
  | _ => .zero

/-- The merge of an element into another of the same anchor (R295). -/
def PElem.merge (d a : PElem) : PElem := (d.withSum (d.sum + a.sum)).flag a.fl

/-- Whether a field names a tile. -/
def isTile (o : Opnd) : Bool :=
  match o with
  | .a _ => true
  | _ => false

/-- What a ply source may name beside a D of either file: the file of D (R291). -/
def plyPartner (d : Opnd) : Slot :=
  match d with
  | .a _ => ⟨.tile, 1⟩
  | .p _ => ⟨.ply, 1⟩
  | _ => ⟨.plyTile, 1⟩

/-- A field that names a ply register or a tile. -/
def slPly2 : Slot := ⟨.plyTile, 1⟩
/-- A field that names a ply register. -/
def slPly : Slot := ⟨.ply, 1⟩

/-! ## Anchors, moves and merges -/

/-- The anchor an operand gives, where it is in range (R292). -/
def anchorOf (x : Nat) : Option (BitVec 10) :=
  let i := toSigned 32 (x % 2 ^ 32)
  if -512 ≤ i ∧ i ≤ 511 then some (BitVec.ofInt 10 i) else none

/-- The row of `PZERO` and `PANC`. -/
def specAnchor (clears : Bool) (_ : Fields) : Spec :=
  { Spec.plain with d := slPly2, a := slSrc32, tileOk := clears }

/-- `PZERO` (R293). -/
def execPzero : Fields → State → Out :=
  issueOnce (specAnchor true) alwaysOnce fun e s g l act =>
    match anchorOf (s.rdA g l e) with
    | none => .trap 0x046 (BitVec.ofNat 64 (s.rdA g l e % 2 ^ 32))
    | some a => match e.d with
      | .p k => .ok (s.modPreg g k.toNat fun p => act.foldl (fun q i => q.modLane i fun _ => .zero) (p.anchored a))
      | .a k => .ok (s.modTile g k.toNat fun _ => ⟨a, [], none⟩)
      | _ => .ok s

/-- `PANC` (R296): every lane of the group, or every element of a tile. -/
def execPanc : Fields → State → Out :=
  issueOnce (specAnchor false) alwaysOnce fun e s g l _ =>
    match anchorOf (s.rdA g l e) with
    | none => .trap 0x046 (BitVec.ofNat 64 (s.rdA g l e % 2 ^ 32))
    | some a => match e.d with
      | .p k => .ok (s.modPreg g k.toNat fun p => p.anchored a)
      | .a k => .ok (s.modTile g k.toNat fun t => { t with anc := a, el := reanchor t.el t.anc a })
      | _ => .ok s

/-- `PMOV` (R293). -/
def execPmov : Fields → State → Out :=
  issueOnce (fun f => { Spec.plain with d := slPly2, a := plyPartner f.d, tileOk := true }) alwaysOnce fun e s g _ act =>
    match e.d with
    | .p k =>
      let anc := (s.plyElem g 0 e.a).2
      let es := act.map fun i => (i, (s.plyElem g i e.a).1)
      .ok (s.modPreg g k.toNat fun p => es.foldl (fun q i => q.modLane i.1 fun _ => i.2) (p.anchored anc))
    | .a k => .ok (s.modTile g k.toNat fun _ => { s.tileOpnd g e.a with failed := none })
    | _ => .ok s

/-- The row of `PMRG`; `.grp` on a tile takes row 4. -/
def specPmrg (f : Fields) : Spec :=
  { Spec.plain with var := if isTile f.d then 0 else f.var &&& 1, d := slPly2, a := plyPartner f.d }

/-- `PMRG` (R295): lane by lane, element by element of a tile, or over all active lanes. -/
def execPmrg (f : Fields) (s : State) : Out :=
  if isTile f.d then
    issueOnce specPmrg alwaysOnce (fun e s g _ _ => match e.d with
      | .a k =>
        let a := s.tileOpnd g e.a
        .ok (s.modTile g k.toNat fun t =>
          { t with el := (List.range 256).foldl (fun m n =>
              match alGet? a.el n with
              | none => m
              | some x => alSet m n ((t.get n).merge (x.moved a.anc t.anc))) t.el })
      | _ => .ok s) f s
  else if (specPmrg f).var = 1 then
    issueOnce specPmrg alwaysOnce (fun e s g _ act => match e.d with
      | .p k =>
        let to' := (s.preg g k.toNat).anc
        let x := act.foldl (fun (m : PElem) i => let y := s.plyElem g i e.a; m.merge (y.1.moved y.2 to')) .zero
        .ok (s.modPreg g k.toNat fun p => act.foldl (fun q i => q.modLane i fun _ => x) p)
      | _ => .ok s) f s
  else
    issueThreads specPmrg always (fun e s g l => match e.d with
      | .p k =>
        let y := s.plyElem g l e.a
        .ok (s.modPreg g k.toNat fun p => p.modLane l fun d => d.merge (y.1.moved y.2 p.anc))
      | _ => .ok s) f s

/-! ## Accumulation -/

/-- The types of `PACC` (Table 12-1). -/
def tysPacc : List Ty := [.f32, .f16, .bf16, .f8e4, .f8e5, .f4, .s32, .n32, .s16, .n16, .s8, .n8]

/-- The elements of an operand, exactly, under MODE at issue (R294). -/
def State.plyElems (s : State) (g : Nat) (ty : Ty) (x : Nat) : List Ex :=
  (List.range (tyElems ty)).map fun i =>
    decodeElem ty (modeX4 (s.mode g)) (modeFtzi (s.mode g)) (packedElem ty x i)

/-- The operands of an accumulation: under 8-bit and 4-bit types a float literal supplies its bit pattern (R291). -/
def Eff.plyLits (e : Eff) : Eff :=
  let lit := fun o : Opnd => if o = .view 3 ∧ tyBits e.ty ≤ 8 then .view 4 else o
  { e with a := lit e.a, b := lit e.b }

/-- A thread's element of D with addends added, each on its own (R287, R288). -/
def State.accumulate (s : State) (g l : Nat) (o : Opnd) (xs : List Ex) : State :=
  match o with
  | .p k => s.modPreg g k.toNat fun p => p.modLane l fun d => xs.foldl (fun m x => plyAdd m x (ancInt p.anc)) d
  | _ => s

/-- `PACC` (R294). -/
def execPacc : Fields → State → Out :=
  issueThreads (fun f => { Spec.plain with types := tysPacc, var := f.var &&& 1, d := slPly, a := slSrc, b := slSrc })
    always fun e s g l =>
      let xs := ((s.plyElems g e.ty (s.rdA g l e.plyLits)).zip (s.plyElems g e.ty (s.rdB g l e.plyLits))).map fun p =>
        (Ex.mul p.1 p.2).1
      .ok (s.accumulate g l e.d (if e.v0 then xs.map Ex.negate else xs))

/-- The row of `PADD` and `PSUB`. -/
def specPadd (_ : Fields) : Spec :=
  { Spec.plain with types := tysPacc ++ [.s64, .n64], d := slPly, a := slSrc }

/-- `PADD` (R294). -/
def execPadd : Fields → State → Out :=
  issueThreads specPadd always fun e s g l => .ok (s.accumulate g l e.d (s.plyElems g e.ty (s.rdA g l e.plyLits)))

/-- `PSUB` (R294). -/
def execPsub : Fields → State → Out :=
  issueThreads specPadd always fun e s g l =>
    .ok (s.accumulate g l e.d ((s.plyElems g e.ty (s.rdA g l e.plyLits)).map Ex.negate))

/-! ## Resolution and tests -/

/-- The registers that the tile form of `RSLV` writes (R297). -/
def rslvRun (width : Nat) (ty : Ty) : Nat := (if width = 0 then 16 else 256 / width) * (if tyBits ty = 64 then 2 else 1)

/-- The types of `RSLV` (Table 12-1). -/
def tysRslv : List Ty := [.f32, .f16, .bf16, .s32, .n32, .s64, .n64, .s16, .n16, .s8, .n8]

/-- The row of `RSLV`, in a group of a width. -/
def specRslv (width : Nat) (f : Fields) : Spec :=
  { Spec.plain with
    types := tysRslv, var := fixRm 0xF f.var,
    d := if isTile f.a then ⟨.vec, rslvRun width (effTy tysRslv f)⟩ else slVec, a := slPly2 }

/-- The elements of a tile that the tile form of `RSLV` resolves for one lane, by register, with their flags (R297). -/
def rslvElems (e : Eff) (m : Dword) (t : Tile) (width l : Nat) : List (Nat × Nat × Flg) :=
  (List.range (if width = 0 then 0 else 256 / width)).map fun r =>
    (r, plyResolve (t.get (r * width + l)) (ancInt t.anc) e.ty (e.rm m) e.sat (modeFtzo m))

/-- The flags charged to a lane. -/
def rslvFlags (ns : List (Nat × Nat × Flg)) : Flg := ns.foldl (fun (f : Flg) r => f ||| r.2.2) 0

/-- The tile form of `RSLV` for one lane: its elements into its registers, or its trap (R297). -/
def rslvLane (e : Eff) (g : Nat) (t : Tile) (width : Nat) (m : Dword) (s : State) (l : Nat) : State :=
  let k := if tyBits e.ty = 64 then 2 else 1
  let ns := rslvElems e m t width l
  let fl := rslvFlags ns
  let s1 := s.raise g fl
  match flagCause m fl with
  | some c => s1.trap g l c (BitVec.ofNat 64 fl.toNat)
  | none => (match e.d with
      | .v d => s1.modThread g l fun u => ns.foldl (fun (w : Thread) (r : Nat × Nat × Flg) =>
          w.write (.v (BitVec.ofNat 8 (d.toNat + k * r.1))) k (resolveWord e.ty r.2.1)) u
      | _ => s1).pass g l e.stall

/-- `RSLV` (R297). -/
def execRslv (f : Fields) (s : State) : Out :=
  if isTile f.a then
    issueOnce (specRslv s.curWidth) alwaysOnce (fun e s g _ act =>
      let t := s.tileOpnd g e.a
      let w := ((s.group? g).map (·.width)).getD 0
      let m := s.mode g
      let s1 := act.foldl (fun (u : State) l => if (u.group? g).isSome then rslvLane e g t w m u l else u) s
      .halt (s1.retag g (act.filter fun l => (flagCause m (rslvFlags (rslvElems e m t w l))).isNone) (e.d.vregs e.nd))) f s
  else
    issueThreads (specRslv 16) always (fun e s g l =>
      let y := s.plyElem g l e.a
      let m := s.mode g
      let (r, fl) := plyResolve y.1 (ancInt y.2) e.ty (e.rm m) e.sat (modeFtzo m)
      s.flagged g l e fl fun t => .ok (t.putD g l e (resolveWord e.ty r))) f s

/-- `PTEST` (R298). -/
def execPtest : Fields → State → Out :=
  issueThreads (fun _ => { Spec.plain with d := slCc, a := slPly, b := ⟨.plyOpt, 1⟩ }) always fun e s g l =>
    let a := s.plyElem g l e.a
    let b := s.plyElem g l e.b
    let o := Ex.cmp (plyValue a.1 (ancInt a.2)) (plyValue b.1 (ancInt b.2))
    .ok (s.modThread g l fun t =>
      t.writeCc e.d (mkFlags (o = .lt) (o = .eq) (a.1.fl != 0 || b.1.fl != 0) false))

/-! ## Images and cells (R299 to R301) -/

/-- A record of a ply image (Table 12-2). -/
def PElem.record (e : PElem) : List Byte := toBytes 33 (e.s.toNat + e.k.toNat * 2 ^ 128 + e.fl.toNat * 2 ^ 256)

/-- The header of a ply image (Table 12-2). -/
def imageHeader (anc : BitVec 10) (tile : Bool) (count : Nat) : List Byte :=
  toBytes 16 (anc.toNat + (if tile then 2 else 1) * 2 ^ 16 + count * 2 ^ 32)

/-- Whether a header is one of a holder: no reserved bit, its FORM and its COUNT. -/
def headerOk (h : Nat) (tile : Bool) (count : Nat) : Bool :=
  fldN h 10 6 == 0 && fldN h 16 8 == (if tile then 2 else 1) && fldN h 24 8 == 0 && fldN h 32 16 == count &&
    fldN h 48 80 == 0

/-- An element of a record. -/
def recordElem (bs : List Byte) : PElem :=
  let x := ofBytes bs
  ⟨BitVec.ofNat 128 x, BitVec.ofNat 128 (x / 2 ^ 128), BitVec.ofNat 4 (x / 2 ^ 256)⟩

/-- A ply cell of an element (R300, Table 7-4). -/
def PElem.cell (e : PElem) (anc : BitVec 10) : List Byte :=
  toBytes 64 (e.sum.toNat + e.fl.toNat * 2 ^ 128 + anc.toNat * 2 ^ 144)

/-- The element of a cell re-expressed at an anchor, its flags with it (R300). -/
def cellElem (bs : List Byte) (to' : BitVec 10) : PElem :=
  let x := ofBytes bs
  let e := (PElem.withSum ⟨0, 0, BitVec.ofNat 4 (x / 2 ^ 128)⟩ (BitVec.ofNat 128 x))
  e.moved (BitVec.ofNat 10 (x / 2 ^ 144)) to'

/-- A memory instruction of a thread waits for an unfinished acquire (R403). -/
def memReadyOnce : Eff → State → Nat → Nat → List Nat → Bool := fun _ s g l _ => !s.acqPending g l

/-- What a raw image's stores are: its header and the records of the passing lanes, or of a whole tile; runs that adjoin are one, so
that an aligned 16 bytes is one access (R301). -/
def State.imageParts (s : State) (g : Nat) (o : Opnd) (act : List Nat) : List (Nat × List Byte) :=
  match o with
  | .a k =>
    let t := s.tile g k.toNat
    [(0, imageHeader t.anc true 256 ++ (List.range 256).flatMap fun n => (t.get n).record)]
  | _ =>
    let w := ((s.group? g).map (·.width)).getD 0
    joinRuns ((0, imageHeader (s.plyElem g 0 o).2 false w) :: act.map fun l => (16 + 33 * l, (s.plyElem g l o).1.record))

/-- `PSTW` (R299): the image as stores of the lowest-numbered passing thread, in aligned pieces of 16 bytes (R301, R398). -/
def rawStore : Fields → State → Out :=
  issueOnce (fun _ => { Spec.plain with a := slPair, b := slPly2, imm := true })
    (fun e s g l act =>
      !s.acqPending g l &&
        s.sbFits (s.coreOf g) ((s.imageParts g e.b act).foldl (fun n p => n + (piecesOf (s.addrA g l e) p.1 p.2.length).length) 0))
    fun e s g l act =>
      let va := s.addrA g l e
      let parts := s.imageParts g e.b act
      let ps := parts.flatMap fun p => (atomsOf va p.1 p.2.length).map fun q => (q, (p.2.drop (q.1 - p.1)).take q.2)
      match s.resolveRun g l .store va 16 (ps.map (·.1)) with
      | (.inl c, _) => .trap c va
      | (.inr rs, s1) =>
        if rs.any fun r => r.2 == .wait then .stay
        else .ok ((rs.zip ps).foldl (fun (t : State) x =>
          t.store g l (act.filter fun k => k ≠ l) (va + BitVec.ofNat 64 x.1.1.1) x.1.2 x.2.2 0 false) s1)

/-- `PSTW` (R299). -/
def execPstw (f : Fields) (s : State) : Out := rawStore f s

/-- `PSTW.cell` (R300): each thread's own cell; on a tile the instruction executes as `PSTW` (row 4). -/
def execPstwCell (f : Fields) (s : State) : Out :=
  match f.b with
  | .a _ => rawStore f s
  | _ =>
    issueThreads (fun _ => { Spec.plain with var := 1, a := slPair, b := slPly, imm := true })
      (fun _ s g l => !s.acqPending g l) (fun e s g l =>
        let va := s.addrA g l e
        let y := s.plyElem g l e.b
        match s.resolve g l .store va 64 64 0x094 false with
        | (.fault c, _) => .trap c va
        | (.wait, _) => .stay
        | (r, s1) => if !s1.storeRoom g va r then .stay else .ok (s1.store g l [] va r (y.1.cell y.2) 0 false)) f s

/-- What the accesses of a raw image's load are: its header and the records that are loaded. -/
def State.imageWants (s : State) (g : Nat) (tile : Bool) (act : List Nat) : List (Nat × Nat) :=
  if tile then [(0, 16 + 33 * 256)]
  else joinSpans ((0, 16) :: (act.filter fun l => l < ((s.group? g).map (·.width)).getD 0).map fun l => (16 + 33 * l, 33))

/-- A raw image of some pieces that is being loaded: every passing thread stays at the instruction until they have landed (R299). -/
def State.beginImage (s : State) (g : Nat) (e : Eff) (tile : Bool) (act : List Nat) (va : Dword) (pieces : Nat) : Nat × State :=
  let (n, s1) := s.fresh
  let reg := match e.d with
    | .p k => k.toNat
    | .a k => k.toNat
    | _ => 16
  let s2 := s1.modGroup g fun x => { x with pimgs := alSet x.pimgs n ⟨tile, reg, act, va, [], pieces, e.stall⟩ }
  (n, act.foldl (fun (t : State) i => t.modThread g i fun u => { u with wait := .image }) s2)

/-- `PLDW` (R299): the image's aligned pieces of 16 bytes are read as loads of the lowest-numbered passing thread; one on the
compressed view is a single read, bound at issue (R102). -/
def rawLoad (f : Fields) (s : State) : Out :=
  issueOnce (fun _ => { Spec.plain with d := slPly2, a := slPair, imm := true, tileOk := true }) memReadyOnce
    (fun e s g l act =>
      let va := s.addrA g l e
      let all := s.imageWants g (isTile f.d) act
      let total := all.foldl (fun (n : Nat) p => max n (p.1 + p.2)) 0
      let wants := if fld va 60 4 = 5 then [(0, total)] else all.flatMap fun p => atomsOf va p.1 p.2
      match s.resolveRun g l .load va 16 wants with
      | (.inl c, _) => .trap c va
      | (.inr rs, s1) =>
        if rs.any fun r => r.2 == .wait then .stay
        else
          let (n, s2) := s1.beginImage g e (isTile f.d) act va rs.length
          match rs with
          | [(_, .view tid idx)] =>
            (match s2.issueView (s2.newAcc g l va (.image n 0 total)) tid idx total none with
              | .ok t => .halt t
              | r => r)
          | rs => .halt (rs.foldl (fun (t : State) r =>
              t.issueAcc (t.newAcc g l (va + BitVec.ofNat 64 r.1.1) (.image n r.1.1 r.1.2)) r.2) s2)) f s

/-- `PLDW` (R299). -/
def execPldw (f : Fields) (s : State) : Out := rawLoad f s

/-- `PLDW.cell` (R300); on a tile the instruction executes as `PLDW` (row 4). -/
def execPldwCell (f : Fields) (s : State) : Out :=
  match f.d with
  | .a _ => rawLoad f s
  | _ =>
    issueThreads (fun _ => { Spec.plain with var := 1, d := slPly, a := slPair, imm := true })
      (fun _ s g l => !s.acqPending g l) (fun e s g l =>
        let va := s.addrA g l e
        let reg := match e.d with
          | .p k => k.toNat
          | _ => 16
        let (r, s1) := s.resolve g l .load va 64 64 0x094 false
        s1.issueLoad (s1.newAcc g l va (.cell reg)) 64 .none none r) f s

/-- The landing of a raw image whose last piece is in: a malformed header traps every loading thread with 0x047; otherwise
the anchor and the elements are loaded and the threads go on (R299). -/
def State.finishImage (s : State) (g n : Nat) : State :=
  match (s.group? g).bind fun x => alGet? x.pimgs n with
  | none => s
  | some m =>
    let w := ((s.group? g).map (·.width)).getD 0
    let bytes := fun off k => (List.range k).map fun i => alGet m.got 0 (off + i)
    let h := ofBytes (bytes 0 16)
    let s1 := s.modGroup g fun x => { x with pimgs := alDel x.pimgs n }
    let s2 := m.lanes.foldl (fun (t : State) l => t.modThread g l fun u => { u with wait := .none }) s1
    if !headerOk h m.tile (if m.tile then 256 else w) then
      m.lanes.foldl (fun (t : State) l => if (t.group? g).isSome then t.trap g l 0x047 m.va else t) s2
    else
      let anc := BitVec.ofNat 10 h
      let s3 := if m.tile then
          s2.modTile g m.reg fun _ => ⟨anc, (List.range 256).map fun k => (k, recordElem (bytes (16 + 33 * k) 33)), none⟩
        else if m.reg < 16 then
          s2.modPreg g m.reg fun p =>
            m.lanes.foldl (fun q l => q.modLane l fun _ => recordElem (bytes (16 + 33 * l) 33)) (p.anchored anc)
        else s2
      m.lanes.foldl (fun (t : State) l => t.pass g l m.stall) s3

end Sys2Proof.Machine
end

