-- ==== Sys2Proof/Machine/Record.lean ====
section
/-! DEFINITION. The record instructions, opcodes 0xA0 to 0xA5 (Table 3-10), and `MODEW` and `MODER` (R83). -/

namespace Sys2Proof.Machine

open Sys2Proof

/-! ## Forms -/

/-- A shape register field. -/
def slShape : Slot := ⟨.shape, 1⟩

/-- The number of the shape register that an operand names. -/
def shapeOf (o : Opnd) : Option Nat :=
  match o with
  | .s n => some n.toNat
  | _ => none

/-- A shape register of a group (R90); a field that names none reads zero. -/
def State.shape (s : State) (g : Nat) (o : Opnd) : BitVec 512 :=
  ((shapeOf o).bind fun n => (s.group? g).map fun x => alGet x.shapes 0 n).getD 0

/-- The state with a shape register written; a field that names none discards the write. -/
def State.setShape (s : State) (g : Nat) (o : Opnd) (r : BitVec 512) : State :=
  match shapeOf o with
  | none => s
  | some n => s.modGroup g fun x => { x with shapes := alSet x.shapes n r }

/-- The reads of a thread that names a record, for an access of a number. -/
def State.viaThread (s : State) (g l id : Nat) : Via := Via.make (s.issuerOf g l 0) (some (g, l, id)) false none [] 0

/-- What an instruction that acts once for its sub-group does with a stop: the cause traps, a park holds every passing
thread at the instruction (a handler's may trap; R420), and a wait keeps it there. -/
def stopOnce (g : Nat) (act : List Nat) (s : State) : Stop → Res
  | .fault c tv => .trap c tv
  | .park p =>
    if act.any (s.parkTraps g) then .trap 0x098 p.va else .wait (act.foldl (fun (t : State) l => t.parkIssue g l p 0) s)
  | .wait => .stay

/-- An acquire of several threads of a group (R403). -/
def State.acquiredEach (s : State) (g : Nat) (act : List Nat) (sc : Scope) : State :=
  act.foldl (fun (t : State) l => t.acquired g l sc) s

/-- The condition of an ordered record instruction (R402, R403). -/
def recReady (always' : Bool) (e : Eff) (s : State) (g _ : Nat) (act : List Nat) : Bool :=
  act.all fun l => !s.acqPending g l && (!(always' || e.rel) || s.releaseReady g l e.scope)

/-- A record dropped from every die's record cache. -/
def State.dropRecord (s : State) (slot tid : Nat) : State :=
  { s with dies := s.dies.map fun p : Nat × Die => (p.1, { p.2 with recs := alDel p.2.recs (65536 * slot + tid) }) }

/-- Every record of a context dropped from every die's record cache. -/
def State.dropRecords (s : State) (slot : Nat) : State :=
  { s with dies := s.dies.map fun p : Nat × Die =>
      (p.1, { p.2 with recs := p.2.recs.filter fun r => decide (r.1 / 65536 ≠ slot) }) }

/-! ## The instructions -/

/-- `TLD` (R92): the record through the die's record cache, unchecked. Where that read parks or waits, the access is outstanding and sD is
empty to the group until it lands (R90). -/
def execTld : Fields → State → Out :=
  issueOnce (fun f => { Spec.plain with
      var := f.var &&& 3, d := slShape, a := slSrc32, scope := some .die, ord := some (true, false) })
    (recReady false) fun e s g l act =>
      let tid := s.rdA g l e % 65536
      let a := { s.newAcc g l (s.recAddr (s.slotOf g) tid) (.shape tid ((shapeOf e.d).getD 16)) with
        acq := if e.acq then some e.scope else none, lanes := act.filter fun k => k ≠ l }
      match (s.viaThread g l s.now).record tid s with
      | .ok r t =>
        let u := t.setShape g e.d r
        .ok (if e.acq then u.acquiredEach g act e.scope else u)
      | .error (.park p) t => if act.any (t.parkTraps g) then .trap 0x098 p.va else .ok (t.addParked a p 0)
      | .error .wait t => .ok (t.addAcc { a with hold := true })
      | .error (.fault c tv) _ => .trap c tv

/-- A record written at its home, in one write: every die's copy is dropped, and what the core's own caches hold of it (R93, R95, R162). -/
def State.putRecord (s : State) (g l tid : Nat) (r : BitVec 512) : Wk Unit := fun t =>
  let iss := s.issuerOf g l 0
  let va := t.recAddr iss.slot tid
  match t.putPiece t.nextId iss 0 ⟨va, toBytes 64 r.toNat, true, 0, .zero⟩ [] with
  | .done u =>
    .ok () (match u.reach iss .store va 64 1 0x094 false with
      | (.mem p _, _) => (u.dropRecord iss.slot tid).dropL1 (u.coreOf g) p 64
      | _ => u.dropRecord iss.slot tid)
  | .wait => .error .wait t
  | .park p u => .error (.park p) u
  | .fault c => .error (.fault c va) t

/-- Whether a store to the record of a tid stands in the thread's store buffer, which an access to its home waits for (R399). -/
def State.recordBuffered (s : State) (g tid : Nat) : Bool :=
  s.bufferedBefore (s.coreOf g) (s.slotOf g) s.now none (s.recAddr (s.slotOf g) tid) 64

/-- The record of a tid inside the table as its home holds it. -/
def State.homeRecord (s : State) (g l tid : Nat) : Wk (BitVec 512) := do
  let v := s.viaThread g l s.now
  if (s.ctx v.iss.slot).tcount.toNat ≤ tid then wkFault 0x101 (BitVec.ofNat 64 tid)
  else if s.recordBuffered g tid then wkWait
  else
    let x ← v.forRecord.rdN (s.recAddr v.iss.slot tid) 64
    pure (BitVec.ofNat 512 x)

/-- `TST` (R93). -/
def execTst : Fields → State → Out :=
  issueOnce (fun f => { Spec.plain with
      var := f.var &&& 3, a := slSrc32, b := slShape, scope := some .dev, ord := some (false, true) })
    (recReady false) fun e s g l act =>
      let tid := s.rdA g l e % 65536
      if (s.ctx (s.slotOf g)).tcount.toNat ≤ tid then .trap 0x101 (BitVec.ofNat 64 tid)
      else if s.recordBuffered g tid then .stay
      else match s.putRecord g l tid (s.shape g e.b) s with
        | .ok _ t => .ok t
        | .error q t => stopOnce g act t q

/-- The place and width of a field of Table 3-11 in a record; none for a level index above 5. -/
def recField (sel i : Nat) : Option (Nat × Nat) :=
  match sel with
  | 1 => some (64, 64) | 2 => some (128, 8) | 3 => some (136, 3)
  | 4 => if i ≤ 5 then some (140 + 3 * i, 3) else none
  | 5 => if i ≤ 5 then some (160 + 32 * i, 32) else none
  | 6 => some (352, 16) | 7 => some (368, 2) | 8 => some (370, 16) | 9 => some (386, 16) | 10 => some (402, 2)
  | 11 => some (404, 8) | 12 => some (412, 10)
  | _ => some (0, 64)

/-- VAR of a field instruction after row 4. -/
def varField (v : BitVec 4) : BitVec 4 := if v.toNat ≤ 12 then v else 0

/-- Whether a field takes a level index. -/
def fieldLevel (v : BitVec 4) : Bool := v == 4 || v == 5

/-- `TSETF` (R94). -/
def execTsetf : Fields → State → Out :=
  issueOnce (fun f => { Spec.plain with
      var := varField f.var, d := slShape, a := if (varField f.var).toNat ≤ 1 then slSrc64 else slSrc32,
      b := if fieldLevel (varField f.var) then slSrc32 else slNone }) alwaysOnce fun e s g l _ =>
    match recField e.var.toNat (s.rdB g l e) with
    | none => .ok s
    | some (lo, w) => .ok (s.setShape g e.d (setFld (s.shape g e.d) lo w (s.rdA g l e)))

/-- The value that `TGETF` gives for a field (R94). -/
def fieldValue (r : BitVec 512) (sel i : Nat) : Nat :=
  match recField sel i with
  | none => 0
  | some (lo, w) => if sel = 12 then wrapN 32 (toSigned 10 (fld r lo w)) else fld r lo w

/-- `TGETF` (R94). -/
def execTgetf : Fields → State → Out :=
  issueOnce (fun f => { Spec.plain with
      var := varField f.var, d := ⟨.vec, if (varField f.var).toNat ≤ 1 then 2 else 1⟩, a := slShape,
      b := if fieldLevel (varField f.var) then slSrc32 else slNone }) alwaysOnce fun e s g l act =>
    let x := fieldValue (s.shape g e.a) e.var.toNat (s.rdB g l e)
    .ok (act.foldl (fun t k => t.modThread g k fun u => u.write e.d e.nd x) s)

/-- `TSWAP` (R95): an acquire-release at its scope. -/
def execTswap : Fields → State → Out :=
  issueOnce (fun _ => { Spec.plain with d := slVec32, a := slSrc32, b := slShape, scope := some .dev, rels := true })
    (recReady true) fun e s g l act =>
      let tid := s.rdA g l e % 65536
      let body : Wk Unit := do
        let old ← s.homeRecord g l tid
        let mine := s.shape g e.b
        if recVer old = recVer mine then
          let next := setFld mine 386 16 (recVer mine + 1)
          s.putRecord g l tid next
          wkMod fun t => t.setShape g e.b next
        else pure ()
        wkMod fun t => (act.foldl (fun u k => u.modThread g k fun x => x.write e.d 1 (recVer old)) t).acquiredEach g act e.scope
      match body s with
      | .ok _ t => .ok t
      | .error q t => stopOnce g act t q

/-- `TINV` (R96): a release at its scope. -/
def execTinv : Fields → State → Out :=
  issueOnce (fun f => { Spec.plain with
      var := f.var &&& 1, a := if bit f.var 0 then slNone else slSrc32, scope := some .dev, rels := true })
    (recReady true) fun e s g l _ =>
      if bit e.var 0 then .ok (s.dropRecords (s.slotOf g))
      else
        let tid := s.rdA g l e % 65536
        if (s.ctx (s.slotOf g)).tcount.toNat ≤ tid then .trap 0x101 (BitVec.ofNat 64 tid)
        else .ok (s.dropRecord (s.slotOf g) tid)

/-! ## MODE and WARN (R80 to R83) -/

/-- MODE with bits replaced under a mask: reserved bits stay 0 and a rounding mode of 6 or 7 is stored as 0 (Table 3-6). -/
def modeWrite (old : Dword) (hi : Bool) (a b : Nat) : Dword :=
  let cur := fld old (if hi then 32 else 0) 32
  let mix := Nat.lor (Nat.land cur (Nat.xor b (2 ^ 32 - 1))) (Nat.land a b)
  if hi then setFld old 32 16 mix
  else
    let rm := mix % 8
    setFld old 0 32 (Nat.land mix 0x1F1F70 + if rm ≤ 5 then rm else 0)

/-- The wait of `.mode` for every earlier instruction of the group that can set FLG (R83): the SFU results are the ones that
come later. -/
def flgReady (e : Eff) (s : State) (g _ : Nat) (_ : List Nat) : Bool :=
  e.var != 0 || !s.acc.any fun p => p.2.g == g && (match p.2.op with
    | .sfu _ _ _ _ _ => true
    | _ => false)

/-- VAR of `MODEW` and `MODER`. -/
def varMode (v : BitVec 4) : BitVec 4 := if v.toNat ≤ 2 then v else 0

/-- `MODEW` (R83); its threads are in no region after it (R434). -/
def execModew : Fields → State → Out :=
  issueOnce (fun f => { Spec.plain with var := varMode f.var, a := slSrc32, b := slSrc32 }) flgReady fun e s g l act =>
    let a := s.rdA g l e
    let b := s.rdB g l e
    let s1 := s.modGroup g fun x =>
      if e.var = 2 then { x with warn := x.warn &&& ~~~ BitVec.ofNat 32 (Nat.land a b) }
      else { x with mode := modeWrite x.mode (e.var == 1) a b }
    .ok (act.foldl (fun t k => t.modThread g k fun u => { u with noRegion := true }) s1)

/-- `MODER` (R83). -/
def execModer : Fields → State → Out :=
  issueOnce (fun f => { Spec.plain with var := varMode f.var, d := slVec32 }) flgReady fun e s g _ act =>
    let x := match e.var.toNat with
      | 0 => fld (s.mode g) 0 32
      | 1 => fld (s.mode g) 32 32
      | _ => ((s.group? g).map fun y => y.warn.toNat).getD 0
    .ok (act.foldl (fun t k => t.modThread g k fun u => u.write e.d 1 x) s)

end Sys2Proof.Machine
end

