-- ==== Sys2Proof/Machine/Skein.lean ====
section
/-! DEFINITION. Groups and their places (R16, R17, R28, R235, R381), Skein and the spill rings (R386 to R390). -/

namespace Sys2Proof.Machine

open Sys2Proof

/-! ## New groups -/

/-- A group at its start, with no thread state but the given threads (R80, R90, R235, R389). -/
def Group.start (slot launch : Nat) (team : Option Nat) (teamNo : Word) (grp : Nat) (kn : Kernel) (home : Place)
    (lanes : List Thread) : Group :=
  { slot := slot, launch := launch, team := team, teamNo := teamNo, grp := grp, spawned := team.isNone, width := kn.width,
    place := none, home := home, lanes := lanes, mode := modeStart, warn := 0, shapes := [], p := [], tiles := [], extV := [],
    extP := [], grants := [], locks := [], tileOut := [], pimgs := [], tags := payloadTags, tagWait := [], shadowP := [], shadowT := [], racq := [],
    active := false, boosted := none, lastIssue := 0, readySince := 0, yielded := 0, notBefore := 0, stopped := false,
    forming := none, prior := none, found := none, saveAt := [] }
where
  /-- MODE at group start (Table 3-6). -/
  modeStart : Dword := 0x0000800000000000
  /-- The tags of the registers that a payload has written in some thread, inferred over all lanes (R226, R389). -/
  payloadTags : AL Tag :=
    (sortBy (fun (a b : Nat) => decide (a ≤ b)) (dedupN (lanes.flatMap fun t => t.v.map fun p => p.1))).map fun r =>
      (r, inferTag (lanes.all fun t => !t.exited) (lanes.map fun t => t.vreg r))

/-! ## Skein -/

/-- A spawned thread: its payload in v0 up, its record kept for its exit (R389, R391). -/
def SpawnRec.thread (r : SpawnRec) (pc : Dword) : Thread :=
  { Thread.start pc with v := (List.range r.payload.length).map fun i => (i, r.payload.getD i 0), spawn := some r }

/-- A group formed of records of one launch and entry that has the PC of the kernel's entry table (R387, R388). -/
def State.form (s : State) (core launch : Nat) (pc : Dword) (recs : List SpawnRec) : State :=
  let kn := s.kernelOf launch
  let slot := ((alGet? s.launches launch).map fun l => l.slot).getD 0
  let none' : Thread := { Thread.start pc with exited := true }
  let lanes := (List.range kn.width).map fun i => ((recs[i]?).map fun r => r.thread pc).getD none'
  let (g, s1) := s.fresh
  let x := { Group.start slot launch none 0xFFFFFFFF 0 kn ⟨core, 0, 0⟩ lanes with forming := some g }
  { s1 with groups := alSet s1.groups g x }.placeFormed core

/-- The records of a list of Skein. -/
def State.skeinList (s : State) (core launch entry : Nat) : List (Nat × SpawnRec) :=
  (s.core core).skein.filter fun r => r.2.launch == launch && r.2.entry == entry

/-- Whether a record is of a list. -/
def SpawnRec.inList (r : SpawnRec) (launch entry : Nat) : Bool := r.launch == launch && r.entry == entry

/-- A list without its first `n` records. -/
def dropFirst (launch entry : Nat) : Nat → List (Nat × SpawnRec) → List (Nat × SpawnRec)
  | _, [] => []
  | 0, l => l
  | n + 1, r :: l =>
    if r.2.inList launch entry then dropFirst launch entry n l else r :: dropFirst launch entry (n + 1) l

/-- The number under which the parked read of an entry of a kernel's entry table is kept. -/
def formKey (core launch entry : Nat) : Nat := (launch * 65536 + entry) * 1024 + core

/-- The first records of a list taken out as a group, once the entry of the kernel's table has been read (R387): a non-fatal fault
of that read parks it, and the list stays until the answer (R113); a fatal one kills the context; a line that a command owns is
waited for (R127). -/
def State.formFirst (s : State) (core launch entry n : Nat) : State :=
  let slot := ((alGet? s.launches launch).map fun l => l.slot).getD 0
  let va := (s.kernelOf launch).entt + BitVec.ofNat 64 (8 * entry)
  if (alGet? (s.ctx slot).formPark (formKey core launch entry)).isSome then s
  else match s.readVa (some core) (dieOf core) slot va 8 with
    | (.ok bs, s1) =>
      let recs := ((s1.skeinList core launch entry).take n).map fun r => r.2
      (s1.modCore core fun c => { c with skein := dropFirst launch entry n c.skein }).form core launch
        (BitVec.ofNat 64 (ofBytes bs)) recs
    | (.fault _, s1) => s1.kill slot 0x164 0 none
    | (.park kind lvl, s1) =>
      let p : Park := ⟨slot, va, kind, 0, lvl⟩
      (s1.modCtx slot fun c => { c with formPark := alSet c.formPark (formKey core launch entry) p }).parkFault slot core 0 p
    | (.wait, _) => s

/-- A list whose oldest record counts as having waited long enough: what it is flushed for has come (R388). -/
def State.ripen (s : State) (core launch entry : Nat) : State :=
  s.modCore core fun c => { c with skein := c.skein.map fun r => if r.2.inList launch entry then (0, r.2) else r }

/-- A list flushed into a partial group (R388), or as soon as that can be. -/
def State.flushList (s : State) (core launch entry : Nat) : State :=
  if s.skeinList core launch entry = [] then s
  else (s.ripen core launch entry).formFirst core launch entry (s.kernelOf launch).width

/-- Every list of a launch on a core flushed (R385). -/
def State.flushLaunch (s : State) (core launch : Nat) : State :=
  (dedupN ((s.core core).skein.filterMap fun r => if r.2.launch = launch then some r.2.entry else none)).foldl
    (fun (t : State) e => t.flushList core launch e) s

/-- The records that a core's Skein holds: those of its lists, and those of the groups that it has formed and that have no slot
yet (R387). -/
def State.skeinCount (s : State) (core : Nat) : Nat :=
  (s.core core).skein.length + (s.groups.map fun p : Nat × Group =>
    if p.2.forming.isSome ∧ p.2.home.core = core then (p.2.lanes.filter fun t => !t.exited).length else 0).foldl (· + ·) 0

/-- A record put in the Skein of its core: a full list forms a group, and beyond 3,584 records the list of the oldest one is
flushed (R387, R388). -/
def State.skeinPut (s : State) (r : SpawnRec) : State :=
  let s1 := s.modCore r.core fun c => { c with skein := c.skein ++ [(s.cycle, r)] }
  let w := (s1.kernelOf r.launch).width
  let s2 := if w ≤ (s1.skeinList r.core r.launch r.entry).length then s1.formFirst r.core r.launch r.entry w else s1
  match (s2.core r.core).skein with
  | [] => s2
  | (_, o) :: _ => if 3584 < s2.skeinCount r.core then s2.flushList r.core o.launch o.entry else s2

/-! ## Spill rings (R390) -/

/-- The bytes of a ring record (Table 16-7). -/
def SpawnRec.bytes (r : SpawnRec) (lnum : Word) : List Byte :=
  toBytes 32 ((List.range 4).foldl (fun x i => x + (r.payload.getD i 0).toNat * 2 ^ (32 * i)) 0 + r.joinAddr.toNat * 2 ^ 128 +
    r.entry % 65536 * 2 ^ 192 + scopeCode r.scope * 2 ^ 208 + 2 ^ 211 + r.core % 1024 * 2 ^ 212 + lnum.toNat * 2 ^ 224)

/-- The address of a ring record. -/
def Ctx.ringAddr (c : Ctx) (die : Nat) (n : Word) : Dword :=
  c.srbase + BitVec.ofNat 64 (32 * 2 ^ c.srlog2 * die + 32 * (n.toNat % 2 ^ c.srlog2))

/-- An access of a ring at its home, which `f` makes: whether it was made, and the state after it. A non-fatal fault parks it and a fatal
one kills the context. -/
def State.ringAccess (s : State) (slot die : Nat) (va : Dword) (k : Kind) (f : Nat → Nat → State → State) : Bool × State :=
  if fld va 56 8 ≠ 0 then (true, s.kill slot 0x164 0x081 none)
  else match s.xlate none die slot va.toNat k with
    | (.ok a h, s1) =>
      if s1.ownedBy none a 32 then (false, s)
      else if k = .read ∧ s1.poisoned a 32 then (true, s1.kill slot 0x164 0x169 none) else (true, f a h s1)
    | (.fatal c, s1) => (true, s1.kill slot 0x164 c none)
    | (.wait, _) => (false, s)
    | (.park kind lvl, s1) =>
      let p : Park := ⟨slot, va, kind, k.acc, lvl⟩
      (false, (s1.modCtx slot fun c => { c with ringPark := some p }).parkFault slot (128 * die) 0 p)

/-- A record put in the ring of its die, or not yet. -/
def State.ringPut (s : State) (r : SpawnRec) : Bool × State :=
  let die := dieOf r.core
  let c := s.ctx r.slot
  let (h, t) := alGet c.rings (0, 0) die
  if c.srbase = 0 ∨ c.ringPark.isSome ∨ 2 ^ c.srlog2 ≤ (t - h).toNat then (false, s)
  else
    let lnum := ((alGet? s.launches r.launch).map fun l => l.lnum).getD 0
    s.ringAccess r.slot die (c.ringAddr die t) .write fun a home u =>
      (u.homeWrite home a 0 (r.bytes lnum)).modCtx r.slot fun x =>
        { x with rings := alSet x.rings die (h, t + 1)
                 ringInfo := alSet x.ringInfo (2 ^ 32 * die + t.toNat) ⟨r.launch, r.join, r.core, none⟩ }

/-- Whether a core's Skein has room (R387). -/
def State.skeinRoom (s : State) (core : Nat) : Bool := decide (s.skeinCount core < 4096)

/-- A spawn record put in Skein, or in the ring where Skein is full; or not yet, where it waits (R386). -/
def State.putSpawn (s : State) (r : SpawnRec) : Bool × State :=
  if s.skeinRoom r.core then (true, s.skeinPut r) else s.ringPut r

end Sys2Proof.Machine
end

