-- ==== Sys2Proof/Machine/Land.lean ====
section
/-! DEFINITION. The results of memory accesses: loads, full/empty waits, atomics and queues at their homes, refills and
images (`LOAD_RESULT`), store-buffer drains, late traps, recalls, soft errors and peer time-outs. -/

namespace Sys2Proof.Machine

open Sys2Proof

/-! ## Atomic operations (R178 to R182) -/

/-- The new value of an atomic (Table 7-3). -/
def atomNew (code : Nat) (ty : Ty) (old b : Nat) : Nat :=
  let w := tyBits ty
  let le := fun x y : Nat => if tySigned ty then decide (toSigned w x ≤ toSigned w y) else decide (x ≤ y)
  match code with
  | 1 => if le old b then old else b
  | 2 => if le old b then b else old
  | 3 => Nat.land old b
  | 4 => Nat.lor old b
  | 5 => Nat.xor old b
  | 6 => b
  | 7 => if b ≤ old then 0 else old + 1
  | 8 => if old = 0 ∨ b < old then b else old - 1
  | 9 => (roundTo (Ex.add false (decodeElem ty 0 false old) (decodeElem ty 0 false b)).1 ty .rn false false).1
  | _ => (old + b) % 2 ^ w

/-- A ply cell with an addend (R180). -/
def cellAdd (x : Nat) (ty : Ty) (b : Nat) (ftzi : Bool) : Nat :=
  let anc := BitVec.ofNat 10 (fldN x 144 10)
  let e : PElem := ⟨BitVec.ofNat 128 x, 0, BitVec.ofNat 4 (fldN x 128 4)⟩
  let r := plyAdd e (decodeElem ty 0 ftzi b) (ancInt anc)
  r.sum.toNat + r.fl.toNat * 2 ^ 128 + anc.toNat * 2 ^ 144

/-- Whether a queue's control word is malformed (R181). -/
def queueBad (x : Nat) : Bool :=
  decide (fldN x 69 59 ≠ 0) || decide (24 < fldN x 64 5) ||
    decide (2 ^ fldN x 64 5 < (fldN x 0 32 + 2 ^ 32 - fldN x 32 32) % 2 ^ 32)

/-- What an atomic step at a home does: the old value and flags it returns, and its writes by offset from the address. -/
structure AtomRes where
  old : Nat
  fl : BitVec 4
  writes : List (Nat × List Byte)
  deriving DecidableEq, Repr

/-- An atomic step over the bytes at its address; `rd` reads bytes at an offset. None for a malformed queue (R181). -/
def AtomOp.step (op : AtomOp) (rd : Nat → Nat → Nat) : Option AtomRes :=
  match op with
  | .rmw code ty b =>
    let n := tyBits ty / 8
    let old := rd 0 n
    some ⟨old, 0, [(0, toBytes n (atomNew code ty old (b.toNat % 2 ^ tyBits ty)))]⟩
  | .cas ty b c =>
    let n := tyBits ty / 8
    let old := rd 0 n
    some ⟨old, 0, if old = b.toNat % 2 ^ tyBits ty then [(0, toBytes n c.toNat)] else []⟩
  | .padd ty b ftzi => some ⟨0, 0, [(0, toBytes 64 (cellAdd (rd 0 64) ty b.toNat ftzi))]⟩
  | q =>
    let x := rd 0 16
    if queueBad x then none
    else
      let top := fldN x 0 32
      let bot := fldN x 32 32
      let cap := 2 ^ fldN x 64 5
      let n := (top + 2 ^ 32 - bot) % 2 ^ 32
      let slot := fun i => 16 + 8 * (i % cap)
      let fl := fun (z : Bool) (t b : Nat) => mkFlags false z (t == b) false
      match q with
      | .push b =>
        if n = cap then some ⟨0, fl true top bot, []⟩
        else
          let t := (top + 1) % 2 ^ 32
          some ⟨0, fl false t bot, [(slot top, toBytes 8 b.toNat), (0, toBytes 4 t)]⟩
      | .pop =>
        if n = 0 then some ⟨0, fl true top bot, []⟩
        else
          let t := (top + 2 ^ 32 - 1) % 2 ^ 32
          some ⟨rd (slot t) 8, fl false t bot, [(0, toBytes 4 t)]⟩
      | _ =>
        if n = 0 then some ⟨0, fl true top bot, []⟩
        else
          let b := (bot + 1) % 2 ^ 32
          some ⟨rd (slot bot) 8, fl false top b, [(4, toBytes 4 b)]⟩

/-- The bytes that an atomic step touches at its address. -/
def AtomOp.bytes (op : AtomOp) : Nat := (AccOp.atom op).size

/-- The words that an atomic writes to its destination registers (R179, R182). -/
def AtomOp.words (op : AtomOp) (old : Nat) : List Word :=
  match op with
  | .rmw _ ty _ | .cas ty _ _ => loadWords ty (toBytes (tyBits ty / 8) old)
  | .padd _ _ _ | .push _ => []
  | .pop | .steal => [BitVec.ofNat 32 old, BitVec.ofNat 32 (old / 2 ^ 32)]

/-- A target moved on by some bytes. -/
def Target.add : Target → Nat → Target
  | .mem l, n => .mem (l.add n)
  | .spad t i o, n => .spad t i (o + n)

/-- Whether an operation is one of a work queue (R182). -/
def AtomOp.isQueue : AtomOp → Bool
  | .push _ | .pop | .steal => true
  | _ => false

/-- The offset from the control word of the slot that a queue operation uses; none where it uses none (R181, R182). -/
def AtomOp.slotOff (op : AtomOp) (x : Nat) : Option Nat :=
  let top := fldN x 0 32
  let bot := fldN x 32 32
  let cap := 2 ^ fldN x 64 5
  let n := (top + 2 ^ 32 - bot) % 2 ^ 32
  if queueBad x then none
  else match op with
  | .push _ => if n = cap then none else some (16 + 8 * (top % cap))
  | .pop => if n = 0 then none else some (16 + 8 * ((top + 2 ^ 32 - 1) % 2 ^ 32 % cap))
  | .steal => if n = 0 then none else some (16 + 8 * (bot % cap))
  | _ => none

/-- Where an atomic step works: the target of its address and, for a queue operation, that of its slot, each with its home. -/
structure AtomAt where
  main : Target
  home : Nat
  slot : Target
  slotHome : Nat
  deriving DecidableEq, Repr

/-- A step at one target alone. -/
def AtomAt.one (t : Target) (home : Nat) : AtomAt := ⟨t, home, t, home⟩

/-- The target of an offset of an atomic step, and its home: the slot of a queue lies beyond its control word. -/
def AtomAt.of (p : AtomAt) (op : AtomOp) (o : Nat) : Target × Nat :=
  if op.isQueue ∧ 16 ≤ o then (p.slot, p.slotHome) else (p.main.add o, p.home)

/-- An atomic performed at its home on the device, for a core or for a peer; copies of what it touches go, even where it writes
nothing (R119, R120, R162). Its L2 hint reaches the cache of a line homed on the core's die (R123). None for a malformed queue. -/
def State.performAtom (s : State) (core : Option Nat) (p : AtomAt) (op : AtomOp) (l2 : Nat) : Option (AtomRes × State) :=
  let hint := fun home : Nat => if core.map dieOf = some home then l2 else 0
  let drop := fun (u : State) (t : Target) (n : Nat) => match core with
    | some c => u.atomicDrop c t n
    | none => u.atomicHome t n
  (op.step fun o n => (s.targetNat (p.of op o).1 n).getD 0).map fun r =>
    let s1 := drop s p.main op.bytes
    let s2 := if op.isQueue then drop s1 p.slot 8 else s1
    (r, r.writes.foldl (fun (u : State) w =>
      u.targetWrite (p.of op w.1).2 (p.of op w.1).1 (hint (p.of op w.1).2) w.2) s2)

/-! ## Landing -/

/-- What the landing of an access ends with: it has to wait; the state after it. -/
abbrev Landing := Option State

/-- Whether nothing of its own thread or of its registers holds back an access that is bound. -/
def State.accOpen (s : State) (id : Nat) (a : Acc) : Bool :=
  a.park.isNone && !s.dstLocked id a && !s.earlierSame a.g a.lane id a.tgt a.va a.op.size

/-- Whether two accesses are of one instruction of a sub-group. -/
def Acc.sameInstr (a b : Acc) : Bool := a.g == b.g && a.pc == b.pc && a.cyc == b.cyc

/-- Whether an access has to wait for one of the first 32 lanes of its own instruction (R165, R397). -/
def State.passBehind (s : State) (a : Acc) : Bool :=
  decide (32 ≤ a.lane) && s.acc.any fun p => p.2.sameInstr a && decide (p.2.lane < 32) && decide (0 < p.2.op.size)

/-- Whether the full/empty bit of its granule lets an access to a bank be performed (R172, R173). -/
def State.bitAllows (s : State) (a : Acc) : Bool :=
  match a.op, a.tgt with
  | .ldfe _ _ _, some (.spad t i o) => (s.spad t i).isFull o
  | .stfe _ wempty, some (.spad t i o) => !(wempty && (s.spad t i).isFull o)
  | _, _ => true

/-- Whether an access to a bank waits for one of a lower granule of that bank, of its instruction and pass, that can be served (R158). -/
def State.bankBehind (s : State) (a : Acc) : Bool :=
  match a.tgt with
  | some (.spad t i o) => s.acc.any fun p => p.2.sameInstr a && p.2.lane / 32 == a.lane / 32 && (match p.2.tgt with
    | some (.spad t' i' o') => t == t' && i == i' && o / 16 % 32 == o' / 16 % 32 && decide (o' / 16 < o / 16)
    | _ => false) && s.bitAllows p.2 && s.accOpen p.1 p.2
  | _ => false

/-- The place of a waiting `LDFE` in the order of its bank: quarter, then arrival (R160, R172). -/
def State.ldfeRank (s : State) (id : Nat) (a : Acc) : Nat × Nat := (((s.group? a.g).map fun x => x.home.quarter).getD 0, id)

/-- Whether one rank is below another. -/
def rankLt (x y : Nat × Nat) : Bool := decide (x.1 < y.1) || (x.1 == y.1 && decide (x.2 < y.2))

/-- Whether a waiting `LDFE` of the granule comes before an `LDFE`: any before one that empties it, and one that empties it before
one that keeps it (R172). -/
def State.ldfeBehind (s : State) (id : Nat) (a : Acc) (keep : Bool) (t i o : Nat) : Bool :=
  s.acc.any fun p => p.1 != id && (match p.2.op, p.2.tgt with
    | .ldfe _ _ k, some (.spad t' i' o') =>
      t == t' && i == i' && o / 16 == o' / 16 && !(keep && k) && rankLt (s.ldfeRank p.1 p.2) (s.ldfeRank id a) && s.accOpen p.1 p.2
    | _, _ => false)

/-- Whether a store that entered the core's store buffer before an access touches its bytes, so that an atomic step waits for it (R399,
R401). -/
def State.ownBuffered (s : State) (id : Nat) (a : Acc) : Bool :=
  s.bufferedBefore a.core a.slot id (a.tgt.bind Target.loc?) a.va a.op.size

/-- Whether an atomic of a lower lane of the same instruction on the same bytes has not been performed (R179). -/
def State.atomBehind (s : State) (id : Nat) (a : Acc) : Bool :=
  s.acc.any fun p => decide (p.1 < id) && p.2.sameInstr a && (match p.2.op with
    | .atom _ => (match p.2.tgt, a.tgt with
      | some x, some y => overlapTgt x p.2.op.size y a.op.size
      | _, _ => overlapLoc none p.2.va p.2.op.size none a.va a.op.size)
    | _ => false)

/-- The place of a queue operation among those that reach its home in its cycle: owners before thieves, then by quarter at a bank
and by core elsewhere, then by arrival (R160, R183). -/
def State.queueRank (s : State) (id : Nat) (a : Acc) : Nat × Nat :=
  let unit := match a.tgt with
    | some (.spad _ _ _) => ((s.group? a.g).map fun x => x.home.quarter).getD 0
    | _ => a.core
  ((if a.op == .atom .steal then 1024 else 0) + unit, id)

/-- Whether a queue operation is not yet to be performed: another on its control word comes before it, or may still be issued in its
cycle (R183). An operation reaches its home in the cycle of its issue, and one that has parked when it is performed (log 83). -/
def State.queueBehind (s : State) (id : Nat) (a : Acc) : Bool :=
  (!a.parked && decide (s.cycle ≤ a.cyc)) ||
  s.acc.any fun p => p.1 != id && p.2.tgt == a.tgt && p.2.park.isNone && !p.2.parked && !a.parked && (match p.2.op with
    | .atom op => op.isQueue
    | _ => false) &&
    (decide (p.2.cyc < a.cyc) || (p.2.cyc == a.cyc && rankLt (s.queueRank p.1 p.2) (s.queueRank id a)))

/-- How a load goes past the caches (R121, R161, R400): `.fresh` past L1 and the RDC, an acquire past L1, and at domain or system
scope past the RDC. -/
def Acc.past (a : Acc) : Past :=
  let far := (a.acq.map fun sc => decide (scopeCode .dom ≤ scopeCode sc)).getD false
  match a.op with
  | .load _ _ fr home _ _ => ⟨fr, a.acq.isSome, fr || home || far, false⟩
  | .const _ _ _ _ => .constant
  | _ => .none

/-- The lanes that are served together with an access, and the least number among their accesses (R163). -/
structure Mates where
  lanes : List Nat
  id : Nat
  deriving DecidableEq, Repr

/-- Whether an access meets a poisoned sector at a place: one that was poisoned before the access was issued or, where the access has parked,
before it is performed (R128, R416; log 74). -/
def State.meetsPoison (s : State) (id : Nat) (a : Acc) (t : Target) (n : Nat) : Bool :=
  match t with
  | .mem (.node x) => if a.parked then s.poisoned x n else s.poisonedFor id x n
  | _ => false

/-- An access that meets a non-fatal fault as it lands: it parks, but a handler's that has not parked before traps (R420). -/
def State.parkOr (s : State) (id : Nat) (a : Acc) (p : Park) (unit : Nat) : State :=
  if s.parkTraps a.g a.lane && !a.parked then s.endAcc id a 0x098 p.va else s.parkAcc id a p unit

/-- The read of one sector for an access; none where it has to wait. What L1 serves neither waits for an owner nor meets a poisoned
home (R126, R161). -/
def State.landSector (s : State) (id : Nat) (a : Acc) (m : Mates) (p : Loc) (home n : Nat) (past : Past) (l1 l2 : Nat) (ans : RemoteAns)
    (k : List Byte → State → State) : Landing :=
  let read := (s.readPlace a.core a.g m.lanes m.id a.va p home n past l1 l2 ans).map fun r => k r.1 r.2
  if s.l1Serves a.core p past then read
  else if s.targetOwned (.mem p) n then none
  else match p, ans with
    | .node x, _ => if s.meetsPoison id a (.mem (.node x)) n then some (s.endAcc id a 0x169 a.va) else read
    | q, .refused => some (s.endAcc id a q.refusal a.va)
    | _, _ => read

/-- The read of a constant-path access of which `m` bytes lie in the sector it is bound to and the others in the next
(R60: the constant section is aligned to 16 bytes only). -/
def State.landStraddle (s : State) (id : Nat) (a : Acc) (g : Mates) (p : Loc) (m n l1 : Nat) (k : List Byte → State → State) :
    Landing :=
  let vb := a.va + BitVec.ofNat 64 m
  let tv := if a.parked then vb else a.va
  match s.reach (s.issuerOf a.g a.lane 0) .load vb (n - m) 1 0x094 false with
  | (.fault c, s1) => some (s1.endAcc id a c tv)
  | (.park q, s1) => some (s1.parkOr id a q 0)
  | (.const q h, s1) =>
    let serves := fun (x : Loc) (y : Nat) => s1.l1Serves a.core x .constant || !s1.targetOwned (.mem x) y
    let bad := fun (x : Loc) (y : Nat) => !s1.l1Serves a.core x .constant && s1.meetsPoison id a (.mem x) y
    if !serves p m || !serves q (n - m) then none
    else if bad p m then some (s1.endAcc id a 0x169 a.va)
    else if bad q (n - m) then some (s1.endAcc id a 0x169 tv)
    else (s1.readPlace a.core a.g g.lanes g.id a.va p a.home m .constant l1 0 .local).bind fun r =>
      (r.2.readPlace a.core a.g g.lanes g.id vb q h (n - m) .constant l1 0 .local).map fun t => k (r.1 ++ t.1) t.2
  | (.wait, _) => none
  | (_, s1) => some (s1.endAcc id a 0x085 tv)

/-- The read of an access that goes through the load path. -/
def State.landRead (s : State) (id : Nat) (a : Acc) (m : Mates) (n : Nat) (past : Past) (l1 l2 : Nat) (ans : RemoteAns)
    (k : List Byte → State → State) : Landing :=
  match a.tgt with
  | none => none
  | some (.spad t i o) => some (k ((s.spad t i).read o n) s)
  | some (.mem p) =>
    if past.const ∧ p.room < n then s.landStraddle id a m p p.room n l1 k else s.landSector id a m p a.home n past l1 l2 ans k

/-- The landing of a compressed-view read, at the home, with what it bound at issue, or where that could not be done binds now (R89,
R102, R399). -/
def State.landView (s : State) (id : Nat) (a : Acc) (tid idx n : Nat) (k : List Byte → State → State) : Landing :=
  let v := (s.viaWalker a.g a.lane id).forView []
  match if a.recs = [] then v.bindAll tid s else .ok a.recs s with
  | .error .wait _ => none
  | .error (.park p) s1 => some (s1.parkOr id a p 1)
  | .error (.fault c tv) s1 => some (s1.endAcc id a c tv)
  | .ok ts s1 =>
    let b := { a with recs := ts }
    match (v.forView ts).viewWhole (ts.headD ⟨0, 0, []⟩) idx n a.va s1 with
    | .ok bs t => some (k bs t)
    | .error .wait t => some { t with acc := alSet t.acc id b }
    | .error (.park p) t => some (t.parkOr id b p 1)
    | .error (.fault c tv) t => some (t.endAcc id b c tv)

/-- What the slot of a queue operation comes to; a stop at it comes with the slot's own address. -/
inductive SlotAt
  | none
  | at' (t : Target) (home : Nat)
  | wait
  | park (p : Park)
  | fault (cause : Nat) (va : Dword)
  deriving DecidableEq, Repr

/-- The slot of a queue operation, which its own address names (R181): checked and translated as the operation's access. TVAL of a
cause met there, which the manual does not name, is the slot's address (DESIGN CHOICE, log 83). -/
def State.slotOf' (s : State) (id : Nat) (a : Acc) (op : AtomOp) (t : Target) : SlotAt × State :=
  match if op.isQueue then (s.targetNat t 16).bind op.slotOff else Option.none with
  | Option.none => (.none, s)
  | some o =>
    let va := a.va + BitVec.ofNat 64 o
    match s.reach (s.issuerOf a.g a.lane 0) .atomic va 8 8 0x094 false with
    | (.fault c, s1) => (.fault c va, s1)
    | (.park p, s1) => (.park p, s1)
    | (.wait, s1) => (.wait, s1)
    | (r, s1) => match r.target? with
      | Option.none => (.fault 0x082 va, s1)
      | some (u, h) =>
        if s1.targetOwned u 8 || s1.bufferedBefore a.core a.slot id u.loc? va 8 || s1.earlierSame a.g a.lane id (some u) va 8 then
          (.wait, s1)
        else if s1.meetsPoison id a u 8 then (.fault 0x169 va, s1) else (.at' u h, s1)

/-- The landing of an atomic on the device. -/
def State.landAtom (s : State) (id : Nat) (a : Acc) (t : Target) (op : AtomOp) : Landing :=
  if s.targetOwned t a.op.size || s.ownBuffered id a || s.atomBehind id a || (op.isQueue && s.queueBehind id a) then none
  else if s.meetsPoison id a t a.op.size then some (s.endAcc id a 0x169 a.va)
  else
    let done := fun (u : State) (p : AtomAt) => match u.performAtom (some a.core) p op a.l2 with
      | none => u.endAcc id a 0x097 a.va
      | some (r, s1) => (s1.defer a.g a.lane).landWith id a (op.words r.old) [] (some r.fl)
    match s.slotOf' id a op t with
    | (.none, s1) => some (done s1 (.one t a.home))
    | (.at' u h, s1) => some (done s1 ⟨t, a.home, u, h⟩)
    | (.wait, _) => none
    | (.park p, s1) => some (s1.parkOr id a p 0)
    | (.fault c va, s1) => some (s1.endAcc id a c va)

/-- What a home outside the device answers a queue operation with, after eight bytes of value (log 10): the flags Z and C in bits 2 and 1
of a byte, whose bit 7 says that the queue is malformed, and the number of the slot in three bytes more. An operation that found the
queue full or empty returns no item, and a push never leaves it empty. -/
def AtomOp.answer (op : AtomOp) (bs : List Byte) : Option (Nat × BitVec 4 × Option Nat) :=
  let fl := (bs.getD 8 0).toNat
  let z := fldN fl 2 1 == 1
  if !op.isQueue then some (ofBytes (bs.take 8), 0, none)
  else if fldN fl 7 1 = 1 then none
  else
    let c := match op with
      | .push _ => false
      | _ => z || fldN fl 1 1 == 1
    some (if z then 0 else ofBytes (bs.take 8), mkFlags false z c false,
      if z then none else some (16 + 8 * ofBytes ((bs.drop 9).take 3)))

/-- The landing of an atomic whose home answers from outside the device. -/
def State.landRemoteAtom (s : State) (id : Nat) (a : Acc) (l : Loc) (op : AtomOp) (ans : RemoteAns) : Landing :=
  if s.ownBuffered id a || s.atomBehind id a || (op.isQueue && s.queueBehind id a) then none
  else match ans with
    | .local | .parked => none
    | .refused => some (s.endAcc id a l.refusal a.va)
    | .data bs =>
      let s1 := s.atomicDrop a.core (.mem l) a.op.size
      match op.answer bs with
      | none => some (s1.endAcc id a 0x097 a.va)
      | some (old, fl, slot) =>
        let s2 := match slot with
          | some o => s1.atomicDrop a.core (.mem (l.add o)) 8
          | none => s1
        some ((s2.defer a.g a.lane).landWith id a (op.words old) [] (some fl))

/-- A piece of a raw image that has its bytes (R299). -/
def State.landImage (s : State) (id : Nat) (a : Acc) (img off : Nat) (bs : List Byte) : State :=
  let s1 := { s with acc := alDel s.acc id }.modGroup a.g fun x =>
    let put := fun (m : Pimg) => bs.zipIdx.foldl (fun (n : AL Byte) (p : Byte × Nat) => alSet n (off + p.2) p.1) m.got
    { x with pimgs := alMod x.pimgs img fun m => { m with got := put m, left := m.left - 1 } }
  if (((s1.group? a.g).bind fun x => alGet? x.pimgs img).map fun m => m.left).getD 1 = 0 then s1.finishImage a.g img else s1

/-- A ply cell loaded to a lane of a register (R300). -/
def State.landCell (s : State) (id : Nat) (a : Acc) (reg : Nat) (bs : List Byte) : State :=
  let s1 := { s with acc := alDel s.acc id }
  if (s1.thread a.g a.lane).exited ∨ 16 ≤ reg then s1
  else if id < (s1.thread a.g a.lane).rgnAcc then s1.modEarlier a.g reg a.lane fun _ anc => cellElem bs anc
  else s1.modPreg a.g reg fun p => p.modLane a.lane fun _ => cellElem bs p.anc

/-- The bytes of a read on the constant or compressed-view path that names no place. -/
def State.landPath (s : State) (id : Nat) (a : Acc) (n : Nat) (k : List Byte → State → State) : Landing :=
  if fld a.va 60 4 = 5 then s.landView id a (fld a.va 44 16) (fld a.va 0 44) n k
  else
    let ps := (((s.group? a.g).bind fun x => alGet? s.launches x.launch).map fun x => x.params).getD []
    some (k ((List.range n).map fun i => ps.getD (fld a.va 0 32 + i) 0) s)

/-- The entry of a return stack that a refill brings back (R359). -/
def State.landRefill (s : State) (id : Nat) (a : Acc) (bs : List Byte) : State :=
  { s with acc := alDel s.acc id }.modThread a.g a.lane fun t => { t with rs := t.rs ++ [BitVec.ofNat 64 (ofBytes bs)] }

/-- A `TLD` whose record is read at last (R90, R92). -/
def State.landShape (s : State) (id : Nat) (a : Acc) (tid reg : Nat) : Landing :=
  match (s.viaThread a.g a.lane id).record tid s with
  | .ok r t =>
    let u := if reg < 16 then t.modGroup a.g fun x => { x with shapes := alSet x.shapes reg r } else t
    some (u.landWith id a [] [] none)
  | .error .wait _ => none
  | .error (.park p) t => some (t.parkOr id a p 0)
  | .error (.fault c tv) t => some (t.endAcc id a c tv)

/-- Whether an access of a kind that names a place was bound, or needs none. -/
def Acc.bound (a : Acc) : Bool :=
  a.tgt.isSome || (match a.op with
    | .load _ _ _ _ _ _ | .ldfe _ _ _ | .stfe _ _ | .sst _ | .atom _ | .refill _ | .bwait _ | .spawn _ true => false
    | .feclr _ _ | .probe _ | .pref _ _ | .jinit _ => false
    | .const _ _ p _ => p.isSome
    | .cell _ | .image _ _ _ => fld a.va 60 4 == 5 || fld a.va 60 4 == 4
    | _ => true)

/-- The kind of translation that an access makes when it walks again. -/
def AccOp.opKind : AccOp → OpKind
  | .atom _ | .spawn _ _ | .jinit _ => .atomic
  | .stfe _ _ | .sst _ => .store
  | _ => .load

/-- An access that walks again after a retry (R114): bound, parked again, or ended. One on the constant path takes the path's own
target; one on the pool or peer path holds its thread no more, having parked. -/
def State.rebind (s : State) (id : Nat) (a : Acc) : State :=
  match s.reach (s.issuerOf a.g a.lane 0) a.op.opKind a.va a.op.size 1 0x094 false with
  | (.fault c, s1) => s1.endAcc id a c a.va
  | (.park p, s1) => s1.parkAcc id a p 0
  | (.wait, _) => s
  | (r, s1) => match r.target? with
    | some (t, h) =>
      let s2 := { s1 with acc := alSet s1.acc id { a with tgt := some t, home := h } }
      (match t, a.op.opKind with
        | .mem p, .atomic => s2.dropL1 a.core p a.op.size
        | _, _ => s2)
    | none => s1.endAcc id a 0x093 a.va

/-- The unbound accesses of an instruction, each of which walks again, so that its lanes can be served together (R163). -/
def State.rebindEach (s : State) (a : Acc) : State :=
  (s.acc.filter fun p => p.2.sameInstr a && !p.2.bound && p.2.park.isNone).foldl (fun (t : State) p =>
    if (alGet? t.acc p.1).isSome then t.rebind p.1 p.2 else t) s

/-! ## Spawns and waits on words (R379, R386, R392) -/

/-- A thread that goes on after its wait, with an acquire at a scope (R379, R392). -/
def State.wake (s : State) (g l : Nat) (sc : Scope) : State :=
  (s.modThread g l fun t => { t with wait := .none, notBefore := max t.notBefore (s.cycle + 1) }).acquired g l sc

/-- Whether a wait is over when its word holds a value, and the scope of its acquire. -/
def waitOver (w : Wait) (v : Nat) : Option Scope :=
  match w with
  | .join _ _ sc => if v % 2 ^ 32 = 0 then some sc else none
  | .signal _ _ b sc => if b.toNat ≤ v then some sc else none
  | _ => none

/-- The answer to the read of a word that a thread waits on: the thread goes on, or the word is read again, each time as a new access
(R335). One that walks again after a retry is read anew (R112). -/
def State.landPoll (s : State) (id : Nat) (a : Acc) (ans : RemoteAns) : Landing :=
  match a.tgt, ans with
  | none, _ => some { s with acc := alDel s.acc id }
  | some (.mem q), .refused => some (s.endAcc id a q.refusal a.va)
  | some _, .data bs => match waitOver (s.thread a.g a.lane).wait (ofBytes (bs.take 8)) with
    | some sc => some ({ s with acc := alDel s.acc id }.wake a.g a.lane sc)
    | none => some { s with acc := alSet s.acc id { a with ns := s.ns } }
  | _, _ => none

/-- Whether an earlier spawn of the same group has not reached Skein (R386: lane order). -/
def State.spawnBehind (s : State) (id g : Nat) : Bool :=
  s.acc.any fun p => decide (p.1 < id) && p.2.g == g && (match p.2.op with
    | .spawn _ _ => true
    | _ => false)

/-- A spawn whose join word has been raised. -/
def State.raised (s : State) (id : Nat) (a : Acc) (r : SpawnRec) : State :=
  { s with acc := alSet s.acc id { a with op := .spawn { r with join := a.tgt.map fun t => (t, a.home) } false, tgt := none } }

/-- The raising of a spawn's join word at its home, one atomic step (R386). -/
def State.landRaise (s : State) (id : Nat) (a : Acc) (r : SpawnRec) (ans : RemoteAns) : Landing :=
  let here := fun t : Target => (s.performAtom (some a.core) (.one t a.home) (.rmw 0 .n32 1) 0).map fun u => u.2.raised id a r
  match a.tgt with
  | none => none
  | some (.mem (.node x)) =>
    if s.targetOwned (.mem (.node x)) 8 || s.ownBuffered id a || s.atomBehind id a then none
    else if s.meetsPoison id a (.mem (.node x)) 8 then some (s.endAcc id a 0x169 a.va)
    else here (.mem (.node x))
  | some (.mem l) => match ans with
    | .local | .parked => none
    | .refused => some (s.endAcc id a l.refusal a.va)
    | .data _ => some ((s.atomicDrop a.core (.mem l) 8).raised id a r)
  | some t => here t

/-- A join word set at its home, one atomic step of an instruction that acts once (R391, R397). -/
def State.landJinit (s : State) (id : Nat) (a : Acc) (bs : List Byte) (ans : RemoteAns) : Landing :=
  let done := fun t : State => ((a.lane :: a.lanes).foldl (fun (u : State) l => u.defer a.g l) t).land id a []
  match a.tgt with
  | none => none
  | some (.mem l) =>
    if s.targetOwned (.mem l) 8 || s.ownBuffered id a || s.atomBehind id a then none
    else match l, ans with
      | .node x, _ => some (done ((s.atomicDrop a.core (.mem (.node x)) 8).targetWrite a.home (.mem (.node x)) 0 bs))
      | l, .refused => some (s.endAcc id a l.refusal a.va)
      | l, .data _ => some (done (s.atomicDrop a.core (.mem l) 8))
      | _, _ => none
  | some t => some (done (s.targetWrite 0 t 0 bs))

/-- The record of a spawn put in Skein or a ring. -/
def State.landSpawn (s : State) (id : Nat) (a : Acc) (r : SpawnRec) : Landing :=
  if s.spawnBehind id a.g then none
  else match s.putSpawn r with
    | (true, t) => some (({ t with acc := alDel t.acc id }).countFor a.g 10 1)
    | (false, t) => if (t.ctx r.slot).ringPark.isSome ∧ (s.ctx r.slot).ringPark.isNone then some t else none

/-- The bits of a `PROBE` that a place outside the device answers (Table 7-2): OK, PARK where its first byte is odd, or the cause of
its refusal. -/
def probeBits (known : Nat) (l : Option Loc) (ans : RemoteAns) : Option Nat :=
  match ans with
  | .local => none
  | .parked => some (known + 2)
  | .refused => some (known + 4 + ((l.map Loc.refusal).getD 0x088 - 0x080) * 2 ^ 24)
  | .data bs => some (known + (if (bs.getD 0 0).toNat % 2 = 1 then 2 else 1))

/-- The landing of one access that nothing holds back, for the lanes served with it; `ans` is what a place outside the device answers; none
where it has to wait. -/
def State.landOne (s : State) (id : Nat) (a : Acc) (m : Mates) (ans : RemoteAns) : Landing :=
  let words := fun (ty : Ty) (bs : List Byte) (t : State) => t.land id a (loadWords ty bs)
  match a.op with
  | .load ty n _ _ l1 l2 => s.landRead id a m n a.past l1 l2 ans (words ty)
  | .view ty n tid idx => s.landView id a tid idx n (words ty)
  | .const ty n p l1 => match p with
    | some bs => some (words ty bs s)
    | none => s.landRead id a m n .constant l1 0 ans (words ty)
  | .ldfe ty n keep => match a.tgt with
    | some (.spad t i o) =>
      if !(s.spad t i).isFull o || s.ldfeBehind id a keep t i o then none
      else
        let bs := (s.spad t i).read o n
        let s1 := if keep then s else (s.modSpad t i fun x => x.setFull o false).defer a.g a.lane
        some (words ty bs s1)
    | _ => none
  | .stfe bs wempty => match a.tgt with
    | some (.spad t i o) =>
      if s.stfeAhead a.g a.lane id || (wempty && (s.spad t i).isFull o) then none
      else some (((s.modSpad t i fun x => (x.write o bs).setFull o true).defer a.g a.lane).land id a [])
    | _ => none
  | .sst bs => match a.tgt with
    | some (.spad t i o) =>
      if s.sstAhead a.g id (.spad t i o) bs.length then none else some ((s.modSpad t i fun x => x.write o bs).land id a [])
    | _ => none
  | .feclr n full => match a.tgt with
    | some (.spad t i o) => some (((s.modSpad t i fun x => x.setRange o n full).defer a.g a.lane).land id a [])
    | _ => none
  | .atom op => match a.tgt with
    | some (.mem (.node x)) => s.landAtom id a (.mem (.node x)) op
    | some (.spad t i o) => s.landAtom id a (.spad t i o) op
    | some (.mem l) => s.landRemoteAtom id a l op ans
    | none => none
  | .bwait past => match a.tgt with
    | some (.spad t i o) =>
      let ph := BitVec.ofNat 32 (fldN (ofBytes ((s.spad t i).read o 16)) 64 32)
      let sc := a.acq.map fun x => widest x (alGet (s.spad t i).came .thr (o / 16))
      if ph = past then none else some (s.land id { a with acq := sc } [ph])
    | _ => none
  | .fwait h => match s.handleState a.slot h with
    | some none => none
    | some (some w) => some (s.land id a [w])
    | none => some (s.land id a [6])
  | .value ws => if ws = [] ∧ a.hold then none else some (s.land id a ws)
  | .probe known => (probeBits known (a.tgt.bind Target.loc?) ans).map fun x => s.land id a [BitVec.ofNat 32 x]
  | .pref l1 l2 => match a.tgt, ans with
    | _, .local => none
    | some (.mem p), .data bs => some ({ s with acc := alDel s.acc id }.prefetched a.core a.slot a.va p a.home false l1 l2 bs)
    | _, _ => some { s with acc := alDel s.acc id }
  | .cell reg => match a.tgt with
    | none => s.landPath id a 64 fun bs t => t.landCell id a reg bs
    | some _ => s.landRead id a m 64 .none 0 0 ans fun bs t => t.landCell id a reg bs
  | .image img off n => match a.tgt with
    | none => s.landPath id a n fun bs t => t.landImage id a img off bs
    | some _ => s.landRead id a m n .none 0 0 ans fun bs t => t.landImage id a img off bs
  | .refill _ => s.landRead id a m 8 .none 0 0 ans fun bs t => t.landRefill id a bs
  | .poll => s.landPoll id a ans
  | .shape tid reg => s.landShape id a tid reg
  | .jinit bs => s.landJinit id a bs ans
  | .spawn r true => s.landRaise id a r ans
  | .spawn r false => s.landSpawn id a r
  | .walk _ _ | .sfu _ _ _ _ _ => none

/-- Whether two places are served by one request: one sector of memory, or one granule of a bank (R158, R163). -/
def Target.together (x y : Target) : Bool :=
  match x, y with
  | .mem p, .mem q => p.line == q.line && p.sec == q.sec
  | .spad t i o, .spad u j k => t == u && i == j && o / 16 == k / 16
  | _, _ => false

/-- Whether two accesses of one instruction are of a kind that is served together: loads of memory, of the constant path or of one
compressed view, and at a bank loads, `LDFE.keep`s and atomics too (R158, R163). -/
def Acc.kin (a b : Acc) : Bool :=
  match a.op, b.op with
  | .load _ _ _ _ _ _, .load _ _ _ _ _ _ | .const _ _ none _, .const _ _ none _ | .ldfe _ _ true, .ldfe _ _ true => true
  | .view _ _ t _, .view _ _ u _ => t == u
  | .atom op, .atom op' => !op.isQueue && !op'.isQueue && (match a.tgt with
    | some (.spad _ _ _) => true
    | _ => false)
  | _, _ => false

/-- The accesses that are served in one request with an access: those of its instruction and pass that reach its sector or granule, or
that read its compressed view. -/
def State.mates (s : State) (id : Nat) (a : Acc) : List (Nat × Acc) :=
  if !a.kin a then [(id, a)]
  else s.acc.filter fun p => p.2.sameInstr a && p.2.kin a && p.2.lane / 32 == a.lane / 32 && p.2.acq == a.acq && (match p.2.tgt, a.tgt with
    | some x, some y => x.together y
    | none, none => p.2.park.isNone
    | _, _ => false)

/-- Loads of one request, landed one after another; none where one of them has to wait. -/
def State.landEach (m : Mates) (ans : RemoteAns) : List (Nat × Acc) → State → Landing
  | [], s => some s
  | p :: ps, s => match alGet? s.acc p.1 with
    | none => State.landEach m ans ps s
    | some a => (s.landOne p.1 a m ans).bind (State.landEach m ans ps)

/-- Accesses whose peer answers that they have parked there: they hold their threads no more, and what comes of them is late (R103,
R474). -/
def State.parkedAway (s : State) (ms : List (Nat × Acc)) : State :=
  ms.foldl (fun (t : State) p =>
    { t with acc := alMod t.acc p.1 fun a => { a with parked := true, hold := a.hold && a.op.holdsParked } }) s

/-- Whether an access is a `PROBE`. -/
def AccOp.isProbe : AccOp → Bool
  | .probe _ => true
  | _ => false

/-- Whether an access is at a peer. -/
def Acc.atPeer (a : Acc) : Bool := ((a.tgt.bind Target.loc?).map Loc.isPeer).getD false

/-- The landing of an access, `ans` being what a place outside the device answers; none where it has to wait. -/
def State.landAcc (s : State) (id : Nat) (ans : RemoteAns) : Landing :=
  match alGet? s.acc id with
  | none => none
  | some a =>
    if a.park.isSome ∨ s.dstLocked id a then none
    else if !a.bound then some (s.rebindEach a)
    else
      let ms := if a.op == .poll then [(id, a)] else s.mates id a
      if ans == .parked && a.atPeer && !a.op.isProbe then (if a.parked then none else some (s.parkedAway ms))
      else if a.op == .poll then s.landOne id a ⟨[a.lane], id⟩ ans
      else if !(ms.all fun p => s.accOpen p.1 p.2) || s.passBehind a || s.bankBehind a then none
      else State.landEach ⟨ms.map fun p => p.2.lane, (minBy? id (ms.map fun p => p.1)).getD id⟩ ans ms s

/-- What answers an access: nothing comes from a peer while the links are stopped (R447). -/
def State.answer (s : State) (l : Option Loc) (ans : RemoteAns) : RemoteAns :=
  if s.sec.linksDown && (l.map Loc.isPeer).getD false then .local else ans

/-- `LOAD_RESULT` (R167): an access whose turn it is lands. -/
def execLoadResult (id : Nat) (ans : RemoteAns) (s : State) : Out :=
  .next ((s.landAcc id (s.answer ((alGet? s.acc id).bind fun a => a.tgt.bind Target.loc?) ans)).getD s)

/-! ## The store buffer -/

/-- The issuer of a store in the buffer, by what the entry keeps: its group may have gone (R366). -/
def State.issuerOfStore (s : State) (x : SbEntry) : Issuer :=
  { s.issuerOf x.g x.lane 0 with slot := x.slot, core := some x.core, die := dieOf x.core }

/-- A store that walks again after a retry. -/
def State.rebindStore (s : State) (id : Nat) (x : SbEntry) : State :=
  match s.reach (s.issuerOfStore x) .store x.va x.bytes.length 1 0x094 false with
  | (.mem l h, s1) => { s1 with sb := alSet s1.sb id { x with loc := some l, home := h } }.dropL1 x.core l x.bytes.length
  | (.park p, s1) => { s1 with sb := alSet s1.sb id { x with park := some p, parked := true } }.parkFault p.slot x.core 0 p
  | (.wait, _) => s
  | (.fault c, s1) => s1.failedStore id x c
  | (_, s1) => s1.failedStore id x 0x093

/-- Whether a store has to wait for an earlier one to its bytes, for an earlier access of its thread to them (R164, R399), or for one
of the first 32 lanes of its instruction (R165). -/
def State.storeBehind (s : State) (id : Nat) (x : SbEntry) : Bool :=
  (s.sb.any fun q => decide (q.1 < id) && q.2.core == x.core && q.2.slot == x.slot &&
    (overlapLoc q.2.loc q.2.va q.2.bytes.length x.loc x.va x.bytes.length || (q.2.g == x.g && q.2.lane == x.lane &&
      overlapOwn q.2.park.isSome q.2.loc q.2.va q.2.bytes.length x.loc x.va x.bytes.length))) ||
  (s.acc.any fun p => decide (p.1 < id) && p.2.g == x.g && p.2.lane == x.lane && decide (0 < p.2.op.size) &&
    overlapOwn p.2.park.isSome (p.2.tgt.bind Target.loc?) p.2.va p.2.op.size x.loc x.va x.bytes.length) ||
  (decide (32 ≤ x.lane) && s.sb.any fun q => decide (q.1 < id) && q.2.g == x.g && q.2.pc == x.pc && q.2.cyc == x.cyc &&
    decide (q.2.lane < 32))

/-- A sector's bytes with a store's in it. -/
def storeInto (sec : List Byte) (p : Loc) (bs : List Byte) : List Byte :=
  sec.take (p.off % 64) ++ bs ++ sec.drop (p.off % 64 + bs.length)

/-- A store performed at its home (R119); none where it has to wait. A store that hits in an RDC updates its copy and raises the line's
retention by the hint (R123). -/
def State.drain (s : State) (id : Nat) (ans : RemoteAns) : Landing :=
  match alGet? s.sb id with
  | none => none
  | some x =>
    if x.park.isSome then none
    else match x.loc with
      | none => some (s.rebindStore id x)
      | some l =>
        if s.storeBehind id x then none
        else
          let gone := { s with sb := alDel s.sb id }
          match l, ans with
          | .node a, _ =>
            if s.ownedBy none a x.bytes.length then none
            else some ((gone.touchDie (dieOf x.core) x.home l x.l2 true).writeHome (some (dieOf x.core)) a x.bytes)
          | _, .local => none
          | q, .parked => if q.isPeer ∧ ¬ x.parked then some { s with sb := alSet s.sb id { x with parked := true } } else none
          | q, .refused => some (s.failedStore id x q.refusal)
          | q, .data _ =>
            some (gone.modDie (dieOf x.core) fun d => match cacheSector d.rdc q with
              | none => d
              | some sec => { d with rdc := cacheFill geoRdc d.rdc q ((retOf x.l2).getD 0) false (storeInto sec q x.bytes) })

/-- `STORE_BUFFER_DRAIN` (R164). -/
def execStoreBufferDrain (id : Nat) (ans : RemoteAns) (s : State) : Out := 
  .next ((s.drain id (s.answer ((alGet? s.sb id).bind fun x => x.loc) ans)).getD s)

/-! ## Late traps, recalls, soft errors, time-outs -/

/-- Whether the search for the handler of a trap has to wait for a line that a command owns (R127). -/
def State.trapWaits (s : State) (g l cause : Nat) : Bool :=
  decide ((s.thread g l).level.toNat < 2) && (s.handler g cause).1 == .wait

/-- Whether a thread's first waiting trap can be delivered. -/
def State.lateReady (s : State) (g l : Nat) : Bool :=
  (s.thread g l).wait.lasting == .none && !s.heldBy g l &&
    ((s.thread g l).late.head?).any fun x => (s.thread g l).exited || !s.trapWaits g l x.cause

/-- `LATE_TRAP` (R474): the first pending one, at the thread's next instruction. -/
def execLateTrap (g l : Nat) (s : State) : Out :=
  .next (if s.lateReady g l then s.deliverLate g l else s)

/-- `LINE_RECALL` (R126): the owning command writes what it has of the line next. -/
def execLineRecall (line : Nat) (s : State) : Out :=
  .next (match alGet? s.owners line with
    | some (id :: _) =>
      let front := fun (c : Cmd) (ps : List Piece) =>
        (ps.filter fun p => s.lineAt c.iss p.va == some line) ++ ps.filter fun p => s.lineAt c.iss p.va != some line
      { s with cmds := alMod s.cmds id fun c => { c with plan := c.plan.map (front c) } }
    | _ => s)

/-- A count that stays at 2^32 − 1 (R454). -/
def satInc (n : Nat) : Nat := min (n + 1) (2 ^ 32 - 1)

/-- `SOFT_ERROR_CORRECTED` (R128, R416): counted; a trap after the instruction whose access saw it has completed, where CETRAP is set. A
thread that its access still holds has not completed that instruction, and takes the trap after it. -/
def execSoftErrorCorrected (die g l : Nat) (s : State) : Out :=
  let s1 := s.modDie die fun d => { d with corrected := satInc d.corrected }
  .next (if (s.thread? g l).isSome ∧ ¬ (s.thread g l).exited ∧ bit (s.ctx (s.slotOf g)).tcfg 1 then
      if s.heldBy g l then s1.modThread g l fun t => { t with late := t.late ++ [⟨0x168, 0, s.nextId, [], .next⟩] }
      else s1.trap g l 0x168 0
    else s1)

/-- Whether a sector of a die's L2 is dirty. -/
def Die.dirtySector (d : Die) (sector : Nat) : Bool :=
  d.l2.any fun c => c.dirty.contains (sector % 2) && c.loc == (Loc.node (64 * sector)).line

/-- The sector that an uncorrected error of a die names: one of node space below 2^36, and beyond that a sector of a line of the RDC, by
twice the line's place there. -/
def Die.sectorAt (d : Die) (sector : Nat) : Option Loc :=
  if sector < 2 ^ 36 then some (.node (64 * sector))
  else (d.rdc[(sector - 2 ^ 36) / 2]?).map fun x => x.loc.add (64 * (sector % 2))

/-- `SOFT_ERROR_UNCORRECTED` (R128): a clean sector of L2 or the RDC is dropped, a dirty one of L2 is poisoned. -/
def execSoftErrorUncorrected (die sector : Nat) (s : State) : Out :=
  let s1 := s.modDie die fun d => { d with uncorrected := satInc d.uncorrected }
  .next (match (s.die die).sectorAt sector with
    | none => s
    | some l =>
      if sector < 2 ^ 36 ∧ (s.die die).dirtySector sector then
        { s1 with poison := if (alGet? s1.poison sector).isSome then s1.poison else alSet s1.poison sector s1.nextId }
      else s1.modDie die fun d => { d with l2 := cacheDrop d.l2 l, rdc := cacheDrop d.rdc l })

/-- `PEER_ACCESS_TIMEOUT` (R335): an access to a peer that had no response within LTMO ends with 0x088. -/
def execPeerAccessTimeout (id : Nat) (s : State) : Out :=
  .next (match alGet? s.acc id, alGet? s.sb id with
    | some a, _ =>
      if ((a.tgt.bind Target.loc?).map Loc.isPeer).getD false ∧ a.ns + s.ltmo ≤ s.ns then
        (match a.op with
          | .probe known => s.land id a [BitVec.ofNat 32 (known + 4 + 8 * 2 ^ 24)]
          | _ => s.endAcc id a 0x088 a.va)
      else s
    | none, some x =>
      if (x.loc.map Loc.isPeer).getD false ∧ x.ns + s.ltmo ≤ s.ns then s.failedStore id x 0x088 else s
    | none, none => s)

end Sys2Proof.Machine
end

