-- ==== Sys2Proof/Machine/LoadStore.lean ====
section
/-! DEFINITION. The load-store instructions, opcodes 0x80 to 0x8D (Table 7-1, R408). -/

namespace Sys2Proof.Machine

open Sys2Proof

/-! ## Forms -/

/-- The types of a load or store, default first (Table 7-1). -/
def tysLd : List Ty := [.n32, .s32, .n8, .s8, .n16, .s16, .n64, .s64]

/-- The count of a VAR's size field that a type allows: `.x2` and `.x4` on 32 bits, `.x2` on 64 (R165). -/
def countOk (ty : Ty) (k : Nat) : Bool := k == 0 || (tyBits ty == 32 && decide (k ≤ 2)) || (tyBits ty == 64 && k == 1)

/-- VAR of `LD` and `ST`: an undefined size field executes as 0, the ordering stays. -/
def varLd (f : Fields) : BitVec 4 := if countOk (effTy tysLd f) (fld f.var 2 2) then f.var else f.var &&& 3

/-- The registers that a count of a type spans. -/
def regsOf (ty : Ty) (k : Nat) : Nat := (if tyBits ty = 64 then 2 else 1) * 2 ^ k

/-- The data field of a store: any source for one register of data, otherwise a vector run. -/
def slData (n : Nat) : Slot := if n = 1 then ⟨.src, 1⟩ else ⟨.vec, n⟩

/-- The row of `LD`. -/
def specLd (f : Fields) : Spec :=
  { Spec.plain with
    types := tysLd, var := varLd f, d := ⟨.src, regsOf (effTy tysLd f) (fld (varLd f) 2 2)⟩, a := slPair, scope := some .thr,
    l1 := true, l2 := true, ord := some (true, false), imm := true }

/-- The row of `ST`. -/
def specSt (f : Fields) : Spec :=
  { Spec.plain with
    types := tysLd, var := varLd f, a := slPair, b := slData (regsOf (effTy tysLd f) (fld (varLd f) 2 2)),
    scope := some .thr, l2 := true, ord := some (false, true), imm := true }

/-- The bytes of an access of `n` registers of a type. -/
def Eff.accBytes (e : Eff) (n : Nat) : Nat := if tyBits e.ty < 32 then tyBits e.ty / 8 else 4 * n

/-- The data of a store: the low bytes of the registers of B. -/
def State.dataB (s : State) (g l : Nat) (e : Eff) : List Byte :=
  match e.b with
  | .v k => toBytes (e.accBytes e.nb) (ofBytes ((List.range e.nb).flatMap fun i => toBytes 4 ((s.thread g l).vreg (k.toNat + i)).toNat))
  | _ => toBytes (e.accBytes e.nb) (s.rdB g l e)

/-- Whether an access is of a form that the control path takes (R166). -/
def Eff.ctlForm (e : Eff) (bytes : Nat) : Bool := (e.ty == .n32 && bytes == 4) || (e.ty == .n64 && bytes == 8)

/-- A memory access waits for an unfinished acquire, and for its own release (R402, R403). -/
def memReady (e : Eff) (s : State) (g l : Nat) : Bool := readyAt e s g l e.rel (s.addrA g l e)

/-- The acquire of an instruction at an address, where it has one (R47). -/
def Eff.acqOf (e : Eff) (va : Dword) : Option Scope := if e.acq then some (scopeOn e.scope va) else none

/-! ## Loads and stores -/

/-- What a load of an address does as its result lands, by the address's path (R100). -/
def State.loadOp (s : State) (g : Nat) (e : Eff) (va : Dword) (n : Nat) (r : Rsv) : AccOp :=
  match fld va 60 4, r with
  | 4, .param off =>
    let ps := ((alGet? s.launches ((s.group? g).map (·.launch) |>.getD 0)).map (·.params)).getD []
    .const e.ty n (some ((List.range n).map fun i => ps.getD (off + i) 0)) e.l1
  | 4, _ => .const e.ty n none e.l1
  | 5, _ => .view e.ty n (fld va 44 16) (fld va 0 44)
  | _, _ => .load e.ty n (e.l1 == 1) false e.l1 e.l2

/-- `LD` (R169). -/
def execLd : Fields → State → Out :=
  issueThreads specLd memReady fun e s g l =>
    let va := s.addrA g l e
    let n := e.accBytes e.nd
    let acc := fun (op : AccOp) => { s.newAcc g l va op with dst := e.d.vregs e.nd, acq := e.acqOf va }
    match s.resolve g l .load va n n 0x094 (e.ctlForm n) with
    | (.ctl off, s1) =>
      if !s1.releaseReady g l .sys then .stay
      else match s1.ctlRead (s1.slotOf g) off n with
        | none => .trap 0x089 va
        | some (x, s2) => .ok (s2.addAcc (acc (.value (loadWords e.ty (toBytes n x)))))
    | (r, s1) =>
      let a := acc (s.loadOp g e va n r)
      s1.issueLoad a n a.past (some fun bs => .value (loadWords e.ty bs)) r

/-- `ST` (R170): it waits for room in the store buffer (R164). -/
def execSt : Fields → State → Out :=
  issueThreads specSt memReady fun e s g l =>
    let va := s.addrA g l e
    let bs := s.dataB g l e
    match s.resolve g l .store va bs.length bs.length 0x094 (e.ctlForm bs.length) with
    | (.fault c, _) => .trap c va
    | (.wait, _) => .stay
    | (.ctl off, s1) =>
      if !s1.releaseReady g l .sys then .stay
      else match s1.ctlWrite (s1.slotOf g) off bs.length (ofBytes bs) with
        | none => .trap 0x089 va
        | some s2 => .ok s2
    | (r, s1) => if s1.storeRoom g va r then .ok (s1.store g l [] va r bs e.l2 false) else .stay

/-! ## Full/empty access -/

/-- VAR of `LDFE` and `STFE`: `.x4` only on 32-bit types. -/
def varFe (f : Fields) : BitVec 4 :=
  let v := f.var &&& 3
  if fld f.var 2 2 ≠ 0 then v &&& (if tyBits (effTy tysLd f) = 32 then 3 else 1)
  else if tyBits (effTy tysLd f) = 32 then v else v &&& 1

/-- The registers of an `LDFE` or `STFE`. -/
def feRegs (f : Fields) : Nat :=
  if tyBits (effTy tysLd f) = 64 then 2 else if bit (varFe f) 1 then 4 else 1

/-- `LDFE` (R172): an acquire at its scope. -/
def execLdfe : Fields → State → Out :=
  issueThreads (fun f => { Spec.plain with
      types := tysLd, var := varFe f, d := ⟨.src, feRegs f⟩, a := slPair, scope := some .core, l2 := true, imm := true })
    memReady fun e s g l =>
      let va := s.addrA g l e
      let n := e.accBytes e.nd
      match s.resolve g l .fe va n n 0x094 false with
      | (.fault c, _) => .trap c va
      | (r, s1) => .ok (s1.issueAcc { s1.newAcc g l va (.ldfe e.ty n (bit e.var 0)) with
          dst := e.d.vregs e.nd, acq := some (scopeOn e.scope va) } r)

/-- Room for an `STFE`: its thread's acquires are complete and what its release covers is performed (R402), but for the
`STFE`s that still wait at a bank, which this one follows there (R173: the thread runs on). -/
def stfeReady (e : Eff) (s : State) (g l : Nat) : Bool :=
  !s.acqPending g l && s.readsBound g l && s.storesDone g l (scopeOn e.scope (s.addrA g l e))

/-- `STFE` (R173): a release at its scope. It waits at the bank behind its thread's waiting `STFE`s, and with `.wempty`
until the granule is empty. -/
def execStfe : Fields → State → Out :=
  issueThreads (fun f => { Spec.plain with
      types := tysLd, var := varFe f, a := slPair, b := slData (feRegs f), scope := some .core, l2 := true, imm := true,
      rels := true })
    stfeReady fun e s g l =>
      let va := s.addrA g l e
      let bs := s.dataB g l e
      match s.resolve g l .fe va bs.length bs.length 0x094 false with
      | (.fault c, _) => .trap c va
      | (.spad t i o, s1) =>
        let wempty := bit e.var 0
        if s1.stfeAhead g l s1.now || (wempty && (s1.spad t i).isFull o) then
          .ok (s1.addAcc { s1.newAcc g l va (.stfe bs wempty) with tgt := some (.spad t i o) })
        else .ok ((s1.modSpad t i fun x => (x.write o bs).setFull o true).defer g l)
      | (_, s1) => .ok s1

/-- `FECLR` (R174): it waits at the bank for its thread's earlier accesses to the granules, and the thread runs on (R173). -/
def execFeclr : Fields → State → Out :=
  issueThreads (fun f => { Spec.plain with
      types := [.n32], var := if f.var = 1 then 1 else 0, a := slPair, b := slSrc32, scope := some .core, l2 := true, imm := true })
    memReady fun e s g l =>
      let va := s.addrA g l e
      let n := s.rdB g l e
      if n = 0 then .ok s
      else match s.resolve g l .fe va n 16 0x094 false with
        | (.fault c, _) => .trap (if c = 0x082 ∧ n % 16 ≠ 0 ∧ fld va 19 41 = 0 then 0x094 else c) va
        | (.spad t i o, s1) =>
          if n % 16 ≠ 0 then .trap 0x094 va
          else if s1.earlierSame g l s1.now (some (.spad t i o)) va n then
            .ok (s1.addAcc { s1.newAcc g l va (.feclr n e.v0) with tgt := some (.spad t i o) })
          else .ok ((s1.modSpad t i fun x => x.setRange o n e.v0).defer g l)
        | (_, s1) => .ok s1

/-! ## Prefetch and probe -/

/-- A sector asked for by a `PREF` of a thread: one of node space comes at once, unless a command owns it or it is poisoned; one
from outside the device when its answer does (R175). -/
def State.prefSector (s : State) (g l : Nat) (va : Dword) (e : Eff) (p : Loc) (home : Nat) (const : Bool) : State :=
  match p with
  | .node a =>
    if s.ownedBy none a 64 || s.poisoned a 64 then s
    else s.prefetched (s.coreOf g) (s.slotOf g) va p home const e.l1 e.l2 (s.readNode a 64)
  | _ => s.addAcc { s.newAcc g l va (.pref e.l1 e.l2) with tgt := some (.mem p), home := home }

/-- The two sectors of the line of a place that a `PREF` names. -/
def State.prefLine (s : State) (g l : Nat) (va : Dword) (e : Eff) (p : Loc) (home : Nat) (const : Bool) : State :=
  let va0 := va - BitVec.ofNat 64 (p.off % 128)
  (s.prefSector g l va0 e p.line home const).prefSector g l (va0 + 64) e (p.line.add 64) home const

/-- `PREF` (R175): the line comes into caches, or nothing happens. -/
def execPref : Fields → State → Out :=
  issueThreads (fun _ => { Spec.plain with types := [.n32], a := slPair, l1 := true, l2 := true, imm := true }) always fun e s g l =>
    let va := s.addrA g l e
    match s.resolve g l .load va 1 1 0x094 false with
    | (.mem p h, s1) => .ok (s1.prefLine g l va e p h false)
    | (.const p h, s1) => .ok (s1.prefLine g l va e p h true)
    | _ => .ok s

/-- The leaf of a generic address, where it has one. -/
def State.leafOf (s : State) (g : Nat) (va : Dword) : Option (BitVec 128) :=
  match (s.tlbOrWalk (some (s.coreOf g)) (dieOf (s.coreOf g)) (s.slotOf g) va.toNat).2 with
  | .leaf e _ _ => some e
  | _ => none

/-- The bits of a `PROBE` that the address alone gives: PATH and, on the generic path, what its leaf says (Table 7-2). -/
def State.probeKnown (s : State) (g : Nat) (va : Dword) : Nat :=
  let path := fld va 60 4
  path * 16 + (match if path = 0 ∧ fld va 56 4 = 0 then s.leafOf g va else none with
    | some e => fld e 2 3 * 2 ^ 8 + leafHome e va.toNat * 2 ^ 11 + fld e 11 2 * 2 ^ 14
    | none => 0)

/-- OK of a `PROBE`, and FATAL with CAUSE (Table 7-2). -/
def probeFatal (cause : Nat) : Nat := 4 + (cause - 0x80) * 2 ^ 24

/-- What a `PROBE` finds at an address that is not outside the device: OK, PARK, FATAL with CAUSE, and FULL (Table 7-2); none where it
waits. One of the compressed view is of one element. -/
def State.probe (s : State) (g l : Nat) (va : Dword) (wr : Bool) (r : Rsv) : Option Nat :=
  match r with
  | .fault c => some (probeFatal c)
  | .park _ => some 2
  | .wait => none
  | .view tid idx =>
    let v := (s.viaWalker g l s.now).forView []
    (match (do
        let ts ← v.bindAll tid
        let t := ts.headD ⟨0, 0, []⟩
        (v.forView ts).viewBytes t idx (max 1 (fmtBits (recFmt t.r) / 8)) va : Wk (List Byte)) s with
      | .ok _ _ => some 1
      | .error (.fault c _) _ => some (probeFatal c)
      | .error (.park _) _ => some 2
      | .error .wait _ => none)
  | .ctl off =>
    let open' := if wr then (s.ctlWrite (s.slotOf g) (off / 4 * 4) 4 0).isSome else (s.ctlRead (s.slotOf g) (off / 4 * 4) 4).isSome
    some (if open' then 1 else probeFatal 0x089)
  | .spad t i o => some (1 + b2n ((s.spad t i).isFull o) * 2 ^ 16)
  | _ => some 1

/-- `PROBE` (R177): a place outside the device answers it. -/
def execProbe : Fields → State → Out :=
  issueThreads (fun f => { Spec.plain with
      types := [.n32], var := if f.var = 1 then 1 else 0, d := slSrc32, a := slPair, l2 := true, imm := true }) always fun e s g l =>
    let va := s.addrA g l e
    let known := s.probeKnown g va
    let acc := fun (op : AccOp) (t : Option Target) => s.addAcc { s.newAcc g l va op with tgt := t, dst := e.d.vregs 1 }
    let here := fun (r : Rsv) => match s.probe g l va e.v0 r with
      | none => Res.stay
      | some x => .ok (acc (.value [BitVec.ofNat 32 (x + known)]) none)
    match (s.resolve g l (if e.v0 then .store else .load) va 1 1 0x094 true).1 with
    | .mem p h => if p.untracked then .ok (acc (.probe known) (some (.mem p))) else here (.mem p h)
    | r => here r

/-! ## Atomics (R178 to R180) -/

/-- The types of an atomic operation, default first (Table 7-3). -/
def tysAtom (code : Nat) : List Ty :=
  match code with
  | 1 | 2 => [.s32, .n32, .s64, .n64]
  | 3 | 4 | 5 | 6 => [.n32, .n64]
  | 7 | 8 => [.n32]
  | 9 => [.f32, .f16, .bf16]
  | 10 => [.f32, .f16, .bf16, .s32, .n32, .s64, .n64]
  | _ => [.n32, .s32, .n64, .s64]

/-- The operation that IMM[19:16] names; an undefined one is `.add`. -/
def atomCode (red : Bool) (f : Fields) : Nat :=
  let c := fld f.imm 16 4
  if c < 10 ∨ (red ∧ c = 10) then c else 0

/-- The operand field of an atomic: 64-bit data must be a vector pair. -/
def slAtom (ty : Ty) : Slot := if tyBits ty = 64 then ⟨.vec, 2⟩ else ⟨.src, 1⟩

/-- The row of `ATOM` and `RED`. -/
def specAtom (red : Bool) (f : Fields) : Spec :=
  let code := atomCode red f
  let ty := effTy (tysAtom code) f
  { Spec.plain with
    types := tysAtom code, var := f.var &&& 3, d := if red then slNone else slSrc, a := slPair, b := slAtom ty,
    scope := some .thr, l2 := true, ord := some (!red, true), imm := true,
    warn := BitVec.ofNat 16 (b2n (code != fld f.imm 16 4) * 16 + b2n (fld f.imm 20 12 != 0) * 32768) }

/-- The address of an atomic whose operation lies in IMM. -/
def State.addrAtom (s : State) (g l : Nat) (e : Eff) : Dword :=
  BitVec.ofNat 64 (s.rdA g l e) + sext64 16 (fld e.imm 0 16)

/-- An `ATOM` or `RED` waits as `memReady` says. -/
def atomReady (e : Eff) (s : State) (g l : Nat) : Bool := readyAt e s g l e.rel (s.addrAtom g l e)

/-- An atomic or queue operation of a thread made outstanding; its sectors leave the core's L1 (R162). A queue operation holds its
thread until it is performed, so that a malformed queue traps precisely (R181, log 74). -/
def State.issueAtom (s : State) (g l : Nat) (va : Dword) (op : AtomOp) (n align : Nat) (e : Eff) (dst : List Nat)
    (cc : Option (BitVec 2)) : Res :=
  let acc := { s.newAcc g l va (.atom op) with dst := dst, cc := cc, acq := e.acqOf va, hold := op.isQueue, l2 := e.l2 }
  match s.resolve g l .atomic va n align 0x094 false with
  | (.fault c, _) => .trap c va
  | (.wait, _) => .stay
  | (r, s1) =>
    if s1.rsvPoisoned r n then .trap 0x169 va
    else
      let s2 := match r with
        | .mem p _ => s1.dropL1 (s1.coreOf g) p n
        | _ => s1
      .ok (s2.issueAcc acc r)

/-- `ATOM` (R178). -/
def execAtom : Fields → State → Out := fun f =>
  issueThreads (specAtom false) atomReady (fun e s g l =>
    let n := tyBits e.ty / 8
    s.issueAtom g l (s.addrAtom g l e) (.rmw (atomCode false f) e.ty (BitVec.ofNat 64 (s.rdB g l e))) n n e (e.d.vregs e.nd) none) f

/-- `RED` (R178, R180). -/
def execRed : Fields → State → Out := fun f =>
  issueThreads (specAtom true) atomReady (fun e s g l =>
    let b := BitVec.ofNat 64 (s.rdB g l e)
    let code := atomCode true f
    if code = 10 then
      s.issueAtom g l (s.addrAtom g l e) (.padd e.ty b (modeFtzi (s.mode g))) 64 64 e [] none
    else
      let n := tyBits e.ty / 8
      s.issueAtom g l (s.addrAtom g l e) (.rmw code e.ty b) n n e [] none) f

/-- `ATOMC` (R179). -/
def execAtomc : Fields → State → Out :=
  issueThreads (fun f =>
      let ty := effTy [.n32, .s32, .n64, .s64] f
      { Spec.plain with
        types := [.n32, .s32, .n64, .s64], var := f.var &&& 3, d := slSrc, a := slPair, b := slAtom ty, c := slAtom ty,
        scope := some .thr, l2 := true, ord := some (true, true), imm := true }) memReady fun e s g l =>
    let n := tyBits e.ty / 8
    s.issueAtom g l (s.addrA g l e)
      (.cas e.ty (BitVec.ofNat 64 (s.rdB g l e)) (BitVec.ofNat 64 (s.rdC g l e))) n n e (e.d.vregs e.nd) none

/-! ## Work queues (R181 to R183) -/

/-- The row of a queue operation. -/
def specQueue (d b : Slot) (f : Fields) : Spec :=
  { Spec.plain with
    types := [.n64], var := f.var &&& 3, d := d, a := slPair, b := b, c := slCc, outC := true, scope := some .thr, l2 := true,
    ord := some (true, true), imm := true }

/-- The cc register that field C names. -/
def Eff.ccC (e : Eff) : Option (BitVec 2) :=
  match e.c with
  | .cc n => some n
  | _ => none

/-- `QPUSH` (R182). -/
def execQpush : Fields → State → Out :=
  issueThreads (specQueue slNone ⟨.vec, 2⟩) memReady fun e s g l =>
    s.issueAtom g l (s.addrA g l e) (.push (BitVec.ofNat 64 (s.rdB g l e))) 16 16 e [] e.ccC

/-- `QPOP` (R182). -/
def execQpop : Fields → State → Out :=
  issueThreads (specQueue slSrc64 slNone) memReady fun e s g l =>
    s.issueAtom g l (s.addrA g l e) .pop 16 16 e (e.d.vregs 2) e.ccC

/-- `QSTEAL` (R182). -/
def execQsteal : Fields → State → Out :=
  issueThreads (specQueue slSrc64 slNone) memReady fun e s g l =>
    s.issueAtom g l (s.addrA g l e) .steal 16 16 e (e.d.vregs 2) e.ccC

/-! ## FENCE (R408) -/

/-- The acquire and release halves of a `FENCE`. -/
def fenceHalves (v : BitVec 4) : Bool × Bool :=
  match fld v 0 2 with
  | 1 => (true, false)
  | 2 => (false, true)
  | _ => (true, true)

/-- `FENCE` (R408): it waits until what its halves order is performed, then drops what an acquire drops. -/
def execFence : Fields → State → Out :=
  issueThreads (fun f => { Spec.plain with var := f.var &&& 7, scope := some .grp, rels := (fenceHalves f.var).2 })
    (fun e s g l =>
      let (a, r) := fenceHalves e.var
      !s.acqPending g l && (!a || s.readsBound g l) && (!r || s.releaseReady g l e.scope))
    fun e s g l =>
      let (a, _) := fenceHalves e.var
      let s1 := if a then s.acquired g l e.scope else s
      .ok (if a ∧ bit e.var 2 then s1.modCore (s1.coreOf g) fun c => { c with l1 := [] } else s1)

end Sys2Proof.Machine
end

