-- ==== Sys2Proof/Machine/Control.lean ====
section
/-! DEFINITION. The control instructions, opcodes 0x68 to 0x70 (Table 15-2): branches, calls and the return stack,
meetings, and exit. -/

namespace Sys2Proof.Machine

open Sys2Proof

/-- The row of a control instruction whose IMM is a target (Table 15-2). -/
def specTarget (_ : Fields) : Spec := { Spec.plain with imm := true }

/-- The row of a control instruction whose A is a pair. -/
def specPairA (_ : Fields) : Spec := { Spec.plain with a := slPair }

/-- The target of a code address in the word (R33). -/
def Eff.target (e : Eff) (pc : Dword) : Dword := pc + BitVec.ofInt 64 (16 * toSigned 32 e.imm.toNat)

/-- `BRA` (R355). -/
def execBra : Fields → State → Out :=
  issueThreads specTarget always fun e s g l => .goto s (e.target (s.thread g l).pc)

/-- `BRX` (R356): a misaligned target traps at the instruction. -/
def execBrx : Fields → State → Out :=
  issueThreads specPairA always fun e s g l =>
    let t := BitVec.ofNat 64 (s.rdA g l e)
    if fld t 0 4 ≠ 0 then .trap 0x004 t else .goto s t

/-- The spill address of return-stack entry `n` of a thread (R359). -/
def State.spillAddr (s : State) (g l n : Nat) : Dword :=
  let h := ((s.group? g).map (·.home)).getD ⟨0, 0, 0⟩
  (s.ctx (s.slotOf g)).rstkbase +
    BitVec.ofNat 64 (((h.core * 64 + h.quarter * 16 + h.slot) * 64 + l) * 2048 + 8 * n)

/-- A spilled entry of a return stack: from the store buffer where its store is still there, or else from its spill address. -/
def State.spilled (s : State) (g l n : Nat) : Got × State :=
  let va := s.spillAddr g l n
  match (s.sb.filter fun p => p.2.spill && p.2.g == g && p.2.lane == l && p.2.va == va).getLast? with
  | some q => (.ok q.2.bytes, s)
  | none => s.readVa none (dieOf (s.coreOf g)) (s.slotOf g) va 8

/-- The lowest `n` entries of a thread's return stack joined to the held ones (R360); a fault on the read of one kills the
context, as every fault on a save does (R439). None where one waits for a line that a command owns (R127). -/
def State.gatherStack (s : State) (g l : Nat) : Nat → Option State
  | 0 => some s
  | n + 1 => match s.spilled g l n with
    | (.ok bs, s1) => (s1.modThread g l fun t => { t with rs := t.rs ++ [BitVec.ofNat 64 (ofBytes bs)] }).gatherStack g l n
    | (.wait, _) => none
    | (_, s1) => some (s1.kill (s1.slotOf g) 0x164 0 (some ⟨g, l, (s1.thread g l).pc, s1.spillAddr g l n⟩))

/-- Every return-stack entry of a group's threads placed with its save image (R360). -/
def State.gatherStacks (s : State) (g : Nat) : Option State :=
  ((List.range (((s.group? g).map fun x => x.lanes.length).getD 0)).foldl (fun (t : Option State) l => t.bind fun u =>
    u.gatherStack g l ((u.thread g l).depth.toNat - (u.thread g l).rs.length)) (some s)).map fun s1 =>
      { s1 with sb := s1.sb.filter fun p => !(p.2.spill && p.2.g == g) }

/-- One entry of a restored stack written at its spill address; a fatal fault is 0x148 at the thread's first instruction
(R360). One that waits for a line of the page table is translated as it drains (R127). -/
def State.spreadEntry (s : State) (g l n : Nat) (x : Dword) : State :=
  let va := s.spillAddr g l n
  match s.resolve g l .store va 8 8 0x094 false with
  | (.fault _, s1) =>
    let (id, s2) := s1.fresh
    s2.lateFault id g l 0x148 va []
  | (.wait, s1) => s1.bufferStore g l [] va none 0 (toBytes 8 x.toNat) 0 true none
  | (r, s1) => s1.store g l [] va r (toBytes 8 x.toNat) 0 true

/-- The entries below the top 16 of a restored group's stacks written at the spill addresses of its place (R360, R442). -/
def State.spreadStacks (s : State) (g : Nat) : State :=
  (List.range (((s.group? g).map fun x => x.lanes.length).getD 0)).foldl (fun (t : State) l =>
    let rs := (t.thread g l).rs
    if rs.length ≤ 16 then t
    else
      ((rs.drop 16).zipIdx.foldl (fun (u : State) (p : Dword × Nat) => u.spreadEntry g l (rs.length - 17 - p.2) p.1) t).modThread g l
        fun u => { u with rs := rs.take 16 }) s

/-- A fatal cause of a spill or refill: 0x148, but for the non-fatal fault of a handler (R360, R420). -/
def spillCause (c : Nat) : Nat := if c = 0x098 then 0x098 else 0x148

/-- A call (R357, R359): the return address is pushed, the entry that leaves the held top is stored at its spill
address, after the thread's unfinished acquires (R403). -/
def doCall (s : State) (g l : Nat) (target : Dword) : Res :=
  let t := s.thread g l
  let d := t.depth.toNat
  let push := fun (x : State) => x.modThread g l fun u =>
    { u with rs := ((u.pc + 16) :: u.rs).take 16, depth := u.depth + 1 }
  if d = 255 ∨ (16 ≤ d ∧ (s.ctx (s.slotOf g)).rstkbase = 0) then .trap 0x149 (BitVec.ofNat 64 d)
  else if d < 16 then .goto (push s) target
  else if s.acqPending g l then .stay
  else
    let va := s.spillAddr g l (d - 16)
    match s.resolve g l .store va 8 8 0x094 false with
    | (.fault c, _) => .trap (spillCause c) va
    | (.wait, _) => .stay
    | (r, s1) => if !s1.storeRoom g va r then .stay else .goto (push (s1.store g l [] va r (toBytes 8 (t.rs.getLast?.getD 0).toNat) 0 true)) target

/-- `CALL` (R357). -/
def execCall : Fields → State → Out :=
  issueThreads specTarget always fun e s g l => doCall s g l (e.target (s.thread g l).pc)

/-- `CALLX` (R357): the target is checked before the push. -/
def execCallx : Fields → State → Out :=
  issueThreads specPairA always fun e s g l =>
    let t := BitVec.ofNat 64 (s.rdA g l e)
    if fld t 0 4 ≠ 0 then .trap 0x004 t else doCall s g l t

/-- `RET` (R358, R359): the top is popped; the entry that returns to the held top is loaded back, and the thread issues
nothing before it has landed; that load too comes after the thread's unfinished acquires (R403). -/
def execRet : Fields → State → Out :=
  issueThreads (fun _ => Spec.plain) always fun _ s g l =>
    let t := s.thread g l
    let d := t.depth.toNat
    let pc := t.rs.headD 0
    let pop := fun (x : State) => x.modThread g l fun u =>
      { u with rs := u.rs.drop 1, depth := u.depth - 1, noRegion := u.noRegion || decide (d - 1 < u.rgnDepth.toNat) }
    if d = 0 then .trap 0x14A 0
    else if d < 17 then .goto (pop s) pc
    else if s.acqPending g l then .stay
    else
      let va := s.spillAddr g l (d - 17)
      let a := { s.newAcc g l va (.refill (t.pc, t.depth, t.rs, t.noRegion)) with hold := true }
      match s.resolve g l .load va 8 8 0x094 false with
      | (.fault c, _) => .trap (spillCause c) va
      | (.wait, _) => .stay
      | (r, s1) => .goto (pop (s1.issueAcc a r)) pc

/-! ## Meetings (R361 to R365) -/

/-- Whether a thread belongs to a meeting set (R362). A thread that took a trap keeps its place in the set, by the MV that
its banks hold (R363, R365). -/
def Thread.meets (t : Thread) (addr : Dword) (depth : BitVec 8) : Bool :=
  !t.exited && t.mr.addr == addr && t.mr.depth == depth &&
    (t.mr.valid || (decide (1 ≤ t.level.toNat) && bit t.bank1.stat 2) ||
      (decide (2 ≤ t.level.toNat) && bit t.bank2.stat 2))

/-- Whether a thread is held at a meeting. -/
def Thread.isHeld (t : Thread) : Bool :=
  match t.wait with
  | .meeting _ _ => true
  | _ => false

/-- Whether the meeting of a held thread is complete: every member of its set has arrived. -/
def meetComplete (ts : List Thread) (t : Thread) : Bool :=
  ts.all fun u => !u.meets t.mr.addr t.mr.depth || u.isHeld

/-- A thread released by the completion of its meeting: `WAITM` reports Z (R362, R364). -/
def Thread.release (t : Thread) (cycle : Nat) : Thread :=
  let t1 : Thread := { t with mr := { t.mr with valid := false }, wait := .none, notBefore := max t.notBefore (cycle + 1) }
  match t.wait with
  | .meeting _ (some cc) => t1.setFlags cc (mkFlags false true false false)
  | _ => t1

/-- Every complete meeting of a group released, in one cycle (R362). -/
def State.releaseMeets (s : State) (g : Nat) : State :=
  s.modGroup g fun x =>
    { x with lanes := x.lanes.map fun t => if t.isHeld && meetComplete x.lanes t then t.release s.cycle else t }

/-- What follows the issue of an instruction of the current group. -/
def afterIssue (k : State → Nat → State) (o : Out) (s : State) : Out :=
  match o, s.cur with
  | .next t, some i => .next (k t i.g)
  | o, _ => o

/-- `MEET` (R361). -/
def execMeet (f : Fields) (s : State) : Out :=
  afterIssue State.releaseMeets (issueThreads specTarget always (fun e s g l =>
    .ok (s.modThread g l fun t => { t with mr := ⟨e.target t.pc, t.depth, true⟩ })) f s) s

/-- `MEET.clr` (R361). -/
def execMeetClr (f : Fields) (s : State) : Out :=
  afterIssue State.releaseMeets (issueThreads (fun _ => { Spec.plain with var := 1 }) always (fun _ s g l =>
    .ok (s.modThread g l fun t => { t with mr := { t.mr with valid := false } })) f s) s

/-- Whether a thread at a `SYNCM` or `WAITM` arrives at its meeting (R362). -/
def Thread.arrives (t : Thread) : Bool := t.mr.valid && t.mr.addr == t.pc && t.mr.depth == t.depth

/-- `SYNCM` (R363). -/
def execSyncm (f : Fields) (s : State) : Out :=
  afterIssue State.releaseMeets (issueThreads (fun _ => Spec.plain) always (fun _ s g l =>
    .ok (if (s.thread g l).arrives then s.modThread g l fun t => { t with wait := .meeting none none } else s)) f s) s

/-- `WAITM` (R364). -/
def execWaitm (f : Fields) (s : State) : Out :=
  afterIssue State.releaseMeets (issueThreads (fun _ => { Spec.plain with d := slCc, a := slSrc32 }) always
    (fun e s g l =>
      let n := s.rdA g l e
      let cc : Option (BitVec 2) := match e.d with
        | .cc k => some k
        | _ => none
      .ok (if (s.thread g l).arrives then
          s.modThread g l fun t => { t with wait := .meeting (some (s.cycle + n)) cc }
        else s.modThread g l fun t => t.writeCc e.d (mkFlags false false true false))) f s) s

/-- `WAITM_TIMEOUT` (R364): the thread leaves the set at its deadline, reports V and goes on alone; a meeting that its
leaving completes is released in the same cycle. -/
def execWaitmTimeout (g l : Nat) (s : State) : Out :=
  match (s.thread g l).wait with
  | .meeting (some d) cc =>
    if s.cycle < d then .next s
    else
      .next ((s.modThread g l fun t =>
        let t1 : Thread := { t with mr := { t.mr with valid := false }, wait := .none, notBefore := max t.notBefore (s.cycle + 1) }
        match cc with
        | some k => t1.setFlags k (mkFlags false false false true)
        | none => t1).releaseMeets g)
  | _ => .next s

/-! ## Exit (R366) -/

/-- Whether a spawn record names a join word (R386). -/
def SpawnRec.joins (r : SpawnRec) : Bool := r.join.isSome || r.joinAddr != 0

/-- The join word of an exiting thread: as its record bound it, or, where that translation has been dropped, checked and translated as an
access of the thread (R112, R386). -/
def State.joinAt (s : State) (g l : Nat) (r : SpawnRec) : Rsv × State :=
  match r.join with
  | some (.mem p, h) => (.mem p h, s)
  | some (.spad t i o, _) => (.spad t i o, s)
  | none => s.resolve g l .atomic r.joinAddr 8 8 0x094 false

/-- The count of a join word lowered at its home by an atomic step of a core (R391); bits [63:32] are kept. -/
def State.decJoin (s : State) (core : Nat) (t : Target) (home : Nat) : State :=
  match s.targetNat t 4 with
  | some c => (s.atomicDrop core t 4).targetWrite home t 0 (toBytes 4 (c - 1))
  | none => s

/-- The lowering of an exiting thread's join word: at its home on the device, or by an access that is answered from outside; a fatal
cause traps at the `EXIT`, and a word that cannot be changed yet holds it. -/
def State.lowerJoin (s : State) (g l : Nat) (r : SpawnRec) (k : State → Res) : Res :=
  let a := fun t : State => t.newAcc g l r.joinAddr (.atom (.rmw 8 .n32 0xFFFFFFFF))
  match s.joinAt g l r with
  | (.fault c, _) => .trap c r.joinAddr
  | (.wait, _) => .stay
  | (.park p, s1) => k ((s1.addAcc { a s1 with park := some p, parked := true }).parkFault p.slot (s1.coreOf g) 0 p)
  | (q, s1) => match q.target? with
    | none => k s1
    | some (j, h) =>
      if s1.targetOwned j 4 || s1.bufferedBefore (s1.coreOf g) (s1.slotOf g) s1.now j.loc? r.joinAddr 4 then .stay
      else if s1.targetPoisoned j 4 then .trap 0x169 r.joinAddr
      else if (s1.targetNat j 4).isSome then k (s1.decJoin (s1.coreOf g) j h)
      else k (s1.addAcc { a s1 with tgt := some j, home := h })

/-- Whether a thread is the last of its group and a matrix operation still locks the group's registers or writes its tiles, so that
its exit waits (R323). -/
def Group.exitWaits (x : Group) (l : Nat) : Bool :=
  (x.locks != [] || x.tileOut != []) && x.lanes.zipIdx.all fun p => p.2 == l || p.1.exited

/-- The spawn record of a thread that has a join word to lower. -/
def Thread.join? (t : Thread) : Option SpawnRec := t.spawn.filter fun r => r.joins

/-- `EXIT` (R366): the thread retires and leaves its meeting; a spawned one lowers its join word, as a release at the
record's scope (R391). It is in no region from then on, and a deferral that it holds stays (R168, R434). -/
def execExit (f : Fields) (s : State) : Out :=
  afterIssue State.releaseMeets (issueThreads (fun _ => Spec.plain)
    (fun _ s g l => match (s.thread g l).join? with
      | some r => s.releaseReady g l r.scope
      | none => true)
    (fun _ s g l =>
      let fin := fun t : State => Res.ok (t.modThread g l fun u => { u with exited := true, noRegion := true, late := [] })
      if ((s.group? g).map fun x => x.exitWaits l).getD false then .stay
      else match (s.thread g l).join? with
        | some r => s.lowerJoin g l r fun t => fin (t.released g l)
        | none => fin s) f s) s

end Sys2Proof.Machine
end

