-- ==== Sys2Proof/Machine/Piece.lean ====
section
/-! DEFINITION. `RACQ` and `RREL`: pieces of a team's reservation (R23, R24, R232 to R238). -/

namespace Sys2Proof.Machine

open Sys2Proof

/-! ## Reservations -/

/-- The file of a range by its kind: 0 vreg, 1 tile, 2 preg. -/
def slRange (kind : Nat) : Slot := ⟨.range, kind + 1⟩

/-- The number of the register that an operand names. -/
def opndIndex : Opnd → Nat
  | .v n => n.toNat
  | .a n => n.toNat
  | .p n => n.toNat
  | _ => 0

/-- The limits of Table 9-4 on a range; kind 3 is scratchpad with `k` bytes. -/
def rangeOk (kn : Kernel) (kind n k : Nat) : Bool :=
  match kind with
  | 0 => n % 8 == 0 && k % 8 == 0 && decide (kn.regs ≤ n) && decide (8 ≤ k) && decide (n + k ≤ 256)
  | 1 => decide (1 ≤ k) && decide (n + k ≤ 16)
  | 2 => decide (kn.acc ≤ n) && decide (1 ≤ k) && decide (n + k ≤ 16)
  | _ => k % 1024 == 0 && decide (1024 ≤ k) && decide (k ≤ 524288)

/-- The extended vector registers mapped at group entry (R235). -/
def Kernel.entryRegs (kn : Kernel) : Nat := if kn.width = 0 then 0 else min (kn.extF / (32 * kn.width) * 8) (256 - kn.regs)

/-- The bytes of `.ext` that a group holds: its fixed part and the charge of what it mapped beyond (R234, R235). -/
def Group.extHeld (x : Group) (kn : Kernel) : Nat :=
  kn.extF - kn.entryRegs * x.width * 4 + x.extV.length * x.width * 4 + x.extP.length * x.width * 64

/-- The groups of a team on one of its cores. -/
def State.teamSide (s : State) (team side : Nat) : List Group :=
  (s.groups.filter fun p => p.2.team == some team && s.sideOf p.1 == side).map fun p => p.2

/-- The bytes of `.ext` and the tile slots that are held on a core of a team. -/
def State.held (s : State) (team side : Nat) : Nat × Nat :=
  match alGet? s.teams team with
  | none => (0, 0)
  | some t =>
    let gone := if side = 0 then t.gone0 else t.gone1
    (s.teamSide team side).foldl (fun h x => (h.1 + x.extHeld (s.kernelOf t.launch), h.2 + x.tiles.length)) gone

/-- The lowest run of unmapped bytes beyond the fixed part of a reservation. -/
def Spad.lowestRun (x : Spad) (kn : Kernel) (b : Nat) : Option Nat :=
  minBy? id ((kn.scrF :: x.mapped.map fun r => r.1 + r.2).filter fun o =>
    decide (o + b ≤ kn.scrB) && !x.mapped.any fun r => decide (r.1 < o + b) && decide (o < r.1 + r.2))

/-- Whether a reservation holds the charge of a request (R234). -/
def State.holds (s : State) (team side kind k width : Nat) : Bool :=
  match alGet? s.teams team with
  | none => false
  | some t =>
    let kn := s.kernelOf t.launch
    let h := s.held team side
    match kind with
    | 0 => decide (h.1 + k * width * 4 ≤ kn.extB)
    | 1 => decide (h.2 + k ≤ kn.ply)
    | 2 => decide (h.1 + k * width * 64 ≤ kn.extB)
    | _ => ((s.spad team side).lowestRun kn k).isSome

/-- Whether a register of a kind is mapped to a group. -/
def State.pieceMapped (s : State) (g kind n : Nat) : Bool :=
  match kind with
  | 0 => s.vMapped g n
  | 1 => s.tMapped g n
  | _ => s.pMapped g n

/-- A range of registers mapped with its first values (R234). -/
def Group.mapRange (x : Group) (kind n k : Nat) : Group :=
  let rs := (List.range k).map fun i => n + i
  match kind with
  | 0 =>
    { x with
      extV := x.extV ++ rs
      tags := rs.foldl (fun m r => alSet m r .uniform) x.tags
      tagWait := x.tagWait.filter fun w => !rs.contains w.1
      lanes := x.lanes.map fun t => { t with v := t.v.filter fun p => !rs.contains p.1 } }
  | 1 => { x with tiles := rs.foldl (fun m r => alSet m r (⟨0, [], none⟩ : Tile)) x.tiles }
  | _ => { x with extP := x.extP ++ rs, p := x.p.filter fun q => !rs.contains q.1 }

/-- A range of registers unmapped; its values are lost (R236). -/
def Group.unmapRange (x : Group) (kind n k : Nat) : Group :=
  let rs := (List.range k).map fun i => n + i
  match kind with
  | 0 =>
    { x with
      extV := x.extV.filter fun r => !rs.contains r
      tags := x.tags.filter fun p => !rs.contains p.1
      lanes := x.lanes.map fun t => { t with v := t.v.filter fun p => !rs.contains p.1 } }
  | 1 => { x with tiles := x.tiles.filter fun p => !rs.contains p.1 }
  | _ => { x with extP := x.extP.filter fun r => !rs.contains r, p := x.p.filter fun q => !rs.contains q.1 }

/-- A run of scratchpad mapped, its bytes 0 and its granules full (R159, R234). -/
def Spad.mapRun (x : Spad) (o b : Nat) : Spad :=
  { bytes := x.bytes.filter fun p => !(decide (o ≤ p.1) && decide (p.1 < o + b))
    empties := x.empties.filter fun k => !(decide (o ≤ 16 * k) && decide (16 * k < o + b))
    mapped := x.mapped ++ [(o, b)]
    came := x.came.filter fun p => !(decide (o ≤ 16 * p.1) && decide (16 * p.1 < o + b)) }

/-! ## Blocked requests (R24) -/

/-- Whether a blocked request still holds a thread. -/
def Group.racqLive (x : Group) (n : Nat) : Bool := x.lanes.any fun t => !t.exited && t.wait == .racq n

/-- The blocked requests of a core of a team, in order, that still hold a thread. -/
def State.blocked (s : State) (team side : Nat) : List (Nat × Nat × Racq) :=
  match alGet? s.teams team with
  | none => []
  | some t => (if side = 0 then t.wait0 else t.wait1).filterMap fun q =>
      (s.group? q.1).bind fun x => (alGet? x.racq q.2).bind fun r => if x.racqLive q.2 then some (q.1, q.2, r) else none

/-- The team with its requests on one core changed. -/
def State.modWaits (s : State) (team side : Nat) (f : List (Nat × Nat) → List (Nat × Nat)) : State :=
  { s with teams := alMod s.teams team fun t =>
      if side = 0 then { t with wait0 := f t.wait0 } else { t with wait1 := f t.wait1 } }

/-- A request withdrawn: the threads that it held are held no more. -/
def State.dropRequest (s : State) (team side g n : Nat) : State :=
  (s.modWaits team side fun l => l.filter fun q => !(q.1 == g && q.2 == n)).modGroup g fun x =>
    { x with racq := alDel x.racq n,
             lanes := x.lanes.map fun t => if t.wait = .racq n then { t with wait := .none } else t }

/-- Whether a blocked request would end now: it is the first of the team on its core and the reservation holds its charge, or a
register of its range has been mapped meanwhile (R24, R234). -/
def State.racqReady (s : State) (g n : Nat) : Bool :=
  match (s.group? g).bind fun x => (alGet? x.racq n).bind fun r => x.team.map fun t => (x.width, r, t) with
  | none => true
  | some (w, r, team) =>
    let side := s.sideOf g
    (decide (r.kind < 3) && (List.range r.count).any fun i => s.pieceMapped g r.kind (r.first + i)) ||
      (((s.blocked team side).head?.map fun q => q.1 == g && q.2.1 == n).getD true && s.holds team side r.kind r.count w)

/-- Whether a thread is blocked in a `RACQ` that does not end now. -/
def State.racqHeld (s : State) (g l : Nat) : Bool :=
  match (s.thread g l).wait with
  | .racq n => !s.racqReady g n
  | _ => false

/-- Whether every group of a team is blocked in `RACQ`, parked or exited, and no blocked request can end (R24). A group counts as
blocked when each of its unexited threads is blocked in `RACQ` (log 84). -/
def State.deadlocked (s : State) (team : Nat) : Bool :=
  ((s.groups.filter fun p => p.2.team == some team).all fun p =>
    p.2.place.isNone || p.2.lanes.all fun t => t.exited || (match t.wait with
      | .racq n => !s.racqReady p.1 n
      | _ => false))

/-- The traps of a deadlock: every blocked thread of the team whose guard passed (R24). -/
def State.breakDeadlock (s : State) (team : Nat) : State :=
  let all := ([0, 1] : List Nat).flatMap fun side => (s.blocked team side).map fun q => (side, q)
  let s1 := all.foldl (fun (t : State) q => t.dropRequest team q.1 q.2.1 q.2.2.1) s
  all.foldl (fun (t : State) q => t.trapEach q.2.1 (q.2.2.2.lanes.filter fun l => !(s.thread q.2.1 l).exited &&
    (s.thread q.2.1 l).wait == .racq q.2.2.1) 0x14C 0) s1

/-! ## The instructions -/

/-- The outcome of a `.try` in cc0 of every passing thread (R234). -/
def State.tryCc (s : State) (g : Nat) (act : List Nat) (isTry fail : Bool) : State :=
  if isTry then act.foldl (fun t l => t.modThread g l fun u => u.setFlags 0 (mkFlags false fail false false)) s else s

/-- A `.try` that is not granted: D is not written, and the passing threads go on (R226, R234). -/
def State.failTry (s : State) (g : Nat) (act : List Nat) (e : Eff) : Res :=
  .halt ((s.tryCc g act true true).passEach g act e.stall)

/-- A piece granted: charged and mapped; the offset of scratchpad goes to every passing lane (R234). -/
def State.grant (s : State) (g team side kind n k : Nat) (act : List Nat) (e : Eff) : State :=
  if kind < 3 then s.modGroup g fun x => x.mapRange kind n k
  else match (s.spad team side).lowestRun (s.kernel g) k with
    | none => s
    | some o =>
      let s1 := (s.modSpad team side fun x => x.mapRun o k).modGroup g fun x => { x with grants := x.grants ++ [(o, k)] }
      act.foldl (fun t l => t.modThread g l fun u => u.write e.d 1 o) s1

/-- The requests in which lanes of a group are blocked. -/
def State.requestsOf (s : State) (g : Nat) (lanes : List Nat) : List Nat :=
  dedupN (lanes.filterMap fun l => match (s.thread g l).wait with
    | .racq n => some n
    | _ => none)

/-- The requests of some lanes withdrawn: the `RACQ` ends, or is made again. -/
def State.unblock (s : State) (g team : Nat) (lanes : List Nat) : State :=
  (s.requestsOf g lanes).foldl (fun (t : State) n => t.dropRequest team (s.sideOf g) g n) s

/-- The lanes of the issuing sub-group that nothing holds back. -/
def State.subLanes (s : State) (g : Nat) (e : Eff) (act : List Nat) : List Nat :=
  match s.cur with
  | some i => if i.g = g then i.lanes.filter fun l => s.destReady g l e else act
  | none => act

/-- `RACQ` of a kind once its range is known to meet Table 9-4 and to need a charge (R234). A sub-group that blocks does so as a
whole, threads whose guard failed included (R353). -/
def State.request (s : State) (g team kind n k : Nat) (act : List Nat) (e : Eff) (isTry : Bool) : Res :=
  let side := s.sideOf g
  let q := s.blocked team side
  let lanes := s.subLanes g e act
  let mine := q.find? fun x => x.1 == g && (s.requestsOf g act).contains x.2.1
  let ahead := match q, mine with
    | [], _ => false
    | x :: _, some y => !(x.1 == y.1 && x.2.1 == y.2.1)
    | _ :: _, none => true
  if !ahead && s.holds team side kind k (((s.group? g).map fun x => x.width).getD 0) then
    .ok (((s.unblock g team lanes).grant g team side kind n k act e).tryCc g act isTry false)
  else if isTry then s.failTry g act e
  else
    let (i, s1) := match mine with
      | some y => (y.2.1, s)
      | none =>
        let (i, t) := (s.unblock g team lanes).fresh
        (i, t.modWaits team side fun l => l ++ [(g, i)])
    let s2 := (lanes.foldl (fun (t : State) l => t.modThread g l fun u => { u with wait := .racq i }) s1).modGroup g fun x =>
      { x with racq := alSet x.racq i ⟨kind, n, k, act⟩ }
    if s2.deadlocked team then .wait (s2.breakDeadlock team) else .wait s2

/-- Whether a range names a failed tile: its cause and address (R325). -/
def State.rangeFailed (s : State) (g kind n k : Nat) : Option (Nat × Dword) :=
  if kind = 1 then (List.range k).findSome? fun i => s.tileFailed g (.a (BitVec.ofNat 4 (n + i))) else none

/-- The body of `RACQ` (R232 to R234, R237, R325). TVAL of 0x142 holds the D field; `RACQ.spad` names no range of registers, and Table 9-5
does not say which field that is for it (DESIGN CHOICE, log 59). -/
def doRacq (kind : Nat) (f : Fields) (e : Eff) (s : State) (g l : Nat) (act : List Nat) : Res :=
  let isTry := bit e.var 2
  let k := s.rdB g l e
  let n := opndIndex f.d
  let tv := BitVec.ofNat 64 (opndCode f.d)
  if kind < 3 ∧ ¬ rangeFile (kind + 1) f.d then .ok (s.tryCc g act isTry true)
  else if !rangeOk (s.kernel g) kind n k then .trap 0x142 tv
  else match (s.group? g).bind fun x => x.team with
  | none => if isTry then s.failTry g act e else .trap 0x14D 0
  | some team =>
    if kind = 3 then s.request g team 3 0 k act e isTry
    else
      let rs := (List.range k).map fun i => n + i
      match s.rangeFailed g kind n k with
      | some (c, a) => .trap c a
      | none =>
        if rs.all (s.pieceMapped g kind) then .ok ((s.unblock g team (s.subLanes g e act)).tryCc g act isTry false)
        else if rs.any (s.pieceMapped g kind) then .trap 0x142 tv
        else s.request g team kind n k act e isTry

/-- The row of `RACQ`. -/
def specRacq (kind : Nat) (f : Fields) : Spec :=
  { Spec.plain with var := f.var &&& 7, d := if kind = 3 then slVec32 else slRange kind, b := slSrc32 }

/-- A piece instruction; its `.try` flags are written once the passing threads' cc0 is free (R41). -/
def issueRacq (kind : Nat) (f : Fields) : State → Out :=
  issueOnce (specRacq kind)
    (fun e s g _ act => !bit e.var 2 || act.all fun l => !s.ccBusy g l 0) (doRacq kind f) f

/-- `RACQ.vreg` (R234). -/
def execRacqVreg (f : Fields) : State → Out := issueRacq 0 f

/-- `RACQ.tile` (R234). -/
def execRacqTile (f : Fields) : State → Out := issueRacq 1 f

/-- `RACQ.preg` (R234). -/
def execRacqPreg (f : Fields) : State → Out := issueRacq 2 f

/-- `RACQ.spad` (R234). -/
def execRacqSpad (f : Fields) : State → Out := issueRacq 3 f

/-- Whether a lane of a range is pending or a register of it locked (R236, R301). -/
def State.rangePending (s : State) (g kind n k : Nat) : Bool :=
  match s.group? g with
  | none => false
  | some x => (List.range k).any fun i => match kind with
    | 0 => x.lanes.any (fun t => t.vEmpty.contains (n + i)) || x.locks.any fun q => q.1 == n + i
    | 1 => s.plyBusy g 0 (.a (BitVec.ofNat 4 (n + i)))
    | _ => s.plyBusy g 0 (.p (BitVec.ofNat 4 (n + i)))

/-- The body of `RREL` (R233, R236, R237, R325). -/
def doRrel (f : Fields) (e : Eff) (s : State) (g l : Nat) (_ : List Nat) : Res :=
  let kind := fld e.var 0 2
  let k := s.rdB g l e
  let n := opndIndex f.a
  let tv := BitVec.ofNat 64 (opndCode f.a)
  if kind < 3 ∧ ¬ rangeFile (kind + 1) f.a then .ok s
  else if !rangeOk (s.kernel g) kind n k then .trap 0x142 tv
  else match (s.group? g).bind fun x => x.team with
  | none => .trap 0x143 tv
  | some team =>
    if kind = 3 then
      let o := s.rdA g l e
      if ((s.group? g).map fun x => x.grants.contains (o, k)).getD false then
        .ok ((s.modSpad team (s.sideOf g) fun x => { x with mapped := x.mapped.filter fun r => r != (o, k) }).modGroup g
          fun x => { x with grants := x.grants.filter fun r => r != (o, k) })
      else .trap 0x143 tv
    else if !((List.range k).all fun i => s.pieceMapped g kind (n + i)) then .trap 0x143 tv
    else if s.rangePending g kind n k then .stay
    else match s.rangeFailed g kind n k with
    | some (c, a) => .trap c a
    | none => .ok (s.modGroup g fun x => x.unmapRange kind n k)

/-- `RREL` (R236). -/
def execRrel (f : Fields) : State → Out :=
  issueOnce (fun f => { Spec.plain with
      var := f.var &&& 3, a := if fld f.var 0 2 = 3 then slVec32 else slRange (fld f.var 0 2), b := slSrc32 })
    alwaysOnce (doRrel f) f

end Sys2Proof.Machine
end

