-- ==== Sys2Proof/Machine/Section.lean ====
section
/-! DEFINITION. The sections of a save image as bytes: register records, group, pool and tile sections (R439 to R441), and runs of
bytes of a context's memory. -/

namespace Sys2Proof.Machine

open Sys2Proof

/-! ## Vector register records (R441, Table 9-2) -/

/-- The tag byte of a storage form. -/
def Tag.code : Tag → Nat
  | .uniform => 0
  | .affine => 1
  | .d8 => 2
  | .d16 => 3
  | .raw => 4

/-- The form of a tag byte; one that Table 9-2 does not have is read as raw (log 15). -/
def Tag.ofCode (n : Nat) : Tag := [Tag.uniform, .affine, .d8, .d16].getD n .raw

/-- The save-image bytes of a form for a number of lanes. -/
def Tag.size (t : Tag) (w : Nat) : Nat :=
  match t with
  | .uniform => 4
  | .affine => 8
  | .d8 => 4 + w
  | .d16 => 4 + 2 * w
  | .raw => 4 * w

/-- The payload of a form for the values of the lanes. -/
def Tag.payload (t : Tag) (vs : List Word) : List Byte :=
  let b := vs.headD 0
  match t with
  | .uniform => toBytes 4 b.toNat
  | .affine => toBytes 4 b.toNat ++ toBytes 4 (vs.getD 1 b - b).toNat
  | .d8 => toBytes 4 b.toNat ++ vs.flatMap fun x => toBytes 1 (x - b).toNat
  | .d16 => toBytes 4 b.toNat ++ vs.flatMap fun x => toBytes 2 (x - b).toNat
  | .raw => vs.flatMap fun x => toBytes 4 x.toNat

/-- The values that a payload of a form represents in `w` lanes. -/
def Tag.values (t : Tag) (w : Nat) (bs : List Byte) : List Word :=
  let at' := fun (o n : Nat) => ofBytes ((bs.drop o).take n)
  let b := BitVec.ofNat 32 (at' 0 4)
  let near := fun (n i : Nat) => b + BitVec.ofInt 32 (toSigned (8 * n) (at' (4 + n * i) n))
  (List.range w).map fun i => match t with
    | .uniform => b
    | .affine => b + BitVec.ofNat 32 (i * at' 4 4)
    | .d8 => near 1 i
    | .d16 => near 2 i
    | .raw => BitVec.ofNat 32 (at' (4 * i) 4)

/-- The record of a vector register: its form where that represents the values, and otherwise the form that Table 9-2 gives them. -/
def vecRecord (t : Tag) (vs : List Word) : List Byte :=
  let u := if t.values vs.length (t.payload vs) = vs then t else inferTag true vs
  toBytes 1 u.code ++ u.payload vs

/-! ## Saved registers -/

/-- A register with a record in an image (R440): a vector, h, cursor or SIMT ply register, or a tile. -/
inductive Saved
  | v (n : Nat)
  | h (n : Nat)
  | c (n : Nat)
  | p (n : Nat)
  | tile (n : Nat)
  deriving DecidableEq, Repr

/-- The record of a register of a group (R441, Table 12-2). -/
def Saved.bytes (x : Group) : Saved → List Byte
  | .v n => vecRecord (alGet x.tags .uniform n) (x.lanes.map fun t => t.vreg n)
  | .h n => vecRecord .raw (x.lanes.map fun t => alGet t.h 0 (32 * t.level.toNat + n))
  | .c n => x.lanes.flatMap fun t => toBytes 24 (t.creg n).toNat
  | .p n =>
    let p := alGet x.p PReg.zero n
    toBytes 2 p.anc.toNat ++ (List.range x.lanes.length).flatMap fun l => (p.get l).record
  | .tile n =>
    let t := alGet x.tiles Tile.zero n
    imageHeader t.anc true 256 ++ (List.range 256).flatMap fun k => (t.get k).record

/-- The elements of ply records in a run of bytes. -/
def elemsOf (bs : List Byte) (n : Nat) : AL PElem := (List.range n).map fun k => (k, recordElem ((bs.drop (33 * k)).take 33))

/-- A group with a register as its record in front of some bytes gives it, and the bytes after the record. -/
def Saved.read (x : Group) (bs : List Byte) : Saved → Group × List Byte
  | .v n =>
    let t := Tag.ofCode (ofBytes (bs.take 1))
    let vs := t.values x.lanes.length (bs.drop 1)
    ({ x with lanes := (x.lanes.zip vs).map fun p => p.1.setV n p.2, tags := alSet x.tags n t },
      bs.drop (1 + t.size x.lanes.length))
  | .h n =>
    let t := Tag.ofCode (ofBytes (bs.take 1))
    let vs := t.values x.lanes.length (bs.drop 1)
    ({ x with lanes := (x.lanes.zip vs).map fun p => { p.1 with h := alSet p.1.h (32 * p.1.level.toNat + n) p.2 } },
      bs.drop (1 + t.size x.lanes.length))
  | .c n =>
    ({ x with lanes := x.lanes.zipIdx.map fun p =>
        { p.1 with c := alSet p.1.c n (BitVec.ofNat 192 (ofBytes ((bs.drop (24 * p.2)).take 24))) } }, bs.drop (24 * x.lanes.length))
  | .p n =>
    ({ x with p := alSet x.p n ⟨BitVec.ofNat 10 (ofBytes (bs.take 2)), elemsOf (bs.drop 2) x.lanes.length⟩ },
      bs.drop (2 + 33 * x.lanes.length))
  | .tile n =>
    ({ x with tiles := alMod x.tiles n fun t => { t with anc := BitVec.ofNat 10 (ofBytes (bs.take 2)), el := elemsOf (bs.drop 16) 256 } },
      bs.drop (16 + 33 * 256))

/-! ## Sections (R440, Table 18-7) -/

/-- The join word on which a join-held thread waits, with its scope. -/
def Thread.joinWord (t : Thread) : Option (Dword × Scope) :=
  match t.wait with
  | .join va _ sc => some (va, sc)
  | _ => none

/-- A thread record before its return-stack entries: 32 bytes, of which R440 names the fields and not their places (log 15). -/
def Thread.record (t : Thread) : List Byte :=
  let flags := b2n t.exited + b2n t.joinWord.isSome * 2 + b2n t.mr.valid * 4 + b2n t.noRegion * 8 + b2n t.region.isNone * 16
  toBytes 32 (t.pc.toNat + t.mr.addr.toNat * 2 ^ 64 + ((t.joinWord.map fun j => j.1.toNat).getD 0) * 2 ^ 128 + t.depth.toNat * 2 ^ 192 +
    t.mr.depth.toNat * 2 ^ 200 + flags * 2 ^ 208 + ((t.joinWord.map fun j => scopeCode j.2).getD 0) * 2 ^ 216 +
    t.region.getD 0 % 2 ^ 16 * 2 ^ 224 + t.cc.toNat * 2 ^ 240)

/-- A thread as its record gives it. The entry state of a thread that runs its region again is what the record holds. -/
def Thread.ofRecord (t : Thread) (parked : Bool) (x : Nat) : Thread :=
  let pc := BitVec.ofNat 64 (fldN x 0 64)
  let depth := BitVec.ofNat 8 (fldN x 192 8)
  let mr : Meet := ⟨BitVec.ofNat 64 (fldN x 64 64), BitVec.ofNat 8 (fldN x 200 8), fldN x 210 1 == 1⟩
  let u : Thread :=
    { t with pc := pc, depth := depth, mr := mr, exited := fldN x 208 1 == 1, noRegion := fldN x 211 1 == 1,
             region := if fldN x 212 1 = 1 then none else some (fldN x 224 16), cc := BitVec.ofNat 16 (fldN x 240 16),
             wait := if fldN x 209 1 = 1 then .join (BitVec.ofNat 64 (fldN x 128 64)) none (scopeOf (fldN x 216 3))
                     else if t.joinWord.isSome then .none else t.wait }
  if parked then u else { u with rgnPc := pc, rgnDepth := depth, rgnMr := mr }

/-- The first 1,040 bytes of a group section. -/
def Group.section (x : Group) (parked : Bool) : List Byte :=
  toBytes 16 (x.grp + x.home.quarter * 2 ^ 8 + b2n parked * 2 ^ 10 + x.mode.toNat * 2 ^ 32 + x.warn.toNat * 2 ^ 96) ++
    (List.range 16).flatMap fun i => toBytes 64 (alGet x.shapes 0 i).toNat

/-- The record in front of a tile: group, tile name and failed state with its cause and address (R440; places of log 15). -/
def Group.tileRecord (x : Group) (n : Nat) : List Byte :=
  let f := (alGet x.tiles Tile.zero n).failed
  toBytes 16 (x.grp % 256 + n % 256 * 2 ^ 8 + b2n f.isSome * 2 ^ 16 + ((f.map fun p => p.1).getD 0) % 1024 * 2 ^ 32 +
    ((f.map fun p => p.2.toNat).getD 0) * 2 ^ 64)

/-- A part of a section: the fixed part of a group section, a thread record, the return stack of a lane with its lowest entry first,
a register record, the record of an extended range (kind 0 vector or 1 ply, first register, count), and a tile's. -/
inductive Part
  | head (parked : Bool)
  | thread (l : Nat) (parked : Bool)
  | stack (l : Nat)
  | reg (r : Saved)
  | range (kind first count : Nat)
  | tile (n : Nat)
  deriving DecidableEq, Repr

/-- The return stack of a lane, lowest entry first. -/
def Group.stackOf (x : Group) (l : Nat) : List Dword := ((x.lanes[l]?).map fun t => t.rs.reverse).getD []

/-- The bytes of a part of a group. -/
def Part.bytes (x : Group) : Part → List Byte
  | .head parked => x.section parked
  | .thread l _ => ((x.lanes[l]?).map Thread.record).getD []
  | .stack l => (x.stackOf l).flatMap fun a => toBytes 8 a.toNat
  | .reg r => r.bytes x
  | .range kind first n => toBytes 16 (x.grp % 256 + kind * 2 ^ 8 + first % 2 ^ 16 * 2 ^ 16 + n % 2 ^ 16 * 2 ^ 32)
  | .tile n => x.tileRecord n

/-- A group as a part in front of some bytes gives it, and the bytes after the part. -/
def Part.read (x : Group) (bs : List Byte) : Part → Group × List Byte
  | .head _ =>
    let w := ofBytes (bs.take 16)
    ({ x with
        grp := fldN w 0 8, home := { x.home with quarter := fldN w 8 2 }, mode := BitVec.ofNat 64 (fldN w 32 64)
        warn := BitVec.ofNat 32 (fldN w 96 32)
        shapes := (List.range 16).map fun i => (i, BitVec.ofNat 512 (ofBytes ((bs.drop (16 + 64 * i)).take 64))) }, bs.drop 1040)
  | .thread l parked => (x.modLane l fun t => t.ofRecord parked (ofBytes (bs.take 32)), bs.drop 32)
  | .stack l =>
    let n := ((x.lanes[l]?).map fun t => t.depth.toNat).getD 0
    let rs := (List.range n).map fun i => BitVec.ofNat 64 (ofBytes ((bs.drop (8 * i)).take 8))
    (x.modLane l fun t => { t with rs := rs.reverse }, bs.drop (8 * n))
  | .reg r => r.read x bs
  | .range _ _ _ => (x, bs.drop 16)
  | .tile n =>
    let w := ofBytes (bs.take 16)
    ({ x with tiles := alMod x.tiles n fun t =>
        { t with failed := if fldN w 16 1 = 1 then some (fldN w 32 10, BitVec.ofNat 64 (fldN w 64 64)) else none } }, bs.drop 16)

/-- The bytes of the parts of a group. -/
def partBytes (x : Group) (ps : List Part) : List Byte := ps.flatMap fun p => p.bytes x

/-- A group as the parts in front of some bytes give it, and the bytes after them. -/
def readParts (x : Group) (bs : List Byte) : List Part → Group × List Byte
  | [] => (x, bs)
  | p :: ps => let r := p.read x bs; readParts r.1 r.2 ps

/-- Register numbers as runs of neighbours: the first and the count. -/
def regRuns (ns : List Nat) : List (Nat × Nat) :=
  let s := sortBy (fun (a b : Nat) => decide (a ≤ b)) ns
  joinSpans (s.map fun n => (n, 1))

/-- The pool section's parts for a group: each mapped extended range. -/
def Group.poolParts (x : Group) : List Part :=
  let range := fun (kind : Nat) (mk : Nat → Saved) (r : Nat × Nat) =>
    Part.range kind r.1 r.2 :: (List.range r.2).map fun i => .reg (mk (r.1 + i))
  (regRuns x.extV).flatMap (range 0 .v) ++ (regRuns x.extP).flatMap (range 1 .p)

/-- The tile section's parts for a group: each mapped tile. -/
def Group.tileParts (x : Group) : List Part :=
  (sortBy (fun (a b : Nat) => decide (a ≤ b)) (x.tiles.map fun p => p.1)).flatMap fun n => [.tile n, .reg (.tile n)]

/-- The parts of a group section: the thread records with their return stacks, and the records of the saved registers, in file and
number order: those that the masks of a region table entry name, or for a parked group every mapped one, with its h registers last
(log 15). -/
def Group.groupParts (x : Group) (k : Kernel) (mask : Nat) (parked : Bool) : List Part :=
  let live := fun (lo n : Nat) (ext : List Nat) =>
    ((List.range n).filter fun i => parked || fldN mask (lo + i) 1 == 1) ++
      (if parked then sortBy (fun (a b : Nat) => decide (a ≤ b)) (ext.filter fun i => decide (n ≤ i)) else [])
  .head parked :: ((List.range x.lanes.length).flatMap fun l => [Part.thread l parked, .stack l]) ++
    (((live 64 k.regs x.extV).map fun n => Part.reg (.v n)) ++ ((live 320 32 []).map fun n => .reg (.c n)) ++
      ((live 352 k.acc x.extP).map fun n => .reg (.p n)) ++ (if parked then (List.range 32).map fun n => .reg (.h n) else []))

/-! ## Memory of a context -/

/-- What a run of accesses by the device's own units ends with: a result, a fault, or a line to wait for (R127). -/
inductive Run (α : Type)
  | ok (a : α)
  | fault
  | wait

/-- One run after another. -/
def Run.bind {α β : Type} (r : Run α) (f : α → Run β) : Run β :=
  match r with
  | .ok a => f a
  | .fault => .fault
  | .wait => .wait

/-- What a write of some bytes at a node address with its home ends with. -/
def State.putNode (s : State) (a home : Nat) (bs : List Byte) : Run State :=
  if s.ownedBy none a bs.length then .wait else .ok (s.homeWrite home a 0 bs)

/-- Bytes written at an address of a context, sector by sector. -/
def State.putRun (s : State) (die slot : Nat) (va : Dword) (bs : List Byte) : List (Nat × Nat) → Run State
  | [] => .ok s
  | q :: qs =>
    let a := va + BitVec.ofNat 64 q.1
    if fld a 56 8 ≠ 0 then .fault
    else match s.xlate none die slot a.toNat .write with
      | (.ok n h, s1) => (s1.putNode n h ((bs.drop q.1).take q.2)).bind fun s2 => s2.putRun die slot va bs qs
      | (.wait, _) => .wait
      | _ => .fault

/-- Bytes written at an address of a context. -/
def State.putVa (s : State) (die slot : Nat) (va : Dword) (bs : List Byte) : Run State :=
  s.putRun die slot va bs (piecesOf va 0 bs.length)

/-- Bytes read at an address of a context, sector by sector. -/
def State.getRun (s : State) (die slot : Nat) (va : Dword) : List (Nat × Nat) → Run (List Byte × State)
  | [] => .ok ([], s)
  | q :: qs => match s.readVa none die slot (va + BitVec.ofNat 64 q.1) q.2 with
    | (.ok bs, s1) => (s1.getRun die slot va qs).bind fun r => .ok (bs ++ r.1, r.2)
    | (.wait, _) => .wait
    | _ => .fault

/-- Bytes read at an address of a context. -/
def State.getVa (s : State) (die slot : Nat) (va : Dword) (n : Nat) : Run (List Byte × State) :=
  s.getRun die slot va (piecesOf va 0 n)

/-! ## Save slots (R439) -/

/-- Bytes written in the save slot of a group, sector by sector, by the translation that the group holds (R437). -/
def State.putSave (s : State) (x : Group) (va : Dword) (bs : List Byte) : List (Nat × Nat) → Run State
  | [] => .ok s
  | q :: qs =>
    let a := (va + BitVec.ofNat 64 q.1).toNat
    let put := (bs.drop q.1).take q.2
    match alGet? x.saveAt (a / 4096) with
    | some (p, h) => (s.putNode (4096 * p + a % 4096) h put).bind fun s1 => s1.putSave x va bs qs
    | none => (s.putVa (dieOf x.home.core) x.slot (va + BitVec.ofNat 64 q.1) put).bind fun s1 => s1.putSave x va bs qs

/-- A parked group written to its save slot as one group section, its return stacks gathered: a fault there kills the context (R439).
Its tiles stay in its team's reservation. None where a line has to be waited for. -/
def State.writeSection (s : State) (g : Nat) (x : Group) : Option State :=
  let va := s.saveSlot x.slot x.home
  let bs := partBytes x (x.groupParts (s.kernelOf x.launch) 0 true)
  match s.putSave x va bs (piecesOf va 0 bs.length) with
  | .ok t => some t
  | .fault => some (s.kill x.slot 0x164 0 (some ⟨g, 0, 0, va⟩))
  | .wait => none

end Sys2Proof.Machine
end

