-- ==== Sys2Proof/Machine/Spawn.lean ====
section
/-! DEFINITION. Signals, spawns, joins and parking (R378, R379, R386 to R392), group slots (R366) and the promotion of a starved
key (R352). -/

namespace Sys2Proof.Machine

open Sys2Proof

/-! ## Words (R377) -/

/-- A 64-bit operand field of Table 16-5: a register pair, or another source extended by zero. -/
def slWide : Slot := ⟨.src, 2⟩

/-- The value of a field that is a pair where it names a vector register, and otherwise 32 bits extended by zero (R377). -/
def State.rdWide (s : State) (g l : Nat) (e : Eff) (o : Opnd) : Nat :=
  match o with
  | .v _ => s.read g l e o 2
  | o => s.read g l e o 1

/-- The row of an instruction with a word in memory. -/
def specWord (b : Slot) (sc : Scope) (rel : Bool) (_ : Fields) : Spec :=
  { Spec.plain with a := slPair, b := b, scope := some sc, imm := true, rels := rel }

/-- `SIGNL` (R378): an atomic add at the counter's home, after a release. -/
def execSignl : Fields → State → Out :=
  issueThreads (specWord slWide .dev true) relReady fun e s g l =>
    let va := s.addrA g l e
    match s.issueAtom g l va (.rmw 0 .n64 (BitVec.ofNat 64 (s.rdWide g l e e.b))) 8 8 e [] none with
    | .ok t => .ok (t.defer g l)
    | r => r

/-- What a thread does that waits on a word: it goes on when the wait is over, with an acquire at the scope, and is held
otherwise; a word outside the device is read there again and again. -/
def waitWord (e : Eff) (s : State) (g l : Nat) (mk : Target → Wait) : Res :=
  let va := s.addrA g l e
  match s.resolve g l .word va 8 8 0x094 false with
  | (.fault c, _) => .trap c va
  | (.wait, _) => .stay
  | (.park p, s1) => .wait (s1.parkIssue g l p 0)
  | (r, s1) => match r.target? with
    | none => .trap 0x095 va
    | some (t, h) =>
      if s1.targetOwned t 8 || s1.bufferedBefore (s1.coreOf g) (s1.slotOf g) s1.now t.loc? va 8 ||
          s1.earlierSame g l s1.now (some t) va 8 then .stay
      else if s1.targetPoisoned t 8 then .trap 0x169 va
      else match s1.targetNat t 8 with
        | some v => match waitOver (mk t) v with
          | some sc => .ok (s1.acquired g l sc)
          | none => .ok (s1.modThread g l fun u => { u with wait := mk t })
        | none =>
          let a := { s1.newAcc g l va .poll with tgt := some t, home := h }
          .ok ((s1.addAcc a).modThread g l fun u => { u with wait := mk t })

/-- `SIGW` (R379). -/
def execSigw : Fields → State → Out :=
  issueThreads (specWord slWide .dev false) (fun _ s g l => !s.acqPending g l) fun e s g l =>
    waitWord e s g l fun t => .signal (s.addrA g l e) (some t) (BitVec.ofNat 64 (s.rdWide g l e e.b)) e.scope

/-- `JWAIT` (R392). -/
def execJwait : Fields → State → Out :=
  issueThreads (specWord slNone .die false) (fun _ s g l => !s.acqPending g l) fun e s g l =>
    waitWord e s g l fun t => .join (s.addrA g l e) (some t) e.scope

/-- The word on which a thread waits: its address and, where it is bound, its place. -/
def Wait.word : Wait → Option (Dword × Option Target)
  | .join va t _ => some (va, t)
  | .signal va t _ _ => some (va, t)
  | _ => Option.none

/-- A wait with its word bound at a place. -/
def Wait.at' (w : Wait) (t : Target) : Wait :=
  match w with
  | .join va _ sc => .join va (some t) sc
  | .signal va _ b sc => .signal va (some t) b sc
  | w => w

/-- What a read of the word on which a thread waits finds (R112, R126, R128, R379, R392): nothing new; its end, with the scope of the acquire;
a cause; a non-fatal fault; or its place anew. -/
inductive WordNow
  | none
  | over (sc : Scope)
  | stop (cause : Nat) (va : Dword)
  | park (va : Dword) (p : Park)
  | bound (va : Dword) (t : Target) (home : Nat)
  deriving DecidableEq, Repr

/-- What a bound word of the device holds for a thread's wait. -/
def State.wordAt (s : State) (g l : Nat) (va : Dword) (t : Target) : WordNow :=
  if s.targetOwned t 8 then .none
  else if s.targetPoisoned t 8 then .stop 0x169 va
  else match (s.targetNat t 8).bind (waitOver (s.thread g l).wait) with
    | some sc => .over sc
    | none => .none

/-- A read at its home of the word on which a thread waits; the place is found anew where it has been dropped. -/
def State.wordNow (s : State) (g l : Nat) : WordNow × State :=
  match (s.thread g l).wait.word with
  | none => (.none, s)
  | some (va, some t) => (s.wordAt g l va t, s)
  | some (va, none) =>
    if s.acc.any fun p => p.2.g == g && p.2.lane == l && p.2.op == .poll then (.none, s)
    else match s.reach (s.issuerOf g l 0) .word va 8 8 0x094 false with
      | (.fault c, s1) => (.stop c va, s1)
      | (.wait, _) => (.none, s)
      | (.park p, s1) => (.park va p, s1)
      | (r, s1) => match r.target? with
        | some (t, h) => (match s1.wordAt g l va t with
          | .none => if s1.targetOwned t 8 then .none else .bound va t h
          | x => x, s1)
        | none => (.stop 0x095 va, s1)

/-- Whether a read of a thread's word ends its wait, in its end or in a cause. -/
def WordNow.ends : WordNow → Bool
  | .over _ | .stop _ _ => true
  | _ => false

/-- A thread whose word has been read: it goes on with an acquire; it traps at its instruction; or its word is found anew. -/
def State.wordRead (s : State) (g l : Nat) (w : WordNow) : State :=
  match w with
  | .none => s
  | .over sc => s.wake g l sc
  | .stop c va => (s.modThread g l fun u => { u with wait := .none }).trapWith g l c va ((s.thread g l).pc - 16) false false
  | .park va p => s.addParked (s.newAcc g l va .poll) p 0
  | .bound va t h =>
    let s1 := s.modThread g l fun u => { u with wait := u.wait.at' t }
    if (s.targetNat t 8).isSome then s1 else s1.addAcc { s.newAcc g l va .poll with tgt := some t, home := h }

/-- `SIGW_REREAD` (R379, R392): the word a thread waits on is read again at its home. A parked thread goes on only with its group. -/
def execSigwReread (g l : Nat) (s : State) : Out :=
  let w := s.wordNow g l
  .next (if w.1.ends && ((s.group? g).bind fun x => x.place).isNone then s else w.2.wordRead g l w.1)

/-! ## Spawns (R386) and joins (R391) -/

/-- VAR of `SPAWN`: a count above 4 executes as 0, `.nojoin` stays. -/
def varSpawn (v : BitVec 4) : BitVec 4 := if fld v 0 3 ≤ 4 then v else v &&& 8

/-- The payload registers of a `SPAWN` that exist. -/
def payloadRegs (e : Eff) : List Nat :=
  match e.c with
  | .v k => ((List.range (fld e.var 0 3)).map fun i => k.toNat + i).filter fun r => decide (r < 256)
  | _ => []

/-- `SPAWN` (R386): the record reaches Skein, after the join word has been raised, before the thread goes on. Its FE bit of C covers every
payload register (R42). -/
def execSpawn : Fields → State → Out :=
  issueThreads (fun f => { Spec.plain with
      var := varSpawn f.var, a := if bit f.var 3 then slNone else slPair, b := slSrc32, c := slVec32, scope := some .die,
      imm := !bit f.var 3, rels := true })
    (fun e s g l => relReady e s g l && (bit e.fe 2 || (payloadRegs e).all fun r => !(s.thread g l).vEmpty.contains r))
    fun e s g l =>
      let n := s.rdB g l e
      if (payloadRegs e).any fun r => !s.vMapped g r then .trap 0x141 (e.tvalOf 2)
      else if (payloadRegs e).any fun r => (s.thread g l).vEmpty.contains r then .trap 0x00A (e.tvalOf 2)
      else if (s.kernel g).nent ≤ n then .trap 0x150 (BitVec.ofNat 64 n)
      else
        let va := if bit e.var 3 then 0 else s.addrA g l e
        let words := match e.c with
          | .v k => (List.range (fld e.var 0 3)).map fun i => if k.toNat + i < 256 then (s.thread g l).vreg (k.toNat + i) else 0
          | _ => List.replicate (fld e.var 0 3) 0
        let r : SpawnRec :=
          { slot := s.slotOf g, launch := ((s.group? g).map fun x => x.launch).getD 0, entry := n, core := s.coreOf g,
            join := none, joinAddr := va, scope := e.scope, payload := words }
        if bit e.var 3 then .ok ((s.addAcc { s.newAcc g l 0 (.spawn r false) with hold := true }).defer g l)
        else
          let a := { s.newAcc g l va (.spawn r true) with hold := true }
          match s.resolve g l .atomic va 8 8 0x094 false with
          | (.fault c, _) => .trap c va
          | (.wait, _) => .stay
          | (.mem p h, s1) =>
            if s1.targetPoisoned (.mem p) 8 then .trap 0x169 va else .ok (((s1.dropL1 (s1.coreOf g) p 8).issueAcc a (.mem p h)).defer g l)
          | (q, s1) => .ok ((s1.issueAcc a q).defer g l)

/-- `JINIT` (R391): COUNT written at the home by one atomic step, as a release and an earlier access of every passing thread. -/
def execJinit : Fields → State → Out :=
  issueOnce (specWord slSrc32 .die true)
    (fun e s g l act => act.all fun k => readyAt e s g k true (s.addrA g l e)) fun e s g l act =>
      let va := s.addrA g l e
      let bs := toBytes 8 (s.rdB g l e)
      let a := { s.newAcc g l va (.jinit bs) with lanes := act.filter fun k => k != l }
      let done := fun t : State => Res.ok (act.foldl (fun u k => u.defer g k) t)
      match s.resolve g l .atomic va 8 8 0x094 false with
      | (.fault c, _) => .trap c va
      | (.wait, _) => .stay
      | (.mem (.node x) h, s1) =>
        if s1.targetOwned (.mem (.node x)) 8 || s1.bufferedBefore (s1.coreOf g) (s1.slotOf g) s1.now (some (.node x)) va 8 ||
            act.any fun k => s1.earlierSame g k s1.now (some (.mem (.node x))) va 8 then .stay
        else done ((s1.atomicDrop (s1.coreOf g) (.mem (.node x)) 8).targetWrite h (.mem (.node x)) 0 bs)
      | (.spad t i o, s1) => if act.any fun k => s1.earlierSame g k s1.now (some (.spad t i o)) va 8 then .stay
        else done (s1.targetWrite 0 (.spad t i o) 0 bs)
      | (r, s1) => .ok (s1.issueAcc a r)

/-! ## Slots (R19, R28, R366) -/

/-- Whether a group has nothing pending: no access but re-reads, no empty register, no lock and no tile to be written (R229,
R323). -/
def State.quiet (s : State) (g : Nat) : Bool :=
  (!s.acc.any fun p => p.2.g == g && p.2.op != .poll) && (match s.group? g with
    | none => false
    | some x => x.locks == [] && x.tileOut == [] && x.pimgs == [] && x.lanes.all fun t => t.vEmpty == [] && t.cEmpty == [])

/-- A slot that becomes free goes to the formed groups of the core that wait, before a parked group that returns (R28; log 85). -/
def State.leaveSlot (s : State) (g : Nat) : State :=
  (s.modGroup g fun x => { x with place := none, active := false, boosted := none, saveAt := [] }).placeFormed (s.coreOf g)

/-- Whether a group may give up its slot for good (R366): no load, walker operation or command of it is outstanding. Its stores go on by
what their entries keep. -/
def State.slotFreeable (s : State) (g : Nat) : Bool :=
  match s.group? g with
  | none => false
  | some x => x.place.isSome && x.lanes.all (fun t => t.exited) && (!s.acc.any fun p => p.2.g == g) &&
      (!s.cmds.any fun p => p.2.g == g) && x.locks == [] && x.tileOut == []

/-- A team without a group that has gone: what the group still held of the reservation stays charged, and the reservation is
freed with the last group (R19). The last group of a quad frees the quad's baton (R320). -/
def State.leaveTeam (s : State) (g : Nat) (x : Group) : State :=
  match x.team with
  | none => s
  | some tm =>
    let side := s.sideOf g
    let h := x.extHeld (s.kernelOf x.launch)
    let add := fun p : Nat × Nat => (p.1 + h, p.2 + x.tiles.length)
    let left := fun j : Nat => s.groups.any fun p => p.1 != g && p.2.team == some tm && p.2.grp / 4 == j
    let s := { s with cores := s.cores.map fun p : Nat × Core =>
      (p.1, { p.2 with baton := p.2.baton.filter fun b => b.1 != tm || left b.2 }) }
    if s.groups.any fun p => p.1 != g && p.2.team == some tm then
      { s with teams := alMod s.teams tm fun t =>
          if side = 0 then { t with gone0 := add t.gone0 } else { t with gone1 := add t.gone1 } }
    else { s with teams := alDel s.teams tm }

/-- `GROUP_SLOT_FREE` (R366): the exit of a group's last thread frees its slot and base registers. -/
def execGroupSlotFree (g : Nat) (s : State) : Out :=
  .next (if s.slotFreeable g then
      match s.group? g with
      | none => s
      | some x =>
        let s1 := s.leaveTeam g x
        { s1 with groups := alDel s1.groups g }.placeFormed x.home.core
    else s)

/-! ## Parking (R392, R439) -/

/-- Whether a thread is join-held. -/
def Thread.joinHeld (t : Thread) : Bool := t.joinWord.isSome

/-- Whether a resident group has to park (R392). -/
def State.parkable (s : State) (g : Nat) : Bool :=
  match s.group? g with
  | none => false
  | some x => x.place.isSome && !x.stopped && (x.lanes.all fun t => t.exited || ((t.joinHeld || t.isHeld) && t.late == [])) &&
      (x.lanes.any fun t => !t.exited && t.joinHeld) && s.quiet g && !s.cmds.any fun p => p.2.g == g && p.2.op != .pref

/-- A group parked: its return stacks are gathered, its state goes to its save slot, and it gives up its slot and base registers. None
where a line has to be waited for (R127). -/
def State.parkNow (s : State) (g : Nat) : Option State :=
  (s.gatherStacks g).bind fun s1 => match s1.group? g with
    | none => some s1
    | some x => (s1.writeSection g x).map fun s2 =>
      if (s2.group? g).isNone then s2
      else (s2.modDie (dieOf x.home.core) fun y =>
        { y with parkTable := if y.parkTable.length < 2048 then y.parkTable ++ [g] else y.parkTable }).leaveSlot g

/-- `GROUP_PARK` (R392). -/
def execGroupPark (g : Nat) (s : State) : Out := .next (if s.parkable g then (s.parkNow g).getD s else s)

/-- Whether a group is parked. -/
def Group.isParked (x : Group) : Bool := x.place.isNone && x.forming.isNone

/-- Whether a parked group has a join-held thread whose word has reached 0 or can be read no more, or one already released. -/
def State.joinDone (s : State) (g : Nat) : Bool :=
  match s.group? g with
  | none => false
  | some x => x.isParked && (List.range x.lanes.length).any fun l =>
      !(s.thread g l).exited && (((s.thread g l).joinHeld && (s.wordNow g l).1.ends) || (s.thread g l).wait == .none)

/-- The return of a parked group to the next free slot of its quarter; the threads whose words are 0 go on (R28, R392). -/
def State.unpark (s : State) (g : Nat) : State :=
  match s.group? g with
  | none => s
  | some x => match s.freeSlot x.home.core x.home.quarter (s.kernelOf x.launch).charge with
    | none => s
    | some k =>
      let s1 := s.takeSlot g ⟨x.home.core, x.home.quarter, k⟩
      let s2 := s1.modDie (dieOf x.home.core) fun d => { d with parkTable := d.parkTable.filter fun y => y != g }
      (List.range x.lanes.length).foldl (fun (t : State) l =>
        let w := t.wordNow g l
        if (t.thread g l).exited || !(t.thread g l).joinHeld || !w.1.ends then t else w.2.wordRead g l w.1) (s2.spreadStacks g)

/-- `PARKED_GROUP_RETURN` (R392): a group of the park table whose word has reached 0. -/
def execParkedGroupReturn (g : Nat) (s : State) : Out :=
  .next (if s.joinDone g ∧ (s.die (dieOf (s.coreOf g))).parkTable.contains g then s.unpark g else s)

/-- `PARK_SLOT_REREAD` (R392): the parked groups of a die that are tracked through their save slots. -/
def execParkSlotReread (die : Nat) (s : State) : Out :=
  .next ((s.groups.map fun p => p.1).foldl (fun (t : State) g =>
    if t.joinDone g && dieOf (t.coreOf g) == die && !(t.die die).parkTable.contains g then t.unpark g else t) s)

/-! ## Skein's own events -/

/-- Whether the entry of a list in its kernel's table can be read now: that read is not parked, and no command owns a line that it needs
(R113, R127). -/
def State.entryReady (s : State) (core launch entry : Nat) : Bool :=
  let slot := ((alGet? s.launches launch).map fun l => l.slot).getD 0
  (alGet? (s.ctx slot).formPark (formKey core launch entry)).isNone &&
    (match (s.readVa (some core) (dieOf core) slot ((s.kernelOf launch).entt + BitVec.ofNat 64 (8 * entry)) 8).1 with
      | .wait => false
      | _ => true)

/-- The first list of a core that is due: its oldest record has waited for TIMER cycles (R388), or it is full and could not form its
group as it filled (R387). -/
def State.timedList (s : State) (core : Nat) : Option (Nat × Nat) :=
  ((s.core core).skein.find? fun r =>
    (decide (r.1 + (s.ctx r.2.slot).skcfg.toNat ≤ s.cycle) ||
      decide ((s.kernelOf r.2.launch).width ≤ (s.skeinList core r.2.launch r.2.entry).length)) &&
    (([0, 1, 4] : List Nat).contains (s.ctx r.2.slot).state) && s.entryReady core r.2.launch r.2.entry).map fun r =>
    (r.2.launch, r.2.entry)

/-- `SKEIN_TIMER_FLUSH` (R388). -/
def execSkeinTimerFlush (core : Nat) (s : State) : Out :=
  .next (match s.timedList core with
    | some (l, e) => s.flushList core l e
    | none => s)

/-- The spawn record in the bytes of a ring (Table 16-7), with the launch and join word that were bound. -/
def ringRec (slot x : Nat) (info : RingInfo) : SpawnRec :=
  { slot := slot, launch := info.launch, entry := fldN x 192 16, core := info.dest.getD (fldN x 212 10), join := info.join,
    joinAddr := BitVec.ofNat 64 (fldN x 128 64), scope := scopeOf (fldN x 208 3),
    payload := (List.range 4).map fun i => BitVec.ofNat 32 (fldN x (32 * i) 32) }

/-- `SPILL_RING_RETURN` (R390): the oldest record of a ring goes back to the Skein of its core, where that has room. -/
def execSpillRingReturn (slot die : Nat) (s : State) : Out :=
  let c := s.ctx slot
  let (h, t) := alGet c.rings (0, 0) die
  .next (if h = t ∨ c.ringPark.isSome ∨ (c.state ≠ 0 ∧ c.state ≠ 4) then s
    else
      (s.ringAccess slot die (c.ringAddr die h) .read fun a _ u =>
        let x := u.readNodeN a 32
        let info := alGet c.ringInfo ⟨0, none, 0, none⟩ (2 ^ 32 * die + h.toNat)
        let r := ringRec slot x info
        if fldN x 211 1 = 1 ∧ ¬ u.skeinRoom r.core then u
        else
          let v := u.modCtx slot fun y =>
            { y with rings := alSet y.rings die (h + 1, t), ringInfo := alDel y.ringInfo (2 ^ 32 * die + h.toNat) }
          if fldN x 211 1 = 1 then v.skeinPut r else v).2)

/-! ## Exchange of groups and promotion of keys -/

/-- Whether two groups sit on one quarter. -/
def sameQuarter (x y : Group) : Bool :=
  match x.place, y.place with
  | some a, some b => a.core == b.core && a.quarter == b.quarter
  | _, _ => false

/-- An active group and a pending one change places (R383). -/
def State.exchange (s : State) (out into : Nat) : State :=
  ((s.modGroup out fun x => { x with active := false, boosted := none, readySince := s.cycle }).modGroup into fun x =>
    { x with active := true, notBefore := s.cycle + 2, lastIssue := s.cycle }).countFor out 4 1

/-- The key of a thread as a number: trap level, highest first, then PC, then DEPTH (R351). -/
def Thread.key (t : Thread) : Nat := ((3 - t.level.toNat) * 2 ^ 64 + t.pc.toNat) * 256 + t.depth.toNat

/-- What marks a thread whose key is taken as the least in the next issue cycle of its group (R352). -/
def promoted : Nat := 2 ^ 32

/-- `KEY_STARVATION_PROMOTION` (R352): the key passed over longest, for 64 issue cycles or more, is taken next; of several the least. -/
def execKeyStarvationPromotion (g : Nat) (s : State) : Out :=
  .next (match s.group? g with
    | none => s
    | some x =>
      let most := x.lanes.foldl (fun n t => if t.exited then n else max n t.passed) 0
      if most < 64 ∨ promoted ≤ most then s
      else match minBy? Thread.key (x.lanes.filter fun t => !t.exited && t.passed == most) with
        | none => s
        | some k => s.modGroup g fun y => { y with lanes := y.lanes.map fun t =>
            if !t.exited && t.key == k.key then { t with passed := t.passed + promoted }
            else t })

end Sys2Proof.Machine
end

