-- ==== Sys2Proof/Machine/Launch.lean ====
section
/-! DEFINITION. Launch queues, `LAUNCH`, the master distributor and placement (R14 to R18, R26, R61, R329, R330, R368 to
R376, R380). -/

namespace Sys2Proof.Machine

open Sys2Proof

/-! ## Queues (R368 to R370) -/

/-- ERR of a queue set, with its interrupt (Table 16-1). -/
def State.queueErr (s : State) (q : Nat) : State :=
  if (s.queue q).err then s else (s.modQueue q fun x => { x with err := true }).irq 2

/-- The context slot that holds an open context with an id. -/
def State.slotOfId (s : State) (id : BitVec 16) : Option Nat :=
  (s.ctxs.find? fun p => p.2.id == id && p.2.state != 7).map fun p => p.1

/-- A doorbell rung: PROD moves ahead within the queue's capacity, and is otherwise an error (R330, R369). -/
def State.ringDoorbell (s : State) (v : Dword) : State :=
  let q := fld v 0 6
  let x := s.queue q
  let prod := BitVec.ofNat 32 (fld v 32 32)
  let ahead := (prod - x.prod).toNat
  if !x.en ∨ x.dev ∨ ahead = 0 ∨ 2 ^ x.log2 < ahead then s.queueErr q else s.modQueue q fun y => { y with prod := prod }

/-- `LDOOR_WRITE` (R330, R369): it waits behind the host's earlier accesses. -/
def execLdoorWrite (v : Dword) (s : State) : Out :=
  .next (if s.hostTurnNow then s.hostTaken.ringDoorbell v else s.hostHold (.ldoorWrite v))

/-- A 64-bit word of a queue's CSR block, as it reads (Table 16-1). -/
def LQueue.csr (x : LQueue) (off : Nat) : Nat :=
  match off with
  | 0 => x.base.toNat
  | 8 => x.log2 + x.prio * 2 ^ 5 + b2n x.en * 2 ^ 7 + b2n x.dev * 2 ^ 8 + b2n x.err * 2 ^ 9 + x.ctx.toNat * 2 ^ 16 +
      x.prod.toNat * 2 ^ 32
  | 16 => x.cons.toNat
  | _ => 0

/-- A write of a queue's CSR block (R368): BASE, LOG2, DEV and CTX only while EN was 0. -/
def State.writeQueue (s : State) (q off : Nat) (v : Dword) : State :=
  let x := s.queue q
  match off with
  | 0 => if x.en then s else s.modQueue q fun y => { y with base := setFld v 0 7 0 }
  | 8 =>
    let y : LQueue := if x.en then x else
      { x with log2 := min 16 (max 4 (fld v 0 5)), dev := bit v 8, ctx := BitVec.ofNat 16 (fld v 16 16) }
    let y1 : LQueue := { y with prio := fld v 5 2, err := x.err && !bit v 9 }
    if bit v 7 ∧ ¬ x.en ∧ (s.slotOfId y.ctx).isNone then
      (s.modQueue q fun _ => { y1 with en := false }).queueErr q
    else s.modQueue q fun _ => { y1 with en := bit v 7 }
  | _ => s

/-- `LAUNCH_QUEUE_CSR_WRITE` (R368). -/
def execLaunchQueueCsrWrite (q off : Nat) (v : Dword) (s : State) : Out := .next (s.writeQueue q off v)

/-! ## The distributor's accesses -/

/-- The reads of the master distributor for a context. -/
def distVia (slot : Nat) : Via :=
  Via.make { slot := slot, core := none, die := 0, team := none, pair := false, launch := 0, above := false, unit := 0 } none false none [] 0

/-- Whether a queue has a record that may be accepted now: its context takes records (R436). -/
def State.queueReady (s : State) (q : Nat) : Bool :=
  let x := s.queue q
  x.en && x.cons != x.prod && x.parked.isNone && (match s.slotOfId x.ctx with
    | some slot => (s.ctx slot).state == 0 || (s.ctx slot).state == 4
    | none => false)

/-- The queue that the distributor serves next (R370): of the highest PRIO, in rotation among the queues of that priority. -/
def State.nextQueue (s : State) : Option Nat :=
  if 1024 ≤ s.launches.length then none
  else
    let ready := (List.range 64).filter s.queueReady
    let top := ready.foldl (fun m q => max m (s.queue q).prio) 0
    let after := alGet s.lastQueue 63 top + 1
    ((List.range 64).map fun i => (after + i) % 64).find? fun q => ready.contains q && (s.queue q).prio == top

/-! ## Descriptors -/

/-- The kernel that a descriptor describes (Table 2-14). -/
def kernelOfDesc (kdesc : Dword) (x : Nat) : Kernel :=
  { kdesc := kdesc, code := BitVec.ofNat 64 (fldN x 0 64), clen := fldN x 64 32, width := 16 * 2 ^ fldN x 96 2,
    team := fldN x 98 5 + 1, pair := fldN x 103 1 == 1, regs := 8 * (fldN x 104 5 + 1), acc := fldN x 112 5,
    ply := fldN x 120 6, extB := 4096 * fldN x 128 7, extF := 4096 * fldN x 135 7, scrB := 1024 * fldN x 142 10,
    scrF := 1024 * fldN x 152 10, param := fldN x 162 8, nent := fldN x 176 16, entt := BitVec.ofNat 64 (fldN x 192 64),
    nhdl := fldN x 256 16, hdlt := BitVec.ofNat 64 (fldN x 272 64), nrgn := fldN x 336 16,
    rgnt := BitVec.ofNat 64 (fldN x 352 64), csize := fldN x 416 32 }

/-- Whether a descriptor meets R61: no reserved field nonzero, every field in the range of R14. -/
def descOk (x : Nat) : Bool :=
  let k := kernelOfDesc 0 x
  fldN x 109 3 == 0 && fldN x 117 3 == 0 && fldN x 126 2 == 0 && fldN x 170 6 == 0 && fldN x 448 64 == 0 &&
    fldN x 96 2 != 3 && decide (k.acc ≤ 16) && decide (k.ply ≤ 48) && decide (k.extB ≤ 262144) && decide (k.extF ≤ k.extB) &&
    decide (k.scrB ≤ 524288) && decide (k.scrF ≤ k.scrB) && decide (k.param ≤ 255)

/-- The launch that a record asks for, not yet checked. -/
def launchOf (slot prio : Nat) (lnum : Word) (x : Nat) : Launch :=
  let w := fun lo => BitVec.ofNat 64 (fldN x lo 64)
  { slot := slot, lnum := lnum, prio := prio, kernel := { Kernel.zero with kdesc := w 0 }, params := [],
    dims := (fldN x 64 32, fldN x 96 32, fldN x 128 32), coop := fldN x 160 1 == 1, nwait := fldN x 161 2,
    rscope := scopeOf (fldN x 163 3), wait0 := (w 256, w 320), wait1 := (w 384, w 448), saddr := w 512, sval := w 576,
    stat := w 640, ready := false, error := none, nextTeam := 0, ran := 0, park := none, failed := false, stage := 0 }

/-- The teams of a launch (R12). -/
def Launch.teams (l : Launch) : Nat := l.dims.1 * l.dims.2.1 * l.dims.2.2

/-- The first record error of Table 16-4 that the record itself shows. -/
def recordError (l : Launch) (x : Nat) : Option (Nat × Nat) :=
  let mis := fun (a n : Nat) => decide (a % n ≠ 0)
  if fldN x 166 26 ≠ 0 ∨ fldN x 704 320 ≠ 0 then some (3, 1)
  else if l.nwait = 3 ∨ fldN x 163 3 < 5 then some (3, 2)
  else if 2 ^ 32 < l.teams then some (3, 3)
  else if mis l.kernel.kdesc.toNat 64 ∨ mis (fldN x 192 64) 16 ∨ (1 ≤ l.nwait ∧ mis l.wait0.1.toNat 8) ∨
      (2 ≤ l.nwait ∧ mis l.wait1.1.toNat 8) ∨ mis l.saddr.toNat 8 ∨ mis l.stat.toNat 16 then some (3, 4)
  else none

/-! ## Placement errors and capacities (R16 to R18, R26, R235) -/

/-- The groups of a kernel's team on one quarter of one of its cores (R17). -/
def Kernel.onQuarter (k : Kernel) (side q : Nat) : List Nat :=
  (List.range k.team).filter fun g => g % 4 == q && (if k.pair then g / 4 % 2 == side else side == 0)

/-- How many times a need goes into a capacity; none limits nothing. -/
def timesIn (cap need : Nat) : Option Nat := if need = 0 then none else some (cap / need)

/-- The cores of a team: one, or the two of a pair. -/
def Kernel.sides (k : Kernel) : List Nat := if k.pair then [0, 1] else [0]

/-- The teams of a kernel that one empty core, or core pair, holds (R18); none where nothing limits it. -/
def Kernel.perCore (k : Kernel) : Nat :=
  let slots := k.sides.flatMap fun sd => ([0, 1, 2, 3] : List Nat).flatMap fun q =>
    let n := (k.onQuarter sd q).length
    [timesIn 15 n, timesIn 114688 (n * k.charge)]
  let overdrawn := k.sides.any fun sd =>
    decide (k.extB < (([0, 1, 2, 3] : List Nat).flatMap fun q => k.onQuarter sd q).length * k.extF)
  if overdrawn then 0
  else ([timesIn 262144 k.extB, timesIn 48 k.ply, timesIn 524288 k.scrB] ++ slots).foldl (fun (m : Nat) x => match x with
    | some y => min m y
    | none => m) 60

/-- The placement error of a launch that becomes ready (Table 16-4). -/
def State.placementError (s : State) (l : Launch) : Option (Nat × Nat) :=
  let k := l.kernel
  if k.perCore = 0 then some (2, 2)
  else if l.coop ∧ k.perCore * (if k.pair then 512 else 1024) < l.teams then some (2, 3)
  else if 0 < k.nent ∧ 16384 < k.charge then some (2, 4)
  else if (s.ctx l.slot).savebase = 0 then some (2, 5)
  else none

/-! ## Acceptance (R370) -/

/-- The reads of an acceptance that follow the record: the descriptor and the parameter block. -/
def readLaunch (v : Via) (l : Launch) (param : Dword) : Wk (Launch × Bool) := do
  let bs ← v.rd l.kernel.kdesc 64
  let x := ofBytes bs
  let k := kernelOfDesc l.kernel.kdesc x
  let ps ← if k.param = 0 then pure [] else v.rd param (16 * k.param)
  pure ({ l with kernel := k, params := ps }, descOk x)

/-- The status of a `LAUNCH` future whose record the distributor has taken (R380). -/
def State.fillFuture (s : State) (q : Nat) (cons : Word) (word : Word) : State :=
  let fut := alGet? (s.queue q).futures cons.toNat
  let s1 := s.modQueue q fun y => { y with futures := alDel y.futures cons.toNat }
  match fut with
  | some (some id, _) => match alGet? s1.cmds id with
    | some c => s1.endCmd id c word
    | none => s1
  | _ => s1

/-- CONS advanced past a record. -/
def State.passRecord (s : State) (q : Nat) : State :=
  { s.modQueue q fun y => { y with cons := y.cons + 1, failed := none } with lastQueue := alSet s.lastQueue (s.queue q).prio q }

/-- A launch accepted: it takes its number, and CONS advances. -/
def State.accept (s : State) (q : Nat) (l : Launch) : State :=
  let (id, s1) := s.fresh
  let n := s.nextLnum
  let s2 := { s1 with launches := alSet s1.launches id { l with lnum := n }, nextLnum := n + 1 }
  (s2.fillFuture q (s.queue q).cons (statusWord 1 (fld n 0 24) 0)).passRecord q

/-- A record that cannot be read: it is skipped, ERR is set (R369), and the future of its `LAUNCH` reports the fault. -/
def State.skipRecord (s : State) (q cause : Nat) : State :=
  ((s.fillFuture q (s.queue q).cons (statusWord 3 cause 0)).passRecord q).queueErr q

/-- Whether the pager failed a read inside a run of bytes. -/
def failedIn (f : Option Dword) (va : Dword) (n : Nat) : Bool :=
  (f.map fun a => decide (va.toNat ≤ a.toNat) && decide (a.toNat < va.toNat + n)).getD false

/-- A read of the distributor that parked (R369). -/
def State.parkQueue (s : State) (q : Nat) (p : Park) : State :=
  (s.modQueue q fun y => { y with parked := some p }).parkFault p.slot 0 0 p

/-- `LAUNCH_ACCEPT` (R370). -/
def execLaunchAccept (q : Nat) (s : State) : Out :=
  .next (if s.nextQueue ≠ some q then s
    else match s.slotOfId (s.queue q).ctx with
    | none => s
    | some slot =>
      let x := s.queue q
      let v := distVia slot
      let at' := x.base + BitVec.ofNat 64 (128 * (x.cons.toNat % 2 ^ x.log2))
      if failedIn x.failed at' 128 then s.skipRecord q 0x093
      else match v.rd at' 128 s with
      | .error (.park p) s1 => s1.parkQueue q p
      | .error (.fault c _) s1 => s1.skipRecord q c
      | .error .wait _ => s
      | .ok bs s1 =>
        let r := ofBytes bs
        let l := launchOf slot x.prio 0 r
        match recordError l r with
        | some e => s1.accept q { l with error := some e }
        | none =>
          if x.failed.isSome then s1.accept q { l with error := some (3, 5) }
          else match readLaunch v l (BitVec.ofNat 64 (fldN r 192 64)) s1 with
          | .error (.park p) s2 => s2.parkQueue q p
          | .error (.fault _ _) s2 => s2.accept q { l with error := some (3, 5) }
          | .error .wait _ => s
          | .ok (l1, ok) s2 => s2.accept q { l1 with error := if ok then none else some (2, 1) })

/-! ## Dependences (R372) -/

/-- The dependences that a launch uses. -/
def Launch.waits (l : Launch) : List (Dword × Dword) := [l.wait0, l.wait1].take l.nwait

/-- Whether every dependence of a list is met. -/
def depsMet (v : Via) : List (Dword × Dword) → Wk Bool
  | [] => pure true
  | w :: ws => do
    let x ← v.rdN w.1 8
    if w.2.toNat ≤ x then depsMet v ws else pure false

/-- The state with a launch changed. -/
def State.modLaunch (s : State) (l : Nat) (f : Launch → Launch) : State := { s with launches := alMod s.launches l f }

/-- A launch that becomes ready: its placement errors are found (R374); one of no team places nothing. -/
def State.makeReady (s : State) (l : Nat) : State :=
  s.modLaunch l fun x =>
    { x with ready := true
             error := x.error <|> (if x.teams = 0 then none else s.placementError x) }

/-- `LAUNCH_DEPENDENCE_REREAD` (R372). -/
def execLaunchDependenceReread (l : Nat) (s : State) : Out :=
  .next (match alGet? s.launches l with
    | none => s
    | some x =>
      if x.ready ∨ (x.error.map fun e => e.1) = some 3 ∨ x.park.isSome ∨ (s.ctx x.slot).state = 3 then s
      else if x.failed then s.modLaunch l fun y => { y with error := some (3, 5), failed := false }
      else match depsMet (distVia x.slot) x.waits s with
      | .ok true s1 => s1.makeReady l
      | .ok false s1 => s1
      | .error (.park p) s1 => (s1.modLaunch l fun y => { y with park := some p }).parkFault p.slot 0 0 p
      | .error (.fault _ _) s1 => s1.modLaunch l fun y => { y with error := some (3, 5) }
      | .error .wait _ => s)

/-! ## Placement (R375) -/

/-- The reservations held on a core. -/
def State.coreTeams (s : State) (core : Nat) : List Kernel :=
  (s.teams.filter fun p => p.2.core == core || (p.2.pair && p.2.core + 1 == core)).map fun p => s.kernelOf p.2.launch

/-- Whether one core has room for its part of a team (R18). -/
def State.sideFits (s : State) (k : Kernel) (core side : Nat) : Bool :=
  let ts := s.coreTeams core
  let sum := fun f : Kernel → Nat => ts.foldl (fun n t => n + f t) (f k)
  decide (sum (fun t => t.extB) ≤ 262144) && decide (sum (fun t => t.ply) ≤ 48) && decide (sum (fun t => t.scrB) ≤ 524288) &&
    ([0, 1, 2, 3] : List Nat).all fun q =>
      let n := (k.onQuarter side q).length
      let taken := ((s.quarterGroups core q).filter fun p => decide (p.2.home.slot < 15)).length
      decide (taken + n ≤ 15) && (n == 0 || decide (s.quarterUse core q + n * k.charge ≤ 114688))

/-- Whether a core, or a pair from its even core, has room for a team. -/
def State.teamFits (s : State) (k : Kernel) (core : Nat) : Bool :=
  if k.pair then core % 2 == 0 && s.sideFits k core 0 && s.sideFits k (core + 1) 1 else s.sideFits k core 0

/-- One group of a new team placed (R17, R80, R235). -/
def State.placeTeamGroup (s : State) (launch team core : Nat) (teamNo : Word) (grp : Nat) : State :=
  let k := s.kernelOf launch
  let c := core + (if k.pair then grp / 4 % 2 else 0)
  let (g, s1) := s.fresh
  let slot := ((alGet? s.launches launch).map fun l => l.slot).getD 0
  let th := Thread.start k.code
  let x := { Group.start slot launch (some team) teamNo grp k ⟨c, grp % 4, 0⟩ (List.replicate k.width th) with
    extV := (List.range k.entryRegs).map fun i => k.regs + i }
  let s2 := { s1 with groups := alSet s1.groups g x }
  match s2.freeSlot c (grp % 4) k.charge with
  | some n => s2.takeSlot g ⟨c, grp % 4, n⟩
  | none => s2

/-- A team placed whole on a core with room (R18). Its threads come after the launch's acquire at RSCOPE (R372). -/
def State.placeTeam (s : State) (launch core : Nat) (l : Launch) : State :=
  let (tm, s1) := s.fresh
  let t : Team :=
    { launch := launch, num := l.nextTeam, core := core, pair := l.kernel.pair, spad0 := .zero, spad1 := .zero, wait0 := [],
      wait1 := [], gone0 := (0, 0), gone1 := (0, 0) }
  let s0 := { s1 with teams := alSet s1.teams tm t }
  let s2 := l.kernel.sides.foldl (fun (u : State) sd => u.dropForAcquire (core + sd) l.rscope) s0
  let s3 := (List.range l.kernel.team).foldl (fun (u : State) g =>
    u.placeTeamGroup launch tm core (BitVec.ofNat 32 l.nextTeam) g) s2
  s3.modLaunch launch fun y => { y with nextTeam := y.nextTeam + 1, ran := y.ran + 1 }

/-- The lowest core with room for a team. -/
def State.coreFor (s : State) (k : Kernel) : Option Nat := (List.range 1024).find? fun c => s.teamFits k c

/-- Teams of a launch placed as far as room and fuel reach. -/
def State.placeTeams (s : State) (launch : Nat) : Nat → State
  | 0 => s
  | n + 1 => match alGet? s.launches launch with
    | none => s
    | some l =>
      if l.teams ≤ l.nextTeam then s
      else match s.coreFor l.kernel with
        | none => s
        | some c => (s.placeTeam launch c l).placeTeams launch n

/-- Whether a launch has teams that may be placed now. -/
def State.placeable (s : State) (l : Launch) : Bool :=
  l.ready && l.error.isNone && decide (l.nextTeam < l.teams) && ((s.ctx l.slot).state == 0 || (s.ctx l.slot).state == 4)

/-- The launches to place, by PRIO and then by acceptance. -/
def State.placeOrder (s : State) : List Nat :=
  (sortBy (fun (a b : Nat × Launch) => decide (b.2.prio < a.2.prio) || (a.2.prio == b.2.prio && decide (a.1 ≤ b.1)))
    (s.launches.filter fun p => s.placeable p.2)).map fun p => p.1

/-- A walk of the order: a cooperative launch is placed whole, and holds back what follows while it waits for room. -/
def State.placeWalk (s : State) : List Nat → State
  | [] => s
  | i :: is => match alGet? s.launches i with
    | none => s.placeWalk is
    | some l =>
      let t := s.placeTeams i (l.teams - l.nextTeam)
      if l.coop then
        if ((alGet? t.launches i).map fun x => x.nextTeam == x.teams).getD false then t.placeWalk is else s
      else t.placeWalk is

/-! ## Completion (R373, R374) -/

/-- Whether spawn records, groups, images, commands or unaccepted records of a launch remain. -/
def State.launchBusy (s : State) (l slot : Nat) : Bool :=
  (s.groups.any fun p => p.2.launch == l) || (s.cmds.any fun p => p.2.iss.launch == l && p.2.op != .pref) ||
    (s.cores.any fun p => p.2.skein.any fun r => r.2.launch == l) ||
    ((s.ctx slot).ringInfo.any fun p => p.2.launch == l) ||
    ((s.ctx slot).images.any fun i => i.groups.any fun g => g.group.launch == l) ||
    s.queues.any fun p => p.2.futures.any fun f => f.2.2 == l

/-- STATE and REASON with which a launch ends now; none where it does not. -/
def State.launchEnd (s : State) (l : Nat) (x : Launch) : Option (Nat × Nat) :=
  if (s.ctx x.slot).state = 3 then (if s.cmds.any fun p => p.2.iss.launch == l then none else some (4, 0))
  else match x.error with
    | some e => if e.1 = 3 ∨ x.ready then some e else none
    | none => if x.ready ∧ x.nextTeam = x.teams ∧ !s.launchBusy l x.slot then some (1, 0) else none

/-- A write of the distributor at an address of a context, on any path that it can take: made, or skipped for a fatal cause (true); not
yet (false). -/
def State.distWrite (s : State) (l : Nat) (x : Launch) (k : OpKind) (va : Dword) (n : Nat) (f : Target → Nat → State → State) :
    Bool × State :=
  if x.park.isSome then (false, s)
  else if x.failed then (true, s.modLaunch l fun y => { y with failed := false })
  else match s.reach (distVia x.slot).iss k va n n 0x094 false with
    | (.mem q h, s1) =>
      if s1.targetOwned (.mem q) n then (false, s)
      else if k.kind = .atomic ∧ s1.targetPoisoned (.mem q) n then (true, s1) else (true, f (.mem q) h s1)
    | (.park p, s1) => (false, (s1.modLaunch l fun y => { y with park := some p }).parkFault x.slot 0 0 p)
    | (.wait, _) => (false, s)
    | (_, s1) => (true, s1)

/-- The launch status (Table 16-3). -/
def Launch.status (x : Launch) (st rs : Nat) : List Byte :=
  toBytes 16 (st + rs * 2 ^ 8 + x.lnum.toNat * 2 ^ 32 + x.ran % 2 ^ 32 * 2 ^ 64)

/-- The last steps of a launch: its counter is signalled and it is forgotten. -/
def State.endLaunch (s : State) (l : Nat) (x : Launch) (st : Nat) : State :=
  if x.saddr = 0 ∨ st = 4 then { s with launches := alDel s.launches l }
  else match s.distWrite l x .atomic x.saddr 8 fun t h u =>
      ((u.targetNat t 8).map fun c => u.targetWrite h t 0 (toBytes 8 (c + x.sval.toNat))).getD u with
    | (true, t) => { t with launches := alDel t.launches l }
    | (false, t) => t

/-- Whether a store that the threads of a launch may have issued is still in a store buffer. -/
def State.launchStores (s : State) (l slot : Nat) : Bool :=
  s.sb.any fun p => p.2.slot == slot && ((s.group? p.2.g).map fun y => y.launch == l).getD true

/-- `LAUNCH_COMPLETE` (R373): the release, the status and the signal, in order. -/
def execLaunchComplete (l : Nat) (s : State) : Out :=
  .next (match alGet? s.launches l with
    | none => s
    | some x => match s.launchEnd l x with
      | none => s
      | some (st, rs) =>
        if s.launchStores l x.slot then s
        else if x.stage = 0 ∧ x.stat ≠ 0 then
          match s.distWrite l x .store x.stat 16 fun q h u => u.targetWrite h q 0 (x.status st rs) with
          | (true, t) => match alGet? (t.modLaunch l fun y => { y with stage := 1 }).launches l with
            | some y => (t.modLaunch l fun y => { y with stage := 1 }).endLaunch l y st
            | none => t
          | (false, t) => t
        else s.endLaunch l x st)

/-! ## `LAUNCH` (R380) -/

/-- The record written at PROD of a queue's ring, in one step. -/
def State.enqueue (s : State) (g l : Nat) (e : Eff) (q rec' : Nat) (va : Dword) : Res :=
  let x := s.queue q
  if 2 ^ x.log2 ≤ (x.prod - x.cons).toNat then .stay
  else
    let at' := x.base + BitVec.ofNat 64 (128 * (x.prod.toNat % 2 ^ x.log2))
    match s.resolve g l .store at' 128 128 0x094 false with
    | (.fault c, _) => .trap c at'
    | (.park p, s1) => .wait (s1.parkIssue g l p 0)
    | (.wait, _) => .stay
    | (.mem (.node a) h, s1) =>
      if s1.ownedBy none a 128 then .stay
      else
        let c := Cmd.new (.launch q x.prod) (s1.cmdIssuer g l) g l (s1.coreOf g) { e with var := e.var &&& 2 } (s1.mode g) 0
        let fut := !bit e.var 1
        let (id, s2) := if fut then s1.enterCmd g l e c else (0, s1)
        let lid := ((s2.group? g).map fun y => y.launch).getD 0
        .ok (((s2.targetWrite h (.mem (.node a)) 0 (toBytes 128 rec')).modQueue q fun y =>
          { y with prod := y.prod + 1
                   futures := alSet y.futures y.prod.toNat (if fut then some id else none, lid) }).defer g l)
    | _ => .trap 0x090 va

/-- `LAUNCH` (R380). Of a misaligned record address, the causes that come before its alignment are raised first (R472). -/
def execLaunch : Fields → State → Out :=
  issueThreads (fun f => { Spec.plain with
      var := f.var &&& 2, d := if bit f.var 1 then slNone else slPair, a := slPair, b := slSrc32, scope := some .dev,
      imm := true, rels := true })
    (fun e s g l => !s.acqPending g l && (bit e.var 1 || (s.die (dieOf (s.coreOf g))).nextEntry.isSome)) fun e s g l =>
      let va := s.addrA g l e
      let q := s.rdB g l e
      let x := s.queue q
      if s.laneAhead e g l then .stay
      else if va.toNat % 128 ≠ 0 then (match (s.resolve g l .load va 1 128 0x151 false).1 with
        | .fault c => .trap c va
        | _ => .trap 0x151 va)
      else if 64 ≤ q ∨ ¬ x.en ∨ ¬ x.dev ∨ x.ctx ≠ (s.ctx (s.slotOf g)).id then .trap 0x152 (BitVec.ofNat 64 q)
      else match s.issueRead g l va 128 0x151 with
        | .trap c tv _ => .trap c tv
        | .stay t => .wait t
        | .ok r t => if t.releaseReady g l e.scope then t.enqueue g l e q r va else .stay

end Sys2Proof.Machine
end

