-- ==== Sys2Proof/Machine/Matrix.lean ====
section
/-! DEFINITION. The matrix engine (opcodes 0xB5 to 0xB8, Table 13-1): quads, the parameter block, issue, K steps, the end of an
operation, and the baton. -/

namespace Sys2Proof.Machine

open Sys2Proof

/-! ## Quads (R17, R306, R307, R320) -/

/-- The quad of a group: its team and index; none for a spawned group or a group beyond its team's last quad. -/
def State.quadOf (s : State) (g : Nat) : Option (Nat × Nat) :=
  (s.group? g).bind fun x => x.team.map fun t => (t, x.grp / 4)

/-- The group of a team with a number, while it exists. -/
def State.member (s : State) (team n : Nat) : Option Nat :=
  (s.groups.find? fun p => p.2.team == some team && p.2.grp == n).map fun p => p.1

/-- The four groups of a quad, where none is missing and none has exited. -/
def State.quadGroups (s : State) (q : Nat × Nat) : Option (List Nat) :=
  let gs := ([0, 1, 2, 3] : List Nat).filterMap fun i => s.member q.1 (4 * q.2 + i)
  if gs.length = 4 ∧ !gs.any (fun g => ((s.group? g).map fun x => x.lanes.all fun t => t.exited).getD true) then some gs
  else none

/-- The quad that drives the engine for a group, with its groups; none raises 0x122 (R307). -/
def State.quad (s : State) (g : Nat) : Option ((Nat × Nat) × List Nat) :=
  (s.quadOf g).bind fun q => (s.quadGroups q).map fun gs => (q, gs)

/-- Whether a quad other than one holds the baton of a core. -/
def State.batonElsewhere (s : State) (core : Nat) (q : Nat × Nat) : Bool :=
  match (s.core core).baton with
  | none => false
  | some b => b != q

/-! ## The parameter block (R310, R311, Table 13-2) -/

/-- AADDR. -/
def mAaddr (b : Nat) : Dword := BitVec.ofNat 64 (fldN b 0 64)
/-- ALD. -/
def mAld (b : Nat) : Nat := fldN b 64 32
/-- ATID. -/
def mAtid (b : Nat) : Nat := fldN b 96 16
/-- BTID. -/
def mBtid (b : Nat) : Nat := fldN b 112 16
/-- ATIDV. -/
def mAtidv (b : Nat) : Bool := fldN b 128 1 == 1
/-- BTIDV. -/
def mBtidv (b : Nat) : Bool := fldN b 129 1 == 1
/-- AMODE. -/
def mAmode (b : Nat) : Bool := fldN b 130 1 == 1
/-- AWFE. -/
def mAwfe (b : Nat) : Bool := fldN b 131 1 == 1
/-- KB. -/
def mKb (b : Nat) : Nat := fldN b 136 8
/-- K: the K steps of the operation. -/
def mK (b : Nat) : Nat := 32 * mKb b
/-- AROW0. -/
def mArow (b : Nat) : Nat := fldN b 160 32
/-- K0. -/
def mK0 (b : Nat) : Nat := fldN b 192 32
/-- BCOL0. -/
def mBcol (b : Nat) : Nat := fldN b 224 32
/-- CROW0. -/
def mCrow (b : Nat) : Nat := fldN b 256 32
/-- CCOL0. -/
def mCcol (b : Nat) : Nat := fldN b 288 32
/-- DIAG. -/
def mDiag (b : Nat) : Int := toSigned 32 (fldN b 320 32)
/-- MCONST. -/
def mConst (b : Nat) : Nat := fldN b 352 32

/-- Whether a reserved field, or one that the opcode and the block do not use, is nonzero (R310). -/
def mUnused (k : MKind) (b : Nat) : Bool :=
  fldN b 132 4 != 0 || fldN b 144 16 != 0 || fldN b 384 128 != 0 ||
    (k != .mmat && fldN b 256 128 != 0) ||
    (mAmode b && (fldN b 0 96 != 0 || mAwfe b)) ||
    (!mAtidv b && (mAtid b != 0 || mArow b != 0)) ||
    (!mBtidv b && (mBtid b != 0 || mBcol b != 0)) ||
    (!mAtidv b && !mBtidv b && mK0 b != 0)

/-- The elements of B that one group supplies at a K step (R313). -/
def MKind.cols : MKind → Nat
  | .mmab => 64
  | _ => 8

/-- The rows of A (Table 13-5). -/
def MKind.rows : MKind → Nat
  | .mmab => 128
  | _ => 64

/-- The length of the B run (R313). -/
def runLength (k : MKind) (ty : Ty) (width b : Nat) : Nat := ceilDiv (k.cols * mK b) (width * (32 / tyBits ty))

/-- Whether a type is a quantised integer. -/
def isQi (t : Ty) : Bool := t == .qi8 || t == .qi4

/-- The formats of Table 13-4. -/
def mFormats : List Ty := [.bf16, .f16, .f8e4, .f8e5, .f4, .qi8, .qi4]

/-- The first condition of Table 13-3 that the block alone decides. -/
def mBlockReason (k : MKind) (ty : Ty) (width b : Nat) (first : Option Nat) : Option Nat :=
  if mUnused k b then some 1
  else if mKb b = 0 ∨ 32 < mKb b then some 2
  else if isQi ty ∧ ¬ (mAtidv b ∧ mBtidv b) then some 4
  else if mAmode b ∧ ¬ mAtidv b then some 5
  else if ¬ mAmode b ∧ ((fld (mAaddr b) 60 4 ≠ 2 ∧ fld (mAaddr b) 60 4 ≠ 3) ∨ (mAaddr b).toNat % 16 ≠ 0 ∨ mAld b % 16 ≠ 0) then
    some 6
  else if (first.map fun r => decide (255 < r + runLength k ty width b - 1)).getD false then some 7
  else none

/-- The first condition of Table 13-3 that the bound records decide. -/
def mRecordReason (ty : Ty) (b : Nat) (ra rb : Option (BitVec 512)) : Option Nat :=
  let fa := match ra with
    | some r => fmtTy (recFmt r)
    | none => some ty
  let fb := match rb with
    | some r => fmtTy (recFmt r)
    | none => some ty
  let g := (ra.map fun r => qgrpLen (recQgrp r)).getD 0
  match fa with
  | none => some 3
  | some a =>
    if !mFormats.contains a ∨ tyBits a ≠ tyBits ty ∨ isQi a ≠ isQi ty ∨ fb ≠ some ty then some 3
    else if isQi ty ∧ (ra.map recQgrp ≠ rb.map recQgrp ∨ mK0 b % g ≠ 0 ∨ mK b % g ≠ 0) then some 4
    else if (ra.map fun r => recRank r != 2).getD false ∨ (rb.map fun r => recRank r != 2).getD false then some 5
    else none

/-! ## Checks of registers, tiles and rows (R309) -/

/-- A byte of a scratchpad path of a thread that is mapped. -/
def State.spadByte (s : State) (i : Issuer) (a : Dword) : Bool :=
  match i.team with
  | none => false
  | some (t, own) => (fld a 60 4 == 2 || fld a 60 4 == 3) && fld a 19 41 == 0 &&
      s.spadMapped t (if fld a 60 4 = 2 then own else 1 - own) (fld a 0 19) 1

/-- The first byte of the A rows that is not mapped. -/
def State.firstOutside (s : State) (i : Issuer) (k : MKind) (b bits : Nat) : Option Dword :=
  (List.range k.rows).findSome? fun r =>
    ((List.range (mK b * bits / 8)).map fun n => mAaddr b + BitVec.ofNat 64 (r * mAld b + n)).find? fun a => !s.spadByte i a

/-- Whether every group of a list has the registers of a run. -/
def State.runMapped (s : State) (gs run : List Nat) : Bool := gs.all fun g => run.all fun r => s.vMapped g r

/-- Whether a lane of a run is pending in a group of a list. -/
def State.runPending (s : State) (gs run : List Nat) : Bool :=
  gs.any fun g => ((s.group? g).map fun x => x.lanes.any fun t => run.any fun r => t.vEmpty.contains r).getD false

/-- The first failed tile of an operation: by group, then C before C + 1 (R309). -/
def State.quadFailed (s : State) (gs : List Nat) (c : Option Nat) : Option (Nat × Dword) :=
  match c with
  | none => none
  | some n => gs.findSome? fun g => ([n, n + 1] : List Nat).findSome? fun k => (s.tile g k).failed

/-! ## Issue (R309) -/

/-- The row of a matrix instruction (R308). -/
def specMma (f : Fields) : Spec :=
  { Spec.plain with
    types := mFormats, var := f.var &&& 1, a := slPair, b := ⟨.run, 0⟩, c := ⟨.tilePair, 1⟩, outC := true, scope := some .core, imm := true, rels := true }

/-- The even tile that field C names. -/
def tileField (o : Opnd) : Option Nat :=
  match o with
  | .a k => some (k.toNat / 2 * 2)
  | _ => none

/-- The side tensor of a bound qi record, with its levels (R89). -/
def Via.sideOf (v : Via) (r : Option (BitVec 512)) : Wk (List Tens) := do
  match r with
  | none => pure []
  | some r =>
    if recFmt r = 7 ∨ recFmt r = 8 then
      let t ← v.tensor (recStid r)
      pure [t]
    else pure []

/-- What the binding of an operation's records gives: A, B, and their side tensors. -/
def Via.bindPair (v : Via) (ty : Ty) (b : Nat) : Wk (Option Tens × Option Tens × List Tens) := do
  let ra ← if mAtidv b then some <$> v.bind (mAtid b) else pure none
  let rb ← if mBtidv b then some <$> v.bind (mBtid b) else pure none
  match mRecordReason ty b ra rb with
  | some n => wkFault 0x120 (BitVec.ofNat 64 n)
  | none =>
    let la ← match ra with
      | some r => if mAmode b then v.levels (mAtid b) r 2 0 else pure []
      | none => pure []
    let sa ← v.sideOf ra
    let sb ← v.sideOf rb
    pure (ra.map fun r => ⟨mAtid b, r, la⟩, rb.map fun r => ⟨mBtid b, r, []⟩, sa ++ sb)

/-- Whether an operation in the queue comes after another that was issued in the same cycle: by quarter (R321). -/
def State.followsIn (s : State) (m x : MOp) : Bool :=
  let quarter := fun g : Nat => ((s.group? g).map fun y => y.home.quarter).getD 0
  x.cyc == m.cyc && !x.started && decide (quarter m.g < quarter x.g)

/-- The locks and marks of an operation, and its entry in the queue (R309). -/
def State.enterMatrix (s : State) (core : Nat) (m : MOp) : State :=
  let s1 := m.groups.foldl (fun (t : State) g => t.modGroup g fun x =>
    { x with locks := x.locks ++ m.run.map fun r => (r, m.id)
             tileOut := match m.c with
               | none => x.tileOut
               | some c => x.tileOut ++ [(c, m.id), (c + 1, m.id)] }) s
  s1.modCore core fun c => { c with mq := (c.mq.filter fun x => !s.followsIn m x) ++ m :: c.mq.filter fun x => s.followsIn m x }

/-- The scope of a matrix instruction: team at least where the block or A lies on path 0x3 (R47, R308). -/
def mScope (sc : Scope) (va : Dword) (b : Nat) : Scope :=
  if sc = .core ∧ (fld va 60 4 = 3 ∨ (!mAmode b ∧ fld (mAaddr b) 60 4 = 3)) then .team else sc

/-- A matrix instruction whose binding parks: one access that concerns every passing thread, and holds the whole sub-group (R309). -/
def State.parkGroup (s : State) (g l : Nat) (act : List Nat) (p : Park) : State :=
  let lanes := (s.cur.map fun i => i.lanes).getD []
  let a := s.newAcc g l p.va (.value [])
  (s.addAcc { a with hold := true, park := some p, parked := true, lanes := act.filter fun k => k != l,
                     holds := lanesBut lanes act }).parkFault p.slot (s.coreOf g) 3 p

/-- The steps of issue from the block on (R309, R311). While one of them waits, the sub-group issues nothing. -/
def issueMatrix (k : MKind) (f : Fields) (e : Eff) (s : State) (g l : Nat) (act : List Nat) (q : Nat × Nat) (gs : List Nat) : Res :=
  let va := s.addrA g l e
  let core := s.coreOf g
  let width := ((s.group? g).map fun x => x.width).getD 0
  match s.resolve g l .fe va 64 64 0x121 false with
  | (.fault c, _) => .trap (if c = 0x096 then 0x121 else c) va
  | (.spad t i o, s1) =>
    if s1.earlierSame g l s1.now (some (.spad t i o)) va 64 then .stay
    else
      let b := ofBytes ((s1.spad t i).read o 64)
      let first := match e.b with
        | .v r => some r.toNat
        | _ => none
      match mBlockReason k e.ty width b first with
      | some n => .trap 0x120 (BitVec.ofNat 64 n)
      | none =>
        let iss := s1.issuerOf g l 3
        let v := Via.make iss (some (g, l, s1.now)) false none [] 0
        match v.bindPair e.ty b s1 with
        | .error (.fault c tv) _ => .trap c tv
        | .error (.park p) s2 => .wait (s2.parkGroup g l act p)
        | .error .wait s2 => .wait s2
        | .ok (ta, tb, sides) s2 =>
          let run := match first with
            | some r => (List.range (runLength k e.ty width b)).map fun n => r + n
            | none => []
          let c := tileField f.c
          let tilesOk := match c with
            | some n => gs.all fun h => s2.tMapped h n && s2.tMapped h (n + 1)
            | none => true
          if !s2.runMapped gs run then .trap 0x141 (e.tvalOf 1)
          else if !tilesOk then .trap 0x141 (e.tvalOf 2)
          else match s2.quadFailed gs c with
          | some (cause, tv) => .trap cause tv
          | none =>
            if bit e.fe 1 && s2.runPending gs run then .trap 0x00A (e.tvalOf 1)
            else if !mAmode b && fld (mAaddr b) 60 4 == 3 && !iss.pair then .trap 0x083 (mAaddr b)
            else match if mAmode b then none else s2.firstOutside iss k b (tyBits e.ty) with
            | some a => .trap 0x082 a
            | none =>
              if !s2.releaseReady g l (mScope e.scope va b) || decide (8 ≤ (s2.core core).mq.length) then
                .wait s2
              else
                let (id, s3) := s2.fresh
                .ok (s3.enterMatrix core
                  { id := id, kind := k, neg := bit e.var 0, ty := e.ty, team := q.1, groups := gs, g := g, lane := l, iss := iss,
                    blk := b, ta := ta, tb := tb, bound := sides, mode := s3.mode g, width := width, b := first, c := c, run := run,
                    cyc := s3.cycle, started := false, kdone := 0, grans := [], park := [] })
  | _ => .trap 0x121 va

/-- A matrix instruction: its quad, the baton, then the rest of its issue. -/
def execMatrix (k : MKind) (f : Fields) : State → Out :=
  issueOnce specMma memReadyOnce (fun e s g l act => match s.quad g with
    | none => .trap 0x122 0
    | some (q, gs) => if s.batonElsewhere (s.coreOf g) q then .stay else issueMatrix k f e s g l act q gs) f

/-- `MMA` (R317). -/
def execMma (f : Fields) : State → Out := execMatrix .mma f

/-- `MMAB` (R318). -/
def execMmab (f : Fields) : State → Out := execMatrix .mmab f

/-- `MMAT` (R319). -/
def execMmat (f : Fields) : State → Out := execMatrix .mmat f

/-! ## Operands of a step (R312, R313) -/

/-- The type of A's elements. -/
def MOp.aTy (m : MOp) : Ty := ((m.ta.map fun t => (fmtTy (recFmt t.r)).getD m.ty)).getD m.ty

/-- An element as the array takes it: an exact value, or for qi its code less its group's zero point. -/
def MOp.decode (m : MOp) (t : Option Tens) (ty : Ty) (x : Nat) : Ex :=
  decodeElem ty ((t.map fun u => recX4 u.r).getD (modeX4 m.mode)) (modeFtzi m.mode) x

/-- The reads of an operation's collector: through the compressed view, past the store buffer (R312, R399), of what it has bound. -/
def MOp.via (m : MOp) : Via := Via.make m.iss none false none m.bound 0

/-- The operation of a number in a core's queue changed. -/
def State.modMOp (s : State) (core id : Nat) (f : MOp → MOp) : State :=
  s.modCore core fun c => { c with mq := c.mq.map fun m => if m.id = id then f m else m }

/-- A granule of A in scratchpad, read once, for all its elements; with AWFE it has to be full first (R312). -/
def MOp.granule (m : MOp) (i n : Nat) : Wk Nat := do
  let core := m.iss.core.getD 0
  let old ← wkGet fun s => ((s.core core).mq.find? fun x => x.id == m.id).bind fun x => alGet? x.grans i
  match old.filter fun p => p.1 = n with
  | some p => pure p.2
  | none =>
    let va := mAaddr m.blk + BitVec.ofNat 64 (i * mAld m.blk + 16 * n)
    let full ← wkGet fun s => match (s.reach m.iss .load va 16 1 0x094 false).1 with
      | .spad t sd off => (s.spad t sd).isFull off
      | _ => true
    if mAwfe m.blk && !full then wkWait
    else
      let x ← m.via.rdN va 16
      wkMod fun s => s.modMOp core m.id fun y => { y with grans := alSet y.grans i (n, x) }
      pure x

/-- The bits of an A element in scratchpad. -/
def MOp.aSpad (m : MOp) (i k : Nat) : Wk Nat := do
  let w := tyBits m.aTy
  let x ← m.granule i (k * w / 128)
  pure (fldN x (k * w % 128) w)

/-- The coordinates of an A element in ATID, cut under clamp; none where it reads as zero, with cause 0x086 under fault
(R312). -/
def MOp.aCoord (m : MOp) (t : Tens) (i k : Nat) : Wk (Option (List Nat)) :=
  let r := mArow m.blk + i
  let c := mK0 m.blk + k
  let d0 := t.dims.getD 0 0
  let d1 := t.dims.getD 1 0
  if r < d0 ∧ c < d1 then pure (some [r, c])
  else match recOor t.r with
    | 1 => pure (if d0 = 0 ∨ d1 = 0 then none else some [min r (d0 - 1), min c (d1 - 1)])
    | 2 => wkFault 0x086 (BitVec.ofNat 64 (5 * 2 ^ 60 + t.tid % 65536 * 2 ^ 44 + (r * d1 + c) % 2 ^ 44))
    | _ => pure none

/-- The bits of an A element; none for one that reads as zero, or as its group's zero point. -/
def MOp.aBits (m : MOp) (i k : Nat) : Wk (Option Nat) := do
  match mAmode m.blk, m.ta with
  | true, some t => match ← m.aCoord t i k with
    | none => pure none
    | some cs => match ← m.via.elemPos t cs with
      | none => pure none
      | some p =>
        let x ← m.via.elemAt t.r p
        pure (some x)
  | _, _ =>
    let x ← m.aSpad i k
    pure (some x)

/-- Whether the group of A that starts at a step has an element in range: row and first column lie in the dense equivalent (R312). -/
def MOp.aInRange (m : MOp) (t : Tens) (i k : Nat) : Bool :=
  !mAmode m.blk || (decide (mArow m.blk + i < t.dims.getD 0 0) && decide (mK0 m.blk + k < t.dims.getD 1 0))

/-- The scale and zero point of A's group of a step, where an element of the group lies in range (R312). -/
def MOp.aGroup (m : MOp) (i k : Nat) : Wk (Option (Nat × Nat)) := do
  match m.ta with
  | none => pure none
  | some t =>
    if m.aInRange t i k then
      let g ← m.via.groupOf t [mArow m.blk + i, mK0 m.blk + k]
      pure (some g)
    else pure none

/-- The scale and zero point of B's group of a step (R313). -/
def MOp.bGroup (m : MOp) (c k : Nat) : Wk (Nat × Nat) := do
  match m.tb with
  | none => pure (0, 0)
  | some t => m.via.groupOf t [mBcol m.blk + c, mK0 m.blk + k]

/-- The register and lane of element `n` of a group's run, and its place in the register's word (R313). -/
def MOp.bPlace (m : MOp) (n : Nat) : Nat × Nat × Nat :=
  let e := 32 / tyBits m.ty
  ((m.b.getD 0) + n / (m.width * e), n % (m.width * e) / e, n % e)

/-- The bits of element `n` of the run of the quad's group `q`; zero where no register supplies B. -/
def MOp.bBits (m : MOp) (s : State) (q n : Nat) : Nat :=
  match m.b with
  | none => 0
  | some _ =>
    let (r, l, i) := m.bPlace n
    packedElem m.ty ((s.thread (m.groups.getD q 0) l).vreg r).toNat i

/-- Whether the lanes that supply B at a step are full, in resident groups (R313). -/
def MOp.bReady (m : MOp) (s : State) (k : Nat) : Bool :=
  m.b.isNone || m.groups.all fun g =>
    ((s.group? g).map fun x => x.place.isSome).getD false && (List.range m.kind.cols).all fun c =>
      let (r, l, _) := m.bPlace (m.kind.cols * k + c)
      !(s.thread g l).vEmpty.contains r

/-! ## Where results go (R317 to R319) -/

/-- The A row of element `n` of tile C + `t` of group `q`. -/
def MOp.rowOf (m : MOp) (q t n : Nat) : Nat :=
  match m.kind with
  | .mmab => 8 * (4 * q + 2 * t + n / 16 / 8) + n / 16 % 8
  | _ => 16 * q + n / 16

/-- The group that supplies the B element of element `n` of tile C + `t` of group `q`, and the element's place among those of
its step. -/
def MOp.colOf (m : MOp) (q t n : Nat) : Nat × Nat :=
  match m.kind with
  | .mmab => (q, 16 * (2 * t + n / 16 / 8) + n % 16)
  | _ => ((16 * t + n % 16) / 8, (16 * t + n % 16) % 8)

/-- The number of the B column of a place: over the quad for a 64 × 32 product, in the group's run for `MMAB`. -/
def MOp.colNo (m : MOp) (q c : Nat) : Nat :=
  match m.kind with
  | .mmab => c
  | _ => 8 * q + c

/-- Whether an element is masked (R319). -/
def MOp.masked (m : MOp) (q t n : Nat) : Bool :=
  m.kind == .mmat &&
    decide (mDiag m.blk < (((mCcol m.blk + 16 * t + n % 16) % 2 ^ 32 : Nat) : Int) -
      (((mCrow m.blk + 16 * q + n / 16) % 2 ^ 32 : Nat) : Int))

/-- Whether a tile is wholly masked. -/
def MOp.tileMasked (m : MOp) (q t : Nat) : Bool := (List.range 256).all fun n => m.masked q t n

/-- Addends into the eight tiles (R315): every element that is not masked takes its own. -/
def MOp.addAll (m : MOp) (add : Nat → Nat → Nat → Option Ex) (s : State) : State :=
  match m.c with
  | none => s
  | some c => (List.range 8).foldl (fun (t : State) z =>
      let q := z / 2
      let h := z % 2
      if m.tileMasked q h then t
      else t.modTile (m.groups.getD q 0) (c + h) fun u =>
        { u with el := (List.range 256).foldl (fun (e : AL PElem) n =>
            match if m.masked q h n then none else add q h n with
            | none => e
            | some x => alSet e n (plyAdd (alGet e PElem.zero n) (if m.neg then x.negate else x) (ancInt u.anc))) u.el }) s

/-! ## Steps (R315, R316, R324) -/

/-- Work for every row, or the stops it met: a fatal cause, a wait, the parks of the rows. -/
def rowsOf {α : Type} (f : Nat → Wk α) : List Nat → State → (List α × Option Stop × List Park) × State
  | [], s => (([], none, []), s)
  | i :: is, s =>
    match f i s with
    | .ok x t =>
      let ((xs, st, ps), u) := rowsOf f is t
      ((x :: xs, st, ps), u)
    | .error (.park p) t =>
      let ((xs, st, ps), u) := rowsOf f is t
      ((xs, st, p :: ps), u)
    | .error x t => (([], some x, []), t)

/-- How many K steps the operation adds at once (R316, R324). -/
def MOp.stride (m : MOp) : Nat :=
  if isQi m.ty then max 1 ((m.ta.map fun t => qgrpLen (recQgrp t.r)).getD 1) else 1

/-- The addends of a float step from the bits of A's rows. -/
def MOp.floatAddend (m : MOp) (s : State) (rows : List (Option Nat)) (k q t n : Nat) : Option Ex :=
  let a := m.decode m.ta m.aTy ((rows.getD (m.rowOf q t n) none).getD 0)
  let (p, c) := m.colOf q t n
  some (a.mul (m.decode m.tb m.ty (m.bBits s p (m.kind.cols * k + c)))).1

/-- A row of A over a K group: its scale and zero point where an element is read, and its codes. -/
def MOp.qiRow (m : MOp) (k : Nat) (i : Nat) : Wk (Option (Nat × Nat) × List (Option Nat)) := do
  let rec codes : List Nat → Wk (List (Option Nat))
    | [] => pure []
    | j :: js => do
      let x ← m.aBits i (k + j)
      let xs ← codes js
      pure (x :: xs)
  let out := m.ta.any fun t => recOor t.r != 2 && !m.aInRange t i k
  let xs ← if out then pure [] else codes (List.range m.stride)
  let g ← m.aGroup i k
  pure (g, xs)

/-- The addend of a K group (R316). -/
def MOp.qiAddend (m : MOp) (s : State) (rows : List (Option (Nat × Nat) × List (Option Nat))) (scales : List (Nat × Nat))
    (k q t n : Nat) : Option Ex :=
  let (p, c) := m.colOf q t n
  match rows.getD (m.rowOf q t n) (none, []) with
  | (none, _) => none
  | (some (sa, za), xs) =>
    let (sb, zb) := scales.getD (p * m.kind.cols + c) (0, 0)
    let sum := (xs.zipIdx).foldl (fun (y : Int) x => match x.1 with
      | none => y
      | some a => y + ((a : Int) - za) * ((m.bBits s p (m.kind.cols * (k + x.2) + c) : Int) - zb)) 0
    let sc := fun y : Nat => decodeElem .f16 0 (modeFtzi m.mode) y
    some (((sc sa).mul (sc sb)).1.mul (Ex.ofInt sum)).1

/-- What a step ends with: it was added, it waits, it parked, or the operation ends. -/
inductive KStep
  | added (s : State)
  | wait (s : State)
  | parks (ps : List Park) (s : State)
  | fatal (cause : Nat) (va : Dword) (s : State)
  deriving DecidableEq, Repr

/-- A step from what its rows gave. -/
def KStep.of {α : Type} (r : (List α × Option Stop × List Park) × State) (f : List α → State → State) : KStep :=
  match r.1.2.1, r.1.2.2 with
  | some (.fault c va), _ => .fatal c va r.2
  | some (.park p), _ => .parks [p] r.2
  | some .wait, _ => .wait r.2
  | none, [] => .added (f r.1.1 r.2)
  | none, ps => .parks ps r.2

/-- K step `k`, or for qi the group that starts there. -/
def MOp.step (m : MOp) (k : Nat) (s : State) : KStep :=
  if !(List.range m.stride).all (fun j => m.bReady s (k + j)) then .wait s
  else if isQi m.ty then
    match rowsOf (fun c => m.bGroup (m.colNo (c / m.kind.cols) (c % m.kind.cols)) k) (List.range (4 * m.kind.cols)) s with
    | ((scales, none, []), t) =>
      KStep.of (rowsOf (m.qiRow k) (List.range m.kind.rows) t) fun rows u => m.addAll (m.qiAddend u rows scales k) u
    | r => KStep.of r fun _ u => u
  else
    KStep.of (rowsOf (fun i => m.aBits i k) (List.range m.kind.rows) s) fun rows u => m.addAll (m.floatAddend u rows k) u

/-- The operation's tiles and registers let go, the operation taken out of its queue, and pre-emption deferred (R323). -/
def State.dropMOp (s : State) (core : Nat) (m : MOp) : State :=
  ((m.groups.foldl (fun (t : State) g => t.modGroup g fun x =>
    { x with locks := x.locks.filter fun k => k.2 != m.id
             tileOut := x.tileOut.filter fun k => k.2 != m.id }) s).deferQuad m).modCore core
    fun c => { c with mq := c.mq.filter fun n => n.id != m.id }

/-- Every step that can be made from KDONE on, by fuel (R324). -/
def State.runMOp (s : State) (core : Nat) (m : MOp) : Nat → State
  | 0 => s
  | n + 1 =>
    if mK m.blk ≤ m.kdone then s
    else match m.step m.kdone s with
      | .wait t => t
      | .fatal c va t => t.failMOp core m c va
      | .parks ps t =>
        ps.foldl (fun (u : State) p => u.parkFault p.slot core 3 p) (t.modMOp core m.id fun x => { x with park := ps })
      | .added t =>
        let k := m.kdone + m.stride
        ((t.modMOp core m.id fun x => { x with kdone := k }).count core none 7 m.stride).runMOp core { m with kdone := k } n

/-- Whether a tile of an operation is being loaded by an earlier instruction (R321). -/
def State.tilesLoading (s : State) (m : MOp) : Bool :=
  match m.c with
  | none => false
  | some c => m.groups.any fun g => ((s.group? g).map fun x =>
      x.pimgs.any fun p => p.2.tile && (p.2.reg == c || p.2.reg == c + 1)).getD false

/-- `MATRIX_OPERATION_START` (R306, R324, R325): the operation at the head of a core's queue begins, or goes on after a retry:
it adds every step it can. One of whose tiles has failed ends with no effect. -/
def execMatrixOperationStart (core : Nat) (s : State) : Out :=
  .next (match (s.core core).mq with
    | [] => s
    | m :: _ =>
      if m.park ≠ [] ∨ s.tilesLoading m ∨ s.cycle ≤ m.cyc then s
      else if !m.started && (s.quadFailed m.groups m.c).isSome then s.dropMOp core m
      else (s.modMOp core m.id fun x => { x with started := true }).runMOp core { m with started := true } (mK m.blk + 1))

/-- The last K step that needs a register of a run (R231). -/
def MOp.lastStep (m : MOp) (r : Nat) : Nat :=
  min (mK m.blk - 1) (((r - m.b.getD 0 + 1) * (m.width * (32 / tyBits m.ty)) - 1) / m.kind.cols)

/-- Whether the collector has read a register of its run for the last step that needs it. -/
def MOp.readDone (m : MOp) (r : Nat) : Bool := m.run.contains r && decide (m.lastStep r < m.kdone)

/-- `B_LOCK_RELEASE` (R231). -/
def execBLockRelease (core r : Nat) (s : State) : Out :=
  .next (match (s.core core).mq with
    | [] => s
    | m :: _ =>
      if m.readDone r then
        m.groups.foldl (fun (t : State) g => t.modGroup g fun x => { x with locks := x.locks.filter fun k => k != (r, m.id) }) s
      else s)

/-- The masked elements of `MMAT`'s straddling tiles at completion (R319). -/
def MOp.fillMasked (m : MOp) (s : State) : State :=
  match m.c with
  | none => s
  | some c => (List.range 8).foldl (fun (t : State) z =>
      let q := z / 2
      let h := z % 2
      let ns := (List.range 256).filter fun n => m.masked q h n
      if ns = [] ∨ m.tileMasked q h then t
      else t.modTile (m.groups.getD q 0) (c + h) fun u =>
        { u with el := ns.foldl (fun (e : AL PElem) n =>
            alSet e n (plyAdd .zero (decodeElem .f32 0 (modeFtzi m.mode) (mConst m.blk)) (ancInt u.anc))) u.el }) s

/-- `MATRIX_COMPLETE` (R319, R321, R323): an operation whose steps are all added writes its tiles; every thread of the quad
defers pre-emption until its next `RGN`. -/
def execMatrixComplete (core : Nat) (s : State) : Out :=
  .next (match (s.core core).mq with
    | [] => s
    | m :: _ =>
      if m.kdone < mK m.blk ∨ !m.started then s
      else (m.fillMasked s).dropMOp core m)

/-! ## The baton (R320) -/

/-- The row of `MBAT`. -/
def specMbat (var : BitVec 4) (b : Slot) : Spec := { Spec.plain with var := var, b := b }

/-- Whether something that waits for a baton still waits: a thread of a quad that has stayed at its `MBAT.acq`. -/
def State.awaitsBaton (s : State) (w : Nat × Nat × Nat) : Bool :=
  (s.quad w.1).isSome && !(s.thread w.1 w.2.1).exited && (s.thread w.1 w.2.1).issues == w.2.2

/-- `MBAT.acq` (R320): waiters are granted in arrival order. -/
def execMbatAcq : Fields → State → Out :=
  issueOnce (fun _ => specMbat 0 slNone) alwaysOnce fun _ s g l act =>
    let core := s.coreOf g
    match s.quad g with
    | none => .trap 0x122 0
    | some (q, _) =>
      let c := s.core core
      let live := c.batonWait.filter s.awaitsBaton
      let mine := fun w : Nat × Nat × Nat => w.1 == g && act.contains w.2.1
      if c.baton = some q ∨ (c.baton = none ∧ (live.head?.map mine).getD true) then
        .ok (s.modCore core fun x => { x with baton := some q, batonWait := live.filter fun w => !mine w })
      else if live.any mine then .stay
      else .wait (s.modCore core fun x => { x with batonWait := live ++ [(g, l, (s.thread g l).issues)] })

/-- The quads of a team on a core, by the size of the team (R17). -/
def State.quadsOn (s : State) (team core : Nat) : List Nat :=
  match alGet? s.teams team with
  | none => []
  | some t => (List.range ((s.kernelOf t.launch).team / 4)).filter fun j => core == t.core + (if t.pair then j % 2 else 0)

/-- The holder of a baton passed to a quad: nobody where the quad's last group has exited. -/
def State.holderOf (s : State) (q : Nat × Nat) : Option (Nat × Nat) :=
  if s.groups.any fun p => p.2.team == some q.1 && p.2.grp / 4 == q.2 then some q else none

/-- `MBAT.pass` (R320). -/
def execMbatPass : Fields → State → Out :=
  issueOnce (fun _ => specMbat 1 slSrc32) alwaysOnce fun e s g l _ =>
    let core := s.coreOf g
    match s.quad g with
    | none => .trap 0x122 0
    | some (q, _) =>
      if (s.core core).baton ≠ some q then .trap 0x123 0
      else
        let mask := s.rdB g l e
        let set := (s.quadsOn q.1 core).filter fun j => fldN mask j 1 == 1
        let j := ((set.find? fun j => decide (q.2 < j)) <|> set.head?).getD q.2
        .ok (s.modCore core fun x => { x with baton := s.holderOf (q.1, j) })

/-- `MBAT.rel` (R320). -/
def execMbatRel : Fields → State → Out :=
  issueOnce (fun _ => specMbat 2 slNone) alwaysOnce fun _ s g _ _ =>
    let core := s.coreOf g
    match s.quad g with
    | none => .trap 0x122 0
    | some (q, _) =>
      if (s.core core).baton ≠ some q then .trap 0x123 0
      else .ok (s.modCore core fun x => { x with baton := none })

end Sys2Proof.Machine
end

