-- ==== Sys2Proof/Machine/Context.lean ====
section
/-! DEFINITION. Context slots (R436, R437), pre-emption (R438 to R441), restoration (R442), and the placement round, which places
what is restored first. -/

namespace Sys2Proof.Machine

open Sys2Proof

/-! ## Opening and closing (R437) -/

/-- `CTXCTL_OPEN` (R437): a free slot takes a context with an id that no other open slot has. -/
def execCtxctlOpen (slot : Nat) (v : Dword) (s : State) : Out :=
  let id := BitVec.ofNat 16 (fld v 32 16)
  let used := s.ctxs.any fun p => p.1 != slot && p.2.state != 7 && p.2.id == id
  .next (if (s.ctx slot).state ≠ 7 then s
    else if !bit v 3 ∨ used then s.modCtx slot fun c => { c with id := id }
    else (s.modCtx slot fun _ => { Ctx.free with state := 0, id := id }).dropRecords slot)

/-- Whether a slot may be closed: it is saved or killed, or runs with nothing resident, held or enabled. -/
def State.closable (s : State) (slot : Nat) : Bool :=
  let c := s.ctx slot
  c.state == 2 || c.state == 3 ||
    (c.state == 0 && !(s.groups.any fun p => p.2.slot == slot) && !(s.launches.any fun p => p.2.slot == slot) &&
      !(s.queues.any fun p => p.2.en && p.2.ctx == c.id))

/-- Every completion-table slot of a context that goes belongs to no context after it (R138), and a cancelled command of it that
had not yet left its queue is gone with its lines: no other context's addresses are those it names. -/
def State.orphan (s : State) (slot : Nat) : State :=
  let old := s.cmds.filter fun p => p.2.iss.slot == slot
  let s1 := old.foldl (fun (t : State) p => { t.releaseLines p.1 with cmds := alDel t.cmds p.1 }) s
  { s1 with dies := s1.dies.map fun p : Nat × Die =>
      (p.1, { p.2 with ctab := p.2.ctab.map fun q =>
        (q.1, if q.2.slot = slot then { q.2 with slot := 256, cmd := none } else q.2) }) }

/-- `CTXCTL_CLOSE` (R368, R437): the slot is free again; every queue that names the context is disabled with ERR set. -/
def execCtxctlClose (slot : Nat) (s : State) : Out :=
  .next (if s.closable slot then
      let id := (s.ctx slot).id
      let named := (List.range 64).filter fun q => (s.queue q).ctx == id
      let s1 := named.foldl (fun (t : State) q =>
        (t.modQueue q fun x => { x with en := false, parked := none, failed := none }).queueErr q) s
      let s2 := { s1 with
        launches := s1.launches.filter fun p => p.2.slot != slot
        cores := s1.cores.map fun p : Nat × Core => (p.1, { p.2 with skein := p.2.skein.filter fun r => r.2.slot != slot }) }
      (s2.orphan slot).modCtx slot fun c => { Ctx.free with id := c.id }
    else s)

/-! ## What is pre-empted together (R438) -/

/-- The groups that are pre-empted with a group: its team's, or a spawned group alone. -/
def State.unitOf (s : State) (g : Nat) : List Nat :=
  match s.group? g with
  | none => []
  | some x => match x.team with
    | none => [g]
    | some t => (s.groups.filter fun p => p.2.team == some t).map fun p => p.1

/-- The resident teams and spawned groups of a context. -/
def State.units (s : State) (slot : Nat) : Nat :=
  let mine := s.groups.filter fun p => p.2.slot == slot
  (dedupN (mine.filterMap fun p => p.2.team)).length + (mine.filter fun p => p.2.team.isNone).length

/-- Whether nothing of a group holds its pre-emption back: it is not stopped by the debug port (R431); no thread holds a deferral or is in
no region, one that has exited among them (R168, R434), and none that runs is above level 0 (R423); and no lock or tile is outstanding
(R323, R433, R438). -/
def Group.mayLeave (x : Group) : Bool :=
  !x.stopped && x.locks == [] && x.tileOut == [] && x.lanes.all fun t => !t.deferral && !t.noRegion && (t.exited || t.level == 0)

/-- Whether a group's team may be pre-empted now. -/
def State.preemptable (s : State) (g : Nat) : Bool :=
  let us := s.unitOf g
  let c := s.ctx (s.slotOf g)
  us != [] && c.state == 1 && decide (c.images.length < c.pimmax.toNat) &&
    (us.all fun u => ((s.group? u).map Group.mayLeave).getD false) &&
    (!s.cmds.any fun p => us.contains p.2.g && p.2.op != .pref) &&
    !s.cores.any fun p => p.2.mq.any fun m => m.groups.any fun u => us.contains u

/-! ## The rolled-back state (R433, R434, R440) -/

/-- The region table entry of a thread's region, of which only the masks are used; in a start region a spawned thread has its payload
registers live in and a launched one none (R389, R434). -/
def State.regionEntry (s : State) (g : Nat) (t : Thread) : Run (Nat × State) :=
  match t.region with
  | none => .ok ((2 ^ ((t.spawn.map fun r => r.payload.length).getD 0) - 1) * 2 ^ 64, s)
  | some n =>
    (s.getVa (dieOf (s.coreOf g)) (s.slotOf g) ((s.kernel g).rgnt + BitVec.ofNat 64 (64 * n)) 64).bind fun r =>
      .ok (ofBytes r.1, r.2)

/-- What is live in to any of the regions of threads, as the masks of a region table entry. -/
def State.liveIns (s : State) (g : Nat) : List Thread → Run (Nat × State)
  | [] => .ok (0, s)
  | t :: ts =>
    if t.exited then s.liveIns g ts
    else (s.regionEntry g t).bind fun x => (x.2.liveIns g ts).bind fun y => .ok (Nat.lor x.1 y.1, y.2)

/-- The entries of a register file that a mask names. -/
def keepBits {α : Type} (m : AL α) (mask lo : Nat) : AL α := m.filter fun p => fldN mask (lo + p.1) 1 == 1

/-- A thread at its region's entry. In a start region its registers are its start state; elsewhere the saved ones stay. The
results of accesses from before the region are still to come, in the registers given. -/
def Thread.rollback (t : Thread) (mask : Nat) (vdst cdst : List Nat) : Thread :=
  let u : Thread :=
    { Thread.start t.rgnPc with
      vEmpty := vdst, cEmpty := cdst, depth := t.rgnDepth
      rs := t.rs.drop (t.depth.toNat - t.rgnDepth.toNat)
      mr := t.rgnMr, exited := t.exited, region := t.region, rgnAcc := t.rgnAcc
      late := t.late.filter fun x => decide (x.order < t.rgnAcc)
      rgnPc := t.rgnPc, rgnDepth := t.rgnDepth, rgnMr := t.rgnMr, spawn := t.spawn }
  match t.region, t.spawn with
  | some _, _ =>
    { u with v := keepBits t.v mask 64, c := keepBits t.c mask 320, cc := t.cc, futures := keepBits t.futures mask 64 }
  | none, some r => { u with v := (List.range r.payload.length).map fun i => (i, r.payload.getD i 0) }
  | none, none => u

/-- The lanes of a group that are in a region of the table. -/
def Group.inRegion (x : Group) (l : Nat) : Bool := ((x.lanes[l]?).map fun t => t.region.isSome).getD false

/-- Whether an access or store of a thread is from before the region that is run again. -/
def State.isOlder (s : State) (id g l : Nat) : Bool :=
  let t := s.thread g l
  t.exited || decide (id < t.rgnAcc) || ((s.group? g).map Group.isParked).getD false

/-- The accesses of groups from before their regions. -/
def State.olderAccs (s : State) (us : List Nat) : AL Acc :=
  s.acc.filter fun p => us.contains p.2.g && s.isOlder p.1 p.2.g p.2.lane

/-- A group at its threads' region entries: ply registers and tiles at their shadowed state, nothing pending (R304). -/
def Group.rollback (x : Group) (mask : Nat) (older : AL Acc) : Group :=
  let dst := fun (f : Acc → List Nat) (l : Nat) => (older.filter fun q => q.2.lane == l).flatMap fun q => f q.2
  let p := x.p.map fun q => (q.1, x.unshadowed q.1 q.2)
  { x with
    lanes := x.lanes.zipIdx.map fun t => t.1.rollback mask (dst Acc.dst t.2) (dst Acc.cdst t.2)
    p := (keepBits p mask 352).map fun q => (q.1, { q.2 with el := q.2.el.filter fun e => x.inRegion e.1 })
    tiles := x.tiles.map fun q => (q.1, ((alGet? x.shadowT q.1).map fun y => y.1).getD q.2)
    tags := keepBits x.tags mask 64
    shadowP := [], shadowT := [], pimgs := [], racq := [], tagWait := [], prior := none, active := false, boosted := none, stopped := false }

/-- A parked group as it is saved: all of it, with the h registers of each thread's current bank. -/
def Group.asParked (x : Group) : Group :=
  { x with lanes := x.lanes.map fun t => { t with h := t.h.filter fun p => p.1 / 32 == t.level.toNat } }

/-- The saved state of a group. -/
def State.saveGroup (s : State) (g : Nat) : Run (SavedGroup × State) :=
  match s.group? g with
  | none => .fault
  | some x =>
    if x.isParked then .ok (⟨g, x.asParked, 0⟩, s)
    else (s.liveIns g x.lanes).bind fun m => .ok (⟨g, x.rollback m.1 (m.2.olderAccs [g]), m.1⟩, m.2)

/-- The saved states of groups. -/
def State.saveGroups (s : State) : List Nat → Run (List SavedGroup × State)
  | [] => .ok ([], s)
  | g :: gs => (s.saveGroup g).bind fun x => (x.2.saveGroups gs).bind fun xs => .ok (x.1 :: xs.1, xs.2)

/-! ## Images in memory (R439, R440) -/

/-- The address of image `i`. -/
def Ctx.imageAddr (c : Ctx) (i : Nat) : Dword := c.pimbase + BitVec.ofNat 64 (4096 + 2 ^ 24 * i)

/-- The scratchpad section of one core of a team: the reservation, the full bits of its granules and the grants. -/
def spadSection (x : Spad) (scrB : Nat) (grants : List (Nat × Nat × Nat)) : List Byte :=
  x.read 0 scrB ++ toBytes (scrB / 128) (maskOf ((List.range (scrB / 16)).filter fun k => x.isFull (16 * k))) ++
    grants.flatMap fun r => toBytes 16 (r.1 % 256 + r.2.1 * 2 ^ 32 + r.2.2 * 2 ^ 64)

/-- The scratchpad grants of an image's groups on one core of its team: group, offset and bytes. -/
def Image.grants (im : Image) (t : Team) (side : Nat) : List (Nat × Nat × Nat) :=
  im.groups.flatMap fun x => if x.group.home.core = t.core + side then x.group.grants.map fun r => (x.group.grp, r.1, r.2) else []

/-- The scratchpad section of an image (R440). -/
def Image.spads (im : Image) (scrB : Nat) : List Byte :=
  match im.team with
  | none => []
  | some (_, t) => spadSection t.spad0 scrB (im.grants t 0) ++ (if t.pair then spadSection t.spad1 scrB (im.grants t 1) else [])

/-- The core that an image's header names. -/
def Image.core (im : Image) : Nat :=
  match im.team with
  | some (_, t) => t.core
  | none => (im.groups.head?.map fun x => x.group.home.core).getD 0

/-- The parts of a saved group in the pool, tile and group sections of its image. -/
def SavedGroup.parts (x : SavedGroup) (k : Kernel) : List Part × List Part × List Part :=
  (x.group.poolParts, x.group.tileParts, x.group.groupParts k x.mask x.group.isParked)

/-- The four sections of an image (R440): in each the parts of its groups in turn. -/
def Image.sections (im : Image) (k : Kernel) : List (List Byte) :=
  let each := fun f : SavedGroup → List Part => im.groups.flatMap fun x => partBytes x.group (f x)
  [im.spads k.scrB, each fun x => (x.parts k).1, each fun x => (x.parts k).2.1, each fun x => (x.parts k).2.2]

/-- The header of an image (Table 18-7), with the byte lengths of its sections. -/
def Image.header (im : Image) (k : Kernel) (lnum : Word) (lens : List Nat) : List Byte :=
  let teamNo := (im.groups.head?.map fun x => x.group.teamNo).getD 0xFFFFFFFF
  toBytes 256 (1 + im.groups.length % 256 * 2 ^ 8 + (if k.width = 64 then 2 else if k.width = 32 then 1 else 0) * 2 ^ 16 +
    b2n k.pair * 2 ^ 18 + b2n im.team.isNone * 2 ^ 19 + maskOf im.batons % 256 * 2 ^ 20 + lnum.toNat * 2 ^ 32 +
    teamNo.toNat * 2 ^ 64 + k.kdesc.toNat * 2 ^ 96 + im.core % 1024 * 2 ^ 160 +
    ((List.range 4).map fun i => lens.getD i 0 % 2 ^ 32 * 2 ^ (192 + 32 * i)).foldl (· + ·) 0)

/-! ## Taking a pre-emption (R438, R439) -/

/-- The machine without the groups of a pre-empted team: their accesses and parked stores have been saved or are dropped, and the quads' batons
are freed (R115, R199, R229). -/
def State.removeUnit (s : State) (us : List Nat) (team : Option Nat) : State :=
  let cores := dedupN (us.map s.coreOf)
  let drop := fun x : Core =>
    { x with baton := x.baton.filter fun b => some b.1 != team, batonWait := x.batonWait.filter fun w => !us.contains w.1 }
  let s1 := { s with
    groups := s.groups.filter fun p => !us.contains p.1
    teams := match team with
      | some t => alDel s.teams t
      | none => s.teams
    acc := s.acc.filter fun p => !us.contains p.2.g
    sb := s.sb.filter fun p => !(us.contains p.2.g && p.2.loc.isNone)
    cores := s.cores.map fun p : Nat × Core => (p.1, drop p.2)
    dies := s.dies.map fun p : Nat × Die => (p.1, { p.2 with parkTable := p.2.parkTable.filter fun g => !us.contains g }) }
  cores.foldl (fun (t : State) c => t.placeFormed c) s1

/-- The quads of a team that hold a baton. -/
def State.batonsOf (s : State) (team : Option Nat) : List Nat :=
  s.cores.filterMap fun p => p.2.baton.bind fun b => if some b.1 = team then some b.2 else none

/-- The return stacks of groups gathered; none where a line has to be waited for. -/
def State.gatherAll (s : State) : List Nat → Option State
  | [] => some s
  | u :: us => (s.gatherStacks u).bind fun t => t.gatherAll us

/-- The image of a team of groups, written in its place; the state is one in which the groups are still there. -/
def State.writeImage (s : State) (g : Nat) (us : List Nat) : Run (Image × State) :=
  let slot := s.slotOf g
  let team := (s.group? g).bind fun x => x.team
  let k := s.kernel g
  (s.saveGroups us).bind fun r =>
    let s1 := r.2
    let im : Image :=
      { index := (s1.ctx slot).images.length
        team := team.bind fun t => (alGet? s1.teams t).map fun x => (t, { x with wait0 := [], wait1 := [] })
        groups := r.1, batons := s1.batonsOf team, accs := s1.olderAccs us
        stores := s1.sb.filter fun p => us.contains p.2.g && p.2.loc.isNone && s1.isOlder p.1 p.2.g p.2.lane }
    let lnum := ((s1.group? g).bind fun x => (alGet? s1.launches x.launch).map fun l => l.lnum).getD 0
    let body := im.sections k
    (s1.putVa (dieOf (s.coreOf g)) slot ((s1.ctx slot).imageAddr im.index)
      (im.header k lnum (body.map fun x => x.length) ++ body.flatten)).bind fun s2 => .ok (im, s2)

/-- The pre-emption of a group's team: its return stacks and registers are saved, its image is written, and it goes. A fault
kills the context; none where a line has to be waited for. -/
def State.preempt (s0 : State) (g : Nat) : Option State :=
  let us := s0.unitOf g
  let slot := s0.slotOf g
  (s0.gatherAll us).bind fun s =>
    if (s.ctx slot).state ≠ 1 then some s
    else match s.writeImage g us with
      | .ok (im, t) => some ((t.modCtx slot fun c => { c with images := c.images ++ [im] }).removeUnit us ((s.group? g).bind fun x => x.team))
      | .fault => some (s.kill slot 0x164 0 none)
      | .wait => none

/-- A Skein record of a pre-empted context appended to the ring of its die, where the context has rings with room; otherwise it
stays. -/
def State.ringSave (s : State) (slot core : Nat) (r : Nat × SpawnRec) : Run State :=
  let die := dieOf core
  let c := s.ctx slot
  let (h, t) := alGet c.rings (0, 0) die
  if r.2.slot ≠ slot ∨ c.srbase = 0 ∨ 2 ^ c.srlog2 ≤ (t - h).toNat then .ok s
  else
    let lnum := ((alGet? s.launches r.2.launch).map fun l => l.lnum).getD 0
    (s.putVa die slot (c.ringAddr die t) (r.2.bytes lnum)).bind fun s1 =>
      .ok ((s1.modCtx slot fun x =>
        { x with rings := alSet x.rings die (h, t + 1)
                 ringInfo := alSet x.ringInfo (2 ^ 32 * die + t.toNat) ⟨r.2.launch, r.2.join, r.2.core, none⟩ }).modCore core
        fun y => { y with skein := y.skein.erase r })

/-- The Skein records of a context appended to the rings (R439). -/
def State.saveSkein (s : State) (slot : Nat) : Run State :=
  (s.cores.flatMap fun p => p.2.skein.map fun r => (p.1, r)).foldl (fun (t : Run State) q => t.bind fun u => u.ringSave slot q.1 q.2)
    (.ok s)

/-- The ring positions of the context record. -/
def Ctx.ringWords (c : Ctx) : List Byte :=
  (List.range 8).flatMap fun d =>
    let q := alGet c.rings (0, 0) d
    toBytes 4 q.1.toNat ++ toBytes 4 q.2.toNat

/-- The context record of a pre-empted context written (R439). -/
def State.writeContext (s : State) (slot : Nat) : Run State :=
  let c := s.ctx slot
  (s.putVa 0 slot c.pimbase (toBytes 4 c.images.length)).bind fun t => t.putVa 0 slot (c.pimbase + 16) c.ringWords

/-- The end of a pre-emption: the rings and the context record are written, and STATE becomes 2 (R438, R439). A fault kills the context;
none where a line has to be waited for. -/
def State.finishPreempt (s : State) (slot : Nat) : Option State :=
  match (s.saveSkein slot).bind fun t => t.writeContext slot with
  | .ok t => some (t.modCtx slot fun x => { x with state := 2 })
  | .fault => some (s.kill slot 0x164 0 none)
  | .wait => none

/-- Whether every team of a context that pre-empts is saved or has ended. -/
def State.preempted (s : State) (slot : Nat) : Bool :=
  (s.ctx slot).state == 1 && !s.groups.any fun p => p.2.slot == slot

/-- Every context whose pre-emption is over brought to STATE 2. -/
def State.finishAll (s : State) : State :=
  (s.ctxs.map fun p => p.1).foldl (fun (t : State) c => if t.preempted c then (t.finishPreempt c).getD t else t) s

/-- `PREEMPTION_TAKEN` (R438). -/
def execPreemptionTaken (g : Nat) (s : State) : Out :=
  .next (if s.preemptable g then ((s.preempt g).map State.finishAll).getD s else s.finishAll)

/-- `CTXCTL_PREEMPT` (R436): refused without an area or room in it; ignored unless the context runs. -/
def execCtxctlPreempt (slot : Nat) (s : State) : Out :=
  let c := s.ctx slot
  .next (if c.state ≠ 0 then s
    else if c.pimbase = 0 ∨ c.pimmax.toNat < s.units slot then s.modCtx slot fun x => { x with state := 4 }
    else (s.modCtx slot fun x => { x with state := 1, images := [] }).finishAll)

/-! ## Restoration (R442) -/

/-- Whether an image's header is one that the Narut restores. -/
def State.headerOk (s : State) (slot i : Nat) : Run (Bool × State) :=
  (s.getVa 0 slot ((s.ctx slot).imageAddr i) 40).bind fun r =>
    let x := ofBytes r.1
    .ok (fldN x 0 8 == 1 && decide (256 + fldN x 192 32 + fldN x 224 32 + fldN x 256 32 + fldN x 288 32 ≤ 2 ^ 24), r.2)

/-- The headers of a list of images checked; a bad one kills the context with 0x165, and a fault with 0x164. None where a line has to be
waited for. -/
def State.checkHeaders (s : State) (slot : Nat) : List Image → Option State
  | [] => some s
  | im :: ims => match s.headerOk slot im.index with
    | .fault => some (s.kill slot 0x164 0 none)
    | .wait => none
    | .ok (false, s1) => some (s1.kill slot 0x165 0 none)
    | .ok (true, s1) => s1.checkHeaders slot ims

/-- A reservation as its section holds it. -/
def Spad.ofSection (x : Spad) (scrB : Nat) (bs : List Byte) : Spad :=
  let bits := ofBytes ((bs.drop scrB).take (scrB / 128))
  { x with bytes := bytesSet [] 0 (bs.take scrB), empties := (List.range (scrB / 16)).filter fun k => fldN bits k 1 == 0 }

/-- The reservations of an image read back from memory. -/
def State.loadSpads (s : State) (slot : Nat) (im : Image) (k : Kernel) (t : Team) : Run (Team × State) :=
  let n := k.scrB + k.scrB / 128
  let side := n + 16 * (im.grants t 0).length
  let at' := (s.ctx slot).imageAddr im.index + 256
  (s.getVa 0 slot at' n).bind fun r =>
    let t1 := { t with spad0 := t.spad0.ofSection k.scrB r.1 }
    if !t.pair then .ok (t1, r.2)
    else (r.2.getVa 0 slot (at' + BitVec.ofNat 64 side) n).bind fun q => .ok ({ t1 with spad1 := t1.spad1.ofSection k.scrB q.1 }, q.2)

/-- Saved groups with what a section of their image holds of them. -/
def loadSection (f : SavedGroup → List Part) : List SavedGroup → List Byte → List SavedGroup
  | [], _ => []
  | x :: xs, bs => let (y, cs) := readParts x.group bs (f x); { x with group := y } :: loadSection f xs cs

/-- The groups of an image as its last three sections hold them, by the lengths of its header. -/
def State.loadGroups (s : State) (slot : Nat) (im : Image) (k : Kernel) : Run (List SavedGroup × State) :=
  let at' := (s.ctx slot).imageAddr im.index
  (s.getVa 0 slot at' 40).bind fun h =>
    let n := fun i : Nat => fldN (ofBytes h.1) (192 + 32 * i) 32
    (h.2.getVa 0 slot (at' + BitVec.ofNat 64 (256 + n 0)) (n 1 + n 2 + n 3)).bind fun r =>
      let xs := loadSection (fun x => (x.parts k).1) im.groups (r.1.take (n 1))
      let ys := loadSection (fun x => (x.parts k).2.1) xs ((r.1.drop (n 1)).take (n 2))
      .ok (loadSection (fun x => (x.parts k).2.2) ys (r.1.drop (n 1 + n 2)), r.2)

/-- The state after reads of an image: a fault kills the context, and a line to wait for leaves the placement to a later round. -/
def State.afterLoad {α : Type} (s : State) (slot : Nat) (r : Run α) (f : α → State) : State :=
  match r with
  | .ok x => f x
  | .fault => s.kill slot 0x164 0 none
  | .wait => s

/-- Caches that start cold where a team is restored. -/
def State.cold (s : State) (core : Nat) : State :=
  (s.modCore core fun c => { c with l1 := [], mcache := [] }).modDie (dieOf core) fun d => { d with l2 := [], rdc := [] }

/-- What was outstanding from before the regions of an image's groups, outstanding again; parked accesses walk again. -/
def State.reissue (s : State) (im : Image) : State :=
  let acc := fun (u : State) (p : Nat × Acc) =>
    { u with acc := alSet u.acc p.1 { p.2 with core := u.coreOf p.2.g, park := none } }
  let sto := fun (u : State) (p : Nat × SbEntry) =>
    { u with sb := alSet u.sb p.1 { p.2 with core := u.coreOf p.2.g, park := none } }
  im.stores.foldl sto (im.accs.foldl acc s)

/-- A saved group put at a place, or among the parked ones of its new core. -/
def State.restoreGroup (s : State) (x : SavedGroup) (core : Nat) (slot : Option Nat) : State :=
  let home : Place := ⟨core, x.group.home.quarter, slot.getD x.group.home.slot⟩
  let s1 := { s with groups := alSet s.groups x.gid { x.group with home := home, place := none, forming := none } }
  if x.group.isParked then
    s1.modDie (dieOf core) fun d =>
      { d with parkTable := if d.parkTable.length < 2048 then d.parkTable ++ [x.gid] else d.parkTable }
  else match slot with
    | some k => (s1.takeSlot x.gid ⟨core, home.quarter, k⟩).spreadStacks x.gid
    | none => s1

/-- Whether a core, and the next one of a pair, has batons for the quads of an image that nobody holds or waits for (R320). -/
def State.batonsFree (s : State) (im : Image) (pair : Bool) (core : Nat) : Bool :=
  im.batons.all fun j =>
    let c := s.core (core + (if pair then j % 2 else 0))
    c.baton.isNone && !c.batonWait.any s.awaitsBaton

/-- An image that has been placed. -/
def State.restored (s : State) (slot : Nat) (im : Image) (core : Nat) : State :=
  (s.reissue im).modCtx slot fun c =>
    { c with images := c.images.filter fun i => i.index != im.index, moved := c.moved ++ [(im.core, core)] }

/-- A team's image placed where there is room (R18): the lowest core with room for all of it. -/
def State.restoreTeam (s : State) (slot : Nat) (im : Image) (tm : Nat) (t : Team) : State :=
  let k := s.kernelOf t.launch
  match (List.range 1024).find? fun c => s.teamFits k c && s.batonsFree im t.pair c with
  | none => s
  | some c => s.afterLoad slot ((s.loadSpads slot im k t).bind fun r => (r.2.loadGroups slot im k).bind fun q => .ok (r.1, q)) fun
    | (t1, xs, s1) =>
      let s2 := { s1 with teams := alSet s1.teams tm { t1 with core := c } }
      let s3 := xs.foldl (fun (u : State) x =>
        let nc := c + (x.group.home.core - t.core)
        u.restoreGroup x nc (u.freeSlot nc x.group.home.quarter k.charge)) (if t.pair then (s2.cold c).cold (c + 1) else s2.cold c)
      let s4 := im.batons.foldl (fun (u : State) j =>
        u.modCore (c + (if t.pair then j % 2 else 0)) fun y => { y with baton := some (tm, j) }) s3
      s4.restored slot im c

/-- The slot of a quarter for a restored spawned group: a free one with room, or the reserve slot (R28, R29). -/
def State.spawnSlot (s : State) (core quarter charge : Nat) : Option Nat :=
  (s.freeSlot core quarter charge) <|> (if charge ≤ 16384 ∧ s.reserveFree core quarter then some 15 else none)

/-- A spawned group's image put on a core, in a slot or among its parked groups. -/
def State.placeSpawned (s : State) (slot : Nat) (im : Image) (xs : List SavedGroup) (core : Nat) (place : Option Nat) : State :=
  (xs.foldl (fun (u : State) x => u.restoreGroup x core place) (s.cold core)).restored slot im core

/-- A spawned group's image placed where there is room, in the quarter that its section names. -/
def State.restoreSpawned (s : State) (slot : Nat) (im : Image) (x : SavedGroup) : State :=
  let k := s.kernelOf x.group.launch
  s.afterLoad slot (s.loadGroups slot im k) fun (xs, s1) =>
    let quarter := ((xs.head?).map fun y => y.group.home.quarter).getD 0
    if x.group.isParked then s1.placeSpawned slot im xs x.group.home.core none
    else match (List.range 1024).find? fun c => (s1.spawnSlot c quarter k.charge).isSome with
      | none => s
      | some c => s1.placeSpawned slot im xs c (s1.spawnSlot c quarter k.charge)

/-- Whether a store that a group of an image made or has read is still on its way from the core that it left (log 103). -/
def State.storesLeft (s : State) (im : Image) : Bool :=
  s.sb.any fun p => im.groups.any fun x => (p.2.loc.isSome && x.gid == p.2.g) || p.2.readers.any fun r => r.1 == x.gid

/-- One image placed, where there is room and its groups' stores have reached their homes (R399). -/
def State.restoreImage (s : State) (slot : Nat) (im : Image) : State :=
  if (s.ctx slot).state ≠ 5 ∨ s.storesLeft im then s
  else match im.team, im.groups with
    | some (tm, t), _ => s.restoreTeam slot im tm t
    | none, x :: _ => s.restoreSpawned slot im x
    | none, [] => s

/-- The new core of a ring record that named an old one (R442): the core of the team that was there; otherwise the lowest core
of the die that received most of the old die's teams. -/
def newCore (moved : List (Nat × Nat)) (old : Nat) : Nat :=
  match moved.find? fun m => m.1 == old with
  | some m => m.2
  | none =>
    let from' := moved.filter fun m => dieOf m.1 == dieOf old
    let to' := fun d : Nat => (from'.filter fun m => dieOf m.2 == d).length
    match minBy? (fun d : Nat => from'.length - to' d) (List.range 8) with
    | some d => if from' = [] then 128 * dieOf old else 128 * d
    | none => 128 * dieOf old

/-- A restoration that is over: the ring records are directed to the new cores, and STATE becomes 0. -/
def State.finishRestore (s : State) (slot : Nat) : State :=
  if (s.ctx slot).state = 5 ∧ (s.ctx slot).images = [] then
    s.modCtx slot fun c =>
      { c with state := 0, moved := [],
               ringInfo := c.ringInfo.map fun p => (p.1, { p.2 with dest := some (newCore c.moved p.2.core) }) }
  else s

/-- The headers of a context's images checked, and the images placed as far as there is room. -/
def State.restoreCtx (s : State) (slot : Nat) : State :=
  match s.checkHeaders slot (s.ctx slot).images with
  | none => s
  | some t => ((t.ctx slot).images.foldl (fun (u : State) im => u.restoreImage slot im) t).finishRestore slot

/-- `CTXCTL_RESUME` (R442): the headers are checked, and the images are placed ahead of all launches. No record that the context has
bound stays cached (R89). -/
def execCtxctlResume (slot : Nat) (s : State) : Out :=
  .next (if (s.ctx slot).state ≠ 2 then s
    else
      let s1 := s.modCtx slot fun c => { c with state := 5, moved := [] }
      (s1.dropRecords slot).restoreCtx slot)

/-- A round of placement: what is to be restored comes first. -/
def State.placementRound (s : State) : State :=
  let s1 := (s.ctxs.map fun p => p.1).foldl (fun (t : State) c => if (t.ctx c).state = 5 then t.restoreCtx c else t) s
  s1.placeWalk s1.placeOrder

/-- `PLACEMENT_ROUND` (R375, R442). -/
def execPlacementRound (s : State) : Out := .next s.placementRound

end Sys2Proof.Machine
end

