-- ==== Sys2Proof/Machine/Health.lean ====
section
/-! DEFINITION. Boot, Woad, Madder, the debug port, throttling, and device reset (R443 to R455). -/

namespace Sys2Proof.Machine

open Sys2Proof

/-! ## Boot (R444, R450 to R452) -/

/-- The entry of a step in the boot record. -/
def Boot.entry (b : Boot) (i : Nat) : BootStep := alGet b.record ⟨0, false, 0, []⟩ i

/-- The entry of a step changed. -/
def Boot.modEntry (b : Boot) (i : Nat) (f : BootStep → BootStep) : Boot := { b with record := alSet b.record i (f (b.entry i)) }

/-- Whether a step is required (Table 19-3). -/
def stepRequired (i : Nat) : Bool := i ≤ 4

/-- Whether a step has an alternative form (Table 19-3). -/
def stepHasAlt (i : Nat) : Bool := i ≤ 4 || i == 7

/-- The entry of a step as it was when this start began: it decides the step's form. -/
def Boot.began (b : Boot) (i : Nat) : BootStep := alGet b.start ⟨0, false, 0, []⟩ i

/-- Whether a step runs in its alternative form at a start (R450). -/
def Boot.alt (b : Boot) (i : Nat) : Bool := stepHasAlt i && ((b.began i).p || decide (1 ≤ (b.began i).a))

/-- Whether an optional step is skipped at a start: it failed and has no alternative form, or failed in that form (R450). -/
def Boot.skips (b : Boot) (i : Nat) : Bool :=
  !stepRequired i && decide ((if stepHasAlt i && !(b.began i).p then 2 else 1) ≤ (b.began i).a)

/-- BOOTSTAT with STATE and FAILSTEP, and DEGRADED for its mask (R451). -/
def bootStat (state fail mask : Nat) : Dword :=
  BitVec.ofNat 64 (state + b2n (mask % 256 != 0) * 4 + fail * 16 + mask % 256 * 256)

/-- The mask of BOOTSTAT. -/
def Boot.mask (b : Boot) : Nat := fld b.stat 8 8

/-- A bit of the mask set for a step. -/
def Boot.note (b : Boot) (i : Nat) : Boot := { b with stat := bootStat 0 0 (Nat.lor b.mask (2 ^ (i - 1))) }

/-- The next step in hand from a step on, those that are skipped being passed over, by fuel: it is marked as started, or boot is
ready (R450, R451). -/
def Boot.enter (b : Boot) (i : Nat) : Nat → Boot
  | 0 => b
  | n + 1 =>
    if 7 < i then { b with step := 8, stat := bootStat 1 0 b.mask }
    else if b.skips i then (b.note i).enter (i + 1) n
    else { b.modEntry i fun x => { x with mark := 1 } with step := i }

/-- A step that failed (R450); the mask of BOOTSTAT names it where it ran in its alternative form (R451). -/
def Boot.failStep (b : Boot) (i : Nat) : Boot :=
  let b0 := if b.alt i then b.note i else b
  let b1 := b0.modEntry i fun x => { x with a := x.a + 1, mark := 3 }
  if stepRequired i then
    (if 3 ≤ (b1.entry i).a then { b1 with step := 8, stat := bootStat 2 i b1.mask } else b1)
  else b1.enter (i + 1) 8

/-- A step that passed (R450). A step that the host has cleared in this start does not set P: it runs in its normal form at the next. -/
def Boot.passStep (b : Boot) (i : Nat) : Boot :=
  let alt := b.alt i
  let b1 := b.modEntry i fun x => { x with a := 0, p := x.p || (alt && !b.cleared.contains i), mark := 2 }
  (if alt then b1.note i else b1).enter (i + 1) 8

/-- The firmware that step 1 verifies and runs, with its digest (R444, R445). -/
def Boot.load (b : Boot) (image : List Byte) : Option Boot :=
  match Config.firmware Config.root image with
  | none => none
  | some svn =>
    if svn.toNat < b.fused.toNat then none
    else some { b with svn := svn, digest := Config.shake256 image 64,
                       fused := if b.svnup ∧ b.fused.toNat < svn.toNat then svn else b.fused }

/-- The banks of each die that step 2 maps out in its alternative form: those of the boot record, or those it has found where the record
names none (R452). -/
def Boot.banksOut (b : Boot) (found : List Nat) : List Nat := if (b.began 2).banks = [] then found else (b.began 2).banks

/-- Whether the step in hand has been started and has not ended. -/
def Boot.inHand (b : Boot) : Bool := decide (1 ≤ b.step) && decide (b.step ≤ 7) && (b.entry b.step).mark == 1

/-- LTMO as the management processor sets it: from 0.1 ms to 1 s (R335). -/
def State.setLtmo (s : State) (n : Option Nat) : State :=
  match n with
  | some v => if 100000 ≤ v ∧ v ≤ 1000000000 then { s with ltmo := v } else s
  | none => s

/-- The end of the boot step in hand (R450, R452). -/
def State.bootStep (s : State) (r : BootReport) : State :=
  let b := s.boot
  let i := b.step
  if !b.inHand then s
  else if !r.passed then { s with boot := b.failStep i }
  else match i with
    | 1 => match b.load r.image with
      | some b1 => { s with boot := b1.passStep 1 }
      | none => { s with boot := b.failStep 1 }
    | 2 =>
      if b.alt 2 then
        let out := b.banksOut r.banks
        let s1 := { s with boot := (b.modEntry 2 fun x => { x with banks := if b.cleared.contains 2 then [] else out }).passStep 2 }
        (List.range 8).foldl (fun (t : State) d => t.modDie d fun x => { x with bondcap := 3072 - 32 * out.getD d 0 }) s1
      else { s with boot := b.passStep 2 }
    | 3 => { s with boot := { b.passStep 3 with rate := if b.alt 3 then 8533 else 10667 } }
    | _ => { s with boot := b.passStep i }

/-- `BOOT_STEP_COMPLETE`: a report of the management processor (R335, R450, R452). -/
def execBootStepComplete (r : BootReport) (s : State) : Out := .next ((s.bootStep r).setLtmo r.ltmo)

/-- A and P of a step cleared for the next start. -/
def Boot.clear (b : Boot) (i : Nat) : Boot :=
  { b.modEntry i (fun x => { x with a := 0, p := false, banks := [] }) with cleared := b.cleared ++ [i] }

/-- `BOOTCLR_WRITE` (R450): A and P of the named steps, for the next start; this one goes on as it began. -/
def execBootclrWrite (v : Dword) (s : State) : Out :=
  .next { s with boot := ((List.range 7).filter fun i => bit v (i + 1)).foldl (fun (b : Boot) i => b.clear (i + 1)) s.boot }

/-- `DEVICE_RESET`: every register takes its reset value. The boot record in flash, the fused SVN and an erased identity seed stay
(R444, R447, R450); a step found started counts as failed. -/
def execDeviceReset (s : State) : Out :=
  let b := if s.boot.inHand then s.boot.modEntry s.boot.step fun x => { x with a := x.a + 1, mark := 3 } else s.boot
  let b1 : Boot := { Boot.zero with fused := b.fused, record := b.record, start := b.record }
  let stop := ([1, 2, 3, 4] : List Nat).find? fun i => decide (3 ≤ (b.entry i).a)
  let b2 := match stop with
    | some i => { b1 with step := 8, stat := bootStat 2 i 0 }
    | none => b1.enter 1 8
  .next { State.reset with boot := b2, sec := { Sec.zero with seedErased := s.sec.seedErased } }

/-! ## Attestation (R445, Table 19-1) -/

/-- `ATTESTATION_GO`: the nonce and BOOTSTAT are taken; ignored while a report is being built. -/
def execAttestationGo (s : State) : Out :=
  .next (if s.sec.busy then s
    else { s with sec := { s.sec with busy := true, done := false, err := false, taken := s.sec.nonce, boot := s.boot.stat } })

/-- The boot record as BAR0 serves it. -/
def Boot.bytes (b : Boot) : List Byte := (List.range 4096).map (Config.bootByte b.entries)

/-- Bits [1727:0] of the report. -/
def State.reportBody (s : State) : List Byte :=
  toBytes 64 s.sec.taken.toNat ++
    toBytes 8 (Config.device.toNat + s.boot.svn.toNat * 2 ^ 32) ++
    s.boot.digest.take 64 ++ List.replicate (64 - s.boot.digest.length) 0 ++
    (Config.shake256 s.boot.bytes 64).take 64 ++ List.replicate (64 - (Config.shake256 s.boot.bytes 64).length) 0 ++
    toBytes 16 (s.sec.boot.toNat + s.sec.alarms.toNat * 2 ^ 64)

/-- `ATTESTATION_DONE`: the report is written, or ERR is set where the identity seed has been erased. -/
def execAttestationDone (s : State) : Out :=
  .next (if !s.sec.busy then s
    else if s.sec.seedErased then { s with sec := { s.sec with busy := false, err := true } }
    else
      let sig := Config.ed448 s.identityKey (Config.shake256 s.reportBody 64)
      { s with sec := { s.sec with busy := false, done := true, report := s.reportBody ++ sig.take 114 } })

/-! ## Madder (R446 to R448) -/

/-- The policy byte of a source. -/
def Sec.policy (x : Sec) (n : Nat) : Nat := fld x.mpol (8 * n) 8

/-- The open context slots. -/
def State.openSlots (s : State) : List Nat := s.ctxs.filterMap fun p => if p.2.state = 7 then none else some p.1

/-- The keys that an action erases (R446, R447): from 2 on the identity seed too, for good. -/
def State.eraseKeys (s : State) (action : Nat) : State :=
  { s with sec := { s.sec with
      seedErased := s.sec.seedErased || decide (2 ≤ action)
      erase := if action = 0 then s.sec.erase else some (action, s.ns + Config.eraseTime s.sec.alarms.toNat) } }

/-- The action of an erase that is still running (R448). -/
def State.erasing (s : State) : Option Nat :=
  match s.sec.erase with
  | some (a, until') => if s.ns < until' then some a else none
  | none => none

/-- An alarm recorded: its MSTAT bits and the count. -/
def State.recordAlarm (s : State) (fired : BitVec 5) : State :=
  { s with sec := { s.sec with fired := s.sec.fired ||| fired, alarms := s.sec.alarms + 1 } }

/-- An alarm of the sources that fired in one cycle (R447, R448). While an erase is running it only raises that erase, or is only
recorded. -/
def State.alarm (s : State) (fired : BitVec 5) : State :=
  let ns := bitsOf 5 fired.toNat
  let action := ns.foldl (fun m n => max m (s.sec.policy n % 4)) 0
  let stop := ns.any fun n => fldN (s.sec.policy n) 2 1 == 1
  if ns = [] then s
  else match s.erasing with
    | some a => let s1 := s.recordAlarm fired; if a < action then s1.eraseKeys action else s1
    | none =>
      let s0 := s.recordAlarm fired
      let s1 := { s0 with sec := { s0.sec with linksDown := true } }
      let s2 := (s1.sessions.map fun p => p.1).foldl (fun (t : State) e => t.closeSpan e 0) s1
      let s3 := s2.eraseKeys action
      let s4 := if stop then s3.openSlots.foldl (fun (t : State) c => t.kill c 0x16A 0 none) s3 else s3
      s4.irq 4

/-- `MADDER_ALARM` (R447). -/
def execMadderAlarm (fired : BitVec 5) (s : State) : Out := .next (s.alarm fired)

/-- `MSTAT_CLEAR` (R447): the links start again once every bit is clear. -/
def execMstatClear (v : Dword) (s : State) : Out :=
  let f := s.sec.fired &&& ~~~ (BitVec.ofNat 5 v.toNat)
  .next { s with sec := { s.sec with fired := f, linksDown := s.sec.linksDown && f != 0 } }

/-- `MLOCK_WRITE` (R448). -/
def execMlockWrite (v : Dword) (s : State) : Out :=
  .next { s with sec := { s.sec with locked := s.sec.locked || bit v 0 } }

/-! ## The debug port (R449) -/

/-- Whether the debug session is one for a group's context (R449). -/
def State.sessionFor (s : State) (g : Nat) : Bool :=
  (s.group? g).isSome && s.sec.session == some (s.ctx (s.slotOf g)).id

/-- `DEBUG_SESSION_REQUEST` (R449): a session for the context that a good certificate names, and a group that an enabled one stops; any
other access fires source 4. -/
def execDebugSessionRequest (a : DebugAccess) (s : State) : Out :=
  .next (match a with
    | .session cert => (match Config.debugCert Config.root cert with
      | none => s.alarm 0x10
      | some (dev, ctx) => if dev = Config.device then { s with sec := { s.sec with session := some ctx } } else s.alarm 0x10)
    | .stop g => if s.sessionFor g then s.modGroup g fun x => { x with stopped := true } else s.alarm 0x10
    | .other => s.alarm 0x10)

/-- `DEBUG_RESUME` (R431, R449): an enabled session resumes a group of its context; any other access fires source 4. -/
def execDebugResume (g : Nat) (s : State) : Out :=
  .next (if s.sessionFor g then s.modGroup g fun x => { x with stopped := false } else s.alarm 0x10)

/-! ## Throttling (R453, Table 19-4) -/

/-- TTHR and TCRIT in units of 0.25 °C. -/
def State.tthr (s : State) : Int := 4 * (fld s.thcfg 0 8 : Int)
/-- TCRIT in units of 0.25 °C. -/
def State.tcrit (s : State) : Int := 4 * (fld s.thcfg 8 8 : Int)

/-- The dies whose sensors meet a condition. -/
def diesWith (t : Throttle) (p : Reading → Bool) : List Nat :=
  (List.range t.readings.length).filter fun d => ((t.readings[d]?).map p).getD false

/-- The dies that a cause holds on: those at TTHR, or with a rail margin below 15 mV (R453). -/
def State.hotDies (s : State) (t : Throttle) (cause : Nat) : List Nat :=
  if cause = 2 then diesWith t fun r => decide (s.tthr ≤ r.temp) else if cause = 3 then diesWith t fun r => decide (r.margin < 15) else []

/-- Whether a cause holds by the readings (R453): a power above 2,100 W, a die at TTHR, a margin below 15 mV; ACLK is restored where none
does. -/
def State.causeHolds (s : State) (t : Throttle) (cause : Nat) : Bool :=
  match cause with
  | 1 => decide (2100 < t.power)
  | 2 => s.hotDies t 2 != []
  | 3 => s.hotDies t 3 != []
  | 4 => !decide (2100 < t.power) && s.hotDies t 2 == [] && s.hotDies t 3 == []
  | _ => false

/-- THREV after a throttle event of causes that hold, with the frequency of each: the lowest frequency, the lowest-numbered cause, and the
die of a temperature or voltage cause among them. -/
def State.throttled (s : State) (t : Throttle) (cs : List (Nat × Nat)) : State :=
  match minBy? (fun p : Nat × Nat => p.2) cs, minBy? (fun p : Nat × Nat => p.1) cs with
  | some low, some first =>
    let r := s.threv
    let by' := (minBy? (fun p : Nat × Nat => p.1) (cs.filter fun p => p.1 == 2 || p.1 == 3)).map fun p => (s.hotDies t p.1).headD 0
    { s with threv := BitVec.ofNat 64 ((fld r 0 32 + 1) % 2 ^ 32 + first.1 % 8 * 2 ^ 32 + by'.getD (fld r 35 3) % 8 * 2 ^ 35 +
      low.2 % 65536 * 2 ^ 48) }.irq 5
  | _, _ => s

/-- `THROTTLE_EVENT` (R453): ACLK is lowered or restored; a die at TCRIT fires Madder source 2. -/
def execThrottleEvent (t : Throttle) (s : State) : Out :=
  let s1 := s.throttled t (t.causes.filter fun p => s.causeHolds t p.1)
  .next (if t.readings.any fun r => decide (s.tcrit ≤ r.temp) then s1.alarm 4 else s1)

end Sys2Proof.Machine
end

