-- ==== Sys2Proof/Machine/Host.lean ====
section
/-! DEFINITION. The host port and the Lattice (R327 to R335): interrupts, BAR2, the plain registers of BAR0, and the accesses of
peers. -/

namespace Sys2Proof.Machine

open Sys2Proof

/-! ## Interrupts (R331) -/

/-- Whether the condition of an interrupt source holds still. -/
def State.irqHolds (s : State) (b : Nat) : Bool :=
  match b with
  | 0 => s.ctxs.any fun p => p.2.state != 7 && p.2.fqprod != p.2.fqcons
  | 2 => s.queues.any fun p => p.2.err
  | 4 => s.sec.fired != 0
  | _ => false

/-- `HIRQ_CLEAR` (R331). -/
def execHirqClear (v : Dword) (s : State) : Out :=
  let s1 := { s with hirq := s.hirq &&& ~~~ (BitVec.ofNat 7 v.toNat) }
  .next ((List.range 7).foldl (fun (t : State) b => if bit v b && bit s.hirq b && s.irqHolds b then t.irq b else t) s1)

/-! ## Reads of BAR0 (R8, Table 14-8) -/

/-- A launch queue's CSR block as a number (Table 16-1). -/
def LQueue.csrs (x : LQueue) : Nat :=
  x.base.toNat + x.log2 * 2 ^ 64 + x.prio * 2 ^ 69 + b2n x.en * 2 ^ 71 + b2n x.dev * 2 ^ 72 + b2n x.err * 2 ^ 73 +
    x.ctx.toNat * 2 ^ 80 + x.prod.toNat * 2 ^ 96 + x.cons.toNat * 2 ^ 128

/-- A 64-bit word of the security registers (Tables 19-1, 19-5); a write-only field reads 0. -/
def Sec.word (x : Sec) (off : Nat) : Nat :=
  if off = 0x4000 then b2n x.done * 2 + b2n x.err * 4 + b2n x.busy * 8
  else if 0x4040 ≤ off ∧ off < 0x4080 then fld x.nonce (8 * (off - 0x4040)) 64
  else if off = 0x4100 then x.mpol.toNat
  else if off = 0x4108 then x.fired.toNat + x.alarms.toNat * 2 ^ 32
  else if off = 0x4110 then b2n x.locked * 2
  else if off = 0x4200 then (match x.session with
    | some c => 1 + c.toNat * 2 ^ 16
    | none => 0)
  else if 0x4400 ≤ off then ofBytes ((x.report.drop (off - 0x4400)).take 8)
  else 0

/-- A 64-bit word of BAR0 as the host reads it: a write-only register and a reserved offset read 0, and a field that reads and clears
does so for the halves in `mask` (R8, R332). -/
def State.hostReg (s : State) (off mask : Nat) : Nat × State :=
  if off = 0x1008 then (s.hirq.toNat, s)
  else if off = 0x1010 then (s.himask.toNat, s)
  else if 0x2000 ≤ off ∧ off < 0x2800 then (fldN (s.queue ((off - 0x2000) / 32)).csrs (8 * (off % 32)) 64, s)
  else if 0x3000 ≤ off ∧ off < 0x3080 then ((alGet s.psel 0 ((off - 0x3000) / 8)).toNat, s)
  else if 0x4000 ≤ off ∧ off < 0x5000 then (s.sec.word off, s)
  else if off = 0x5808 then (b2n s.boot.svnup, s)
  else if 0x10000 ≤ off ∧ off < 0x30000 then (fld (s.spanEntry ((off - 0x10000) / 32)) (8 * (off % 32)) 64, s)
  else if 0x900000 ≤ off then (0, s)
  else (s.ctlWord ((off - 0x800000) / 4096) off mask).getD (0, s)

/-! ## Device memory (R327, R328) -/

/-- Bytes written at the places of a run that exist. -/
def State.writeWindow (s : State) : Nat → List Byte → State
  | _, [] => s
  | a, b :: bs => (if s.nodeOk a 1 then s.writeHome none a [b] else s).writeWindow (a + 1) bs

/-- The L2 of the home of each sector of a run touched. -/
def State.touchWindow (s : State) (a n : Nat) (store : Bool) : State :=
  ((List.range ((a + n - 1) / 64 + 1 - a / 64)).map fun i => 64 * (a / 64 + i)).foldl (fun (t : State) p =>
    if t.nodeOk p 1 then t.touchDie (homeDie p) (homeDie p) (.node p) 0 store else t) s

/-- A read of 4 or 8 bytes of BAR0 by the host (R8, R332): a field that is read and cleared is cleared where it lies in them. -/
def State.hostRead (s : State) (off n : Nat) : State :=
  let (x, s1) := s.hostReg (off / 8 * 8) (if n = 8 then 3 else if off % 8 = 0 then 1 else 2)
  { s1 with hostOut := s1.hostOut ++ [toBytes n (if n = 8 then x else fldN x (32 * (off / 4 % 2)) 32)] }

/-- A host read of device memory, at the homes. -/
def State.hostReadMem (s : State) (a n : Nat) : State :=
  let s1 := s.touchWindow a n false
  { s1 with hostOut := s1.hostOut ++ [(List.range n).map fun i => if s.nodeOk (a + i) 1 then s.byteAt (a + i) else 0xFF] }

/-- Whether a host access to a run has to wait: behind another, or for a command that owns one of its lines (R328). -/
def State.hostWaits (s : State) (a n : Nat) : Bool := !s.hostTurnNow || s.ownedBy none a n

/-- `HOST_MEMORY_ACCESS` (R327, R328): at the homes, in the order in which the host made them; one that meets a line which a command
owns waits, and those behind it. A device whose boot failed answers in BAR0 alone (R450). -/
def execHostMemoryAccess (a : HostAccess) (s : State) : Out :=
  .next (match a with
    | .register off n => s.hostRead off n
    | .read at' n =>
      if fld s.boot.stat 0 2 = 2 then s
      else if s.hostWaits at' n then s.hostHold (.hostMemoryAccess a)
      else s.hostTaken.hostReadMem at' n
    | .write at' bs =>
      if fld s.boot.stat 0 2 = 2 then s
      else if s.hostWaits at' bs.length then s.hostHold (.hostMemoryAccess a)
      else (s.hostTaken.touchWindow at' bs.length true).writeWindow at' bs)

/-- Whether the first of the host's accesses that wait can be taken. -/
def State.hostReady (s : State) : Option Instr :=
  s.hostHeld.head?.bind fun i => match i with
    | .hostMemoryAccess (.read a n) => if s.ownedBy none a n then none else some i
    | .hostMemoryAccess (.write a bs) => if s.ownedBy none a bs.length then none else some i
    | _ => some i

/-! ## Registers of BAR0 (R8, Table 14-8) -/

/-- `PSEL_WRITE` (R430): the event and quarters of a counter, which is cleared on every core. -/
def execPselWrite (n : Nat) (v : Dword) (s : State) : Out :=
  .next { s with psel := alSet s.psel n (BitVec.ofNat 64 (fld v 0 12))
                 cores := s.cores.map fun p : Nat × Core => (p.1, { p.2 with perf := alDel p.2.perf n }) }

/-- A 64-bit word that the host read. -/
def State.hostWord (s : State) (x : Nat) : State := { s with hostOut := s.hostOut ++ [toBytes 8 x] }

/-- `THREV_READ` (R453): COUNT is cleared. -/
def execThrevRead (s : State) : Out :=
  .next ({ s with threv := setFld s.threv 0 32 0 }.hostWord s.threv.toNat)

/-- `ERRC_READ` (R454): both counts are cleared. -/
def execErrcRead (die : Nat) (s : State) : Out :=
  .next ((s.modDie die fun x => { x with corrected := 0, uncorrected := 0 }).hostWord
    ((s.die die).corrected + (s.die die).uncorrected * 2 ^ 32))

/-- The threshold that THCFG takes: 60 to 105 °C (Table 19-5). -/
def clampThr (n : Nat) : Nat := min 105 (max 60 n)

/-- `REGISTER_WRITE` (R8): a register whose write has no behaviour beyond its fields: HIMASK, the nonce, MPOL while it is not
locked, BOOTCTL, THCFG, the ID of a free context slot and the context CSRs. -/
def execRegisterWrite (off : Nat) (v : Dword) (s : State) : Out :=
  .next (if off = 0x1010 then { s with himask := BitVec.ofNat 7 v.toNat }
    else if 0x4040 ≤ off ∧ off < 0x4080 then
      { s with sec := { s.sec with nonce := setFld s.sec.nonce (8 * (off - 0x4040)) 64 v.toNat } }
    else if off = 0x4100 then
      (if s.sec.locked then s else { s with sec := { s.sec with mpol := BitVec.ofNat 40 v.toNat } })
    else if off = 0x5808 then { s with boot := { s.boot with svnup := bit v 0 } }
    else if off = 0x7108 then { s with thcfg := setFld s.thcfg 0 8 (clampThr (fld v 0 8)) }
    else if 0x800000 ≤ off ∧ off < 0x900000 ∧ off % 4096 = 0 then
      s.modCtx ((off - 0x800000) / 4096) fun c => if c.state = 7 then { c with id := BitVec.ofNat 16 (fld v 32 16) } else c
    else if 0x800000 ≤ off ∧ off < 0x900000 ∧ 0x100 ≤ off % 4096 ∧ off % 4096 < 0x1D0 then
      s.writeCsr ((off - 0x800000) / 4096) (0x100 + (off % 4096 - 0x100) / 8) v
    else s)

/-! ## The Lattice (R333 to R335) -/

/-- `LATTICE_FLIT_RETRY` (R333): the link level sends a flit again. -/
def execLatticeFlitRetry (_lane : Nat) (s : State) : Out := .next { s with flitRetries := s.flitRetries + 1 }

/-- The kind of access that a peer makes. -/
def peerKind (r : PeerRequest) : Kind :=
  match r.op with
  | .read _ => .read
  | .write _ => .write
  | .atomic _ _ _ _ => .atomic

/-- The open context with an id. -/
def State.peerSlot (s : State) (id : BitVec 16) : Option Nat :=
  (s.ctxs.find? fun p => p.2.state != 7 && p.2.state != 3 && p.2.id == id).map fun p => p.1

/-- Whether an entry admits a peer (R334). -/
def peerAdmits (r : PeerRequest) (e : Nat) : Bool :=
  bindingOk e (peerKind r) && fldN e 16 20 == r.dev.toNat && fldN e 36 16 == r.srcCtx.toNat

/-- The peer that accesses a context, as an issuer; a fault record of its access names core 0 and unit 0 (Table 4-7 gives it none;
log 86). -/
def peerIssuer (slot : Nat) : Issuer :=
  { slot := slot, core := none, die := 0, team := none, pair := false, launch := 0, above := false, unit := 0 }

/-- A device whose boot failed answers no peer (R450); nothing comes over a stopped link (R447). -/
def State.peersShut (s : State) : Bool := s.sec.linksDown || fld s.boot.stat 0 2 == 2

/-- The level that marks a held request which walks again. -/
def walkAgain : Nat := 8

/-- A hold of a request that meets a line which a command owns. -/
def againPark (slot : Nat) (va : Dword) : Park := ⟨slot, va, 0, 0, walkAgain⟩

/-- Where a run of bytes in one sector that a peer accesses lies, with its home; refused or held otherwise (R103). -/
def State.peerRun (s : State) (slot : Nat) (k : Kind) (va : Dword) (n : Nat) : (Option Park ⊕ (Nat × Nat)) × State :=
  match s.xlateFor (peerIssuer slot) va k with
  | (.mem (.node a) h, s1) =>
    if s1.ownedBy none a n then (.inl (some (againPark slot va)), s1)
    else if !s1.nodeOk a n ∨ s1.poisoned a n then (.inl none, s1) else (.inr (a, h), s1)
  | (.park p, s1) => (.inl (some p), s1)
  | (.wait, s1) => (.inl (some (againPark slot va)), s1)
  | (_, s1) => (.inl none, s1)

/-- The places of the parts of a run, each with its home, offset and length. -/
def State.peerRuns (s : State) (slot : Nat) (k : Kind) (va : Dword) :
    List (Nat × Nat) → (Option Park ⊕ List (Nat × Nat × Nat × Nat)) × State
  | [] => (.inr [], s)
  | q :: qs =>
    match s.peerRun slot k (va + BitVec.ofNat 64 q.1) q.2 with
    | (.inl x, s1) => (.inl x, s1)
    | (.inr p, s1) => match s1.peerRuns slot k va qs with
      | (.inl x, s2) => (.inl x, s2)
      | (.inr ps, s2) => (.inr ((p.1, p.2, q.1, q.2) :: ps), s2)

/-- The search of a context's binding table for an entry that admits a peer, from an index on (R334): found or not; a hold. -/
def State.findBinding (s : State) (slot : Nat) (r : PeerRequest) : Nat → Nat → (Bool ⊕ Park) × State
  | 0, _ => (.inl false, s)
  | n + 1, i =>
    match s.peerRun slot .read ((s.ctx slot).dombase + BitVec.ofNat 64 (16 * i)) 16 with
    | (.inr p, s1) => if peerAdmits r (s1.readNodeN p.1 16) then (.inl true, s1) else s1.findBinding slot r n (i + 1)
    | (.inl (some p), s1) => (.inr p, s1)
    | (.inl none, s1) => s1.findBinding slot r n (i + 1)

/-- The atomic step that a peer asks for. -/
def peerAtom (code : Nat) (ty : Ty) (b c : Dword) : AtomOp :=
  match code with
  | 10 => .padd ty b (bit c 0)
  | 11 => .cas ty b c
  | 12 => .push b
  | 13 => .pop
  | 14 => .steal
  | k => .rmw k ty b

/-- The bytes that a peer's access touches. -/
def peerSize (r : PeerRequest) : Nat :=
  match r.op with
  | .read n => n
  | .write bs => bs.length
  | .atomic code ty b c => AccOp.size (.atom (peerAtom code ty b c))

/-- An answer to a peer. -/
def State.answerPeer (s : State) (r : PeerRequest) (a : RemoteAns) : State := { s with peerOut := s.peerOut ++ [(r.tag, a)] }

/-- A request that waits, or that parks on a fault (R103). -/
def State.holdPeer (s : State) (r : PeerRequest) (p : Park) : State :=
  let t := { s with peerParked := s.peerParked ++ [(r, p)] }
  if p.lvl = walkAgain then t else t.parkFault p.slot 0 0 p

/-- What a peer's access reads. -/
def State.peerBytes (s : State) (runs : List (Nat × Nat × Nat × Nat)) : List Byte :=
  runs.flatMap fun q => s.readNode q.1 q.2.2.2

/-- A peer's write at its homes. -/
def State.peerWrite (s : State) (runs : List (Nat × Nat × Nat × Nat)) (bs : List Byte) : State :=
  runs.foldl (fun (t : State) q => (t.homeFill q.2.1 q.1 0).writeHome none q.1 ((bs.drop q.2.2.1).take q.2.2.2)) s

/-- A peer's atomic with its place known: the slot of a queue is translated by itself (R103, R181). -/
def State.peerAtomic (s : State) (r : PeerRequest) (slot : Nat) (va : Dword) (op : AtomOp) (a home : Nat) : State :=
  let done := fun (t : State) (p : AtomAt) => match t.performAtom none p op 0 with
    | none => t.answerPeer r .refused
    | some (x, t1) => t1.answerPeer r (.data (toBytes 8 x.old ++ [BitVec.ofNat 8 x.fl.toNat]))
  match if op.isQueue then op.slotOff (s.readNodeN a 16) else none with
  | none => done s (.one (.mem (.node a)) home)
  | some o => match s.peerRun slot .atomic (va + BitVec.ofNat 64 o) 8 with
    | (.inr p, s1) => done s1 ⟨.mem (.node a), home, .mem (.node p.1), p.2⟩
    | (.inl (some p), s1) => s1.holdPeer r p
    | (.inl none, s1) => s1.answerPeer r .refused

/-- A peer's access with its places known, performed at its homes (R334). -/
def State.performPeer (s : State) (r : PeerRequest) (slot : Nat) (runs : List (Nat × Nat × Nat × Nat)) : State :=
  let touched := runs.foldl (fun (t : State) q => t.touchDie q.2.1 q.2.1 (.node q.1) 0 false) s
  match r.op, runs with
  | .read _, _ => touched.answerPeer r (.data (s.peerBytes runs))
  | .write bs, _ => (s.peerWrite runs bs).answerPeer r (.data [])
  | .atomic code ty b c, q :: _ => touched.peerAtomic r slot (r.va.setWidth 64) (peerAtom code ty b c) q.1 q.2.1
  | .atomic _ _ _ _, [] => s.answerPeer r .refused

/-- The parts in which a peer's access is translated: a run is cut at sectors, and an atomic is whole. -/
def peerParts (r : PeerRequest) : List (Nat × Nat) :=
  match r.op with
  | .atomic _ _ _ _ => [(0, peerSize r)]
  | _ => piecesOf (r.va.setWidth 64) 0 (peerSize r)

/-- `PEER_ACCESS_REQUEST` (R103, R334): the binding is checked, the address translated, and the access performed; a fatal fault
refuses it and a non-fatal one parks it. -/
def execPeerAccessRequest (r : PeerRequest) (s0 : State) : Out :=
  let s := { s0 with peerParked := s0.peerParked.filter fun p => p.1.tag != r.tag }
  .next (if s.peersShut then s
    else match s.peerSlot r.pctx with
      | none => s.answerPeer r .refused
      | some slot => match s.findBinding slot r 384 0 with
        | (.inr p, s1) => s1.holdPeer r p
        | (.inl false, s1) => s1.answerPeer r .refused
        | (.inl true, s1) => match s1.peerRuns slot (peerKind r) (r.va.setWidth 64) (peerParts r) with
          | (.inl none, s2) => s2.answerPeer r .refused
          | (.inl (some p), s2) => s2.holdPeer r p
          | (.inr runs, s2) => s2.performPeer r slot runs)

end Sys2Proof.Machine
end

