-- ==== Sys2Proof/WellFormed.lean ====
section
/-! DEFINITION. Well-formed instructions: reserved operand indices really are reserved (Tables 2-2, 2-3), a row that
is one variant of an opcode carries that variant's VAR, and an event names agents the module has (R2, R3). -/

namespace Sys2Proof

/-- An index of class 01 that names no register (Table 2-2). -/
def reservedFile (i : Nat) : Bool := (0x54 ≤ i && i ≤ 0x5F) || 0x80 ≤ i

/-- An index of class 10 that names no special and no constant (Table 2-3). -/
def reservedConst (i : Nat) : Bool :=
  (0x09 ≤ i && i ≤ 0x0F) || (0x12 ≤ i && i ≤ 0x3F) || 0x88 ≤ i

/-- An opcode that no row of Table 2-9 assigns. -/
def reservedCode (n : Nat) : Bool :=
  (0x22 ≤ n && n ≤ 0x27)
    || (0x38 ≤ n && n ≤ 0x3f)
    || (0x53 ≤ n && n ≤ 0x57)
    || (0x62 ≤ n && n ≤ 0x67)
    || (0x78 ≤ n && n ≤ 0x7f)
    || (0x8e ≤ n && n ≤ 0x8f)
    || (0x9e ≤ n && n ≤ 0x9f)
    || (0xa6 ≤ n && n ≤ 0xaf)
    || (0xc3 ≤ n && n ≤ 0xcf)
    || (0xd8 ≤ n && n ≤ 0xdf)
    || (0xe2 ≤ n && n ≤ 0xff)

/-- A reserved operand keeps an index that is reserved. -/
def Opnd.wf : Opnd → Bool
  | .rsvFile i => reservedFile i.toNat
  | .rsvConst i => reservedConst i.toNat
  | _ => true

/-- Every operand field is well-formed; the other fields are legal at every value. -/
def Fields.wf (f : Fields) : Bool := f.d.wf && f.a.wf && f.b.wf && f.c.wf && f.e.wf

/-- A host access lies in the 2 TiB window or is an aligned word of BAR0 (R327). -/
def HostAccess.wf : HostAccess → Bool
  | .read a n => a + n ≤ 2 ^ 41
  | .write a bs => a + bs.length ≤ 2 ^ 41
  | .register off n => (n == 4 || n == 8) && off % n == 0 && off < 2 ^ 24

/-- A peer's atomic names an operation of Table 7-3 or, as codes 11 to 14, a compare and swap or a queue operation. -/
def PeerOp.wf : PeerOp → Bool
  | .atomic code _ _ _ => code ≤ 14
  | _ => true

/-- A throttle event names causes 1 to 4 (Table 19-4) and has a reading of each of the eight dies. -/
def Throttle.wf (t : Throttle) : Bool :=
  t.readings.length == 8 && !t.causes.isEmpty && t.causes.all fun p => 1 ≤ p.1 && p.1 ≤ 4

/-- Well-formed instructions and events. -/
def Instr.wf : Instr → Bool
  | .nop f => f.wf
  | .mov f => f.wf
  | .ldi f => f.wf
  | .iadd f => f.wf
  | .isub f => f.wf
  | .imul f => f.wf
  | .imulh f => f.wf
  | .imad f => f.wf
  | .idiv f => f.wf
  | .irem f => f.wf
  | .imin f => f.wf
  | .imax f => f.wf
  | .iabs f => f.wf
  | .ineg f => f.wf
  | .isat f => f.wf
  | .and f => f.wf
  | .or f => f.wf
  | .xor f => f.wf
  | .not f => f.wf
  | .shl f => f.wf
  | .shr f => f.wf
  | .sar f => f.wf
  | .rot f => f.wf
  | .popc f => f.wf
  | .clz f => f.wf
  | .brev f => f.wf
  | .bfe f => f.wf
  | .bfi f => f.wf
  | .prmt f => f.wf
  | .sel f => f.wf
  | .icmp f => f.wf
  | .lea f => f.wf
  | .addc f => f.wf
  | .subb f => f.wf
  | .fadd f => f.wf
  | .fsub f => f.wf
  | .fmul f => f.wf
  | .ffma f => f.wf
  | .fmin f => f.wf
  | .fmax f => f.wf
  | .fcmp f => f.wf
  | .fclass f => f.wf
  | .frnd f => f.wf
  | .fscl f => f.wf
  | .cvt f => f.wf
  | .qnt f => f.wf
  | .dqnt f => f.wf
  | .fdot2 f => f.wf
  | .fdot4 f => f.wf
  | .fdot8 f => f.wf
  | .rcp f => f.wf
  | .rsq f => f.wf
  | .sqrt f => f.wf
  | .ex2 f => f.wf
  | .lg2 f => f.wf
  | .sin f => f.wf
  | .cos f => f.wf
  | .tanh f => f.wf
  | .sfuResult _ => true
  | .pzero f => f.wf
  | .pacc f => f.wf
  | .padd f => f.wf
  | .psub f => f.wf
  | .pmrg f => f.wf
  | .rslv f => f.wf
  | .ptest f => f.wf
  | .panc f => f.wf
  | .pstw f => f.wf && !(bit f.var 0)
  | .pstwCell f => f.wf && bit f.var 0
  | .pldw f => f.wf && !(bit f.var 0)
  | .pldwCell f => f.wf && bit f.var 0
  | .pmov f => f.wf
  | .shfl f => f.wf
  | .vote f => f.wf
  | .ballot f => f.wf
  | .bplane f => f.wf
  | .selk f => f.wf
  | .gred f => f.wf
  | .gscan f => f.wf
  | .matchLanes f => f.wf
  | .lnmask f => f.wf
  | .ccmovTov f => f.wf && !(f.var == 1) && !(f.var == 2)
  | .ccmovTocc f => f.wf && f.var == 1
  | .ccmovCopy f => f.wf && f.var == 2
  | .bra f => f.wf
  | .brx f => f.wf
  | .call f => f.wf
  | .callx f => f.wf
  | .ret f => f.wf
  | .meet f => f.wf && !(f.var == 1)
  | .meetClr f => f.wf && f.var == 1
  | .syncm f => f.wf
  | .waitm f => f.wf
  | .waitmTimeout _ lane => lane < 64
  | .exit f => f.wf
  | .groupSlotFree _ => true
  | .spawn f => f.wf
  | .jinit f => f.wf
  | .jwait f => f.wf
  | .yield f => f.wf
  | .rgn f => f.wf
  | .trap f => f.wf
  | .tret f => f.wf
  | .lateTrap _ lane => lane < 64
  | .reservedOpcode w => reservedCode (fld w 0 8)
  | .ld f => f.wf
  | .st f => f.wf
  | .ldfe f => f.wf
  | .stfe f => f.wf
  | .feclr f => f.wf
  | .pref f => f.wf && !(f.var == 1)
  | .prefList f => f.wf && f.var == 1
  | .atom f => f.wf
  | .atomc f => f.wf
  | .red f => f.wf
  | .fence f => f.wf
  | .qpush f => f.wf
  | .qpop f => f.wf
  | .qsteal f => f.wf
  | .probe f => f.wf
  | .loadResult _ _ => true
  | .faultRecordDeferred slot => slot < 256
  | .lineRecall line => line % 128 == 0
  | .croot f => f.wf
  | .next f => f.wf
  | .seek f => f.wf
  | .desc f => f.wf
  | .coit f => f.wf
  | .crd f => f.wf
  | .cldv f => f.wf
  | .ctest f => f.wf
  | .appnd f => f.wf && !(bit f.var 0)
  | .appndOpen f => f.wf && bit f.var 0
  | .acommit f => f.wf
  | .csplit f => f.wf
  | .halloc f => f.wf
  | .hfree f => f.wf
  | .cpref f => f.wf
  | .walkerResult _ => true
  | .tld f => f.wf
  | .tst f => f.wf
  | .tsetf f => f.wf
  | .tgetf f => f.wf
  | .tswap f => f.wf
  | .tinv f => f.wf
  | .modew f => f.wf
  | .moder f => f.wf
  | .copy f => f.wf
  | .xform f => f.wf
  | .gathr f => f.wf
  | .scatr f => f.wf
  | .sortu f => f.wf
  | .commandComplete _ => true
  | .scatrRowClaim _ => true
  | .binit f => f.wf
  | .barv f => f.wf
  | .bwait f => f.wf
  | .ftest f => f.wf
  | .fwait f => f.wf
  | .fcncl f => f.wf
  | .mma f => f.wf
  | .mmab f => f.wf
  | .mmat f => f.wf
  | .mbatAcq f => f.wf && !(f.var == 1) && !(f.var == 2)
  | .mbatPass f => f.wf && f.var == 1
  | .mbatRel f => f.wf && f.var == 2
  | .matrixOperationStart core => core < 1024
  | .matrixComplete core => core < 1024
  | .bLockRelease core r => core < 1024 && r < 256
  | .coll f => f.wf
  | .launch f => f.wf
  | .signl f => f.wf
  | .sigw f => f.wf
  | .sigwReread _ lane => lane < 64
  | .racqVreg f => f.wf && !(fld f.var 0 2 == 1) && !(fld f.var 0 2 == 2) && !(fld f.var 0 2 == 3)
  | .racqTile f => f.wf && fld f.var 0 2 == 1
  | .racqPreg f => f.wf && fld f.var 0 2 == 2
  | .racqSpad f => f.wf && fld f.var 0 2 == 3
  | .rrel f => f.wf
  | .csrr f => f.wf
  | .csrw f => f.wf
  | .clockCyc f => f.wf && !(f.var == 1)
  | .clockNs f => f.wf && f.var == 1
  | .perf f => f.wf
  | .dbrk f => f.wf
  | .kill f => f.wf
  | .handlerWatchdog _ lane => lane < 64
  | .softErrorCorrected die _ lane => die < 8 && lane < 64
  | .softErrorUncorrected die _ => die < 8
  | .groupSwap _ _ => true
  | .groupBoost _ => true
  | .keyStarvationPromotion _ => true
  | .groupPark _ => true
  | .parkedGroupReturn _ => true
  | .parkSlotReread die => die < 8
  | .skeinTimerFlush core => core < 1024
  | .spillRingReturn slot die => slot < 256 && die < 8
  | .ldoorWrite _ => true
  | .launchAccept q => q < 64
  | .launchDependenceReread _ => true
  | .placementRound => true
  | .launchComplete _ => true
  | .launchQueueCsrWrite q off _ => q < 64 && off < 32 && off % 8 == 0
  | .hirqClear _ => true
  | .hostMemoryAccess a => a.wf
  | .fqrespWrite slot _ => slot < 256
  | .pginvWrite slot _ => slot < 256
  | .pginvComplete slot => slot < 256
  | .rdcinvWrite die _ => die < 8
  | .rdcinvComplete die => die < 8
  | .pselWrite n _ => n < 16
  | .threvRead => true
  | .errcRead die => die < 8
  | .ctxctlPreempt slot => slot < 256
  | .ctxctlResume slot => slot < 256
  | .ctxctlKill slot => slot < 256
  | .ctxctlOpen slot _ => slot < 256
  | .ctxctlClose slot => slot < 256
  | .preemptionTaken _ => true
  | .peerAccessRequest r => r.op.wf
  | .peerAccessTimeout _ => true
  | .latticeFlitRetry lane => lane < 72
  | .spanPeerEntryWrite e _ => e < 4096
  | .spanHandshake h => h.entry < 4096
  | .spanPacketReceive p => p.entry < 4096
  | .spanRetransmit e => e < 4096
  | .spanRekey e => e < 4096
  | .spanSessionRetry e => e < 4096
  | .collContributionReceive c => c.slot < 256 && c.roster < 2 ^ 16 && c.rank < 2 ^ 16
  | .collChunkClose _ _ => true
  | .collDeadline _ _ => true
  | .collResultReceive _ => true
  | .collResultTimeout _ => true
  | .deviceReset => true
  | .bootStepComplete b => b.banks.length == 8 || b.banks.isEmpty
  | .bootclrWrite _ => true
  | .attestationGo => true
  | .attestationDone => true
  | .madderAlarm _ => true
  | .mstatClear _ => true
  | .mlockWrite _ => true
  | .debugSessionRequest _ => true
  | .debugResume _ => true
  | .throttleEvent t => t.wf
  | .registerWrite off _ => off < 2 ^ 24 && off % 8 == 0
  | .storeBufferDrain _ _ => true
  | .engineWrite _ => true
  | .spanOldKeyExpiry e => e < 4096

end Sys2Proof
end

