-- ==== Sys2Proof/Machine/Schedule.lean ====
section
/-! DEFINITION. What happens next: the vote and the group scheduler (R351, R352, R381 to R384), instruction fetch (R32, R472),
the events that are due of themselves, the passing of a cycle (R6, R375), and how an instruction is placed for the next step. -/

namespace Sys2Proof.Machine

open Sys2Proof

/-! ## Keys and the vote (R351, R352) -/

/-- Whether nothing but the dependences of its next instruction keeps a thread from being ready (R351). -/
def State.threadReady (s : State) (g l : Nat) : Bool :=
  let t := s.thread g l
  !t.exited && t.wait.lasting == .none && t.late == [] && !s.racqHeld g l && decide (t.notBefore ≤ s.cycle) && !s.heldBy g l

/-- The place of a thread's key in the vote: promoted ones first, those passed over longest first (R352). -/
def Thread.voteRank (t : Thread) : Nat := if promoted ≤ t.passed then 2 ^ 64 - t.passed else 2 ^ 64 + t.key

/-- Whether a lane of a group may be ready by what the dependences of its instruction were found to be in this cycle (R351); before they
have been looked at, any may. -/
def Group.mayBe (x : Group) (cycle l : Nat) : Bool :=
  match x.found with
  | some (c, ls) => c != cycle || ls.contains l
  | none => true

/-- The ready lanes of a group, rising. -/
def State.readyLanes (s : State) (g : Nat) : List Nat :=
  match s.group? g with
  | none => []
  | some x => (List.range x.lanes.length).filter fun l => s.threadReady g l && x.mayBe s.cycle l

/-- The sub-group of the least key of a group's ready threads (R21, R351). -/
def State.vote (s : State) (g : Nat) : List Nat :=
  let ready := s.readyLanes g
  match minBy? (fun l => (s.thread g l).voteRank) ready with
  | none => []
  | some l0 => ready.filter fun l => (s.thread g l).key == (s.thread g l0).key

/-- The slices that some lanes of a group drive (R20, R381). -/
def Group.slices (x : Group) (lanes : List Nat) : List Nat :=
  dedupN (lanes.map fun l => l % 32 / 4 + (if x.width = 16 ∧ x.home.slot % 2 = 1 then 4 else 0))

/-! ## The group scheduler (R382) -/

/-- Whether a group may issue in this cycle. -/
def State.mayIssue (s : State) (g : Nat) (x : Group) : Bool :=
  x.place.isSome && x.active && !x.stopped && decide (x.notBefore ≤ s.cycle) && s.vote g != []

/-- The distance of a slot from the one whose group last took decoder 0. -/
def rotation (last slot : Nat) : Nat := (slot + 15 - last) % 16

/-- The place of a group in the order of its quarter. -/
def State.groupRank (s : State) (x : Group) : Nat :=
  let last := (((alGet? (s.core x.home.core).last x.home.quarter).bind s.group?).map fun y => y.home.slot).getD 15
  let turn := rotation last x.home.slot
  if x.yielded = s.cycle then 2 ^ 72 + turn
  else match x.boosted with
    | some c => c
    | none => if x.lanes.any fun t => !t.exited && t.level != 0 then 2 ^ 70 + turn else 2 ^ 71 + turn

/-- The groups of a quarter that may issue, in order. -/
def State.issueOrder (s : State) (core quarter : Nat) : List Nat :=
  (sortBy (fun (a b : Nat × Group) => decide (s.groupRank a.2 ≤ s.groupRank b.2))
    ((s.quarterGroups core quarter).filter fun p => s.mayIssue p.1 p.2)).map fun p => p.1

/-- Whether the slices of a group's least key are disjoint from some others. -/
def State.clear (s : State) (g : Nat) (used : List Nat) : Bool :=
  match s.group? g with
  | none => false
  | some x => (x.slices (s.vote g)).all fun k => !used.contains k

/-- A decoder of a quarter. -/
def State.decoder (s : State) (core quarter d : Nat) : DecBusy := alGet (s.core core).dec ⟨0, [], 0⟩ (2 * quarter + d)

/-- The slices that a decoder drives in this cycle. -/
def State.driven (s : State) (core quarter d : Nat) : List Nat :=
  let b := s.decoder core quarter d
  if b.free ≤ s.cycle then [] else b.slices

/-- What a quarter issues next in this cycle: the decoder and the group (R20, R21, R382). Decoder 0 takes the first group or, while the other
drives slices that it needs, none. -/
def State.quarterPick (s : State) (core quarter : Nat) : Option (Nat × Nat) :=
  let d0 := s.decoder core quarter 0
  let order := s.issueOrder core quarter
  if d0.free ≤ s.cycle then (order.head?.filter fun g => s.clear g (s.driven core quarter 1)).map fun g => (0, g)
  else if (s.decoder core quarter 1).free ≤ s.cycle then
    (if order.contains d0.g && s.clear d0.g d0.slices then some (1, d0.g)
     else (order.find? fun g => g != d0.g && s.clear g d0.slices).map fun g => (1, g))
  else none

/-- The decoder that can take a group's next instruction in this cycle. -/
def State.decoderFor (s : State) (g : Nat) : Option Nat :=
  (s.group? g).bind fun x =>
    let q := fun d => s.decoder x.home.core x.home.quarter d
    if !s.mayIssue g x then none
    else if (q 0).free ≤ s.cycle ∧ s.clear g (s.driven x.home.core x.home.quarter 1) = true then some 0
    else if (q 1).free ≤ s.cycle ∧ s.cycle < (q 0).free ∧ s.clear g (q 0).slices = true then some 1
    else none

/-- The quarters that hold groups, as 4 × core + quarter, in order. -/
def State.quarters (s : State) : List Nat :=
  sortBy (fun (a b : Nat) => decide (a ≤ b)) (dedupN (s.groups.filterMap fun p => p.2.place.map fun q => 4 * q.core + q.quarter))

/-- What issues next in this cycle: the decoder and the group. -/
def State.pick (s : State) : Option (Nat × Nat) := s.quarters.findSome? fun q => s.quarterPick (q / 4) (q % 4)

/-! ## Fetch (R32, R472) -/

/-- What a fetch ends with. -/
inductive Fetch
  | word (w : BitVec 128) (s : State)
  | trap (cause : Nat) (s : State)
  | park (p : Park) (s : State)
  | wait (s : State)
  deriving DecidableEq, Repr

/-- The fetch of the instruction of a sub-group at an address. -/
def State.fetch (s : State) (g : Nat) (pc : Dword) : Fetch :=
  let sel := fld pc 60 4
  let core := s.coreOf g
  if sel = 1 ∨ (8 ≤ sel ∧ sel ≤ 14) then .trap 0x080 s
  else if sel ≠ 0 then .trap 0x08A s
  else if fld pc 56 4 ≠ 0 then .trap 0x081 s
  else if pc.toNat % 16 ≠ 0 then .trap 0x004 s
  else match s.xlate (some core) (dieOf core) (s.slotOf g) pc.toNat .fetch with
    | (.fatal c, s1) => .trap c s1
    | (.park k l, s1) => .park ⟨s.slotOf g, pc, k, Kind.fetch.acc, l⟩ s1
    | (.wait, s1) => .wait s1
    | (.ok a home, s1) =>
      if s1.ownedBy none a 16 then .wait s1
      else if s1.poisoned a 16 then .trap 0x169 s1
      else .word (BitVec.ofNat 128 (s1.readNodeN a 16)) (s1.touchDie (dieOf core) home (.node a) 0 false)

/-- A cause raised in every thread of a sub-group. -/
def State.trapAll (s : State) (g : Nat) (lanes : List Nat) (cause : Nat) (tval : Dword) : State :=
  lanes.foldl (fun (t : State) l => if (t.group? g).isSome then t.trap g l cause tval else t) s

/-- A fetch that parks: it holds each thread's next issue, but for a handler under HTRAP, which traps (R356, R420). -/
def State.parkFetch (s : State) (g : Nat) (lanes : List Nat) (p : Park) : State :=
  lanes.foldl (fun (t : State) l =>
    if (t.group? g).isNone then t
    else if (t.thread g l).level ≠ 0 ∧ bit (t.ctx (t.slotOf g)).tcfg 0 then t.trap g l 0x098 p.va
    else (t.parkIssue g l p 5).hold g l) s

/-! ## Issue -/

/-- The work of a step: a state that is reached without an instruction; an event; an instruction of a sub-group, with the
decoder that issues it; the finding of the threads that are ready in this cycle; or data outside its ranges. -/
inductive Work
  | done (s : State)
  | event (i : Instr) (s : State)
  | issue (i : Instr) (dec : Nat) (s : State)
  | survey (s : State)
  | bad
  deriving DecidableEq, Repr

/-- The state in which a sub-group issues: it is the current one, and its threads are marked. -/
def State.offer (s : State) (g : Nat) (lanes : List Nat) : State :=
  { (lanes.foldl (fun (t : State) l => t.modThread g l fun u => { u with passed := u.passed + 1 }) s) with
    cur := some ⟨g, lanes⟩ }

/-- The least key of a group fetched, and offered to a decoder. -/
def State.issueNext (s : State) (dec g : Nat) : Work :=
  match s.vote g with
  | [] => .done s
  | l :: ls =>
    let pc := (s.thread g l).pc
    match s.fetch g pc with
    | .trap c t => .done (t.trapAll g (l :: ls) c pc)
    | .park p t => .done (t.parkFetch g (l :: ls) p)
    | .wait t => .done ((l :: ls).foldl (fun (u : State) k => u.hold g k) t)
    | .word w t => .issue (decode w) dec (t.offer g (l :: ls))

/-- Whether an offered instruction issued: a marked thread went on, trapped or ended. -/
def State.issued (before after : State) (g : Nat) (lanes : List Nat) : Bool :=
  (after.group? g).isNone || lanes.any fun l =>
    let t := after.thread g l
    t.passed == 0 || t.level != (before.thread g l).level || t.wait.lasting != .none || t.late.length != (before.thread g l).late.length

/-- The offered threads that issued. -/
def State.issuedLanes (before after : State) (g : Nat) (lanes : List Nat) : List Nat :=
  lanes.filter fun l => State.issued before after g [l]

/-- What the first issue of a group in a cycle replaced, or will replace once its result lands (R83, R256). -/
def Group.replaced (x y : Group) (cycle : Nat) : Prior :=
  { cycle := cycle, mode := x.mode
    v := (x.lanes.zip y.lanes).zipIdx.flatMap fun p =>
      (dedupN ((p.1.1.v ++ p.1.2.v).map (fun q => q.1) ++ p.1.2.vEmpty)).filterMap fun r =>
        if p.1.1.vEmpty.contains r ∨ (p.1.1.vreg r = p.1.2.vreg r ∧ ¬ p.1.2.vEmpty.contains r) then none
        else some (p.2, r, p.1.1.vreg r) }

/-- The accounts of an issue: the decoder, the rotation, the keys that were passed over (an offered thread that its dependences hold was
not ready; the second issue of a group in a cycle passes over none), what a second issue of the group in the cycle does not see, and the counters (R83, R256, R352, R382, R430). -/
def State.account (before after : State) (dec g : Nat) (offered lanes : List Nat) : State :=
  match before.group? g with
  | none => after
  | some old =>
    let ready := before.readyLanes g
    let again := dec = 1 ∧ old.lastIssue = before.cycle
    let pass := fun (p : Thread × Nat) =>
      if lanes.contains p.2 ∨ offered.contains p.2 then { p.1 with passed := 0 }
      else if again then p.1
      else { p.1 with passed := if ready.contains p.2 then p.1.passed + 1 else 0 }
    let s1 := after.modGroup g fun y =>
      { y with
        lanes := y.lanes.zipIdx.map pass, lastIssue := before.cycle, boosted := none
        prior := if dec = 0 then some (old.replaced y before.cycle) else y.prior }
    let q := old.home.quarter
    let s2 := s1.modCore old.home.core fun c =>
      { c with
        dec := alSet c.dec (2 * q + dec) ⟨g, old.slices lanes, before.cycle + (if old.width = 64 then 2 else 1)⟩
        last := if dec = 0 then alSet c.last q g else c.last }
    (s2.countFor g 2 1).countFor g 3 lanes.length

/-- The state after an offered instruction: no sub-group is current any more. -/
def State.settle (before after : State) (dec : Nat) : State :=
  match before.cur with
  | none => after
  | some i =>
    let t := { after with cur := none }
    let went := before.issuedLanes after i.g i.lanes
    if went ≠ [] then before.account t dec i.g i.lanes went
    else i.lanes.foldl (fun (u : State) l => u.modThread i.g l fun x => { x with passed := 0 }) t

/-! ## Events that are due -/

/-- Whether an event changes one of the lists in which progress shows. -/
def State.moves (s : State) (o : Out) : Bool :=
  match o with
  | .next t => t.cmds != s.cmds || t.owners != s.owners || t.queues != s.queues || t.launches != s.launches ||
      t.ctxs != s.ctxs || t.peerParked != s.peerParked
  | _ => false

/-- The first of the keys of a list for which something holds, made an event. -/
def firstKey {α : Type} (m : AL α) (p : Nat → α → Bool) (f : Nat → Instr) : Option Instr :=
  (m.find? fun q => p q.1 q.2).map fun q => f q.1

/-- The first lane of a group for which something holds, made an event. -/
def State.firstLane (s : State) (p : Nat → Nat → Thread → Bool) (f : Nat → Nat → Instr) : Option Instr :=
  s.groups.findSome? fun q => ((List.range q.2.lanes.length).find? fun l => p q.1 l (s.thread q.1 l)).map fun l => f q.1 l

/-- Whether an SFU result is the oldest of its quarter. -/
def State.sfuFirst (s : State) (id : Nat) (a : Acc) : Bool :=
  match a.op with
  | .sfu _ _ _ _ _ => !s.acc.any fun p => decide (p.1 < id) && (match p.2.op with
      | .sfu _ _ _ _ _ => p.2.core == a.core &&
          ((s.group? p.2.g).map fun x => x.home.quarter) == ((s.group? a.g).map fun x => x.home.quarter)
      | _ => false)
  | _ => false

/-- Results and stores that are due (R164, R167, R195, R280, R335). -/
def State.dueAccess (s : State) : Option Instr :=
  (firstKey s.acc (fun i _ => (s.landAcc i (s.answer none .local)).isSome) fun i => .loadResult i .local) <|>
  (firstKey s.acc (fun i _ => (s.landWalk i).isSome) .walkerResult) <|>
  (firstKey s.acc s.sfuFirst .sfuResult) <|>
  (firstKey s.acc (fun _ a => ((a.tgt.bind Target.loc?).map Loc.isPeer).getD false && decide (a.ns + s.ltmo ≤ s.ns))
    .peerAccessTimeout) <|>
  (firstKey s.sb (fun i _ => (s.drain i .local).isSome) fun i => .storeBufferDrain i .local) <|>
  (firstKey s.sb (fun _ x => (x.loc.map Loc.isPeer).getD false && decide (x.ns + s.ltmo ≤ s.ns)) .peerAccessTimeout)

/-- Whether a group has a slot. -/
def State.resident (s : State) (g : Nat) : Bool := ((s.group? g).bind fun x => x.place).isSome

/-- Whether the re-read of the word on which a thread waits changes something: a wait ends only in a group that has a slot. -/
def State.wordDue (s : State) (g l : Nat) : Bool :=
  let w := (s.wordNow g l).1
  w != .none && (!w.ends || s.resident g)

/-- Thread and group events that are due (R366, R379, R392, R423, R474). -/
def State.dueGroup (s : State) : Option Instr :=
  (s.firstLane (fun g l _ => s.resident g && s.lateReady g l) .lateTrap) <|>
  (s.firstLane (fun g _ t => !t.exited && t.level != 0 &&
    decide (t.above + 1000 * (s.ctx (s.slotOf g)).wdog.toNat < s.ns)) .handlerWatchdog) <|>
  (s.firstLane (fun g l _ => s.wordDue g l) .sigwReread) <|>
  (firstKey s.groups (fun g _ => s.slotFreeable g) .groupSlotFree) <|>
  (firstKey s.groups (fun g _ => s.parkable g && (s.parkNow g).isSome) .groupPark) <|>
  (s.groups.findSome? fun p =>
    let room := (s.freeSlot p.2.home.core p.2.home.quarter (s.kernelOf p.2.launch).charge).isSome
    if s.joinDone p.1 && room then
      (if (s.die (dieOf p.2.home.core)).parkTable.contains p.1 then some (.parkedGroupReturn p.1)
       else some (.parkSlotReread (dieOf p.2.home.core)))
    else none) <|>
  (firstKey s.groups (fun g _ => s.preemptable g && (s.preempt g).isSome) .preemptionTaken) <|>
  (if s.ctxs.any fun p => s.preempted p.1 && (s.finishPreempt p.1).isSome then
    some (.preemptionTaken s.nextId) else none)

/-- Engine, matrix and collective events that are due (R124, R134, R136, R231, R306, R323, R343, R344). -/
def State.dueEngine (s : State) : Option Instr :=
  (firstKey s.cmds (fun i _ => s.moves (execCommandComplete i s)) .commandComplete) <|>
  (firstKey s.cmds (fun i _ => s.moves (execScatrRowClaim i s)) .scatrRowClaim) <|>
  (firstKey s.cmds (fun i _ => s.moves (execEngineWrite i s)) .engineWrite) <|>
  (s.cmds.findSome? fun p => p.2.coll.bind fun k =>
    let cs := List.range (chunkCount p.2.blk k.live.length)
    ((cs.find? fun c => k.due c s.ns).map fun c => .collDeadline p.1 c) <|>
    ((cs.find? fun c => k.closable p.2.blk c && p.2.result.isNone).map fun c => .collChunkClose p.1 c) <|>
    (if k.overdue p.2.blk s.ns && p.2.result.isNone then some (.collResultTimeout p.1) else none)) <|>
  (s.cores.findSome? fun p => p.2.mq.head?.bind fun m =>
    ((m.run.find? fun r => m.readDone r && (m.groups.any fun g =>
      ((s.group? g).map fun x => x.locks.contains (r, m.id)).getD false)).map fun r => .bLockRelease p.1 r) <|>
    (if m.started && decide (mK m.blk ≤ m.kdone) then some (.matrixComplete p.1) else none) <|>
    (match execMatrixOperationStart p.1 s with
      | .next t => if (t.core p.1).mq != p.2.mq then some (.matrixOperationStart p.1) else none
      | _ => none))

/-- Events of contexts, caches, launches and Skein that are due (R112, R113, R129, R370, R372, R373, R388, R390). -/
def State.dueContext (s : State) : Option Instr :=
  (firstKey s.ctxs (fun c _ => s.pginvDone c) .pginvComplete) <|>
  (firstKey s.dies (fun _ d => (d.rdcinv.map fun x => decide (x.1 ≤ s.cycle)).getD false) .rdcinvComplete) <|>
  (firstKey s.ctxs (fun c x => s.recordFits c && x.faults.any fun f => f.seq.isNone) .faultRecordDeferred) <|>
  (firstKey s.launches (fun l _ => s.moves (execLaunchComplete l s)) .launchComplete) <|>
  (firstKey s.launches (fun l _ => s.moves (execLaunchDependenceReread l s)) .launchDependenceReread) <|>
  (s.nextQueue.bind fun q => if s.moves (execLaunchAccept q s) then some (.launchAccept q) else none) <|>
  (firstKey s.cores (fun c _ => (s.timedList c).isSome) .skeinTimerFlush) <|>
  (s.ctxs.findSome? fun p =>
    ((List.range 8).find? fun d => s.moves (execSpillRingReturn p.1 d s)).map fun d => .spillRingReturn p.1 d)

/-- Events of the links and the security processor that are due (R334, R338, R445). -/
def State.dueLink (s : State) : Option Instr :=
  ((s.peerParked.find? fun p => p.2.lvl == walkAgain && s.moves (execPeerAccessRequest p.1 s)).map fun p =>
    .peerAccessRequest p.1) <|>
  (firstKey s.sessions (fun e x => x.rekeyDue s.ns && s.spanState e == 2) .spanRekey) <|>
  (firstKey s.sessions (fun _ x => x.oldOver s.ns) .spanOldKeyExpiry) <|>
  (firstKey s.span (fun e _ => s.retryDue e) .spanSessionRetry) <|>
  (if s.sec.busy then some .attestationDone else none)

/-- The event that is due before anything issues: engine writes and arrivals come before the accesses of threads (R160). -/
def State.due (s : State) : Option Instr :=
  s.dueEngine <|> s.dueAccess <|> s.dueGroup <|> s.dueContext <|> s.dueLink

/-- A pending group of the quarter of an active one that has been ready longest (R383). -/
def State.pendingFor (s : State) (x : Group) : Option Nat :=
  (minBy? (fun p : Nat × Group => p.2.readySince)
    (s.groups.filter fun p => p.2.place.isSome && !p.2.active && !p.2.stopped && sameQuarter p.2 x && s.vote p.1 != [])).map fun p => p.1

/-- Whether an access that is still outstanding once nothing more can land is one that takes long (R383): a load or atomic that L1 and
the scratchpad have not served, a walker operation that has missed the metadata cache, a future, or one that has parked. -/
def Acc.isLong (a : Acc) : Bool :=
  a.park.isSome || (match a.op with
    | .load _ _ _ _ _ _ | .image _ _ _ | .cell _ | .refill _ | .atom _ => (match a.tgt with
      | some (.spad _ _ _) => false
      | _ => true)
    | .view _ _ _ _ | .const _ _ _ _ | .walk _ _ | .fwait _ | .shape _ _ => true
    | _ => false)

/-- Whether a thread waits for something that is expected to last: an access, or the future of a command (R383; log 115). -/
def State.waitsLong (s : State) (g l : Nat) : Bool :=
  (s.acc.any fun p => p.2.of g l && p.2.isLong) || s.cmds.any fun p => p.2.g == g && p.2.lane == l && p.2.dst.isSome

/-- Whether none of a group's threads is ready, and what holds its least key lasts: a long wait at once, a `YIELD` while it runs, and any
other after 64 cycles (R383, R385). -/
def State.stalled (s : State) (g : Nat) (x : Group) : Bool :=
  let live := (List.range x.lanes.length).filter fun l => !(s.thread g l).exited
  s.vote g == [] && (decide (x.lastIssue + 64 < s.cycle) || (live.any fun l => decide (s.cycle < (s.thread g l).yieldTo)) ||
    (match minBy? (fun l => (s.thread g l).key) live with
      | none => false
      | some l0 => live.any fun l => (s.thread g l).key == (s.thread g l0).key && s.waitsLong g l))

/-- Whether an active group may be swapped out now (R45, R383), as one stopped by the debug port may (R431). -/
def State.swappable (s : State) (g : Nat) (x : Group) : Bool :=
  x.place.isSome && x.active && (x.yielded == s.cycle || x.stopped || s.stalled g x)

/-- Whether a group is boosted or brought in now (R384). -/
def State.boostable (s : State) (g : Nat) (x : Group) : Bool :=
  x.place.isSome && !x.stopped && decide (x.readySince + 256 ≤ s.cycle) && s.vote g != [] &&
    (!x.active || (decide (x.lastIssue + 256 ≤ s.cycle) && x.boosted.isNone))

/-- `GROUP_SWAP` (R383, R45): an active group that may be swapped out and the pending one that has been ready longest. -/
def execGroupSwap (out into : Nat) (s : State) : Out :=
  .next (match s.group? out with
    | some x => if s.swappable out x ∧ s.pendingFor x = some into then s.exchange out into else s
    | none => s)

/-- `GROUP_BOOST` (R384): an active group passed over for 256 cycles is boosted; a pending one replaces the active group that
issued least recently. -/
def execGroupBoost (g : Nat) (s : State) : Out :=
  .next (match s.group? g with
    | none => s
    | some x =>
      if !s.boostable g x then s
      else if x.active then s.modGroup g fun y => { y with boosted := some s.cycle }
      else match minBy? (fun p : Nat × Group => p.2.lastIssue) (s.groups.filter fun p => p.2.active && sameQuarter p.2 x) with
        | some (out, _) => s.exchange out g
        | none => s.modGroup g fun y => { y with active := true, notBefore := s.cycle + 2, lastIssue := s.cycle })

/-- Whether a key of a group has been passed over long enough (R352). -/
def Group.starving (x : Group) : Bool :=
  let most := x.lanes.foldl (fun n t => if t.exited then n else max n t.passed) 0
  decide (64 ≤ most) && decide (most < promoted)

/-- The event that is due at the end of a cycle, after its issues (R364, R352, R383, R384). -/
def State.dueLast (s : State) : Option Instr :=
  (s.firstLane (fun _ _ t => match t.wait with
    | .meeting (some d) _ => decide (d ≤ s.cycle)
    | _ => false) .waitmTimeout) <|>
  (firstKey s.groups (fun _ x => x.starving) .keyStarvationPromotion) <|>
  (firstKey s.groups (fun g x => s.boostable g x) .groupBoost) <|>
  (s.groups.findSome? fun p => if s.swappable p.1 p.2 then (s.pendingFor p.2).map fun b => .groupSwap p.1 b else none)

/-! ## The passing of a cycle -/

/-- The nanoseconds that a cycle adds at the ACLK frequency of THREV, in MHz (R453). -/
def State.nsStep (s : State) : Nat :=
  let f := max 1 (fld s.threv 48 16)
  (s.cycle + 1) * 1000 / f - s.cycle * 1000 / f

/-- Pending groups moved into active sets that have room (R383), and the time from which a group has been ready. -/
def State.fillActive (s : State) : State :=
  s.groups.foldl (fun (t : State) p =>
    if t.vote p.1 = [] then t.modGroup p.1 fun x => { x with readySince := s.cycle + 1 }
    else if p.2.place.isSome && !p.2.active &&
        decide (((t.quarterGroups p.2.home.core p.2.home.quarter).filter fun q => q.2.active).length < 8) then
      t.modGroup p.1 fun x => { x with active := true, notBefore := s.cycle + 2, lastIssue := s.cycle }
    else t) s

/-- The cycle events of the performance counters (R430). -/
def State.countCycle (s : State) : State :=
  if s.psel = [] then s
  else
    let s1 := (List.range 1024).foldl (fun (t : State) c => t.count c none 1 1) s
    (List.range 1024).foldl (fun (t : State) c => if t.sbRoom c then t else t.count c none 9 1) s1

/-- The traps of the teams that are deadlocked in `RACQ` (R24). -/
def State.breakDeadlocks (s : State) : State :=
  s.teams.foldl (fun (t : State) p =>
    if (t.blocked p.1 0 ++ t.blocked p.1 1) ≠ [] ∧ t.deadlocked p.1 = true then t.breakDeadlock p.1 else t) s

/-- A cycle passes: the clocks go on, and every 32 cycles the distributor places teams (R375). -/
def State.tick (s : State) : State :=
  let s1 := (s.fillActive).countCycle.breakDeadlocks
  let s2 := { s1 with cycle := s.cycle + 1, ns := s.ns + s.nsStep }
  if s2.cycle % 32 = 0 then s2.placementRound else s2

/-! ## The next work -/

/-- A kill record that waits, written where the lines that it needs are free now (R126, R424). -/
def State.flushNote (s : State) : Option State :=
  (s.homeQ.find? fun q => (s.writeNote q.1 q.2.1 q.2.2).isSome).bind fun q =>
    s.writeNote q.1 q.2.1 q.2.2 |>.map fun t => { t with homeQ := t.homeQ.erase q }

/-- What happens next: what the agenda holds first; then what the host or a kill record waits for, and an event that is due; then the
finding of the threads that are ready in this cycle; then an issue; then what ends the cycle. -/
def State.work (s : State) : Work :=
  match s.agenda with
  | .event i :: rest => if i.wf then .event i { s with agenda := rest } else .bad
  | .issue g :: rest =>
    let t := { s with agenda := rest }
    (match s.decoderFor g with
      | some d => t.issueNext d g
      | none => .done t)
  | [] => match s.flushNote with
    | some t => .done t
    | none => match s.hostReady with
      | some i => .event i { s with hostTurn := true }
      | none => match s.due with
        | some i => .event i s
        | none =>
          if s.surveyed ≠ some s.cycle then .survey s
          else match s.pick with
            | some (d, g) => s.issueNext d g
            | none => match s.dueLast with
              | some i => .event i s
              | none => .done s.tick

/-! ## Placing an instruction for the next step -/

/-- The kernel of the group that `boot1` starts: 16 lanes, every base register, and a whole scratchpad. -/
def bootKernel : Kernel :=
  { Kernel.zero with code := 0x10000, clen := 0x10000, width := 16, team := 1, regs := 256, acc := 16, ply := 16, extB := 262144,
                     scrB := 524288, scrF := 524288 }

/-- The page table of that group's context, as 16-byte entries at node addresses: generic addresses below 8 GiB are bulk memory at
the same address, for every access. -/
def bootTable : List (Nat × Nat) :=
  [(0x1000, 1 + 2 * 2 ^ 24), (0x2000, 1 + 4 * 2 ^ 24)] ++
    (List.range 8).map fun i => (0x4000 + 16 * i, 1 + 2 + 5 * 4 + 0xE0 + 0x300)

/-- A context in slot 0 with a group of one live thread, at the start of a kernel that a launch has placed. -/
def State.boot1 (s : State) : Nat × State :=
  let th := Thread.start 0x10000
  let gone : Thread := { th with exited := true }
  let ln : Launch := launchOf 0 0 1 0
  let l : Launch := { ln with kernel := bootKernel, dims := (1, 1, 1), ready := true, nextTeam := 1, ran := 1 }
  let tm : Team :=
    { launch := s.nextId, num := 0, core := 0, pair := false, spad0 := .zero, spad1 := .zero, wait0 := [], wait1 := [],
      gone0 := (0, 0), gone1 := (0, 0) }
  let x : Group :=
    { Group.start 0 s.nextId (some (s.nextId + 1)) 0 0 bootKernel ⟨0, 0, 0⟩ (th :: List.replicate 15 gone) with
      place := some ⟨0, 0, 0⟩, active := true, readySince := s.cycle, lastIssue := s.cycle }
  (s.nextId + 2,
    { s with
      nextId := s.nextId + 3
      launches := alSet s.launches s.nextId l
      teams := alSet s.teams (s.nextId + 1) tm
      groups := alSet (s.groups.filter fun p => p.2.place != some ⟨0, 0, 0⟩) (s.nextId + 2) x
      ctxs := alSet s.ctxs 0 { Ctx.free with state := 0, ptbase := 0x1000, savebase := 0x20000 }
      mem := bootTable.foldl (fun m e => memSetBytes m e.1 (toBytes 16 e.2)) s.mem })

/-- The node address from which a group fetches its next instruction. -/
def State.fetchAt (s : State) (g : Nat) : Option Nat :=
  match s.vote g with
  | [] => none
  | l :: _ => match s.xlatePeek (some (s.coreOf g)) (dieOf (s.coreOf g)) (s.slotOf g) (s.thread g l).pc.toNat .fetch with
    | .ok a _ => some a
    | _ => none

/-- A group's next instruction word written where it is fetched, the group being the next to issue. -/
def State.placeWord (s : State) (g a w : Nat) : State :=
  { s with mem := memSetBytes s.mem a (toBytes 16 w), agenda := .issue g :: s.agenda }

/-- A word placed where the next step fetches it: at the PC of the group that issues next, or, where none can, at the start of a
kernel placed for it. -/
def State.placeNext (s : State) (w : Nat) : State :=
  match s.pick.bind fun p => (s.fetchAt p.2).map fun a => (p.2, a) with
  | some (g, a) => s.placeWord g a w
  | none =>
    let (g, t) := s.boot1
    t.placeWord g 0x10000 w

end Sys2Proof.Machine
end

