-- ==== Sys2Proof/Machine/Sfu.lean ====
section
/-! DEFINITION. The special-function unit, opcodes 0x40 to 0x47: results computed to about 120 bits and rounded correctly
under f16, and chosen within the bounds of Table 11-4 under f32 (log 7). -/

namespace Sys2Proof.Machine

open Sys2Proof

/-! ## High-precision functions in fixed point -/

/-- Fraction bits of the fixed-point numbers. -/
def fxBits : Nat := 256

/-- π with 256 fraction bits. -/
def fxPi : Nat := 0x3243f6a8885a308d313198a2e03707344a4093822299f31d0082efa98ec4e6c89452821e638d01377 / 2 ^ 64

/-- ln 2 with 256 fraction bits. -/
def fxLn2 : Nat := 0xb17217f7d1cf79abc9e3b39803f2f6af40f343267298b62d8a0d175b8baafa2b

/-- A fixed-point product. -/
def fxMul (x y : Nat) : Nat := x * y / 2 ^ fxBits

/-- `exp x` for a fixed-point `x` below 1: the sum of `n` terms, `t` being term `k`. -/
def fxExp (x : Nat) : Nat → Nat → Nat → Nat
  | 0, _, _ => 0
  | n + 1, k, t => t + fxExp x n (k + 1) (fxMul t x / k)

/-- `ln` of a number in [1, 2], as twice the inverse hyperbolic tangent of `t = (m − 1)/(m + 1)`. -/
def fxAtanh (sq : Nat) : Nat → Nat → Nat → Nat
  | 0, _, _ => 0
  | n + 1, k, t => t / k + fxAtanh sq n (k + 2) (fxMul t sq)

/-- The alternating series of `sin` and `cos`, from term `t` with index `k`. -/
def fxTrig (sq : Nat) : Nat → Nat → Nat → Int
  | 0, _, _ => 0
  | n + 1, k, t => (t : Int) - fxTrig sq n (k + 2) (fxMul t sq / (k * (k + 1)))

/-- The integer square root, bit by bit from bit `n - 1` down. -/
def isqrtBits (x : Nat) : Nat → Nat → Nat
  | 0, r => r
  | n + 1, r => if (r + 2 ^ n) * (r + 2 ^ n) ≤ x then isqrtBits x n (r + 2 ^ n) else isqrtBits x n r

/-- A fixed-point number of `fxBits` fraction bits, as an exact quotient with a sign. -/
def fxEx (neg : Bool) (x : Nat) : Ex := .fin neg x (2 ^ fxBits)

/-- √(num / den): exact, or with a last bit that says it is inexact. -/
def exSqrt (num den : Nat) : Ex × Bool :=
  let n := num * 2 ^ 400 / den
  let r := isqrtBits n 300 0
  if r * r * den = num * 2 ^ 400 then (.fin false r (2 ^ 200), true)
  else (.fin false (2 * r + 1) (2 ^ 201), false)

/-- 2^a for a finite `a` of magnitude below 2^12. -/
def exExp2 (a : Int × Nat) : Ex :=
  let n := a.1 / (a.2 : Int)
  let f := (a.1 - n * a.2).toNat * 2 ^ fxBits / a.2
  let y := fxExp (fxMul f fxLn2) 60 1 (2 ^ fxBits)
  .dyadic false y (n - fxBits)

/-- log2 of a positive quotient: a signed fixed-point number. -/
def exLog2 (num den : Nat) : Ex :=
  let e := floorLog2 num den
  let (a, b) := scaleDown num den e
  let t := (a - b) * 2 ^ fxBits / (a + b)
  let ln := 2 * fxAtanh (fxMul t t) 90 1 t
  let l : Int := e * (2 ^ fxBits : Nat) + (ln * 2 ^ fxBits / fxLn2 : Nat)
  fxEx (decide (l < 0)) l.natAbs

/-- sin (`cos := false`) or cos of a quotient in radians, reduced against π/2. -/
def exTrig (cos : Bool) (neg : Bool) (num den : Nat) : Ex :=
  let x := num * 2 ^ fxBits / den
  let half := fxPi / 2
  let q := x / half
  let r := x % half
  let k := if cos then q + 1 else q
  let sq := fxMul r r
  let v : Int := if k % 2 = 0 then fxTrig sq 60 2 r else fxTrig sq 60 1 (2 ^ fxBits)
  let s : Int := if 2 ≤ k % 4 then -v else v
  let z : Int := if !cos && neg then -s else s
  fxEx (decide (z < 0)) z.natAbs

/-- tanh of a nonzero quotient: a short series below 2^-12, 1 less a little above 64, and (e^2a − 1)/(e^2a + 1) between. -/
def exTanh (neg : Bool) (num den : Nat) : Ex :=
  if num * 2 ^ 12 < den then
    .fin neg (num * (15 * den ^ 4 - 5 * num ^ 2 * den ^ 2 + 2 * num ^ 4)) (15 * den ^ 5)
  else if 64 * den < num then .fin neg (2 ^ 128 - 1) (2 ^ 128)
  else
    let y := num * 2 ^ (fxBits + 1) / den
    let l2 := y * 2 ^ fxBits / fxLn2
    match exExp2 ((l2 : Int), 2 ^ fxBits) with
    | .fin _ a b => .fin neg (a - b) (a + b)
    | x => x

/-! ## The functions -/

/-- The SFU functions with no rounding mode (Table 11-4), by their opcodes. -/
inductive SfuFn
  | rsq | ex2 | lg2 | sin | cos | tanh
  deriving DecidableEq, Repr

/-- The opcode of a function. -/
def SfuFn.code : SfuFn → Nat
  | .rsq => 0x41 | .ex2 => 0x43 | .lg2 => 0x44 | .sin => 0x45 | .cos => 0x46 | .tanh => 0x47

/-- The exact special results of Table 11-5, and the domain errors of R282. -/
def SfuFn.special (f : SfuFn) (x : Ex) : Option (Ex × Flg) :=
  let one : Ex := .fin false 1 1
  match x with
  | .nan => some (.nan, 0)
  | .inf n => match f with
    | .rsq => some (if n then (.nan, flNV) else (.fin false 0 1, 0))
    | .ex2 => some (if n then (.fin false 0 1, 0) else (.inf false, 0))
    | .lg2 => some (if n then (.nan, flNV) else (.inf false, 0))
    | .sin | .cos => some (.nan, flNV)
    | .tanh => some (.fin n 1 1, 0)
  | .fin n num _ =>
    if num = 0 then match f with
      | .rsq => some (.inf n, flDZ)
      | .ex2 | .cos => some (one, 0)
      | .lg2 => some (.inf true, flDZ)
      | .sin | .tanh => some (.fin n 0 1, 0)
    else if n ∧ (f = .rsq ∨ f = .lg2) then some (.nan, flNV)
    else none

/-- The value of a function of a finite nonzero number in its domain, to about 120 bits, and whether it is exact
(R282). -/
def SfuFn.value (f : SfuFn) (n : Bool) (num den : Nat) : Ex × Bool :=
  match f with
  | .rsq => exSqrt den num
  | .ex2 =>
    let a : Int := if n then -(num : Int) else num
    if num % den = 0 ∧ num / den < 4096 then (Ex.dyadic false 1 (a / den), true)
    else if den * 4096 ≤ num then (Ex.dyadic false 1 (if n then -4096 else 4096), false)
    else (exExp2 (a, den), false)
  | .lg2 =>
    let e := floorLog2 num den
    let (a, b) := scaleDown num den e
    if a = b then (.ofInt e, true) else (exLog2 num den, false)
  | .sin => (exTrig false n num den, false)
  | .cos => (exTrig true n num den, false)
  | .tanh => (exTanh n num den, false)

/-- A code of a format in the order of its values. -/
def codeOrd (f : FFmt) (c : Nat) : Int :=
  if fldN c (f.width - 1) 1 = 1 then -(c % 2 ^ (f.width - 1) : Nat) else c

/-- The code at a place of that order. -/
def ordCode (f : FFmt) (o : Int) : Nat := if o < 0 then 2 ^ (f.width - 1) + o.natAbs else o.toNat

/-- One unit in the last place of a format at a value: the spacing of its numbers in the value's binade. -/
def ulpAt (f : FFmt) : Ex → Ex
  | .fin _ num den => Ex.dyadic false 1 (max (floorLog2 num den) f.emin - f.mant)
  | x => x

/-- How far from its value a result may lie (Table 11-4). -/
def sfuBound (fn : SfuFn) (f : FFmt) (x : Ex) (inside : Bool) : Ex :=
  if fn = .sin ∨ fn = .cos ∨ (fn = .lg2 ∧ inside) then .fin false 1 (2 ^ 22)
  else if fn = .rsq then ulpAt f x
  else (ulpAt f x).mul (.ofInt 2) |>.1

/-- The f32 results that Table 11-4 admits for a value, as the least and the greatest in code order. -/
def sfuRange (fn : SfuFn) (f : FFmt) (x : Ex) (inside : Bool) : Int × Int :=
  let eps := sfuBound fn f x inside
  let top : Int := f.maxCode
  (max (-top) (codeOrd f (roundFloat (Ex.add false x eps.negate).1 f .ru false false).1),
    min top (codeOrd f (roundFloat (Ex.add false x eps).1 f .rd false false).1))

/-- An SFU function of a code: the result and its flags (R281, R282). Under f16 it is rounded to nearest-even; under f32 it
is the one of the admitted results that the part gives (log 7). -/
def sfuCompute (fn : SfuFn) (ty : Ty) (ftzi ftzo : Bool) (w : Nat) : Nat × Flg :=
  match fmtOf ty with
  | none => (0, 0)
  | some f =>
    let x := decodeElem ty 0 ftzi w
    match fn.special x with
    | some (r, fl) => ((roundFloat r f .rn false ftzo).1, fl)
    | none => match x with
      | .fin n num den =>
        let (y, exact) := fn.value n num den
        let (r, fl) := roundFloat y f .rn false ftzo
        if exact then (r, fl)
        else if f.width = 16 ∨ bit fl 2 then
          (r, if fn = .ex2 ∨ (ftzo ∧ r % 2 ^ (f.width - 1) = 0) then fl ||| flNX else flNX)
        else
          let (lo, hi) := sfuRange fn f y (decide (den ≤ 2 * num) && decide (num ≤ 2 * den))
          let o := lo + ((Config.sfuPick fn.code (BitVec.ofNat 32 w) % ((hi - lo).toNat + 1) : Nat) : Int)
          let c := ordCode f o
          let tiny := decide (c % 2 ^ (f.width - 1) < 2 ^ f.mant) && fn == .ex2
          if ftzo && subnormal f c then (withSign f (fldN c (f.width - 1) 1 == 1) 0, flUF ||| flNX)
          else (c, if tiny then flUF ||| flNX else flNX)
      | _ => (0, 0)

/-- `RCP` of a code, correctly rounded (R281, R282). -/
def rcpCompute (ty : Ty) (rm : Rm) (ftzi ftzo : Bool) (w : Nat) : Nat × Flg :=
  match decodeElem ty 0 ftzi w with
  | .nan => roundTo .nan ty rm false ftzo
  | .inf n => roundTo (.fin n 0 1) ty rm false ftzo
  | .fin n num den =>
    if num = 0 then ((roundTo (.inf n) ty .rn false ftzo).1, flDZ) else roundTo (.fin n den num) ty rm false ftzo

/-- `SQRT` of a code, correctly rounded (R281, R282). -/
def sqrtCompute (ty : Ty) (rm : Rm) (ftzi ftzo : Bool) (w : Nat) : Nat × Flg :=
  match decodeElem ty 0 ftzi w with
  | .nan => roundTo .nan ty rm false ftzo
  | .inf n => if n then ((roundTo .nan ty rm false ftzo).1, flNV) else roundTo (.inf false) ty .rn false ftzo
  | .fin n num den =>
    if num = 0 then roundTo (.fin n 0 1) ty rm false ftzo
    else if n then ((roundTo .nan ty rm false ftzo).1, flNV)
    else roundTo (exSqrt num den).1 ty rm false ftzo

/-! ## The queue (R280) -/

/-- The SFU instructions that wait in a quarter's queue. -/
def State.sfuQueue (s : State) (core quarter : Nat) : List Nat :=
  dedupN (s.acc.filterMap fun p => match p.2.op with
    | .sfu inst _ _ _ _ =>
      if p.2.core = core ∧ ((s.group? p.2.g).map (·.home.quarter)) = some quarter then some inst else none
    | _ => none)

/-- The row of an SFU instruction: only `RCP` and `SQRT` take a rounding mode. -/
def specSfu (mask : BitVec 4) (f : Fields) : Spec :=
  specFloat [.f32, .f16] mask slVec slSrc slNone slNone f

/-- An SFU instruction: its result waits in the quarter's queue, D's lanes empty until it lands, with the flags of an implicit `RSLV` of
its operand among its own (R302). Where any trap is enabled
the thread issues nothing before that (R280). -/
def issueSfu (mask : BitVec 4) (fn : Ty → Rm → Bool → Bool → Nat → Nat × Flg) (f : Fields) (s : State) : Out :=
  let o := issueThreads (specSfu mask)
      (fun _ s g _ => match s.group? g with
        | some x => decide ((s.sfuQueue x.home.core x.home.quarter).length < 32)
        | none => true)
      (fun e s0 g l =>
        let m := s0.mode g
        let a := s0.rdA g l e
        let (r, fl) := (List.range (tyElems e.ty)).foldl (fun (acc : Nat × Flg) i =>
          let (y, f) := fn e.ty (e.rm m) (modeFtzi m) (modeFtzo m) (packedElem e.ty a i)
          (acc.1 + y * 2 ^ (tyBits e.ty * i), acc.2 ||| f)) (0, 0)
        let dst := e.d.vregs 1
        let all := fl ||| s0.plyFlags g l e
        let (n, s1) := s0.fresh
        let acc : Acc :=
          { g := g, lane := l, slot := s0.slotOf g, core := s0.coreOf g, va := 0, tgt := none, home := 0,
            op := .sfu s.nextId (BitVec.ofNat 32 r) all 0 m, dst := dst, cdst := [], cc := none, acq := none,
            hold := fld m 8 5 != 0, park := none, ns := s0.ns, pc := (s0.thread g l).pc, cyc := s0.cycle,
            mark := (s0.thread g l).issues + 1, parked := false, recs := [], l2 := 0, lanes := [], holds := [] }
        .ok ({ s1 with acc := alSet s1.acc n acc }.modThread g l fun t => { t with vEmpty := t.vEmpty ++ dst })) f s
  match o, s.cur with
  | .next t, some i => .next (if t.nextId = s.nextId then t else t.countFor i.g 8 1)
  | o, _ => o

/-- `RCP` (R281). -/
def execRcp : Fields → State → Out := issueSfu 7 rcpCompute

/-- `RSQ` (R281). -/
def execRsq : Fields → State → Out := issueSfu 0 fun ty _ => sfuCompute .rsq ty

/-- `SQRT` (R281). -/
def execSqrt : Fields → State → Out := issueSfu 7 sqrtCompute

/-- `EX2` (R281). -/
def execEx2 : Fields → State → Out := issueSfu 0 fun ty _ => sfuCompute .ex2 ty

/-- `LG2` (R281). -/
def execLg2 : Fields → State → Out := issueSfu 0 fun ty _ => sfuCompute .lg2 ty

/-- `SIN` (R281). -/
def execSin : Fields → State → Out := issueSfu 0 fun ty _ => sfuCompute .sin ty

/-- `COS` (R281). -/
def execCos : Fields → State → Out := issueSfu 0 fun ty _ => sfuCompute .cos ty

/-- `TANH` (R281). -/
def execTanh : Fields → State → Out := issueSfu 0 fun ty _ => sfuCompute .tanh ty

/-- A thread with outstanding registers full again. -/
def Thread.fill (t : Thread) (regs : List Nat) : Thread :=
  { t with vEmpty := t.vEmpty.filter fun r => !regs.contains r }

/-- The outstanding results of an SFU instruction but for one. -/
def State.sfuRest (s : State) (id inst : Nat) : List Nat :=
  s.acc.filterMap fun p => match p.2.op with
    | .sfu k _ _ _ _ => if k = inst ∧ p.1 ≠ id then some p.1 else none
    | _ => none

/-- An SFU result with the flags of a lane that has landed before it. -/
def Acc.withLanded (a : Acc) (fl : Flg) : Acc :=
  match a.op with
  | .sfu i w f x m => { a with op := .sfu i w f (x ||| fl) m }
  | _ => a

/-- `SFU_RESULT` (R280): the result of an access number lands, where it is the oldest of its quarter's queue. The instruction's
flags are ORed into FLG as its last lane lands; where an enabled one is raised in the thread, which has issued nothing since, it
traps at the instruction and nothing is written (R82). -/
def execSfuResult (id : Nat) (s : State) : Out :=
  match alGet? s.acc id with
  | some a => match a.op with
    | .sfu inst w fl landed m =>
      let older := s.acc.any fun p => decide (p.1 < id) && (match p.2.op with
        | .sfu _ _ _ _ _ => p.2.core == a.core &&
            ((s.group? p.2.g).map (·.home.quarter)) == ((s.group? a.g).map (·.home.quarter))
        | _ => false)
      if older then .next s
      else
        let t := { s with acc := alDel s.acc id }.modThread a.g a.lane fun t => t.fill a.dst
        let s1 := match (s.sfuRest id inst).getLast? with
          | none => t.raise a.g (fl ||| landed)
          | some k => { t with acc := alMod t.acc k fun b => b.withLanded (fl ||| landed) }
        match flagCause m fl with
        | some c =>
          if (s1.thread a.g a.lane).exited then .next s1
          else .next ((s1.modGroup a.g fun x => x.untag a.lane a.dst).trapWith a.g a.lane c (BitVec.ofNat 64 fl.toNat) a.pc false false)
        | none =>
          let s2 := s1.modThread a.g a.lane fun t => a.dst.foldl (fun u r => u.setV r w) t
          .next (s2.landTags a.g a.lane a.dst)
    | _ => .next s
  | none => .next s

end Sys2Proof.Machine
end

