-- ==== Sys2Proof/Machine/System.lean ====
section
/-! DEFINITION. The trap, context and system instructions (Table 18-4), `YIELD` (R385), reserved opcodes (R50), the handler
watchdog (R423) and the end of a debug stop (R431). -/

namespace Sys2Proof.Machine

open Sys2Proof

/-! ## Traps -/

/-- `RESERVED_OPCODE` (R50): every thread of the issuing sub-group traps at decode, before any guard. -/
def execReservedOpcode (w : BitVec 128) (s : State) : Out :=
  match s.cur with
  | none => .next s
  | some i =>
    let cause := if fld w 0 8 = 0xFF then 0x002 else 0x001
    .next (i.lanes.foldl (fun (t : State) l =>
      if (t.group? i.g).isSome then t.trap i.g l cause (BitVec.ofNat 64 (fld w 0 64)) else t) s)

/-- `TRAP` (R426). -/
def execTrap : Fields → State → Out :=
  issueThreads (fun f => { Spec.plain with var := f.var, a := slSrc32 }) always fun e s g l =>
    .trap (0x020 + e.var.toNat) (BitVec.ofNat 64 (s.rdA g l e))

/-- `TRET` (R427). The return may end a membership of a meeting set, which is then checked. -/
def execTret (f : Fields) (s : State) : Out :=
  afterIssue State.releaseMeets (issueThreads (fun f => { Spec.plain with var := f.var &&& 1 }) always (fun e s g l =>
    let t := s.thread g l
    match t.tretCause with
    | some (c, tv) => .trap c tv
    | none =>
      let u := t.tret (bit e.var 0) s.cycle
      .goto (s.modThread g l fun _ => u) u.pc) f s) s

/-- `HANDLER_WATCHDOG` (R423): a thread above level 0 for longer than WDOG kills its context. -/
def execHandlerWatchdog (g l : Nat) (s : State) : Out :=
  let t := s.thread g l
  .next (if (s.thread? g l).isSome ∧ ¬ t.exited ∧ t.level ≠ 0 ∧
      t.above + 1000 * (s.ctx (s.slotOf g)).wdog.toNat < s.ns then
    s.kill (s.slotOf g) 0x162 0 (some ⟨g, l, t.pc, 0⟩)
  else s)

/-! ## Regions -/

/-- Whether a region table entry is the `RGN`'s own (Table 18-6). -/
def rgnOk (x : Nat) (pc : Dword) : Bool := fldN x 0 64 == pc.toNat && fldN x 404 108 == 0

/-- A thread that begins a region (R433), the next access having a number. -/
def Thread.begin (t : Thread) (index acc : Nat) : Thread :=
  { t with region := some index, rgnAcc := acc, rgnPc := t.pc, rgnDepth := t.depth, rgnMr := t.mr, noRegion := false, deferral := false }

/-- `RGN` (R433): the entry is read on the thread's load path, after its unfinished acquires (R403); ply shadowing is armed again. -/
def execRgn : Fields → State → Out :=
  issueThreads (fun _ => { Spec.plain with imm := true }) (fun _ s g l => !s.acqPending g l) fun e s g l =>
    let n := e.imm.toNat
    let tv := BitVec.ofNat 64 n
    let kn := s.kernel g
    if kn.nrgn ≤ n then .trap 0x14E tv
    else match s.issueRead g l (kn.rgnt + BitVec.ofNat 64 (64 * n)) 64 0x094 with
      | .trap c v _ => .trap c v
      | .stay t => .wait t
      | .ok x t =>
        if rgnOk x (s.thread g l).pc then
          .ok ((t.modThread g l fun u => u.begin n t.now).modGroup g fun y => y.rearm l)
        else .trap 0x14E tv

/-! ## Clocks, counters, debug and kill -/

/-- `CLOCK.cyc` (R429). -/
def execClockCyc : Fields → State → Out :=
  issueThreads (fun _ => { Spec.plain with d := ⟨.vec, 2⟩ }) always fun e s g l =>
    .ok (s.modThread g l fun t => t.write e.d 2 (s.cycle % 2 ^ 64))

/-- `CLOCK.ns` (R429). -/
def execClockNs : Fields → State → Out :=
  issueThreads (fun _ => { Spec.plain with var := 1, d := ⟨.vec, 2⟩ }) always fun e s g l =>
    .ok (s.modThread g l fun t => t.write e.d 2 (s.ns % 2 ^ 64))

/-- `PERF` (R430). -/
def execPerf : Fields → State → Out :=
  issueThreads (fun _ => { Spec.plain with d := ⟨.vec, 2⟩, a := slSrc32 }) always fun e s g l =>
    .ok (s.modThread g l fun t => t.write e.d 2 (alGet (s.core (s.coreOf g)).perf 0 (s.rdA g l e % 16)))

/-- `DBRK` (R431): under an enabled session for the context the group stops, the code is reported and its threads will go on
past the instruction. -/
def execDbrk : Fields → State → Out :=
  issueThreads (fun _ => { Spec.plain with imm := true }) always fun e s g _ =>
    let code := e.imm.toNat % 65536
    if s.sec.session = some (s.ctx (s.slotOf g)).id then
      if ((s.group? g).map fun x => x.stopped).getD true then .ok s
      else .ok ({ s with sec := { s.sec with codes := s.sec.codes ++ [(g, BitVec.ofNat 32 code)] } }.modGroup g fun x =>
        { x with stopped := true })
    else .trap 0x003 (BitVec.ofNat 64 code)

/-- `KILL` (R432). -/
def execKill : Fields → State → Out :=
  issueOnce (fun _ => { Spec.plain with a := slSrc32 }) alwaysOnce fun e s g l _ =>
    .halt (s.kill (s.slotOf g) 0x160 0 (some ⟨g, l, (s.thread g l).pc, BitVec.ofNat 64 (s.rdA g l e)⟩))

/-- `CTXCTL_KILL` (R424, R436). -/
def execCtxctlKill (slot : Nat) (s : State) : Out := .next (s.kill slot 0x166 0 none)

/-! ## YIELD -/

/-- `YIELD` (R385): every thread of the sub-group is not ready for the cycles that A names. -/
def execYield : Fields → State → Out :=
  issueOnce (fun f => { Spec.plain with var := f.var &&& 1, a := slSrc32 }) alwaysOnce fun e s g l act =>
    let n := min (s.rdA g l e) 65535
    let sub := (s.cur.map fun i => i.lanes).getD act
    let s1 := act.foldl (fun (t : State) k => t.pass g k e.stall) s
    let s2 := sub.foldl (fun (t : State) k => t.modThread g k fun u => { u with notBefore := max u.notBefore (s.cycle + n), yieldTo := s.cycle + n }) s1
    let s3 := if n = 0 then s2.modGroup g fun x => { x with yielded := s.cycle + 1 } else s2
    .halt (if bit e.var 0 then s3.flushLaunch (s3.coreOf g) (((s3.group? g).map fun x => x.launch).getD 0) else s3)

end Sys2Proof.Machine
end

