-- ==== Sys2Proof/Machine/Dispatch.lean ====
section
/-! DEFINITION. One arm for every row of the opcode table: the meaning of each instruction and event. -/

namespace Sys2Proof.Machine

open Sys2Proof

/-- What an instruction or event does. -/
def exec (i : Instr) (s : State) : Host.Outcome State Fault Refusal :=
  match i with
  | .nop f => Sys2Proof.Machine.execNop f s
  | .mov f => Sys2Proof.Machine.execMov f s
  | .ldi f => Sys2Proof.Machine.execLdi f s
  | .iadd f => Sys2Proof.Machine.execIadd f s
  | .isub f => Sys2Proof.Machine.execIsub f s
  | .imul f => Sys2Proof.Machine.execImul f s
  | .imulh f => Sys2Proof.Machine.execImulh f s
  | .imad f => Sys2Proof.Machine.execImad f s
  | .idiv f => Sys2Proof.Machine.execIdiv f s
  | .irem f => Sys2Proof.Machine.execIrem f s
  | .imin f => Sys2Proof.Machine.execImin f s
  | .imax f => Sys2Proof.Machine.execImax f s
  | .iabs f => Sys2Proof.Machine.execIabs f s
  | .ineg f => Sys2Proof.Machine.execIneg f s
  | .isat f => Sys2Proof.Machine.execIsat f s
  | .and f => Sys2Proof.Machine.execAnd f s
  | .or f => Sys2Proof.Machine.execOr f s
  | .xor f => Sys2Proof.Machine.execXor f s
  | .not f => Sys2Proof.Machine.execNot f s
  | .shl f => Sys2Proof.Machine.execShl f s
  | .shr f => Sys2Proof.Machine.execShr f s
  | .sar f => Sys2Proof.Machine.execSar f s
  | .rot f => Sys2Proof.Machine.execRot f s
  | .popc f => Sys2Proof.Machine.execPopc f s
  | .clz f => Sys2Proof.Machine.execClz f s
  | .brev f => Sys2Proof.Machine.execBrev f s
  | .bfe f => Sys2Proof.Machine.execBfe f s
  | .bfi f => Sys2Proof.Machine.execBfi f s
  | .prmt f => Sys2Proof.Machine.execPrmt f s
  | .sel f => Sys2Proof.Machine.execSel f s
  | .icmp f => Sys2Proof.Machine.execIcmp f s
  | .lea f => Sys2Proof.Machine.execLea f s
  | .addc f => Sys2Proof.Machine.execAddc f s
  | .subb f => Sys2Proof.Machine.execSubb f s
  | .fadd f => Sys2Proof.Machine.execFadd f s
  | .fsub f => Sys2Proof.Machine.execFsub f s
  | .fmul f => Sys2Proof.Machine.execFmul f s
  | .ffma f => Sys2Proof.Machine.execFfma f s
  | .fmin f => Sys2Proof.Machine.execFmin f s
  | .fmax f => Sys2Proof.Machine.execFmax f s
  | .fcmp f => Sys2Proof.Machine.execFcmp f s
  | .fclass f => Sys2Proof.Machine.execFclass f s
  | .frnd f => Sys2Proof.Machine.execFrnd f s
  | .fscl f => Sys2Proof.Machine.execFscl f s
  | .cvt f => Sys2Proof.Machine.execCvt f s
  | .qnt f => Sys2Proof.Machine.execQnt f s
  | .dqnt f => Sys2Proof.Machine.execDqnt f s
  | .fdot2 f => Sys2Proof.Machine.execFdot2 f s
  | .fdot4 f => Sys2Proof.Machine.execFdot4 f s
  | .fdot8 f => Sys2Proof.Machine.execFdot8 f s
  | .rcp f => Sys2Proof.Machine.execRcp f s
  | .rsq f => Sys2Proof.Machine.execRsq f s
  | .sqrt f => Sys2Proof.Machine.execSqrt f s
  | .ex2 f => Sys2Proof.Machine.execEx2 f s
  | .lg2 f => Sys2Proof.Machine.execLg2 f s
  | .sin f => Sys2Proof.Machine.execSin f s
  | .cos f => Sys2Proof.Machine.execCos f s
  | .tanh f => Sys2Proof.Machine.execTanh f s
  | .sfuResult id => Sys2Proof.Machine.execSfuResult id s
  | .pzero f => Sys2Proof.Machine.execPzero f s
  | .pacc f => Sys2Proof.Machine.execPacc f s
  | .padd f => Sys2Proof.Machine.execPadd f s
  | .psub f => Sys2Proof.Machine.execPsub f s
  | .pmrg f => Sys2Proof.Machine.execPmrg f s
  | .rslv f => Sys2Proof.Machine.execRslv f s
  | .ptest f => Sys2Proof.Machine.execPtest f s
  | .panc f => Sys2Proof.Machine.execPanc f s
  | .pstw f => Sys2Proof.Machine.execPstw f s
  | .pstwCell f => Sys2Proof.Machine.execPstwCell f s
  | .pldw f => Sys2Proof.Machine.execPldw f s
  | .pldwCell f => Sys2Proof.Machine.execPldwCell f s
  | .pmov f => Sys2Proof.Machine.execPmov f s
  | .shfl f => Sys2Proof.Machine.execShfl f s
  | .vote f => Sys2Proof.Machine.execVote f s
  | .ballot f => Sys2Proof.Machine.execBallot f s
  | .bplane f => Sys2Proof.Machine.execBplane f s
  | .selk f => Sys2Proof.Machine.execSelk f s
  | .gred f => Sys2Proof.Machine.execGred f s
  | .gscan f => Sys2Proof.Machine.execGscan f s
  | .matchLanes f => Sys2Proof.Machine.execMatchLanes f s
  | .lnmask f => Sys2Proof.Machine.execLnmask f s
  | .ccmovTov f => Sys2Proof.Machine.execCcmovTov f s
  | .ccmovTocc f => Sys2Proof.Machine.execCcmovTocc f s
  | .ccmovCopy f => Sys2Proof.Machine.execCcmovCopy f s
  | .bra f => Sys2Proof.Machine.execBra f s
  | .brx f => Sys2Proof.Machine.execBrx f s
  | .call f => Sys2Proof.Machine.execCall f s
  | .callx f => Sys2Proof.Machine.execCallx f s
  | .ret f => Sys2Proof.Machine.execRet f s
  | .meet f => Sys2Proof.Machine.execMeet f s
  | .meetClr f => Sys2Proof.Machine.execMeetClr f s
  | .syncm f => Sys2Proof.Machine.execSyncm f s
  | .waitm f => Sys2Proof.Machine.execWaitm f s
  | .waitmTimeout g lane => Sys2Proof.Machine.execWaitmTimeout g lane s
  | .exit f => Sys2Proof.Machine.execExit f s
  | .groupSlotFree g => Sys2Proof.Machine.execGroupSlotFree g s
  | .spawn f => Sys2Proof.Machine.execSpawn f s
  | .jinit f => Sys2Proof.Machine.execJinit f s
  | .jwait f => Sys2Proof.Machine.execJwait f s
  | .yield f => Sys2Proof.Machine.execYield f s
  | .rgn f => Sys2Proof.Machine.execRgn f s
  | .trap f => Sys2Proof.Machine.execTrap f s
  | .tret f => Sys2Proof.Machine.execTret f s
  | .lateTrap g lane => Sys2Proof.Machine.execLateTrap g lane s
  | .reservedOpcode w => Sys2Proof.Machine.execReservedOpcode w s
  | .ld f => Sys2Proof.Machine.execLd f s
  | .st f => Sys2Proof.Machine.execSt f s
  | .ldfe f => Sys2Proof.Machine.execLdfe f s
  | .stfe f => Sys2Proof.Machine.execStfe f s
  | .feclr f => Sys2Proof.Machine.execFeclr f s
  | .pref f => Sys2Proof.Machine.execPref f s
  | .prefList f => Sys2Proof.Machine.execPrefList f s
  | .atom f => Sys2Proof.Machine.execAtom f s
  | .atomc f => Sys2Proof.Machine.execAtomc f s
  | .red f => Sys2Proof.Machine.execRed f s
  | .fence f => Sys2Proof.Machine.execFence f s
  | .qpush f => Sys2Proof.Machine.execQpush f s
  | .qpop f => Sys2Proof.Machine.execQpop f s
  | .qsteal f => Sys2Proof.Machine.execQsteal f s
  | .probe f => Sys2Proof.Machine.execProbe f s
  | .loadResult id ans => Sys2Proof.Machine.execLoadResult id ans s
  | .faultRecordDeferred slot => Sys2Proof.Machine.execFaultRecordDeferred slot s
  | .lineRecall line => Sys2Proof.Machine.execLineRecall line s
  | .croot f => Sys2Proof.Machine.execCroot f s
  | .next f => Sys2Proof.Machine.execNext f s
  | .seek f => Sys2Proof.Machine.execSeek f s
  | .desc f => Sys2Proof.Machine.execDesc f s
  | .coit f => Sys2Proof.Machine.execCoit f s
  | .crd f => Sys2Proof.Machine.execCrd f s
  | .cldv f => Sys2Proof.Machine.execCldv f s
  | .ctest f => Sys2Proof.Machine.execCtest f s
  | .appnd f => Sys2Proof.Machine.execAppnd f s
  | .appndOpen f => Sys2Proof.Machine.execAppndOpen f s
  | .acommit f => Sys2Proof.Machine.execAcommit f s
  | .csplit f => Sys2Proof.Machine.execCsplit f s
  | .halloc f => Sys2Proof.Machine.execHalloc f s
  | .hfree f => Sys2Proof.Machine.execHfree f s
  | .cpref f => Sys2Proof.Machine.execCpref f s
  | .walkerResult id => Sys2Proof.Machine.execWalkerResult id s
  | .tld f => Sys2Proof.Machine.execTld f s
  | .tst f => Sys2Proof.Machine.execTst f s
  | .tsetf f => Sys2Proof.Machine.execTsetf f s
  | .tgetf f => Sys2Proof.Machine.execTgetf f s
  | .tswap f => Sys2Proof.Machine.execTswap f s
  | .tinv f => Sys2Proof.Machine.execTinv f s
  | .modew f => Sys2Proof.Machine.execModew f s
  | .moder f => Sys2Proof.Machine.execModer f s
  | .copy f => Sys2Proof.Machine.execCopy f s
  | .xform f => Sys2Proof.Machine.execXform f s
  | .gathr f => Sys2Proof.Machine.execGathr f s
  | .scatr f => Sys2Proof.Machine.execScatr f s
  | .sortu f => Sys2Proof.Machine.execSortu f s
  | .commandComplete id => Sys2Proof.Machine.execCommandComplete id s
  | .scatrRowClaim id => Sys2Proof.Machine.execScatrRowClaim id s
  | .binit f => Sys2Proof.Machine.execBinit f s
  | .barv f => Sys2Proof.Machine.execBarv f s
  | .bwait f => Sys2Proof.Machine.execBwait f s
  | .ftest f => Sys2Proof.Machine.execFtest f s
  | .fwait f => Sys2Proof.Machine.execFwait f s
  | .fcncl f => Sys2Proof.Machine.execFcncl f s
  | .mma f => Sys2Proof.Machine.execMma f s
  | .mmab f => Sys2Proof.Machine.execMmab f s
  | .mmat f => Sys2Proof.Machine.execMmat f s
  | .mbatAcq f => Sys2Proof.Machine.execMbatAcq f s
  | .mbatPass f => Sys2Proof.Machine.execMbatPass f s
  | .mbatRel f => Sys2Proof.Machine.execMbatRel f s
  | .matrixOperationStart core => Sys2Proof.Machine.execMatrixOperationStart core s
  | .matrixComplete core => Sys2Proof.Machine.execMatrixComplete core s
  | .bLockRelease core r => Sys2Proof.Machine.execBLockRelease core r s
  | .coll f => Sys2Proof.Machine.execColl f s
  | .launch f => Sys2Proof.Machine.execLaunch f s
  | .signl f => Sys2Proof.Machine.execSignl f s
  | .sigw f => Sys2Proof.Machine.execSigw f s
  | .sigwReread g lane => Sys2Proof.Machine.execSigwReread g lane s
  | .racqVreg f => Sys2Proof.Machine.execRacqVreg f s
  | .racqTile f => Sys2Proof.Machine.execRacqTile f s
  | .racqPreg f => Sys2Proof.Machine.execRacqPreg f s
  | .racqSpad f => Sys2Proof.Machine.execRacqSpad f s
  | .rrel f => Sys2Proof.Machine.execRrel f s
  | .csrr f => Sys2Proof.Machine.execCsrr f s
  | .csrw f => Sys2Proof.Machine.execCsrw f s
  | .clockCyc f => Sys2Proof.Machine.execClockCyc f s
  | .clockNs f => Sys2Proof.Machine.execClockNs f s
  | .perf f => Sys2Proof.Machine.execPerf f s
  | .dbrk f => Sys2Proof.Machine.execDbrk f s
  | .kill f => Sys2Proof.Machine.execKill f s
  | .handlerWatchdog g lane => Sys2Proof.Machine.execHandlerWatchdog g lane s
  | .softErrorCorrected die g lane => Sys2Proof.Machine.execSoftErrorCorrected die g lane s
  | .softErrorUncorrected die sector => Sys2Proof.Machine.execSoftErrorUncorrected die sector s
  | .groupSwap out into => Sys2Proof.Machine.execGroupSwap out into s
  | .groupBoost g => Sys2Proof.Machine.execGroupBoost g s
  | .keyStarvationPromotion g => Sys2Proof.Machine.execKeyStarvationPromotion g s
  | .groupPark g => Sys2Proof.Machine.execGroupPark g s
  | .parkedGroupReturn g => Sys2Proof.Machine.execParkedGroupReturn g s
  | .parkSlotReread die => Sys2Proof.Machine.execParkSlotReread die s
  | .skeinTimerFlush core => Sys2Proof.Machine.execSkeinTimerFlush core s
  | .spillRingReturn slot die => Sys2Proof.Machine.execSpillRingReturn slot die s
  | .ldoorWrite v => Sys2Proof.Machine.execLdoorWrite v s
  | .launchAccept q => Sys2Proof.Machine.execLaunchAccept q s
  | .launchDependenceReread l => Sys2Proof.Machine.execLaunchDependenceReread l s
  | .placementRound => Sys2Proof.Machine.execPlacementRound s
  | .launchComplete l => Sys2Proof.Machine.execLaunchComplete l s
  | .launchQueueCsrWrite q off v => Sys2Proof.Machine.execLaunchQueueCsrWrite q off v s
  | .hirqClear v => Sys2Proof.Machine.execHirqClear v s
  | .hostMemoryAccess a => Sys2Proof.Machine.execHostMemoryAccess a s
  | .fqrespWrite slot v => Sys2Proof.Machine.execFqrespWrite slot v s
  | .pginvWrite slot v => Sys2Proof.Machine.execPginvWrite slot v s
  | .pginvComplete slot => Sys2Proof.Machine.execPginvComplete slot s
  | .rdcinvWrite die v => Sys2Proof.Machine.execRdcinvWrite die v s
  | .rdcinvComplete die => Sys2Proof.Machine.execRdcinvComplete die s
  | .pselWrite n v => Sys2Proof.Machine.execPselWrite n v s
  | .threvRead => Sys2Proof.Machine.execThrevRead s
  | .errcRead die => Sys2Proof.Machine.execErrcRead die s
  | .ctxctlPreempt slot => Sys2Proof.Machine.execCtxctlPreempt slot s
  | .ctxctlResume slot => Sys2Proof.Machine.execCtxctlResume slot s
  | .ctxctlKill slot => Sys2Proof.Machine.execCtxctlKill slot s
  | .ctxctlOpen slot v => Sys2Proof.Machine.execCtxctlOpen slot v s
  | .ctxctlClose slot => Sys2Proof.Machine.execCtxctlClose slot s
  | .preemptionTaken g => Sys2Proof.Machine.execPreemptionTaken g s
  | .peerAccessRequest r => Sys2Proof.Machine.execPeerAccessRequest r s
  | .peerAccessTimeout id => Sys2Proof.Machine.execPeerAccessTimeout id s
  | .latticeFlitRetry lane => Sys2Proof.Machine.execLatticeFlitRetry lane s
  | .spanPeerEntryWrite e v => Sys2Proof.Machine.execSpanPeerEntryWrite e v s
  | .spanHandshake h => Sys2Proof.Machine.execSpanHandshake h s
  | .spanPacketReceive p => Sys2Proof.Machine.execSpanPacketReceive p s
  | .spanRetransmit e => Sys2Proof.Machine.execSpanRetransmit e s
  | .spanRekey e => Sys2Proof.Machine.execSpanRekey e s
  | .spanSessionRetry e => Sys2Proof.Machine.execSpanSessionRetry e s
  | .collContributionReceive c => Sys2Proof.Machine.execCollContributionReceive c s
  | .collChunkClose id chunk => Sys2Proof.Machine.execCollChunkClose id chunk s
  | .collDeadline id chunk => Sys2Proof.Machine.execCollDeadline id chunk s
  | .collResultReceive r => Sys2Proof.Machine.execCollResultReceive r s
  | .collResultTimeout id => Sys2Proof.Machine.execCollResultTimeout id s
  | .deviceReset => Sys2Proof.Machine.execDeviceReset s
  | .bootStepComplete b => Sys2Proof.Machine.execBootStepComplete b s
  | .bootclrWrite v => Sys2Proof.Machine.execBootclrWrite v s
  | .attestationGo => Sys2Proof.Machine.execAttestationGo s
  | .attestationDone => Sys2Proof.Machine.execAttestationDone s
  | .madderAlarm fired => Sys2Proof.Machine.execMadderAlarm fired s
  | .mstatClear v => Sys2Proof.Machine.execMstatClear v s
  | .mlockWrite v => Sys2Proof.Machine.execMlockWrite v s
  | .debugSessionRequest a => Sys2Proof.Machine.execDebugSessionRequest a s
  | .debugResume g => Sys2Proof.Machine.execDebugResume g s
  | .throttleEvent t => Sys2Proof.Machine.execThrottleEvent t s
  | .registerWrite off v => Sys2Proof.Machine.execRegisterWrite off v s
  | .storeBufferDrain id ans => Sys2Proof.Machine.execStoreBufferDrain id ans s
  | .engineWrite id => Sys2Proof.Machine.execEngineWrite id s
  | .spanOldKeyExpiry e => Sys2Proof.Machine.execSpanOldKeyExpiry e s

end Sys2Proof.Machine
end

