-- ==== Sys2Proof/Machine/Survey.lean ====
section
/-! DEFINITION. Which threads are ready in a cycle, the dependences of their next instructions among what decides it (R351): each key of a
resident group is tried on the state as it stands, and only which of its threads went on is kept. -/

namespace Sys2Proof.Machine

open Sys2Proof

/-- The lanes of a sub-group that would go on if it were offered now: a fetch that parks or traps is one of their own, and one that waits
holds them. -/
def State.wouldIssue (s : State) (g : Nat) (lanes : List Nat) : List Nat :=
  match lanes with
  | [] => []
  | l :: _ => match s.fetch g (s.thread g l).pc with
    | .trap _ _ | .park _ _ => lanes
    | .wait _ => []
    | .word w t =>
      let before := t.offer g lanes
      match exec (decode w) before with
      | .next after => before.issuedLanes after g lanes
      | _ => lanes

/-- The keys of some lanes of a group, each once. -/
def State.keysOf (s : State) (g : Nat) (lanes : List Nat) : List Nat := dedupN (lanes.map fun l => (s.thread g l).key)

/-- The ready lanes of a group in this cycle (R351). -/
def State.findReady (s : State) (g : Nat) : List Nat :=
  let free := ((List.range (((s.group? g).map fun x => x.lanes.length).getD 0))).filter fun l => s.threadReady g l
  (s.keysOf g free).flatMap fun k => s.wouldIssue g (free.filter fun l => (s.thread g l).key == k)

/-- The ready lanes of every group that has a slot, found for this cycle. -/
def State.survey (s : State) : State :=
  { s with
    surveyed := some s.cycle
    groups := s.groups.map fun p : Nat × Group =>
      (p.1, if p.2.place.isSome then { p.2 with found := some (s.cycle, s.findReady p.1) } else p.2) }

end Sys2Proof.Machine
end

