-- ==== Sys2Proof/Machine/Step.lean ====
section
/-! DEFINITION. One step of the machine: an event, one instruction of one sub-group, the finding of the ready threads of a cycle, or its passing (log 9). -/

namespace Sys2Proof.Machine

open Sys2Proof

/-- What follows the meaning of an instruction: the sub-group is settled. -/
def settleOut (before : State) (dec : Nat) (o : Host.Outcome State Fault Refusal) : Host.Outcome State Fault Refusal :=
  match o with
  | .next t => .next (before.settle t dec)
  | .fault r => .fault r
  | .refused r => .refused r

/-- One step: what the machine does next. -/
def step (s : State) : Host.Outcome State Fault Refusal :=
  match s.claimWants.work with
  | .done t => .next t
  | .event i t => exec i t
  | .issue i d t => settleOut t d (exec i t)
  | .survey t => .next t.survey
  | .bad => .fault .illFormedEvent

/-- The state with an instruction word placed where the next step fetches it (log 17). -/
def State.withFetchWord (s : State) (nbits w : Nat) : State := s.placeNext (w % 2 ^ nbits)

end Sys2Proof.Machine
end

