-- ==== Sys2Proof/Safety.lean ====
section
/-! DEFINITION. What counts as a safe outcome of a step, the invariant of the machine that claims use, and the terms in which
claims say what an instruction does and what it leaves: a sub-group of one thread that nothing holds back and nothing traps,
and the frame of an instruction. -/

namespace Sys2Proof.Machine

open Sys2Proof

/-- An outcome that is a next state: the machine neither faults nor refuses. -/
def isNext (o : Out) : Bool :=
  match o with
  | .next _ => true
  | _ => false

/-- Memory is in its canonical form: addresses rise, and no listed byte is 0 (log 3). -/
def State.MemOk (s : State) : Prop := Memory.wf s.mem = true

/-! ## The issue of one thread -/

/-- The fields of an instruction of a row after the fallbacks of Table 2-11. -/
def effOf (sp : Spec) (f : Fields) : Eff := (legalize sp f).1

/-- The WARN bits that the fallbacks set (R52). -/
def warnOf (sp : Spec) (f : Fields) : Word := (legalize sp f).2.setWidth 32

/-- MODE with flags ORed into FLG (R81). -/
def modeWith (m : Dword) (fl : Flg) : Dword := if fl = 0 then m else setFld m 16 5 (Nat.lor (fld m 16 5) fl.toNat)

/-- One thread passes its guard and nothing holds it back or traps it (R41, R42, R198, R231, R237, R325, R351): every source
that blocks is full, no write of a register that the instruction names is outstanding, no lock is on its destination, every
register is mapped, and no operand is a failed cursor, a failed tile, an empty register with its FE bit set or a sum whose
resolution raises a flag. No future that it reads has still to be acquired (R140). -/
def State.clearFor (s : State) (g l : Nat) (e : Eff) : Bool :=
  (s.thread? g l).isSome && e.guard.passes (s.thread g l) && s.screenReady g l e &&
    ((s.thread g l).cursorFault e).isNone && (s.screenTrap g l e).isNone && s.plyFlags g l e == 0 &&
    (s.thread g l).futures == []

/-- One thread is the whole issuing sub-group, and nothing holds it back or traps it. -/
def State.solo (s : State) (g l : Nat) (sp : Spec) (f : Fields) : Bool :=
  s.cur == some ⟨g, [l]⟩ && s.clearFor g l (effOf sp f)

/-- A sub-group of distinct threads, each of which passes its guard and is held back or trapped by nothing. -/
def State.sub (s : State) (g : Nat) (ls : List Nat) (sp : Spec) (f : Fields) : Bool :=
  s.cur == some ⟨g, ls⟩ && decide ls.Nodup && ls.all fun l => s.clearFor g l (effOf sp f)

/-- The state after the decode of an instruction: in its group WARN holds the fallbacks (R52) and YLD is noted (R45). -/
def State.begun (s : State) (g : Nat) (sp : Spec) (f : Fields) : State := (s.decoded g sp f).2

/-- What holds of an instruction for every state and operands in which one thread issues it alone: of its fields as encoded
and after the fallbacks, the state before it and after its decode, the group and the lane. -/
def WhenSolo (sp : Fields → Spec) (P : Fields → Eff → State → State → Nat → Nat → Prop) : Prop :=
  ∀ f s g l, s.solo g l (sp f) f = true → P f (effOf (sp f) f) s (s.begun g (sp f) f) g l

/-- An instruction of one thread completes with a state, past which its thread then goes; a release covers the stores that it covers, and
the tags of the destination are inferred again (R32, R45, R226, R402). -/
def Passes (i : Instr) (s : State) (g l : Nat) (e : Eff) (t : State) : Prop :=
  exec i s = .next (((t.also g l e 0).pass g l e.stall).retag g [l] (e.d.vregs e.nd))

/-- An instruction of one thread completes with a state, and its thread goes to an address. -/
def Jumps (i : Instr) (s : State) (g l : Nat) (e : Eff) (t : State) (pc : Dword) : Prop :=
  exec i s = .next (((t.also g l e 0).modThread g l fun x => x.advance pc s.cycle e.stall).retag g [l] (e.d.vregs e.nd))

/-- An instruction of one thread traps there with a cause and TVAL, having done nothing (R418). -/
def Traps (i : Instr) (s u : State) (g l : Nat) (cause : Nat) (tval : Dword) : Prop :=
  exec i s = .next (u.trap g l cause tval)

/-! ## Frames -/

/-- What an instruction leaves that acts on registers alone: everything outside its group; in its group every thread but
those of its sub-group, and every field but WARN, the cycle of the last YLD, FLG and what belongs to the shape tags; every byte of
memory. -/
structure OnlyLanes (s t : State) (g : Nat) (ls : List Nat) (sp : Spec) (f : Fields) (fl : Flg) : Prop where
  rest : t = { s with groups := t.groups }
  other : ∀ h, h ≠ g → t.group? h = s.group? h
  lanes : ∀ k, k ∉ ls → t.thread? g k = s.thread? g k
  own : ∃ x y, s.group? g = some x ∧ t.group? g = some y ∧
    y = { x with
      lanes := y.lanes, warn := x.warn ||| warnOf sp f, yielded := if f.yld then s.cycle + 1 else x.yielded, tags := y.tags,
      tagWait := y.tagWait, mode := modeWith x.mode fl }
  bytes : ∀ a, t.byteAt a = s.byteAt a

/-- An instruction of one thread completes: it answers a next state in which the thread is `upd` of what it was, past the
instruction (R32, R45), and nothing else has changed. -/
def CompletesLane (i : Instr) (s : State) (g l : Nat) (sp : Spec) (f : Fields) (fl : Flg) (upd : Thread → Thread) : Prop :=
  ∃ t, exec i s = .next t ∧
    t.thread g l = (upd (s.thread g l)).advance ((s.thread g l).pc + 16) s.cycle (effOf sp f).stall ∧
    OnlyLanes s t g [l] sp f fl

/-- An instruction completes for every state and operands in which one thread issues alone: the thread is `upd` of what it
was. -/
def CompletesAs (i : Fields → Instr) (sp : Fields → Spec) (upd : Eff → State → Nat → Nat → Thread → Thread) : Prop :=
  ∀ f s g l, s.solo g l (sp f) f = true →
    CompletesLane (i f) s g l (sp f) f 0 (upd (effOf (sp f) f) s g l)

/-- A floating-point instruction writes a result to D and raises flags, for every state and operands in which one thread issues
alone: where no trap of a raised flag is enabled it completes, and FLG has the flags; otherwise it traps with the flag's cause
and TVAL naming the flags, FLG having them and D being unwritten (R81, R82). -/
def FloatAs (i : Fields → Instr) (sp : Fields → Spec) (res : Eff → State → Nat → Nat → Nat × Flg) : Prop :=
  WhenSolo sp fun f e s u g l =>
    (flagCause (s.mode g) (res e s g l).2 = none →
      CompletesLane (i f) s g l (sp f) f (res e s g l).2 fun t => t.write e.d e.nd (res e s g l).1) ∧
    ∀ c, flagCause (s.mode g) (res e s g l).2 = some c →
      Traps (i f) s (u.raise g (res e s g l).2) g l c (BitVec.ofNat 64 (res e s g l).2.toNat)

/-- Two threads hold the same registers, flags and PC. -/
def Thread.reads (x y : Thread) : Prop := (∀ r, x.vreg r = y.vreg r) ∧ x.cc = y.cc ∧ x.pc = y.pc

/-- A lane instruction completes for every state and operands in which a sub-group issues it, all of its threads passing: each
thread holds `upd` of what it did, by what every thread held before any wrote, a write of this cycle by another sub-group of the group
among them (R256). Where there was no such write nothing else has changed. The row may depend on the width of the group. -/
def LaneAs (i : Fields → Instr) (sp : State → Fields → Spec) (extra : Eff → State → Nat → List Nat → Prop)
    (upd : Eff → State → Nat → List Nat → Nat → Thread → Thread) : Prop :=
  ∀ f s g ls, s.sub g ls (sp s f) f = true → ls ≠ [] → extra (effOf (sp s f) f) (s.asBefore g) g ls →
    ∃ t, exec (i f) s = .next t ∧
      (∀ l ∈ ls, (t.thread g l).reads ((upd (effOf (sp s f) f) (s.asBefore g) g ls l (s.thread g l)).advance
        ((s.thread g l).pc + 16) s.cycle (effOf (sp s f) f).stall)) ∧
      (s.oldWords g = [] → OnlyLanes s t g ls (sp s f) f 0 ∧
        ∀ l ∈ ls, t.thread g l = (upd (effOf (sp s f) f) s g ls l (s.thread g l)).advance
          ((s.thread g l).pc + 16) s.cycle (effOf (sp s f) f).stall)

/-- A result and its flags in a thread. -/
def putResT (e : Eff) (x : IntRes) (w : Nat) (t : Thread) : Thread := (t.write e.d e.nd x.r).writeCc e.e (x.flags w)

/-- A result in D of a thread. -/
def putDT (e : Eff) (x : Nat) (t : Thread) : Thread := t.write e.d e.nd x

/-- A result with flags, or packed elements without, in a thread (R240, R241). -/
def putIntT (e : Eff) (F : List Nat → IntRes) (ops : List Nat) (t : Thread) : Thread :=
  if 32 ≤ tyBits e.ty then putResT e (F ops) (tyBits e.ty) t else putDT e (packed e.ty (fun xs => (F xs).r) ops) t

end Sys2Proof.Machine
end

