-- ==== Sys2Proof/Certificates/Slice0/Obligations.lean ====
section
/-! DEFINITION. The statements about the Narut: what each instruction and event does where it completes, what it leaves, and
the promises of the machine as a whole. -/

open Sys2Proof Sys2Proof.Machine

/-! ## Encodings (R32 to R58) -/

/-- The fields of a word of zeros. -/
def blank : Fields :=
  { var := 0, typ := .s32, guard := ⟨0, .al, 0, .al, .first⟩, d := .v 0, a := .v 0, b := .v 0, c := .v 0, e := .v 0, fe := 0,
    l1h := 0, l2h := 0, stall := 0, yld := false, scope := .thr, imm := 0 }

/-- The words that the spec writes out decode to the instructions that it writes them for. -/
def Obligations.DecodesWrittenWords : Prop :=
  decode 0x00000064000100000C0401013D8D0003 = .iadd { blank with
    guard := ⟨2, .vc, 2, .vs, .andNot⟩, d := .v 4, a := .v 1, b := .view 1, fe := 1, imm := 100 } ∧
  decode 0xFFFFFFFD0000000000000000000A0068 = .bra { blank with guard := ⟨2, .ne, 0, .al, .first⟩, imm := 0xFFFFFFFD } ∧
  decode 0x000007D000000000000301544000006F = .waitm { blank with d := .cc 1, a := .view 1, imm := 2000 } ∧
  decode 0x0000000000000000000142018000834D = .rslv { blank with var := 3, typ := .f32, d := .v 6, a := .p 2 } ∧
  decode 0x000001100000000000000002800000D4 = .csrr { blank with d := .v 10, imm := 0x110 } ∧
  decode 0x177 = .tret { blank with var := 1 } ∧
  decode 0x000000006000000000000402800000B2 = .gathr { blank with d := .v 10, a := .v 4, scope := .core } ∧
  decode 0x00000000A000000000000405000000BF = .coll { blank with d := .v 20, a := .v 4, scope := .dev } ∧
  decode 0x0000000060000013202004000000A0B5 = .mma { blank with typ := .bf16, a := .v 4, b := .v 8, c := .a 2, scope := .core } ∧
  decode 0x00000000A00000000000000000000389 = .fence { blank with var := 3, scope := .dev } ∧
  decode 0x00000020000000000C040010000004D0 = .racqVreg { blank with var := 4, d := .v 64, b := .view 1, imm := 32 } ∧
  decode 0x00000040A01000000000020180001180 = .ld { blank with
    var := 1, typ := .n32, d := .v 6, a := .v 2, l1h := 1, scope := .dev, imm := 64 }

/-- Decoding what encodes a well-formed instruction gives it back, whatever its operands. -/
def Obligations.DecodeOfEncode : Prop := ∀ i w, i.wf = true → encode i = some w → decode w = i

/-- Every word decodes to a well-formed instruction, and encoding that gives the word back: no bit of a word is dropped. -/
def WordsEncodeBack : Prop := ∀ w, (decode w).wf = true ∧ encode (decode w) = some w

/-- The 16 bytes of a word, lowest first, decode to what the word decodes to, and what follows them is left; fewer decode to
nothing. -/
def BytesDecodeAsWords : Prop :=
  (∀ (w : BitVec 128) (bs : List Byte), decodeBytes (toBytes 16 w.toNat ++ bs) = .ok (decode w, bs)) ∧
  ∀ bs : List Byte, bs.length < 16 → decodeBytes bs = .error .tooShort

/-- Words survive decoding and encoding, and bytes decode as the words that they hold (R32). -/
def Obligations.EncodeOfDecode : Prop := WordsEncodeBack ∧ BytesDecodeAsWords

/-- The integer instructions of Table 10-1 that add, multiply and compare magnitudes, and the moves (R243 to R247, R255)
complete in every thread that nothing holds back: the result and flags of the rule, nothing else. -/
def Obligations.IntegerArithmeticCompletes : Prop :=
  CompletesAs .nop (fun _ => Spec.plain) (fun _ _ _ _ t => t) ∧
  CompletesAs .ldi (fun _ => { Spec.plain with types := [.n32, .s64, .n64], d := slSrc, imm := true, hOk := true })
    (fun e _ _ _ => putDT e (if e.ty = .s64 then (sext64 32 e.imm.toNat).toNat else e.imm.toNat)) ∧
  CompletesAs .iadd (specInt tysInt 1 slSrc slSrc slNone true) (fun e s g l =>
    putIntT e (fun xs => resAdd e.ty e.v0 (xs.getD 0 0) (xs.getD 1 0)) [s.rdA g l e, s.rdB g l e]) ∧
  CompletesAs .isub (specInt tysInt 1 slSrc slSrc slNone true) (fun e s g l =>
    putIntT e (fun xs => resSub e.ty e.v0 (xs.getD 0 0) (xs.getD 1 0)) [s.rdA g l e, s.rdB g l e]) ∧
  CompletesAs .imul (specInt tysInt 1 slSrc slSrc slNone true) (fun e s g l =>
    putIntT e (fun xs => resMul e.ty e.v0 (xs.getD 0 0) (xs.getD 1 0)) [s.rdA g l e, s.rdB g l e]) ∧
  CompletesAs .imulh (specInt [.s32, .n32, .s64, .n64] 0 slSrc slSrc slNone false) (fun e s g l =>
    putDT e (resMulh e.ty (s.rdA g l e) (s.rdB g l e))) ∧
  CompletesAs .imad (specInt tysInt 1 slSrc slSrc slSrc true) (fun e s g l =>
    putIntT e (fun xs => resMad e.ty e.v0 (xs.getD 0 0) (xs.getD 1 0) (xs.getD 2 0))
      [s.rdA g l e, s.rdB g l e, s.rdC g l e]) ∧
  CompletesAs .imin (specInt tysInt 0 slSrc slSrc slNone false) (fun e s g l =>
    putDT e (packed e.ty (fun xs => resMinMax e.ty false (xs.getD 0 0) (xs.getD 1 0)) [s.rdA g l e, s.rdB g l e])) ∧
  CompletesAs .imax (specInt tysInt 0 slSrc slSrc slNone false) (fun e s g l =>
    putDT e (packed e.ty (fun xs => resMinMax e.ty true (xs.getD 0 0) (xs.getD 1 0)) [s.rdA g l e, s.rdB g l e])) ∧
  CompletesAs .iabs (specInt [.s32, .s64, .s16, .s8] 1 slSrc slNone slNone true) (fun e s g l =>
    putIntT e (fun xs => resAbs e.ty e.v0 (xs.getD 0 0)) [s.rdA g l e]) ∧
  CompletesAs .ineg (specInt tysInt 1 slSrc slNone slNone true) (fun e s g l =>
    putIntT e (fun xs => resNeg e.ty e.v0 (xs.getD 0 0)) [s.rdA g l e]) ∧
  CompletesAs .isat (fun f => { Spec.plain with
      types := [.s8, .n8, .s16, .n16, .s32, .n32], var := f.var &&& 1, d := slSrc, a := slSrc, e := slCcOpt, hOk := true })
    (fun e s g l => putResT e (resSat e.ty e.v0 (s.rdA g l e)) 32) ∧
  CompletesAs .addc (specInt [.n32, .s32, .n64, .s64] 0 slSrc slSrc slCc true) (fun e s g l =>
    putResT e (resAddc e.ty (s.rdA g l e) (s.rdB g l e) (b2n (bit (s.rdCc g l e.c) 1))) (tyBits e.ty)) ∧
  CompletesAs .subb (specInt [.n32, .s32, .n64, .s64] 0 slSrc slSrc slCc true) (fun e s g l =>
    putResT e (resSubb e.ty (s.rdA g l e) (s.rdB g l e) (b2n (bit (s.rdCc g l e.c) 1))) (tyBits e.ty))

/-- The logical instructions, shifts, bit counts, bit fields, selection and comparison of Table 10-1 (R248 to R254), and the
moves between flags and registers (R264), complete in every thread that nothing holds back. -/
def Obligations.LogicAndBitsComplete : Prop :=
  CompletesAs .and (specInt tysN 0 slSrc slSrc slNone true) (fun e s g l =>
    putResT e ⟨Nat.land (s.rdA g l e) (s.rdB g l e), false, false⟩ (tyBits e.ty)) ∧
  CompletesAs .or (specInt tysN 0 slSrc slSrc slNone true) (fun e s g l =>
    putResT e ⟨Nat.lor (s.rdA g l e) (s.rdB g l e), false, false⟩ (tyBits e.ty)) ∧
  CompletesAs .xor (specInt tysN 0 slSrc slSrc slNone true) (fun e s g l =>
    putResT e ⟨Nat.xor (s.rdA g l e) (s.rdB g l e), false, false⟩ (tyBits e.ty)) ∧
  CompletesAs .not (specInt tysN 0 slSrc slNone slNone true) (fun e s g l =>
    putResT e ⟨2 ^ tyBits e.ty - 1 - s.rdA g l e, false, false⟩ (tyBits e.ty)) ∧
  CompletesAs .shl (specInt tysN 1 slSrc slSrc32 slNone true) (fun e s g l =>
    putResT e (resShl (tyBits e.ty) (s.rdA g l e) (e.amount (s.rdB g l e))) (tyBits e.ty)) ∧
  CompletesAs .shr (specInt tysN 1 slSrc slSrc32 slNone true) (fun e s g l =>
    putResT e (resShr (tyBits e.ty) (s.rdA g l e) (e.amount (s.rdB g l e))) (tyBits e.ty)) ∧
  CompletesAs .sar (specInt [.s32, .s64] 1 slSrc slSrc32 slNone true) (fun e s g l =>
    putResT e (resSar (tyBits e.ty) (s.rdA g l e) (e.amount (s.rdB g l e))) (tyBits e.ty)) ∧
  CompletesAs .rot (specInt tysN 1 slSrc slSrc32 slNone false) (fun e s g l =>
    putDT e (resRot (tyBits e.ty) e.v0 (s.rdA g l e) (s.rdB g l e))) ∧
  CompletesAs .popc (fun _ => { Spec.plain with types := tysN, d := slSrc32, a := slSrc, hOk := true }) (fun e s g l =>
    putDT e (popN (tyBits e.ty) (s.rdA g l e))) ∧
  CompletesAs .clz (fun _ => { Spec.plain with types := tysN, d := slSrc32, a := slSrc, hOk := true }) (fun e s g l =>
    putDT e (resClz (tyBits e.ty) (s.rdA g l e))) ∧
  CompletesAs .brev (specInt tysN 0 slSrc slNone slNone false) (fun e s g l =>
    putDT e (resBrev (tyBits e.ty) (s.rdA g l e))) ∧
  CompletesAs .bfe (specInt [.n32, .s32, .n64, .s64] 0 slSrc slSrc32 slSrc32 false) (fun e s g l =>
    putDT e (resBfe e.ty (s.rdA g l e) (s.rdB g l e) (s.rdC g l e))) ∧
  CompletesAs .bfi (fun _ => { Spec.plain with
      types := tysN, d := slSrc, a := slSrc, b := slSrc, c := slSrc32, e := slSrc32, hOk := true }) (fun e s g l =>
    putDT e (resBfi (tyBits e.ty) (s.rdA g l e) (s.rdB g l e) (s.rdC g l e) (s.rdE g l e))) ∧
  CompletesAs .prmt (specInt [.n32] 0 slSrc slSrc slSrc false) (fun e s g l =>
    putDT e (resPrmt (s.rdA g l e) (s.rdB g l e) (s.rdC g l e))) ∧
  CompletesAs .sel (fun f => { Spec.plain with
      types := tysN, var := f.var, d := slSrc, a := slSrc, b := slSrc, c := slCc, hOk := true }) (fun e s g l =>
    putDT e (if (condOf e.var.toNat).test (s.rdCc g l e.c) then s.rdA g l e else s.rdB g l e)) ∧
  CompletesAs .icmp (fun _ => { Spec.plain with types := tysInt, d := slCc, a := slSrc, b := slSrc, hOk := true })
    (fun e s g l t => t.writeCc e.d (cmpFlags e.ty (s.rdA g l e) (s.rdB g l e))) ∧
  CompletesAs .lea (fun f => { Spec.plain with
      types := [.s32, .n32, .s64, .n64], var := f.var, d := ⟨.pair, 2⟩, a := slPair, b := ⟨.srcReg, 0⟩, imm := true,
      hOk := true }) (fun e s g l =>
    putDT e (BitVec.ofNat 64 (s.rdA g l e) + BitVec.ofInt 64 (tyVal e.ty (s.rdB g l e)) * BitVec.ofNat 64 (2 ^ e.var.toNat) +
      sext64 32 e.imm.toNat).toNat) ∧
  CompletesAs .ccmovTov (fun _ => { Spec.plain with d := slVec32, a := slCc, hOk := true }) (fun e s g l =>
    putDT e (s.rdCc g l e.a).toNat) ∧
  CompletesAs .ccmovTocc (fun _ => { Spec.plain with var := 1, d := slCc, a := slSrc32, hOk := true })
    (fun e s g l t => t.writeCc e.d (BitVec.ofNat 4 (s.rdA g l e))) ∧
  CompletesAs .ccmovCopy (fun _ => { Spec.plain with var := 2, d := slCc, a := slCc, hOk := true })
    (fun e s g l t => t.writeCc e.d (s.rdCc g l e.a))

/-- The row of `IDIV` and `IREM`. -/
def specDiv : Fields → Spec := specInt [.s32, .n32, .s64, .n64] 1 slSrc slSrc slNone true

/-- `IDIV` and `IREM` complete with the quotient and the remainder of R246 and V; a zero divisor without `.nt` traps with
0x040 and TVAL 0, with no write. -/
def DivisionCompletesOrTraps : Prop :=
  WhenSolo specDiv (fun f e s u g l =>
    (∀ x, resDiv e.ty e.v0 (s.rdA g l e) (s.rdB g l e) = some x →
      CompletesLane (.idiv f) s g l (specDiv f) f 0 (putResT e ⟨x.1, false, x.2.2⟩ (tyBits e.ty)) ∧
      CompletesLane (.irem f) s g l (specDiv f) f 0 (putResT e ⟨x.2.1, false, x.2.2⟩ (tyBits e.ty))) ∧
    (resDiv e.ty e.v0 (s.rdA g l e) (s.rdB g l e) = none →
      Traps (.idiv f) s u g l 0x040 0 ∧ Traps (.irem f) s u g l 0x040 0))

/-- `MOV` copies A to D in each thread; `.g` also leaves the tag raw; `.u` writes every lane of the group, passing or not,
once all of them are free of outstanding writes to D, and leaves the tag uniform (R255). -/
def MoveCompletes : Prop :=
  WhenSolo specMov (fun f e s _ g l =>
    ((specMov f).var ≠ 1 →
      CompletesLane (.mov f) s g l (specMov f) f 0 (putDT e (s.rdA g l e)) ∧
      ((specMov f).var = 2 → ∃ t, exec (.mov f) s = .next t ∧
        ∀ r ∈ e.d.vregs e.nd, ((t.group? g).bind fun x => alGet? x.tags r) = some .raw)) ∧
    ((specMov f).var = 1 → (∀ k, (s.thread g k).full e.d e.nd = true) →
      ∃ t, exec (.mov f) s = .next t ∧
        t.thread g l = (putDT e (s.rdA g l e) (s.thread g l)).advance ((s.thread g l).pc + 16) s.cycle e.stall ∧
        (∀ k, k ≠ l → t.thread? g k = (s.thread? g k).map (putDT e (s.rdA g l e))) ∧
        (∀ r ∈ e.d.vregs e.nd, ((t.group? g).bind fun x => alGet? x.tags r) = some .uniform) ∧
        (∀ h, h ≠ g → t.group? h = s.group? h) ∧ t = { s with groups := t.groups } ∧ ∀ a, t.byteAt a = s.byteAt a))

/-- `IDIV`, `IREM` and `MOV` complete, a zero divisor without `.nt` trapping (R246, R255). -/
def Obligations.DivisionAndMoveComplete : Prop := DivisionCompletesOrTraps ∧ MoveCompletes

/-- The 32-bit vector register that is an operand. -/
def isV (o : Opnd) (n : Nat) : Prop := ∃ k : BitVec 8, o = .v k ∧ k.toNat = n

/-- Addition and subtraction of 32-bit registers without `.sat`, with flags: D holds a + b or a − b modulo 2^32; S is its sign,
Z says that it is 0; C is the carry out of bit 31, or the borrow; V is the signed overflow, under s32 and n32 alike (R241,
R243). -/
def Obligations.AddSubtractFlags32 : Prop :=
  WhenSolo (specInt tysInt 1 slSrc slSrc slNone true) (fun f e s _ g l =>
    ∀ d a b k : Nat, ∀ n : BitVec 2, (e.ty = .s32 ∨ e.ty = .n32) → e.v0 = false → isV e.d d → isV e.a a → isV e.b b →
      e.e = .cc n → k ≠ d →
      let x := (s.thread g l).vreg a
      let y := (s.thread g l).vreg b
      (∃ t, exec (.iadd f) s = .next t ∧ (t.thread g l).vreg d = x + y ∧ (t.thread g l).vreg k = (s.thread g l).vreg k ∧
        (t.thread g l).flags n = mkFlags (x + y).msb (x + y == 0) (decide (2 ^ 32 ≤ x.toNat + y.toNat))
          (decide (x.toInt + y.toInt ≠ (x + y).toInt))) ∧
      (∃ t, exec (.isub f) s = .next t ∧ (t.thread g l).vreg d = x - y ∧ (t.thread g l).vreg k = (s.thread g l).vreg k ∧
        (t.thread g l).flags n = mkFlags (x - y).msb (x - y == 0) (decide (x.toNat < y.toNat))
          (decide (x.toInt - y.toInt ≠ (x - y).toInt))))

/-- 32-bit shifts by registers (R248): left and right shifts give 0 from 32 on, an arithmetic one the sign; `.wrap` takes the
amount modulo 32; C is the last bit shifted out, 0 for an amount of 0 and, but for `SAR`, beyond 32. -/
def Obligations.ShiftsOfEveryAmount : Prop :=
  (∀ a n : BitVec 32,
    (resShl 32 a.toNat n.toNat).r = (a <<< n.toNat).toNat ∧ (resShr 32 a.toNat n.toNat).r = (a >>> n.toNat).toNat ∧
    (resSar 32 a.toNat n.toNat).r = (a.sshiftRight n.toNat).toNat ∧
    resRot 32 false a.toNat n.toNat = (a.rotateLeft n.toNat).toNat ∧
    resRot 32 true a.toNat n.toNat = (a.rotateRight n.toNat).toNat) ∧
  (∀ a n : BitVec 32, 0 < n.toNat →
    (resShl 32 a.toNat n.toNat).c = (decide (n.toNat ≤ 32) && a.getLsbD (32 - n.toNat)) ∧
    (resShr 32 a.toNat n.toNat).c = (decide (n.toNat ≤ 32) && a.getLsbD (n.toNat - 1)) ∧
    (resSar 32 a.toNat n.toNat).c = a.getLsbD (min n.toNat 32 - 1)) ∧
  (∀ a : BitVec 32, (resShl 32 a.toNat 0).c = false ∧ (resShr 32 a.toNat 0).c = false ∧ (resSar 32 a.toNat 0).c = false) ∧
  (∀ e : Eff, ∀ n : Nat, e.amount n = if bit e.var 0 then n % tyBits e.ty else n)

/-- The threads of a sub-group issue an integer instruction as if each were alone: after it, each holds what it holds after
issuing by itself (R20, R22). -/
def IntegerLanesAreSeparate : Prop :=
  ∀ i ∈ [Instr.iadd, .isub, .imul], ∀ f s g ls,
    s.sub g ls (specInt tysInt 1 slSrc slSrc slNone true f) f = true →
      ∃ t, exec (i f) s = .next t ∧ ∀ l ∈ ls, ∃ t', exec (i f) { s with cur := some ⟨g, [l]⟩ } = .next t' ∧
        t.thread g l = t'.thread g l

/-- A thread whose guard fails performs no part of an instruction, once no flag that the guard reads is outstanding and no lock is on
the destination (R231): it goes on to the next word and nothing else changes but WARN and YLD of its group (R41). -/
def FailedGuardDoesNothing : Prop :=
  ∀ i ∈ [(Instr.iadd, specInt tysInt 1 slSrc slSrc slNone true), (.isub, specInt tysInt 1 slSrc slSrc slNone true),
      (.idiv, specDiv), (.ld, specLd), (.st, specSt), (.bra, specTarget)],
    ∀ f s g l, s.cur = some ⟨g, [l]⟩ → (s.thread? g l).isSome = true →
      (effOf (i.2 f) f).guard.passes (s.thread g l) = false →
      s.destReady g l (effOf (i.2 f) f) = true → CompletesLane (i.1 f) s g l (i.2 f) f 0 fun t => t

/-- Threads of a sub-group act separately, and one whose guard fails does nothing (R20, R22, R41). -/
def Obligations.LanesAndGuardsSeparate : Prop := IntegerLanesAreSeparate ∧ FailedGuardDoesNothing

/-- An arithmetic result of R270 in every element: exact, then rounded once under the instruction's or MODE's rounding. -/
def arithOf (exact : Bool → List Ex → Ex × Bool) (n : Nat) (e : Eff) (s : State) (g l : Nat) : Nat × Flg :=
  let m := s.mode g
  floatElems e.ty (modeX4 m) (modeFtzi m)
    (fun xs => let (x, bad) := exact (e.rm m = .rd) xs; roundExact e.ty (e.rm m) e.sat (modeFtzo m) xs x bad)
    ([s.rdA g l e, s.rdB g l e, s.rdC g l e].take n)

/-- The floating-point instructions of Table 11-1 with arithmetic results (R270, R271, R274, R275): each completes with the
exact result rounded once and its flags in FLG, or traps on an enabled flag. -/
def Obligations.FloatArithmeticCompletes : Prop :=
  FloatAs .fadd (specFloat tysFloat 0xF slVec slSrc slSrc slNone)
    (arithOf (fun rd xs => Ex.add rd (exAt xs 0) (exAt xs 1)) 2) ∧
  FloatAs .fsub (specFloat tysFloat 0xF slVec slSrc slSrc slNone)
    (arithOf (fun rd xs => Ex.add rd (exAt xs 0) (exAt xs 1).negate) 2) ∧
  FloatAs .fmul (specFloat tysFloat 0xF slVec slSrc slSrc slNone)
    (arithOf (fun _ xs => Ex.mul (exAt xs 0) (exAt xs 1)) 2) ∧
  FloatAs .ffma (specFloat tysFloat 0xF slVec slSrc slSrc slSrc)
    (arithOf (fun rd xs => if (Ex.mul (exAt xs 0) (exAt xs 1)).2 then (.nan, true)
      else Ex.add rd (Ex.mul (exAt xs 0) (exAt xs 1)).1 (exAt xs 2)) 3) ∧
  FloatAs .fmin (specFloat tysFloat 0 slVec slSrc slSrc slNone) (fun e s g l =>
    floatElems e.ty (modeX4 (s.mode g)) (modeFtzi (s.mode g))
      (fun xs => ((roundTo (exMinMax false (exAt xs 0) (exAt xs 1)) e.ty .rn false false).1, 0)) [s.rdA g l e, s.rdB g l e]) ∧
  FloatAs .fmax (specFloat tysFloat 0 slVec slSrc slSrc slNone) (fun e s g l =>
    floatElems e.ty (modeX4 (s.mode g)) (modeFtzi (s.mode g))
      (fun xs => ((roundTo (exMinMax true (exAt xs 0) (exAt xs 1)) e.ty .rn false false).1, 0)) [s.rdA g l e, s.rdB g l e]) ∧
  FloatAs .frnd (specFloat tysFloat 7 slVec slSrc slNone slNone) (fun e s g l =>
    floatElems e.ty (modeX4 (s.mode g)) (modeFtzi (s.mode g)) (fun xs => match exAt xs 0 with
      | .fin n num den =>
        ((roundTo (.fin n (roundInt num den (e.rm (s.mode g)) n) 1) e.ty (e.rm (s.mode g)) false false).1, 0)
      | .inf n => ((roundTo (.inf n) e.ty .rn false false).1, 0)
      | .nan => ((roundTo .nan e.ty (e.rm (s.mode g)) false false).1, 0)) [s.rdA g l e]) ∧
  FloatAs .fscl (specFloat tysFloat 0xF slVec slSrc slSrc32 slNone) (fun e s g l =>
    let m := s.mode g
    let n := max (-1000) (min 1000 (toSigned 32 (s.rdB g l e)))
    floatElems e.ty (modeX4 m) (modeFtzi m) (fun xs => match exAt xs 0 with
      | .fin sg num den =>
        roundExact e.ty (e.rm m) e.sat (modeFtzo m) xs
          (if 0 ≤ n then .fin sg (num * 2 ^ n.toNat) den else .fin sg num (den * 2 ^ (-n).toNat)) false
      | x => roundExact e.ty (e.rm m) e.sat (modeFtzo m) xs x false) [s.rdA g l e])

/-- The row of a dot product: its addend is an f32. -/
def specDot (types : List Ty) (f : Fields) : Spec :=
  { specFloat types 0xF slVec32 slSrc32 slSrc32 slSrc32 f with tyC := some .f32 }

/-- A dot product of R279: the exact sum of C and the products, rounded once to f32. -/
def dotOf (e : Eff) (s : State) (g l : Nat) : Nat × Flg :=
  let m := s.mode g
  let rm := e.rm m
  let dec := fun x i => decodeElem e.ty (modeX4 m) (modeFtzi m) (packedElem e.ty x i)
  let c := decodeElem .f32 0 (modeFtzi m) (s.read g l (e.under .f32) e.c 1)
  let idx := List.range (tyElems e.ty)
  let as := idx.map (dec (s.rdA g l e))
  let bs := idx.map (dec (s.rdB g l e))
  let sum := (idx.map fun i => Ex.mul (dec (s.rdA g l e) i) (dec (s.rdB g l e) i)).foldl (fun (acc : Ex × Bool) p =>
    let (y, w) := Ex.add (rm = .rd) acc.1 p.1; (y, acc.2 || p.2 || w)) (c, false)
  if (c :: (as ++ bs)).any Ex.isNan then roundTo .nan .f32 rm e.sat (modeFtzo m)
  else if sum.2 then ((roundTo .nan .f32 rm e.sat (modeFtzo m)).1, flNV)
  else roundTo sum.1 .f32 rm e.sat (modeFtzo m)

/-- The dot products, comparison and classification complete (R272, R273, R279). -/
def DotCompareClassComplete : Prop :=
  FloatAs .fdot2 (specDot [.f16, .bf16]) dotOf ∧
  FloatAs .fdot4 (specDot [.f8e4, .f8e5]) dotOf ∧
  FloatAs .fdot8 (specDot [.f4]) dotOf ∧
  CompletesAs .fcmp (fun f => { specFloat tysFloat 0 slCc slSrc slSrc slNone f with flg := false }) (fun e s g l t =>
    t.writeCc e.d (fcmpFlags (decodeElem e.ty 0 (modeFtzi (s.mode g)) (packedElem e.ty (s.rdA g l e) 0))
      (decodeElem e.ty 0 (modeFtzi (s.mode g)) (packedElem e.ty (s.rdB g l e) 0)))) ∧
  CompletesAs .fclass (fun f => { specFloat [.f32, .f16, .bf16, .f8e4, .f8e5, .f4] 0 slVec slSrc slNone slNone f with
      flg := false }) (fun e s g l =>
    putDT e (2 ^ classOf ((fmtOf (if e.ty = .f4 ∧ packedElem e.ty (s.rdA g l e) 0 = 8 then .f16 else e.ty)).getD
        ⟨32, 23, 127, -126, 0, 0, 0⟩) (decodeElem e.ty (modeX4 (s.mode g)) false (packedElem e.ty (s.rdA g l e) 0)) +
      (if e.ty = .f4 ∧ packedElem e.ty (s.rdA g l e) 0 = 8 then 512 else 0)))

/-- The conversion of R276: every element by its own exact value, rounded once. -/
def cvtOf (e : Eff) (s : State) (g l : Nat) : Nat × Flg :=
  let m := s.mode g
  let c := e.words.getD 3 0
  let st := cvtSource c
  let sat := e.sat || ((e.ty == .f8e4 || e.ty == .f8e5) && modeSat8 m && !(c / 16 % 2 == 1))
  let a := s.read g l (e.under st) e.a e.na
  (List.range (max 1 (32 / max (tyBits st) (tyBits e.ty)))).foldl (fun (acc : Nat × Flg) i =>
    let (y, f) := roundTo (decodeElem st (modeX4 m) (modeFtzi m) (fldN a (tyBits st * i) (tyBits st))) e.ty (e.rm m) sat (modeFtzo m)
    (acc.1 + y * 2 ^ (tyBits e.ty * i), acc.2 ||| f)) (0, 0)

/-- The row of `QNT`. -/
def specQnt (f : Fields) : Spec := { specFloat [.qi8, .qi4] 7 slVec32 slSrc32 slSrc32 slNone f with e := slCcOpt }

/-- The code, saturation and flags of `QNT` (R277). -/
def qntOf (e : Eff) (s : State) (g l : Nat) : Nat × Bool × Flg :=
  let m := s.mode g
  let b := s.rdB g l e
  quantiseCode (decodeElem .f32 0 (modeFtzi m) (s.read g l (e.under .f32) e.a 1))
    (decodeElem .f16 0 (modeFtzi m) (fldN b 0 16)) (fldN b 16 8) (e.rm m) (if e.ty = .qi4 then 15 else 255)

/-- `CVT`, `DQNT` and `QNT` complete, or trap on an enabled flag (R276 to R278); `QNT` says in V of E that it clamped. -/
def ConversionsComplete : Prop :=
  FloatAs .cvt specCvt cvtOf ∧
  FloatAs .dqnt (specFloat [.qi8, .qi4] 0 slVec32 slSrc32 slSrc32 slNone) (fun e s g l =>
    let b := s.rdB g l e
    let p := Ex.mul (decodeElem .f16 0 (modeFtzi (s.mode g)) (fldN b 0 16))
      (Ex.ofInt ((fldN (s.rdA g l e) 0 (tyBits e.ty) : Int) - fldN b 16 8))
    ((roundTo p.1 .f32 .rn false false).1, if p.2 then flNV else 0)) ∧
  WhenSolo specQnt (fun f e s u g l =>
    (flagCause (s.mode g) (qntOf e s g l).2.2 = none →
      CompletesLane (.qnt f) s g l (specQnt f) f (qntOf e s g l).2.2 fun t =>
        (t.write e.d e.nd (qntOf e s g l).1).writeCc e.e (mkFlags false false false (qntOf e s g l).2.1)) ∧
    ∀ c, flagCause (s.mode g) (qntOf e s g l).2.2 = some c →
      Traps (.qnt f) s (u.raise g (qntOf e s g l).2.2) g l c (BitVec.ofNat 64 (qntOf e s g l).2.2.toNat))

/-- Dot products, comparisons, classes and conversions complete (R272, R273, R276 to R279). -/
def Obligations.DotsComparesAndConversionsComplete : Prop := DotCompareClassComplete ∧ ConversionsComplete

/-- Rounding leaves what is representable (R266, R267): the exact value of an f32 pattern that is neither a zero, an infinity nor
a NaN rounds, in every mode, to that pattern, with no flag. -/
def Obligations.RoundingKeepsRepresentable : Prop :=
  ∀ x : BitVec 32, fld x 23 8 ≠ 255 → fld x 0 31 ≠ 0 → ∀ rm, roundTo (decodeElem .f32 0 false x.toNat) .f32 rm false false = (x.toNat, 0)

/-- The results of an SFU instruction of R281 in every element of its operand. -/
def sfuOf (fn : Ty → Rm → Bool → Bool → Nat → Nat × Flg) (e : Eff) (s : State) (g l : Nat) : Nat × Flg :=
  let m := s.mode g
  (List.range (tyElems e.ty)).foldl (fun (acc : Nat × Flg) i =>
    let (y, f) := fn e.ty (e.rm m) (modeFtzi m) (modeFtzo m) (packedElem e.ty (s.rdA g l e) i)
    (acc.1 + y * 2 ^ (tyBits e.ty * i), acc.2 ||| f)) (0, 0)

/-- An SFU instruction of one thread issues where its quarter's queue has room: D of the thread is empty, its result, flags
and MODE wait under the next access number, and the thread goes on, held back only where a trap is enabled (R280). -/
def SfuIssues (i : Fields → Instr) (mask : BitVec 4) (fn : Ty → Rm → Bool → Bool → Nat → Nat × Flg) : Prop :=
  WhenSolo (specSfu mask) fun f e s _ g l => ∀ x, s.group? g = some x →
    (s.sfuQueue x.home.core x.home.quarter).length < 32 →
      ∃ t a, exec (i f) s = .next t ∧ alGet? t.acc s.nextId = some a ∧
        a.op = .sfu s.nextId (BitVec.ofNat 32 (sfuOf fn e s g l).1) (sfuOf fn e s g l).2 0 (s.mode g) ∧
        a.g = g ∧ a.lane = l ∧ a.dst = e.d.vregs 1 ∧ a.hold = (fld (s.mode g) 8 5 != 0) ∧
        t.thread g l = ({ s.thread g l with vEmpty := (s.thread g l).vEmpty ++ e.d.vregs 1 }).advance
          ((s.thread g l).pc + 16) s.cycle e.stall ∧
        (∀ k, k ≠ l → t.thread? g k = s.thread? g k) ∧ (∀ h, h ≠ g → t.group? h = s.group? h) ∧
        ∀ b, t.byteAt b = s.byteAt b

/-- The eight SFU instructions issue (R280, R281). -/
def SfuInstructionsIssue : Prop :=
  SfuIssues .rcp 7 rcpCompute ∧ SfuIssues .rsq 0 (fun ty _ => sfuCompute .rsq ty) ∧ SfuIssues .sqrt 7 sqrtCompute ∧
  SfuIssues .ex2 0 (fun ty _ => sfuCompute .ex2 ty) ∧ SfuIssues .lg2 0 (fun ty _ => sfuCompute .lg2 ty) ∧
  SfuIssues .sin 0 (fun ty _ => sfuCompute .sin ty) ∧ SfuIssues .cos 0 (fun ty _ => sfuCompute .cos ty) ∧
  SfuIssues .tanh 0 (fun ty _ => sfuCompute .tanh ty)

/-- An SFU result lands when it is the oldest of its quarter's queue and raises no enabled flag: its register holds the result
and is full, the access is gone, and FLG gets the flags of the instruction's lanes as the last of them lands, not before; other
registers, threads and memory stay (R280, R82). -/
def SfuResultLands : Prop :=
  ∀ s id a n w fl x m r y, alGet? s.acc id = some a → a.op = .sfu n w fl x m → a.dst = [r] →
    (∀ p ∈ s.acc, p.1 < id → ∀ n' w' fl' x' m', p.2.op = .sfu n' w' fl' x' m' → p.2.core ≠ a.core) →
    (s.thread? a.g a.lane).isSome = true → s.group? a.g = some y → flagCause m fl = none →
      ∃ t z, exec (.sfuResult id) s = .next t ∧ (t.thread a.g a.lane).vreg r = w ∧ r ∉ (t.thread a.g a.lane).vEmpty ∧
        alGet? t.acc id = none ∧ t.group? a.g = some z ∧
        (s.sfuRest id n = [] → t.acc = alDel s.acc id ∧ z.mode = modeWith y.mode (fl ||| x)) ∧
        (s.sfuRest id n ≠ [] → z.mode = y.mode) ∧
        (∀ k, k ≠ r → (t.thread a.g a.lane).vreg k = (s.thread a.g a.lane).vreg k) ∧
        (t.thread a.g a.lane).pc = (s.thread a.g a.lane).pc ∧
        (∀ k, k ≠ a.lane → t.thread? a.g k = s.thread? a.g k) ∧ (∀ h, h ≠ a.g → t.group? h = s.group? h) ∧
        ∀ b, t.byteAt b = s.byteAt b

/-- SFU instructions issue, and their results land (R280 to R283). -/
def Obligations.SfuInstructionsIssueAndLand : Prop := SfuInstructionsIssue ∧ SfuResultLands

/-- No condition beyond those of the sub-group. -/
def noMore : Eff → State → Nat → List Nat → Prop := fun _ _ _ _ => True

/-- The lane instructions of Table 10-2 complete (R257 to R263): a shuffle from a lane that is full, and out of its segment its
own value with Z; votes; masks of lanes; counts by bit plane; the rank of keys; reductions and scans. -/
def Obligations.LaneInstructionsComplete : Prop :=
  LaneAs .shfl (fun _ f => specLane tysN f.var slVec slVec slSrc32 true)
    (fun e s g ls => ∀ l ∈ ls, (s.thread g ((shflSource e.var s.curWidth l (s.rdB g l e)).getD l)).full e.a e.na = true)
    (fun e s g _ l t => (t.write e.d e.nd (s.rdA g ((shflSource e.var s.curWidth l (s.rdB g l e)).getD l) e)).writeCc e.e
      (mkFlags false (shflSource e.var s.curWidth l (s.rdB g l e)).isNone false false)) ∧
  LaneAs .vote (fun _ f => specLane tysN (fixVar 2 f.var) slCc slVec slNone false) noMore
    (fun e s g ls l t => t.writeCc e.d (mkFlags false
      (match e.var.toNat with
        | 0 => ls.all fun k => s.rdA g k e != 0
        | 1 => ls.any fun k => s.rdA g k e != 0
        | _ => ls.all fun k => s.rdA g k e == s.rdA g (ls.headD 0) e) (s.rdA g l e != 0) false)) ∧
  LaneAs .ballot (fun s _ => specLane tysN 0 ⟨.vec, s.maskRegs⟩ slVec slNone false) noMore
    (fun e s g ls _ t => t.write e.d e.nd (maskOf (ls.filter fun k => s.rdA g k e != 0))) ∧
  LaneAs .bplane (fun _ _ => specLane tysN 0 slVec slVec slNone false) noMore
    (fun e s g ls l t => t.write e.d e.nd ((((List.range (tyBits e.ty)).filter fun j => j % s.curWidth = l).foldl (fun x j =>
      x + planeCount s g e ls j * 2 ^ (16 * (j / s.curWidth))) 0) % 2 ^ (32 * e.nd))) ∧
  LaneAs .selk (fun _ f => specLane [.n32, .s32, .f32, .n64, .s64, .f16, .bf16] (f.var &&& 1) slVec32 slVec slSrc32 true) noMore
    (fun e s g ls l t =>
      let key := fun k => if e.v0 then selKey e.ty (s.rdA g k e) else -selKey e.ty (s.rdA g k e)
      let rank := (ls.filter fun m => decide (key m < key l) || (decide (key m = key l) && decide (m < l))).length
      (t.write e.d e.nd (if rank < s.rdB g (ls.headD 0) e then rank else 0xFFFFFFFF)).writeCc e.e
        (mkFlags false (decide (s.rdB g (ls.headD 0) e ≤ rank)) false false)) ∧
  LaneAs .gred (fun _ f => specLane (gredTypes (fld f.var 0 3)) (f.var &&& 7) slVec slVec slNone false) noMore
    (fun e s g ls _ t => t.write e.d e.nd (gredLanes s g e (fld e.var 0 3) ls)) ∧
  LaneAs .gscan (fun _ f => specLane (gredTypes (fld f.var 0 3)) f.var slVec slVec slNone false) noMore
    (fun e s g ls l t => t.write e.d e.nd (gredLanes s g e (fld e.var 0 3)
      (ls.filter fun k => decide (k < l) || (!bit e.var 3 && decide (k = l))))) ∧
  LaneAs .matchLanes (fun s _ => specLane tysN 0 ⟨.vec, s.maskRegs⟩ slVec slNone false) noMore
    (fun e s g ls l t => t.write e.d e.nd (maskOf (ls.filter fun k => s.rdA g k e == s.rdA g l e))) ∧
  LaneAs .lnmask (fun s f => specLane [] (fixVar 3 f.var) ⟨.vec, s.maskRegs⟩ slNone slNone false) noMore
    (fun e s _ ls l t => t.write e.d e.nd (match e.var.toNat with
      | 0 => maskOf ls
      | 1 => 2 ^ l - 1
      | 2 => 2 ^ s.curWidth - 2 ^ (l + 1)
      | _ => 2 ^ s.curWidth - 1))

/-- What the masks and integer reductions of lanes are: a mask has a lane's bit where the lane is listed; a sum is the sum of
the values modulo 2^32, in whatever order; the bitwise reductions hold a bit where every, some, or an odd number of lanes
does (R260, R263). -/
def Obligations.LaneMasksAndSums : Prop :=
  (∀ ls k, fldN (maskOf ls) k 1 = if k ∈ ls then 1 else 0) ∧
  (∀ s g e ls, e.ty = .n32 ∨ e.ty = .s32 → ls ≠ [] →
    gredLanes s g e 0 ls = ((ls.map fun l => s.rdA g l e).sum) % 2 ^ 32 ∧
    ∀ k, k < 32 →
      fldN (gredLanes s g e 3 ls) k 1 = (if ls.all fun l => fldN (s.rdA g l e) k 1 == 1 then 1 else 0) ∧
      fldN (gredLanes s g e 4 ls) k 1 = (if ls.any fun l => fldN (s.rdA g l e) k 1 == 1 then 1 else 0) ∧
      fldN (gredLanes s g e 5 ls) k 1 = ((ls.filter fun l => fldN (s.rdA g l e) k 1 == 1).length) % 2)

/-- The ply instructions that act on holders complete (R293 to R296): a register's element of the issuing lane, or a whole tile.
An anchor outside −512 to 511 traps with 0x046 and TVAL the operand (R292). -/
def PlyHoldersComplete : Prop :=
  WhenSolo (specAnchor true) (fun f e s u g l =>
    (∀ a, anchorOf (u.rdA g l e) = some a →
      (∀ k, e.d = .p k → Passes (.pzero f) s g l e (u.modPreg g k.toNat fun p => (p.anchored a).modLane l fun _ => .zero)) ∧
      (∀ k, e.d = .a k → Passes (.pzero f) s g l e (u.modTile g k.toNat fun _ => ⟨a, [], none⟩))) ∧
    (anchorOf (u.rdA g l e) = none → exec (.pzero f) s = .next (u.trap g l 0x046 (BitVec.ofNat 64 (u.rdA g l e % 2 ^ 32))))) ∧
  WhenSolo (specAnchor false) (fun f e s u g l =>
    (∀ a, anchorOf (u.rdA g l e) = some a →
      (∀ k, e.d = .p k → Passes (.panc f) s g l e (u.modPreg g k.toNat fun p => p.anchored a)) ∧
      (∀ k, e.d = .a k → Passes (.panc f) s g l e
        (u.modTile g k.toNat fun t => { t with anc := a, el := reanchor t.el t.anc a }))) ∧
    (anchorOf (u.rdA g l e) = none → exec (.panc f) s = .next (u.trap g l 0x046 (BitVec.ofNat 64 (u.rdA g l e % 2 ^ 32))))) ∧
  WhenSolo (fun f => { Spec.plain with d := slPly2, a := plyPartner f.d, tileOk := true }) (fun f e s u g l =>
    (∀ k, e.d = .p k → Passes (.pmov f) s g l e (u.modPreg g k.toNat fun p =>
      (p.anchored (u.plyElem g 0 e.a).2).modLane l fun _ => (u.plyElem g l e.a).1)) ∧
    (∀ k, e.d = .a k → Passes (.pmov f) s g l e (u.modTile g k.toNat fun _ => { u.tileOpnd g e.a with failed := none }))) ∧
  WhenSolo specPmrg (fun f e s u g l =>
    (∀ k, e.d = .p k → isTile f.d = false → (specPmrg f).var ≠ 1 → Passes (.pmrg f) s g l e (u.modPreg g k.toNat fun p =>
      p.modLane l fun d => d.merge ((u.plyElem g l e.a).1.moved (u.plyElem g l e.a).2 p.anc))) ∧
    (∀ k, e.d = .p k → isTile f.d = false → (specPmrg f).var = 1 → Passes (.pmrg f) s g l e (u.modPreg g k.toNat fun p =>
      p.modLane l fun _ => PElem.merge .zero ((u.plyElem g l e.a).1.moved (u.plyElem g l e.a).2 (u.preg g k.toNat).anc))) ∧
    (∀ k, e.d = .a k → isTile f.d = true → Passes (.pmrg f) s g l e (u.modTile g k.toNat fun t =>
      { t with el := (List.range 256).foldl (fun m n =>
          match alGet? (u.tileOpnd g e.a).el n with
          | none => m
          | some x => alSet m n ((t.get n).merge (x.moved (u.tileOpnd g e.a).anc t.anc))) t.el })))

/-- Products and addends are added to a thread's element one by one, each exactly as `ply_add` says (R287, R294). -/
def PlyAccumulationCompletes : Prop :=
  WhenSolo (fun f => { Spec.plain with types := tysPacc, var := f.var &&& 1, d := slPly, a := slSrc, b := slSrc })
    (fun f e s u g l =>
      let xs := ((u.plyElems g e.ty (u.rdA g l e.plyLits)).zip (u.plyElems g e.ty (u.rdB g l e.plyLits))).map fun p =>
        (Ex.mul p.1 p.2).1
      Passes (.pacc f) s g l e (u.accumulate g l e.d (if e.v0 then xs.map Ex.negate else xs))) ∧
  WhenSolo specPadd (fun f e s u g l =>
    Passes (.padd f) s g l e (u.accumulate g l e.d (u.plyElems g e.ty (u.rdA g l e.plyLits))) ∧
    Passes (.psub f) s g l e (u.accumulate g l e.d ((u.plyElems g e.ty (u.rdA g l e.plyLits)).map Ex.negate)))

/-- `RSLV` of a register element writes D once rounded, with its flags, or traps on an enabled one; `PTEST` compares two sums
exactly (R297, R298); `RSLV` of a tile writes the run of registers of each lane. -/
def PlyResolutionCompletes : Prop :=
  WhenSolo (specRslv 16) (fun f e s u g l => isTile f.a = false →
    let y := s.plyElem g l e.a
    let r := plyResolve y.1 (ancInt y.2) e.ty (e.rm (s.mode g)) e.sat (modeFtzo (s.mode g))
    (flagCause (s.mode g) r.2 = none →
      CompletesLane (.rslv f) s g l (specRslv 16 f) f r.2 (putDT e (resolveWord e.ty r.1))) ∧
    ∀ c, flagCause (s.mode g) r.2 = some c →
      Traps (.rslv f) s (u.raise g r.2) g l c (BitVec.ofNat 64 r.2.toNat)) ∧
  (∀ f s g l, isTile f.a = true → s.solo g l (specRslv s.curWidth f) f = true →
    let e := effOf (specRslv s.curWidth f) f
    exec (.rslv f) s =
      .next ((rslvLane e g (s.tileOpnd g e.a) s.curWidth (s.mode g) (s.begun g (specRslv s.curWidth f) f) l).retag g
        (if flagCause (s.mode g) (rslvFlags (rslvElems e (s.mode g) (s.tileOpnd g e.a) s.curWidth l)) = none then [l] else [])
        (e.d.vregs e.nd))) ∧
  CompletesAs .ptest (fun _ => { Spec.plain with d := slCc, a := slPly, b := ⟨.plyOpt, 1⟩ }) (fun e s g l t =>
    let a := s.plyElem g l e.a
    let b := s.plyElem g l e.b
    let o := Ex.cmp (plyValue a.1 (ancInt a.2)) (plyValue b.1 (ancInt b.2))
    t.writeCc e.d (mkFlags (o = .lt) (o = .eq) (a.1.fl != 0 || b.1.fl != 0) false))

/-- The ply instructions complete (R287 to R298). -/
def Obligations.PlyInstructionsComplete : Prop := PlyHoldersComplete ∧ PlyAccumulationCompletes ∧ PlyResolutionCompletes

/-- Changes of a ply register or tile leave every other one, every thread, every other group and all of memory (R286). -/
def HolderFrame : Prop :=
  ∀ (s : State) g n, (∀ F m, m ≠ n → (s.modPreg g n F).preg g m = s.preg g m) ∧
    (∀ F m, m ≠ n → (s.modTile g n F).tile g m = s.tile g m) ∧
    (∀ F m, (s.modPreg g n F).tile g m = s.tile g m ∧ ∀ G, (s.modTile g n G).preg g m = s.preg g m) ∧
    ∀ F G h k, (s.modPreg g n F).thread? h k = s.thread? h k ∧ (s.modTile g n G).thread? h k = s.thread? h k ∧
      (h ≠ g → (s.modPreg g n F).group? h = s.group? h ∧ (s.modTile g n G).group? h = s.group? h) ∧
      ∀ a, (s.modPreg g n F).byteAt a = s.byteAt a ∧ (s.modTile g n G).byteAt a = s.byteAt a

/-- The sum and flags of a ply element depend only on the multiset of its addends and the anchor: numbers, infinities and NaNs
added in any order leave the same element (R287, R288). -/
def PlySumIgnoresOrder : Prop :=
  ∀ (d : PElem) (xs ys : List Ex) (anc : Int), xs.Perm ys →
    xs.foldl (fun e x => plyAdd e x anc) d = ys.foldl (fun e x => plyAdd e x anc) d

/-- Changes of a ply holder leave all else, and its sums ignore the order of their addends (R286 to R288). -/
def Obligations.PlyFrameAndSums : Prop := HolderFrame ∧ PlySumIgnoresOrder

/-! ## Control (R355 to R366) -/

/-- `BRA` goes to its own address plus 16 times the signed IMM (R33, R355); DEPTH, the return stack and every register stay. -/
def Obligations.BranchGoesToTarget : Prop :=
  WhenSolo specTarget (fun f e s _ g l =>
    ∃ t, exec (.bra f) s = .next t ∧
      t.thread g l = (s.thread g l).advance ((s.thread g l).pc + BitVec.ofInt 64 (16 * f.imm.toInt)) s.cycle e.stall ∧
      OnlyLanes s t g [l] (specTarget f) f 0)

/-- `BRX` sets PC to the pair A, whatever the fetch there will meet; a target whose bits [3:0] are not 0 traps with 0x004 at the
`BRX` with TVAL the target (R356). -/
def IndexedBranchGoesOrTraps : Prop :=
  WhenSolo specPairA (fun f e s u g l =>
    (s.rdA g l e % 16 = 0 → ∃ t, exec (.brx f) s = .next t ∧
      t.thread g l = (s.thread g l).advance (BitVec.ofNat 64 (s.rdA g l e)) s.cycle e.stall ∧
      OnlyLanes s t g [l] (specPairA f) f 0) ∧
    (s.rdA g l e % 16 ≠ 0 → Traps (.brx f) s u g l 0x004 (BitVec.ofNat 64 (s.rdA g l e))))

/-- A call of a thread whose stack has room pushes the address of the next word and raises DEPTH by one; `RET` goes to the top,
pops it and lowers DEPTH. A call at DEPTH 255, or at 16 or more without spill space, traps with 0x149 and TVAL DEPTH; a `RET`
at DEPTH 0 traps with 0x14A (R357 to R360). -/
def CallsAndReturns : Prop :=
  WhenSolo specTarget (fun f e s u g l =>
    ((s.thread g l).depth.toNat < 16 → ∃ t, exec (.call f) s = .next t ∧
      t.thread g l = ({ s.thread g l with
        rs := (((s.thread g l).pc + 16) :: (s.thread g l).rs).take 16, depth := (s.thread g l).depth + 1 }).advance
          (e.target (s.thread g l).pc) s.cycle e.stall ∧ OnlyLanes s t g [l] (specTarget f) f 0) ∧
    ((s.thread g l).depth = 255 → Traps (.call f) s u g l 0x149 255)) ∧
  WhenSolo specPairA (fun f e s u g l =>
    (s.rdA g l e % 16 = 0 → (s.thread g l).depth.toNat < 16 → ∃ t, exec (.callx f) s = .next t ∧
      t.thread g l = ({ s.thread g l with
        rs := (((s.thread g l).pc + 16) :: (s.thread g l).rs).take 16, depth := (s.thread g l).depth + 1 }).advance
          (BitVec.ofNat 64 (s.rdA g l e)) s.cycle e.stall ∧ OnlyLanes s t g [l] (specPairA f) f 0) ∧
    (s.rdA g l e % 16 ≠ 0 → (s.thread g l).depth.toNat < 16 →
      Traps (.callx f) s u g l 0x004 (BitVec.ofNat 64 (s.rdA g l e)))) ∧
  WhenSolo (fun _ => Spec.plain) (fun f _ s u g l =>
    (0 < (s.thread g l).depth.toNat → (s.thread g l).depth.toNat < 17 → ∃ t, exec (.ret f) s = .next t ∧
      (t.thread g l).pc = (s.thread g l).rs.headD 0 ∧ (t.thread g l).rs = (s.thread g l).rs.drop 1 ∧
      (t.thread g l).depth = (s.thread g l).depth - 1 ∧ (t.thread g l).v = (s.thread g l).v ∧
      OnlyLanes s t g [l] Spec.plain f 0) ∧
    ((s.thread g l).depth = 0 → Traps (.ret f) s u g l 0x14A 0))

/-- A call at DEPTH 16 or more whose spill address reaches memory, made after the thread's acquires, puts the entry that leaves the top 16 in the store buffer
there, and a `RET` at DEPTH 17 or more whose spill address does loads the entry that returns, the thread issuing nothing
until it has landed (R359). -/
def CallsSpillAndReturnsRefill : Prop :=
  WhenSolo specTarget (fun f e s u g l => ∀ p h t,
    16 ≤ (s.thread g l).depth.toNat → (s.thread g l).depth ≠ 255 → (u.ctx (u.slotOf g)).rstkbase ≠ 0 →
    u.acqPending g l = false →
    u.resolve g l .store (u.spillAddr g l ((s.thread g l).depth.toNat - 16)) 8 8 0x094 false = (.mem p h, t) →
    t.storeRoom g (u.spillAddr g l ((s.thread g l).depth.toNat - 16)) (.mem p h) = true →
      Jumps (.call f) s g l e
        ((t.bufferStore g l [] (u.spillAddr g l ((s.thread g l).depth.toNat - 16)) (some p) h
          (toBytes 8 ((s.thread g l).rs.getLast?.getD 0).toNat) 0 true none).modThread g l fun x =>
            { x with rs := ((x.pc + 16) :: x.rs).take 16, depth := x.depth + 1 })
        (e.target (s.thread g l).pc)) ∧
  WhenSolo (fun _ => Spec.plain) (fun f _ s u g l => ∀ p h t, 17 ≤ (s.thread g l).depth.toNat → u.acqPending g l = false →
    u.resolve g l .load (u.spillAddr g l ((s.thread g l).depth.toNat - 17)) 8 8 0x094 false = (.mem p h, t) →
      ∃ t', exec (.ret f) s = .next t' ∧ (t'.thread g l).pc = (s.thread g l).rs.headD 0 ∧
        (t'.thread g l).depth = (s.thread g l).depth - 1 ∧ (t'.thread g l).rs = (s.thread g l).rs.drop 1 ∧
        ∃ a, alGet? t'.acc t.nextId = some a ∧ a.hold = true ∧ a.tgt = some (.mem p) ∧
          a.op = .refill ((s.thread g l).pc, (s.thread g l).depth, (s.thread g l).rs, (s.thread g l).noRegion))

/-- `BRX`, calls and returns complete, spilling and refilling beyond 16 entries (R356 to R360). -/
def Obligations.BranchesCallsAndReturnsComplete : Prop := IndexedBranchGoesOrTraps ∧ CallsAndReturns ∧ CallsSpillAndReturnsRefill

/-- `MEET` names the meeting of the current DEPTH at its target, and `MEET.clr` gives it up; a thread that is not where its meeting
is goes on past `SYNCM`, and past `WAITM` with C set; one that arrives last of its set leaves with the others in the same cycle
(R361 to R364). The group holds only this thread as a live one. -/
def MeetingsComplete : Prop :=
  WhenSolo specTarget (fun f e s _ g l =>
    (∀ k, k ≠ l → ∀ x, s.thread? g k = some x → x.exited = true ∧ x.isHeld = false) → (s.thread g l).wait = .none →
    ∃ t, exec (.meet f) s = .next t ∧
      t.thread g l = ({ s.thread g l with mr := ⟨e.target (s.thread g l).pc, (s.thread g l).depth, true⟩ }).advance
        ((s.thread g l).pc + 16) s.cycle e.stall ∧ OnlyLanes s t g [l] (specTarget f) f 0) ∧
  WhenSolo (fun _ => { Spec.plain with var := 1 }) (fun f e s _ g l =>
    (∀ k, k ≠ l → ∀ x, s.thread? g k = some x → x.exited = true ∧ x.isHeld = false) → (s.thread g l).wait = .none →
    ∃ t, exec (.meetClr f) s = .next t ∧
      t.thread g l = ({ s.thread g l with mr := { (s.thread g l).mr with valid := false } }).advance
        ((s.thread g l).pc + 16) s.cycle e.stall ∧ OnlyLanes s t g [l] { Spec.plain with var := 1 } f 0) ∧
  WhenSolo (fun _ => Spec.plain) (fun f e s _ g l =>
    (∀ k, k ≠ l → ∀ x, s.thread? g k = some x → x.exited = true ∧ x.isHeld = false) → (s.thread g l).wait = .none →
    ∃ t, exec (.syncm f) s = .next t ∧ OnlyLanes s t g [l] Spec.plain f 0 ∧
      ((s.thread g l).arrives = false → t.thread g l = (s.thread g l).advance ((s.thread g l).pc + 16) s.cycle e.stall) ∧
      ((s.thread g l).arrives = true → (t.thread g l).pc = (s.thread g l).pc + 16 ∧ (t.thread g l).wait = .none ∧
        (t.thread g l).mr.valid = false ∧ (t.thread g l).v = (s.thread g l).v ∧ (t.thread g l).cc = (s.thread g l).cc)) ∧
  WhenSolo (fun _ => { Spec.plain with d := slCc, a := slSrc32 }) (fun f e s _ g l => ∀ n, e.d = .cc n →
    (∀ k, k ≠ l → ∀ x, s.thread? g k = some x → x.exited = true ∧ x.isHeld = false) → (s.thread g l).wait = .none →
    ∃ t, exec (.waitm f) s = .next t ∧ OnlyLanes s t g [l] { Spec.plain with d := slCc, a := slSrc32 } f 0 ∧
      (t.thread g l).wait = .none ∧ (t.thread g l).pc = (s.thread g l).pc + 16 ∧
      (t.thread g l).flags n = if (s.thread g l).arrives then mkFlags false true false false else mkFlags false false true false)

/-- A `WAITM` at its deadline leaves its set, reports V in its flag register and goes on alone (R364). -/
def MeetingTimesOut : Prop :=
  ∀ (s : State) g l d n, (s.thread? g l).isSome = true → (s.thread g l).wait = .meeting (some d) (some n) → d ≤ s.cycle →
    ∃ t, exec (.waitmTimeout g l) s = .next t ∧ (t.thread g l).wait = .none ∧ (t.thread g l).mr.valid = false ∧
      (t.thread g l).flags n = mkFlags false false false true ∧ (t.thread g l).v = (s.thread g l).v ∧
      (t.thread g l).pc = (s.thread g l).pc ∧ (∀ h, h ≠ g → t.group? h = s.group? h) ∧ ∀ a, t.byteAt a = s.byteAt a

/-- Meetings complete, or a `WAITM` times out (R361 to R364). -/
def Obligations.MeetingsCompleteOrTimeOut : Prop := MeetingsComplete ∧ MeetingTimesOut

/-- `EXIT` retires a thread that no join word counts, at once; the exit of the last thread of a resident group that has nothing
outstanding lets `GROUP_SLOT_FREE` take the group away, its slot with it (R366). The exit of the last thread waits while a matrix
operation locks the group's registers or writes its tiles (R323). -/
def Obligations.ThreadsExitAndSlotsFree : Prop :=
  WhenSolo (fun _ => Spec.plain) (fun f _ s _ g l => (s.thread g l).spawn = none →
    (∀ x, s.group? g = some x → x.exitWaits l = false) →
    ∃ t, exec (.exit f) s = .next t ∧ (t.thread g l).exited = true ∧ (t.thread g l).late = [] ∧
      (∀ k, k ≠ l → ∀ x, s.thread? g k = some x → x.isHeld = false → t.thread? g k = some x) ∧
      (∀ h, h ≠ g → t.group? h = s.group? h) ∧ ∀ a, t.byteAt a = s.byteAt a) ∧
  (∀ (s : State) g x, s.group? g = some x → s.slotFreeable g = true →
    exec (.groupSlotFree g) s =
      .next ({ s.leaveTeam g x with groups := alDel (s.leaveTeam g x).groups g }.placeFormed x.home.core))

/-! ## Traps and the system instructions (R50, R417 to R434, R385) -/

/-- A reserved opcode traps every thread of its sub-group before any guard, with 0x002 for 0xFF and 0x001 otherwise and TVAL
bits [63:0] of the word (R50); while the group lives, each thread in turn. -/
def Obligations.ReservedOpcodesTrap : Prop :=
  (∀ w : BitVec 128, reservedCode (fld w 0 8) = true → decode w = .reservedOpcode w) ∧
  ∀ (s : State) (w : BitVec 128) g ls, s.cur = some ⟨g, ls⟩ →
    exec (.reservedOpcode w) s = .next (ls.foldl (fun (t : State) l => if (t.group? g).isSome then
      t.trap g l (if fld w 0 8 = 0xFF then 0x002 else 0x001) (w.setWidth 64) else t) s)

/-- A trap of a thread at level 0 or 1 whose handler is found enters it: the bank of the level entered holds the cause, the
thread's own PC, TVAL and TSTAT; the level rises by one; MV is cleared; PC is the handler's address; a trap from level 0 starts
the watchdog's clock. Its registers, flags and return stack stay, and so does every other thread (R417, R418, R423). -/
def Obligations.TrapEntersHandler : Prop :=
  ∀ (s : State) g l cause tval h s1, (s.thread? g l).isSome = true → (s.thread g l).level.toNat < 2 →
    s.handler g cause = (.at' h, s1) → h ≠ 0 → cause < 512 →
    let x := s.thread g l
    let y := (s.trap g l cause tval).thread g l
    let b : Bank := ⟨BitVec.ofNat 32 cause, x.pc, tval,
      BitVec.ofNat 32 (x.level.toNat + b2n x.mr.valid * 4 + x.depth.toNat * 16)⟩
    y.pc = h ∧ y.level = x.level + 1 ∧ y.mr.valid = false ∧ y.mr.addr = x.mr.addr ∧
    (x.level = 0 → y.bank1 = b ∧ y.bank2 = x.bank2 ∧ y.above = s.ns) ∧
    (x.level ≠ 0 → y.bank2 = b ∧ y.bank1 = x.bank1 ∧ y.above = x.above) ∧
    y.v = x.v ∧ y.c = x.c ∧ y.h = x.h ∧ y.cc = x.cc ∧ y.rs = x.rs ∧ y.depth = x.depth ∧ y.vEmpty = x.vEmpty ∧
    (∀ k, k ≠ l → (s.trap g l cause tval).thread? g k = s.thread? g k) ∧
    (∀ k, k ≠ g → (s.trap g l cause tval).group? k = s.group? k) ∧
    (s.trap g l cause tval).ctxs = s.ctxs

/-- A trap at level 2 kills the context with 0x161; a cause that has no handler kills it with 0x163, and a handler list or table
that cannot be read with 0x164 (R418, R419, R424). Where the search waits for a line that a command owns, the trap waits with it
(R127). -/
def TrapsThatKill : Prop :=
  ∀ (s : State) g l cause tval, (s.thread? g l).isSome = true →
    (2 ≤ (s.thread g l).level.toNat →
      s.trap g l cause tval = s.kill (s.slotOf g) 0x161 cause (some ⟨g, l, (s.thread g l).pc, tval⟩)) ∧
    (∀ s1, (s.thread g l).level.toNat < 2 → s.handler g cause = (.at' 0, s1) →
      s.trap g l cause tval = s1.kill (s1.slotOf g) 0x163 cause (some ⟨g, l, (s.thread g l).pc, tval⟩)) ∧
    (∀ s1, (s.thread g l).level.toNat < 2 → s.handler g cause = (.fault, s1) →
      s.trap g l cause tval = s1.kill (s1.slotOf g) 0x164 cause (some ⟨g, l, (s.thread g l).pc, tval⟩)) ∧
    (∀ s1, (s.thread g l).level.toNat < 2 → s.handler g cause = (.wait, s1) →
      s.trap g l cause tval = s1.modThread g l fun x =>
        { x with late := x.late ++ [⟨cause, tval, s1.nextId, [], .here (s.thread g l).pc false⟩] })

/-- A kill takes every group, access, Skein record and fault of the context away, asks its commands to cancel, sets STATE 3 and
KCAUSE, raises HIRQ bit 1 and leaves every group of other contexts but the formed ones that wait for a slot, which may take one of
those that it frees; a context that is killed or free already is left as it is (R424, R29). -/
def KillEndsContext : Prop :=
  ∀ (s : State) slot kc ec k,
    ((s.ctx slot).state = 3 ∨ (s.ctx slot).state = 7 → s.kill slot kc ec k = s) ∧
    ((s.ctx slot).state ≠ 3 → (s.ctx slot).state ≠ 7 →
      let t := s.kill slot kc ec k
      (t.ctx slot).state = 3 ∧ (t.ctx slot).kcause = kc ∧ (t.ctx slot).faults = [] ∧ bit t.hirq 1 = true ∧
      (∀ p ∈ t.groups, p.2.slot ≠ slot) ∧
      (∀ h x, s.group? h = some x → x.slot ≠ slot → (∀ p ∈ s.groups, p.1 = h → p.2.forming = none) → t.group? h = some x) ∧
      (∀ p ∈ s.groups, p.2.slot = slot → ∀ a ∈ t.acc, a.2.g ≠ p.1) ∧
      (∀ p ∈ t.cmds, p.2.iss.slot = slot → p.2.cancel = true) ∧
      (∀ p ∈ t.cores, ∀ r ∈ p.2.skein, r.2.slot ≠ slot) ∧ ∀ d, d ≠ slot → t.ctx d = s.ctx d)

/-- The traps that kill, and what a kill ends (R418, R419, R424). -/
def Obligations.KillsEndContexts : Prop := TrapsThatKill ∧ KillEndsContext

/-- `TRAP` takes the software trap 0x020 + VAR with TVAL A (R426). `TRET` at a trap level restores PC, MV and the level from the
bank, one word further with `.skip`; at level 0 it traps with 0x010, and with a DEPTH other than the saved one with 0x14B (R427).
The group's other threads are not at a meeting. -/
def TrapAndReturn : Prop :=
  WhenSolo (fun f => { Spec.plain with var := f.var, a := slSrc32 }) (fun f e s u g l =>
    Traps (.trap f) s u g l (0x020 + e.var.toNat) (BitVec.ofNat 64 (s.rdA g l e))) ∧
  WhenSolo (fun f => { Spec.plain with var := f.var &&& 1 }) (fun f e s u g l =>
    (s.thread g l).wait = .none → (∀ k, k ≠ l → ∀ x, s.thread? g k = some x → x.isHeld = false) →
    let x := s.thread g l
    let b := x.bank x.level.toNat
    (x.level ≠ 0 → x.depth.toNat = fld b.stat 4 8 → ∃ t, exec (.tret f) s = .next t ∧
      t.thread g l = ({ x with mr := { x.mr with valid := bit b.stat 2 }, level := BitVec.ofNat 2 (fld b.stat 0 2) }).advance
        (b.epc + (if bit f.var 0 then 16 else 0)) s.cycle e.stall ∧
      OnlyLanes s t g [l] { Spec.plain with var := f.var &&& 1 } f 0) ∧
    (x.level = 0 → ∃ t, exec (.tret f) s = .next t ∧ t = (u.trap g l 0x010 0).releaseMeets g) ∧
    (x.level ≠ 0 → x.depth.toNat ≠ fld b.stat 4 8 → ∃ t, exec (.tret f) s = .next t ∧
      t = (u.trap g l 0x14B (BitVec.ofNat 64 (x.depth.toNat + fld b.stat 4 8 * 256))).releaseMeets g))

/-- A pending trap of a thread that nothing holds back is delivered at its next instruction: it leaves the list, and the handler is
entered, TSTAT.LATE saying whether the trap is a late one; one that only waited for its handler names the instruction that it belongs
to (R474). -/
def LateTrapDelivered : Prop :=
  ∀ (s : State) g l x xs h s1, (s.thread? g l).isSome = true → (s.thread g l).exited = false →
    s.lateReady g l = true → (s.thread g l).late = x :: xs → (s.thread g l).level = 0 → x.vdst = [] →
    (s.modThread g l fun t => { t with late := xs, vEmpty := t.vEmpty.filter fun _ => true }).handler g x.cause = (.at' h, s1) →
    h ≠ 0 →
    ∃ t, exec (.lateTrap g l) s = .next t ∧ (t.thread g l).late = xs ∧ (t.thread g l).pc = h ∧ (t.thread g l).level = 1 ∧
      (t.thread g l).bank1.epc = (match x.at' with
        | .here epc _ => epc
        | _ => (s.thread g l).pc) ∧ (t.thread g l).bank1.tval = x.tval ∧
      bit (t.thread g l).bank1.stat 12 = (x.at' == .late)

/-- `TRAP`, `TRET` and late traps (R426, R427, R474). -/
def Obligations.TrapsReturnAndLateTrapsArrive : Prop := TrapAndReturn ∧ LateTrapDelivered

/-- `CSRR` reads a CSR that the level may read into D; `CSRW` writes one that it may write, once the thread's stores are at their
homes; a number that is none, or is not written, traps with 0x011, and a level too low with 0x010, TVAL being IMM (R428). -/
def CsrsReadAndWrite : Prop :=
  WhenSolo (fun _ => { Spec.plain with d := slPair, imm := true, hOk := true }) (fun f e s u g l =>
    (∀ lv, csrReadLevel e.imm.toNat = some lv → lv ≤ (s.thread g l).level.toNat →
      CompletesLane (.csrr f) s g l { Spec.plain with d := slPair, imm := true, hOk := true } f 0 fun t =>
        t.write e.d 2 (s.readCsr g l e.imm.toNat).toNat) ∧
    (∀ lv, csrReadLevel e.imm.toNat = some lv → (s.thread g l).level.toNat < lv →
      Traps (.csrr f) s u g l 0x010 (BitVec.ofNat 64 e.imm.toNat)) ∧
    (csrReadLevel e.imm.toNat = none → Traps (.csrr f) s u g l 0x011 (BitVec.ofNat 64 e.imm.toNat))) ∧
  WhenSolo (fun _ => { Spec.plain with a := slPair, imm := true, hOk := true, rels := true }) (fun f e s u g l =>
    s.releaseReady g l .dev = true →
    (∀ lv, csrReadLevel e.imm.toNat ≠ none → csrWriteLevel e.imm.toNat = some lv → lv ≤ (s.thread g l).level.toNat →
      Passes (.csrw f) s g l e (u.writeCsr (s.slotOf g) e.imm.toNat (BitVec.ofNat 64 (s.rdA g l e)))) ∧
    (∀ lv, csrReadLevel e.imm.toNat ≠ none → csrWriteLevel e.imm.toNat = some lv → (s.thread g l).level.toNat < lv →
      Traps (.csrw f) s u g l 0x010 (BitVec.ofNat 64 e.imm.toNat)) ∧
    (csrReadLevel e.imm.toNat = none ∨ csrWriteLevel e.imm.toNat = none →
      Traps (.csrw f) s u g l 0x011 (BitVec.ofNat 64 e.imm.toNat)))

/-- `CLOCK` writes the cycle or nanosecond clock as it stands at issue, `PERF` the counter that A names modulo 16 (R429, R430). -/
def ClocksAndCountersRead : Prop :=
  CompletesAs .clockCyc (fun _ => { Spec.plain with d := ⟨.vec, 2⟩ }) (fun e s _ _ t => t.write e.d 2 (s.cycle % 2 ^ 64)) ∧
  CompletesAs .clockNs (fun _ => { Spec.plain with var := 1, d := ⟨.vec, 2⟩ }) (fun e s _ _ t => t.write e.d 2 (s.ns % 2 ^ 64)) ∧
  CompletesAs .perf (fun _ => { Spec.plain with d := ⟨.vec, 2⟩, a := slSrc32 }) (fun e s g l t =>
    t.write e.d 2 (alGet (s.core (s.coreOf g)).perf 0 (s.rdA g l e % 16)))

/-- CSRs, clocks and counters (R428 to R430). -/
def Obligations.CsrsClocksAndCounters : Prop := CsrsReadAndWrite ∧ ClocksAndCountersRead

/-- `DBRK` traps with 0x003 and its code without a session for the context, and with one stops the group and reports the code;
`DEBUG_RESUME` lets it go on, and without such a session fires source 4 (R431, R449). `KILL` kills its context with 0x160 and A (R432); a watchdog that has run out kills it with
0x162 (R423). -/
def DebugKillAndWatchdog : Prop :=
  WhenSolo (fun _ => { Spec.plain with imm := true }) (fun f e s u g l =>
    (s.sec.session ≠ some (s.ctx (s.slotOf g)).id → Traps (.dbrk f) s u g l 0x003 (BitVec.ofNat 64 (e.imm.toNat % 65536))) ∧
    (∀ x, s.group? g = some x → x.stopped = false → s.sec.session = some (s.ctx (s.slotOf g)).id →
      ∃ t, exec (.dbrk f) s = .next t ∧ ((t.group? g).map fun y => y.stopped) = some true ∧
        t.sec.codes = s.sec.codes ++ [(g, BitVec.ofNat 32 (e.imm.toNat % 65536))] ∧
        t.thread g l = (s.thread g l).advance ((s.thread g l).pc + 16) s.cycle e.stall ∧ ∀ a, t.byteAt a = s.byteAt a)) ∧
  WhenSolo (fun _ => { Spec.plain with a := slSrc32 }) (fun f e s u g l =>
    exec (.kill f) s = .next (u.kill (s.slotOf g) 0x160 0 (some ⟨g, l, (s.thread g l).pc, BitVec.ofNat 64 (s.rdA g l e)⟩))) ∧
  (∀ (s : State) g x, s.group? g = some x →
    (s.sec.session = some (s.ctx x.slot).id → exec (.debugResume g) s = .next (s.modGroup g fun y => { y with stopped := false })) ∧
    (s.sec.session ≠ some (s.ctx x.slot).id → exec (.debugResume g) s = .next (s.alarm 0x10))) ∧
  (∀ (s : State) g l, (s.thread? g l).isSome = true → (s.thread g l).exited = false → (s.thread g l).level ≠ 0 →
    (s.thread g l).above + 1000 * (s.ctx (s.slotOf g)).wdog.toNat < s.ns →
      exec (.handlerWatchdog g l) s = .next (s.kill (s.slotOf g) 0x162 0 (some ⟨g, l, (s.thread g l).pc, 0⟩)))

/-- A group's thread after a `YIELD` of A cycles, at most 65,535; with 0 the group gives way as YLD does (R385). -/
def yieldOf (u : State) (g l : Nat) (e : Eff) : State :=
  let n := min (u.rdA g l e) 65535
  let t := (u.pass g l e.stall).modThread g l fun x =>
    { x with notBefore := max x.notBefore (u.cycle + n), yieldTo := u.cycle + n }
  if n = 0 then t.modGroup g fun x => { x with yielded := u.cycle + 1 } else t

/-- `YIELD` of one thread keeps it from issuing for A cycles, at most 65,535, from its issue on; with 0 it gives way as YLD does;
`.flush` flushes the launch's Skein lists (R385). `RGN` at the address that its table entry names begins that region with the
thread's PC, DEPTH and meeting, and clears its deferral; an entry that is not its own, or none, traps with 0x14E (R433). It comes after
the thread's acquires (R403). -/
def YieldAndRegionComplete : Prop :=
  WhenSolo (fun f => { Spec.plain with var := f.var &&& 1, a := slSrc32 }) (fun f e s _ g l => bit f.var 0 = false →
    ∃ t, exec (.yield f) s = .next t ∧ (t.thread g l).pc = (s.thread g l).pc + 16 ∧
      (t.thread g l).notBefore = max (s.cycle + max 1 e.stall) (s.cycle + min (s.rdA g l e) 65535) ∧
      (s.rdA g l e = 0 → ((t.group? g).map fun x => x.yielded) = some (s.cycle + 1)) ∧
      (t.thread g l).v = (s.thread g l).v ∧ (∀ k, k ≠ l → t.thread? g k = s.thread? g k) ∧
      (∀ h, h ≠ g → t.group? h = s.group? h) ∧ ∀ a, t.byteAt a = s.byteAt a) ∧
  WhenSolo (fun f => { Spec.plain with var := f.var &&& 1, a := slSrc32 }) (fun f e s u g l => bit f.var 0 = true →
    exec (.yield f) s = .next ((yieldOf u g l e).flushLaunch ((yieldOf u g l e).coreOf g)
      ((((yieldOf u g l e).group? g).map fun x => x.launch).getD 0))) ∧
  WhenSolo (fun _ => { Spec.plain with imm := true }) (fun f e s u g l => u.acqPending g l = false →
    (∀ x t, e.imm.toNat < (s.kernel g).nrgn →
      u.issueRead g l ((s.kernel g).rgnt + BitVec.ofNat 64 (64 * e.imm.toNat)) 64 0x094 = .ok x t →
      rgnOk x (s.thread g l).pc = true →
        Passes (.rgn f) s g l e ((t.modThread g l fun y => y.begin e.imm.toNat t.now).modGroup g fun y => y.rearm l)) ∧
    (∀ x t, e.imm.toNat < (s.kernel g).nrgn →
      u.issueRead g l ((s.kernel g).rgnt + BitVec.ofNat 64 (64 * e.imm.toNat)) 64 0x094 = .ok x t →
      rgnOk x (s.thread g l).pc = false → Traps (.rgn f) s u g l 0x14E (BitVec.ofNat 64 e.imm.toNat)) ∧
    ((s.kernel g).nrgn ≤ e.imm.toNat → Traps (.rgn f) s u g l 0x14E (BitVec.ofNat 64 e.imm.toNat)))

/-- `DBRK`, `KILL`, the watchdog, `YIELD` and `RGN` (R385, R423, R431 to R433). -/
def Obligations.DebugKillYieldAndRegions : Prop := DebugKillAndWatchdog ∧ YieldAndRegionComplete

/-! ## Memory (R100 to R183, R399 to R408) -/

/-- A translation changes nothing of memory but the accessed and dirty bits of the leaf entry that it used (R108), and no group,
access, buffered store or context; the same holds of every path that an access takes before it is performed. -/
def TranslationSetsAccessedAndDirty : Prop :=
  (∀ (s : State) core die slot va k,
    let t := (s.xlate core die slot va k).2
    (∀ a, t.byteAt a ≠ s.byteAt a → ∃ x lv p, (s.tlbOrWalk core die slot va).2 = .leaf x lv p ∧ (a = p ∨ a = p + 1)) ∧
    (∀ x lv p, (s.tlbOrWalk core die slot va).2 = .leaf x lv p → s.nodeOk p 2 = true →
      t.readNodeN p 2 = s.readNodeN p 2 ∨ t.readNodeN p 2 = Nat.lor (s.readNodeN p 2) 0x100 ∨
      t.readNodeN p 2 = Nat.lor (s.readNodeN p 2) 0x200 ∨ t.readNodeN p 2 = Nat.lor (s.readNodeN p 2) 0x300)) ∧
  ∀ (s : State) g l k va n al ac pl,
    let t := (s.resolve g l k va n al ac pl).2
    t.groups = s.groups ∧ t.acc = s.acc ∧ t.sb = s.sb ∧ t.ctxs = s.ctxs ∧ t.teams = s.teams ∧ t.nextId = s.nextId

/-- What making an access outstanding does and leaves (R167): the access stands under the next number, its destination registers
and cursors are empty, and no other access, register value, thread, buffered store or byte of memory changes. A store entered
in the store buffer stands there under the next number and changes no byte yet (R164). -/
def OutstandingAccessFrame : Prop :=
  (∀ (s : State) (a : Acc), (s.thread? a.g a.lane).isSome = true →
    let t := s.addAcc a
    alGet? t.acc s.nextId = some a ∧ (∀ k, k ≠ s.nextId → alGet? t.acc k = alGet? s.acc k) ∧ t.nextId = s.nextId + 1 ∧
    t.thread a.g a.lane = { s.thread a.g a.lane with
      vEmpty := (s.thread a.g a.lane).vEmpty ++ a.dst, cEmpty := (s.thread a.g a.lane).cEmpty ++ a.cdst } ∧
    (∀ k, k ≠ a.lane → t.thread? a.g k = s.thread? a.g k) ∧ (∀ h, h ≠ a.g → t.group? h = s.group? h) ∧ t.sb = s.sb ∧
    t.ctxs = s.ctxs ∧ ∀ b, t.byteAt b = s.byteAt b) ∧
  ∀ (s : State) g l ls va p h bs l2 sp,
    let t := s.bufferStore g l ls va (some p) h bs l2 sp none
    alGet? t.sb s.nextId = some
      { core := s.coreOf g, g := g, lane := l, slot := s.slotOf g, va := va, loc := some p, home := h, bytes := bs, l2 := l2,
        spill := sp, park := none, ns := s.ns, pc := (s.thread g l).pc, cyc := s.cycle, mark := (s.thread g l).issues + 1,
        parked := false, lanes := ls, readers := [], rel := none } ∧
    (∀ k, k ≠ s.nextId → alGet? t.sb k = alGet? s.sb k) ∧ t.groups = s.groups ∧ t.acc = s.acc ∧ t.ctxs = s.ctxs ∧
    ∀ b, t.byteAt b = s.byteAt b

/-- Translations and accesses made outstanding change nothing but what is their own (R108, R164, R167). -/
def Obligations.TranslationsAndAccessesFrame : Prop := TranslationSetsAccessedAndDirty ∧ OutstandingAccessFrame

/-- The access of a load of one thread. -/
def ldAcc (e : Eff) (u : State) (g l : Nat) (op : AccOp) : Acc :=
  { u.newAcc g l (u.addrA g l e) op with dst := e.d.vregs e.nd, acq := e.acqOf (u.addrA g l e) }

/-- `LD` issues on every path that its address names: the access is outstanding, bound to the place that the address reaches, or
parked on a non-fatal fault, and the thread goes on; a fault traps with the address in TVAL, and a poisoned sector that L1 does not
serve with 0x169 (R169, R416, R472). One of the compressed view binds the tensor's record and levels as it issues, and where no
earlier access of the thread is outstanding has read its bytes by then (R89, R102); one on the pool or peer path holds the thread until
it lands (log 74). -/
def LoadsIssue : Prop :=
  WhenSolo specLd fun f e s u g l => memReady e u g l = true →
    let va := u.addrA g l e
    let n := e.accBytes e.nd
    let load := ldAcc e u g l (.load e.ty n (e.l1 == 1) false e.l1 e.l2)
    let const := ldAcc e u g l (.const e.ty n none e.l1)
    let r := u.resolve g l .load va n n 0x094 (e.ctlForm n)
    let tail := fun (t : State) (a : Acc) (x : Rsv) => (t.tailOf a x n).any fun q => t.rsvPoisoned q.1 q.2
    (∀ p h t, r = (.mem p h, t) → t.readPoisoned load (.mem p h) n load.past = false →
      Passes (.ld f) s g l e
        (t.addAcc { load with tgt := some (.mem p), home := h, hold := p.untracked || t.rsvPoisoned (.mem p h) n })) ∧
    (∀ p h t, r = (.mem p h, t) → t.readPoisoned load (.mem p h) n load.past = true → Traps (.ld f) s u g l 0x169 va) ∧
    (∀ i j o t, r = (.spad i j o, t) → Passes (.ld f) s g l e (t.addAcc { load with tgt := some (.spad i j o) })) ∧
    (∀ p h t, r = (.const p h, t) → t.readPoisoned const (.const p h) n .constant = false →
      Passes (.ld f) s g l e (t.addAcc { const with
        tgt := some (.mem p), home := h, hold := tail t const (.const p h) || p.untracked || t.rsvPoisoned (.const p h) n })) ∧
    (∀ p h t, r = (.const p h, t) → t.readPoisoned const (.const p h) n .constant = true → Traps (.ld f) s u g l 0x169 va) ∧
    (∀ off t, r = (.param off, t) → Passes (.ld f) s g l e (t.addAcc (ldAcc e u g l (.const e.ty n
      (some ((List.range n).map fun i =>
        (((alGet? u.launches (((u.group? g).map (·.launch)).getD 0)).map (·.params)).getD []).getD (off + i) 0)) e.l1)))) ∧
    (∀ i x t ts t1 bs t2, r = (.view i x, t) →
      ((t.viaWalker g l t.now).forView []).bindAll i t = .ok ts t1 →
      (((t.viaWalker g l t.now).forView []).forView ts).viewWhole (ts.headD ⟨0, 0, []⟩) x n va t1 = .ok bs t2 →
      (t2.readsBound g l = true →
        Passes (.ld f) s g l e (t2.addAcc { ldAcc e u g l (.value (loadWords e.ty bs)) with recs := ts })) ∧
      (t2.readsBound g l = false →
        Passes (.ld f) s g l e (t2.addAcc { ldAcc e u g l (.view e.ty n i x) with recs := ts, hold := true }))) ∧
    (∀ i x t t1 c tv, r = (.view i x, t) → ((t.viaWalker g l t.now).forView []).bindAll i t = .error (.fault c tv) t1 →
      Traps (.ld f) s u g l c tv) ∧
    (∀ off t x t', r = (.ctl off, t) → t.releaseReady g l .sys = true → t.ctlRead (t.slotOf g) off n = some (x, t') →
      Passes (.ld f) s g l e (t'.addAcc (ldAcc e u g l (.value (loadWords e.ty (toBytes n x)))))) ∧
    (∀ off t, r = (.ctl off, t) → t.releaseReady g l .sys = true → t.ctlRead (t.slotOf g) off n = none →
      Traps (.ld f) s u g l 0x089 va) ∧
    (∀ p t, r = (.park p, t) → Passes (.ld f) s g l e
      ((t.addAcc { (if fld va 60 4 = 4 then const else load) with park := some p, parked := true }).parkFault p.slot
        (u.coreOf g) 0 p)) ∧
    ∀ c t, r = (.fault c, t) → Traps (.ld f) s u g l c va

/-- A load that lands (R167, R169, R400): where no cache line or buffered store stands before the home, no earlier access or
owning command holds it back, and no other load of its instruction is served with it (R163), its registers are full with the words of the bytes at the home, narrow types extended, and the
access is gone; every other register, thread and byte stays. -/
def Obligations.LoadsLand : Prop :=
  ∀ (s : State) id a ty n fr home l1 l2 p, alGet? s.acc id = some a → a.op = .load ty n fr home l1 l2 →
    a.tgt = some (.mem (.node p)) → a.park = none → a.lanes = [] → s.dstLocked id a = false →
    s.earlierSame a.g a.lane id a.tgt a.va a.op.size = false → s.passBehind a = false → s.mates id a = [(id, a)] →
    s.targetOwned (.mem (.node p)) n = false → s.poisoned p n = false → p % 64 + n ≤ 64 → cacheSector (s.core a.core).l1 (.node p) = none →
    (∀ q ∈ s.sb, q.2.core ≠ a.core) → a.cdst = [] → a.cc = none → a.dst.Nodup →
    (s.thread? a.g a.lane).isSome = true → (s.thread a.g a.lane).exited = false →
      ∃ t, exec (.loadResult id .local) s = .next t ∧ t.acc = alDel s.acc id ∧
        (∀ (i r : Nat) (w : Word), a.dst[i]? = some r → (loadWords ty (s.readNode p n))[i]? = some w →
          (t.thread a.g a.lane).vreg r = w ∧ r ∉ (t.thread a.g a.lane).vEmpty) ∧
        (∀ r, r ∉ a.dst → (t.thread a.g a.lane).vreg r = (s.thread a.g a.lane).vreg r) ∧
        (t.thread a.g a.lane).pc = (s.thread a.g a.lane).pc ∧ (t.thread a.g a.lane).cc = (s.thread a.g a.lane).cc ∧
        (∀ k, k ≠ a.lane → t.thread? a.g k = s.thread? a.g k) ∧ (∀ h, h ≠ a.g → t.group? h = s.group? h) ∧ t.sb = s.sb ∧
        ∀ b, t.byteAt b = s.byteAt b

/-- `ST` of one thread issues: a store to memory for which the store buffer has room waits there with the bytes of its registers and
changes no byte yet, a store to the scratchpad that no earlier access holds back writes its bank, a parked one waits for its page,
and a fault traps with the address in TVAL (R164, R170, R472). -/
def StoresIssue : Prop :=
  WhenSolo specSt fun f e s u g l => memReady e u g l = true →
    let va := u.addrA g l e
    let bs := u.dataB g l e
    let r := u.resolve g l .store va bs.length bs.length 0x094 (e.ctlForm bs.length)
    let behind := fun (t : State) (x : Target) =>
      t.earlierSame g l t.now (some x) va bs.length || t.sstAhead g t.now x bs.length
    (∀ p h t, r = (.mem p h, t) → t.storeRoom g va (.mem p h) = true →
      Passes (.st f) s g l e (t.bufferStore g l [] va (some p) h bs e.l2 false none)) ∧
    (∀ i j o t, r = (.spad i j o, t) → behind t (.spad i j o) = false →
      Passes (.st f) s g l e (t.modSpad i j fun x => x.write o bs)) ∧
    (∀ i j o t, r = (.spad i j o, t) → behind t (.spad i j o) = true →
      Passes (.st f) s g l e (t.addAcc { t.newAcc g l va (.sst bs) with tgt := some (.spad i j o) })) ∧
    (∀ off t t', r = (.ctl off, t) → t.releaseReady g l .sys = true →
      t.ctlWrite (t.slotOf g) off bs.length (ofBytes bs) = some t' → Passes (.st f) s g l e t') ∧
    (∀ off t, r = (.ctl off, t) → t.releaseReady g l .sys = true →
      t.ctlWrite (t.slotOf g) off bs.length (ofBytes bs) = none → Traps (.st f) s u g l 0x089 va) ∧
    (∀ p t, r = (.park p, t) → t.storeRoom g va (.park p) = true → Passes (.st f) s g l e
      ((t.bufferStore g l [] va none 0 bs e.l2 false (some p)).parkFault p.slot (t.coreOf g) 0 p)) ∧
    ∀ c t, r = (.fault c, t) → Traps (.st f) s u g l c va

/-- `LD` and `ST` issue (R163 to R170). -/
def Obligations.LoadsAndStoresIssue : Prop := LoadsIssue ∧ StoresIssue

/-- A store drained to its home in node space (R119, R164): exactly its bytes change, the entry leaves the buffer, and no thread,
group, access or context changes. -/
def Obligations.StoresReachTheirHome : Prop :=
  ∀ (s : State) id x a, alGet? s.sb id = some x → x.park = none → x.loc = some (.node a) → s.storeBehind id x = false →
    s.ownedBy none a x.bytes.length = false → s.nodeOk a x.bytes.length = true →
      ∃ t, exec (.storeBufferDrain id .local) s = .next t ∧ t.sb = alDel s.sb id ∧
        (∀ (i : Nat) (b : Byte), x.bytes[i]? = some b → t.byteAt (a + i) = b) ∧
        (∀ b, b < a ∨ a + x.bytes.length ≤ b → t.byteAt b = s.byteAt b) ∧
        t.groups = s.groups ∧ t.acc = s.acc ∧ t.ctxs = s.ctxs ∧ t.cmds = s.cmds

/-- The row of `LDFE`. -/
def specLdfe (f : Fields) : Spec :=
  { Spec.plain with types := tysLd, var := varFe f, d := ⟨.src, feRegs f⟩, a := slPair, scope := some .core, l2 := true, imm := true }

/-- The row of `STFE`. -/
def specStfe (f : Fields) : Spec :=
  { Spec.plain with
    types := tysLd, var := varFe f, a := slPair, b := slData (feRegs f), scope := some .core, l2 := true, imm := true,
    rels := true }

/-- The row of `FECLR`. -/
def specFeclr (f : Fields) : Spec :=
  { Spec.plain with
    types := [.n32], var := if f.var = 1 then 1 else 0, a := slPair, b := slSrc32, scope := some .core, l2 := true, imm := true }

/-- Full/empty accesses of one thread: `LDFE` waits as an access of its granule, `STFE` writes and fills an empty one (or waits,
with `.wempty`, for a full one), `FECLR` sets the granules of a range, once its thread's earlier accesses there are done; a place that is no scratchpad traps with 0x096 or its own
cause (R171 to R174). -/
def FullEmptyCompletes : Prop :=
  WhenSolo specLdfe (fun f e s u g l => memReady e u g l = true →
    let va := u.addrA g l e
    let n := e.accBytes e.nd
    let r := u.resolve g l .fe va n n 0x094 false
    (∀ i j o t, r = (.spad i j o, t) → Passes (.ldfe f) s g l e (t.addAcc { t.newAcc g l va (.ldfe e.ty n (bit e.var 0)) with
      dst := e.d.vregs e.nd, acq := some (scopeOn e.scope va), tgt := some (.spad i j o) })) ∧
    ∀ c t, r = (.fault c, t) → Traps (.ldfe f) s u g l c va) ∧
  WhenSolo specStfe (fun f e s u g l => stfeReady e u g l = true →
    let va := u.addrA g l e
    let bs := u.dataB g l e
    let r := u.resolve g l .fe va bs.length bs.length 0x094 false
    (∀ i j o t, r = (.spad i j o, t) → t.stfeAhead g l t.now = false → (bit e.var 0 = false ∨ (t.spad i j).isFull o = false) →
      Passes (.stfe f) s g l e ((t.modSpad i j fun x => (x.write o bs).setFull o true).defer g l)) ∧
    (∀ i j o t, r = (.spad i j o, t) → (t.stfeAhead g l t.now = true ∨ (bit e.var 0 = true ∧ (t.spad i j).isFull o = true)) →
      Passes (.stfe f) s g l e (t.addAcc { t.newAcc g l va (.stfe bs (bit e.var 0)) with tgt := some (.spad i j o) })) ∧
    ∀ c t, r = (.fault c, t) → Traps (.stfe f) s u g l c va) ∧
  WhenSolo specFeclr (fun f e s u g l => memReady e u g l = true →
    let va := u.addrA g l e
    let n := u.rdB g l e
    let r := u.resolve g l .fe va n 16 0x094 false
    (n = 0 → Passes (.feclr f) s g l e u) ∧
    (∀ i j o t, n ≠ 0 → n % 16 = 0 → r = (.spad i j o, t) → t.earlierSame g l t.now (some (.spad i j o)) va n = false →
      Passes (.feclr f) s g l e ((t.modSpad i j fun x => x.setRange o n e.v0).defer g l)) ∧
    (∀ i j o t, n ≠ 0 → n % 16 = 0 → r = (.spad i j o, t) → t.earlierSame g l t.now (some (.spad i j o)) va n = true →
      Passes (.feclr f) s g l e (t.addAcc { t.newAcc g l va (.feclr n e.v0) with tgt := some (.spad i j o) })) ∧
    (∀ i j o t, n % 16 ≠ 0 → r = (.spad i j o, t) → Traps (.feclr f) s u g l 0x094 va) ∧
    ∀ c t, n ≠ 0 → r = (.fault c, t) →
      Traps (.feclr f) s u g l (if c = 0x082 ∧ n % 16 ≠ 0 ∧ fld va 19 41 = 0 then 0x094 else c) va)

/-- A waiting `LDFE` of a full granule, served alone and in the order of its bank, lands (R158, R172): its registers hold the granule's bytes and, without `.keep`, the granule
becomes empty; nothing of memory changes. -/
def FullGranuleLands : Prop :=
  ∀ (s : State) id a ty n keep i j o, alGet? s.acc id = some a → a.op = .ldfe ty n keep → a.tgt = some (.spad i j o) →
    a.park = none → s.dstLocked id a = false → s.earlierSame a.g a.lane id a.tgt a.va a.op.size = false →
    s.passBehind a = false → s.mates id a = [(id, a)] → s.bankBehind a = false →
    a.cdst = [] → a.cc = none → a.dst.Nodup → (s.thread? a.g a.lane).isSome = true → (s.thread a.g a.lane).exited = false →
    ((s.spad i j).isFull o = true → s.ldfeBehind id a keep i j o = false →
      ∃ t, exec (.loadResult id .local) s = .next t ∧ t.acc = alDel s.acc id ∧
        (∀ (k r : Nat) (w : Word), a.dst[k]? = some r → (loadWords ty ((s.spad i j).read o n))[k]? = some w →
          (t.thread a.g a.lane).vreg r = w ∧ r ∉ (t.thread a.g a.lane).vEmpty) ∧
        (∀ r, r ∉ a.dst → (t.thread a.g a.lane).vreg r = (s.thread a.g a.lane).vreg r) ∧
        (keep = true → t.spad i j = s.spad i j) ∧
        (keep = false → (alGet? s.teams i).isSome = true → (t.spad i j) = (s.spad i j).setFull o false) ∧
        (∀ h, h ≠ a.g → t.group? h = s.group? h) ∧ ∀ b, t.byteAt b = s.byteAt b) ∧
    ((s.spad i j).isFull o = false → exec (.loadResult id .local) s = .next s)

/-- Full/empty accesses complete, and a waiting `LDFE` lands (R171 to R174). -/
def Obligations.FullEmptyAccessesCompleteAndLand : Prop := FullEmptyCompletes ∧ FullGranuleLands

/-- An atomic or queue operation of one thread issues: it waits as an access of the place that its address reaches, whose sectors
leave the core's L1; a parked one waits for its page; a poisoned sector traps with 0x169 and a fault with its own cause, TVAL being
the address (R162, R178, R181, R416). A queue operation, and one on the pool or peer path, holds its thread until it is performed
(log 74). -/
def AtomIssues (i : Fields → Instr) (sp : Fields → Spec) (addr : State → Nat → Nat → Eff → Dword)
    (op : Fields → Eff → State → Nat → Nat → AtomOp) (size : Fields → Eff → Nat) (dst : Eff → List Nat)
    (cc : Eff → Option (BitVec 2)) : Prop :=
  WhenSolo sp fun f e s u g l => readyAt e u g l e.rel (addr u g l e) = true →
    let va := addr u g l e
    let o := op f e u g l
    let acc := { u.newAcc g l va (.atom o) with dst := dst e, cc := cc e, acq := e.acqOf va, hold := o.isQueue, l2 := e.l2 }
    let r := u.resolve g l .atomic va (size f e) (size f e) 0x094 false
    (∀ p h t, r = (.mem p h, t) → t.rsvPoisoned (.mem p h) (size f e) = false →
      Passes (i f) s g l e ((t.dropL1 (t.coreOf g) p (size f e)).addAcc
        { acc with tgt := some (.mem p), home := h, hold := o.isQueue || p.untracked })) ∧
    (∀ a b x t, r = (.spad a b x, t) → Passes (i f) s g l e (t.addAcc { acc with tgt := some (.spad a b x) })) ∧
    (∀ p t, r = (.park p, t) → Passes (i f) s g l e
      ((t.addAcc { acc with park := some p, parked := true, hold := false }).parkFault p.slot (u.coreOf g) 0 p)) ∧
    (∀ p h t, r = (.mem p h, t) → t.rsvPoisoned (.mem p h) (size f e) = true → Traps (i f) s u g l 0x169 va) ∧
    ∀ c t, r = (.fault c, t) → Traps (i f) s u g l c va

/-- The row of `ATOMC`. -/
def specAtomc (f : Fields) : Spec :=
  { Spec.plain with
    types := [.n32, .s32, .n64, .s64], var := f.var &&& 3, d := slSrc, a := slPair,
    b := slAtom (effTy [.n32, .s32, .n64, .s64] f), c := slAtom (effTy [.n32, .s32, .n64, .s64] f), scope := some .thr,
    l2 := true, ord := some (true, true), imm := true }

/-- The atomic instructions and the work-queue instructions issue (R178 to R182). -/
def AtomicsIssue : Prop :=
  AtomIssues .atom (specAtom false) State.addrAtom
    (fun f e s g l => .rmw (atomCode false f) e.ty (BitVec.ofNat 64 (s.rdB g l e))) (fun _ e => tyBits e.ty / 8)
    (fun e => e.d.vregs e.nd) (fun _ => none) ∧
  AtomIssues .red (specAtom true) State.addrAtom
    (fun f e s g l => if atomCode true f = 10 then .padd e.ty (BitVec.ofNat 64 (s.rdB g l e)) (modeFtzi (s.mode g))
      else .rmw (atomCode true f) e.ty (BitVec.ofNat 64 (s.rdB g l e)))
    (fun f e => if atomCode true f = 10 then 64 else tyBits e.ty / 8) (fun _ => []) (fun _ => none) ∧
  AtomIssues .atomc specAtomc State.addrA
    (fun _ e s g l => .cas e.ty (BitVec.ofNat 64 (s.rdB g l e)) (BitVec.ofNat 64 (s.rdC g l e)))
    (fun _ e => tyBits e.ty / 8) (fun e => e.d.vregs e.nd) (fun _ => none) ∧
  AtomIssues .qpush (specQueue slNone ⟨.vec, 2⟩) State.addrA (fun _ e s g l => .push (BitVec.ofNat 64 (s.rdB g l e)))
    (fun _ _ => 16) (fun _ => []) Eff.ccC ∧
  AtomIssues .qpop (specQueue slSrc64 slNone) State.addrA (fun _ _ _ _ _ => .pop) (fun _ _ => 16) (fun e => e.d.vregs 2)
    Eff.ccC ∧
  AtomIssues .qsteal (specQueue slSrc64 slNone) State.addrA (fun _ _ _ _ _ => .steal) (fun _ _ => 16)
    (fun e => e.d.vregs 2) Eff.ccC

/-- An atomic whose turn it is at its home in node space performs in one step (R178, R179, R182): a read-modify-write stores the
new value of Table 7-3 and returns the old one; a compare-and-swap stores only where the old value is the one compared; a push
on a queue that is not full stores its word at the slot of `top`, which its own address reaches, and raises `top`; a pop of one that
is not empty lowers `top` and returns the word there; a malformed queue ends the operation with 0x097. Bytes outside those stored, and every other group, stay. -/
def Obligations.AtomicsPerformAtTheirHome : Prop :=
  ∀ (s : State) id a op p, alGet? s.acc id = some a → a.op = .atom op → a.tgt = some (.mem (.node p)) → a.park = none →
    s.dstLocked id a = false → s.earlierSame a.g a.lane id a.tgt a.va a.op.size = false →
    s.targetOwned (.mem (.node p)) a.op.size = false → s.ownBuffered id a = false → s.atomBehind id a = false →
    s.passBehind a = false → (op.isQueue = true → s.queueBehind id a = false) → s.poisoned p a.op.size = false → a.cdst = [] → a.dst.Nodup →
    (s.thread? a.g a.lane).isSome = true → (s.thread a.g a.lane).exited = false →
    (∀ code ty b, op = .rmw code ty b → s.nodeOk p (tyBits ty / 8) = true →
      let n := tyBits ty / 8
      let old := s.readNodeN p n
      ∃ t, exec (.loadResult id .local) s = .next t ∧ t.acc = alDel s.acc id ∧
        t.readNode p n = toBytes n (atomNew code ty old (b.toNat % 2 ^ tyBits ty)) ∧
        (∀ x, x < p ∨ p + n ≤ x → t.byteAt x = s.byteAt x) ∧ (∀ h, h ≠ a.g → t.group? h = s.group? h) ∧
        ∀ (i r : Nat) (w : Word), a.dst[i]? = some r → (loadWords ty (toBytes n old))[i]? = some w →
          (t.thread a.g a.lane).vreg r = w) ∧
    (∀ ty b c, op = .cas ty b c → s.nodeOk p (tyBits ty / 8) = true →
      let n := tyBits ty / 8
      let old := s.readNodeN p n
      ∃ t, exec (.loadResult id .local) s = .next t ∧ t.acc = alDel s.acc id ∧
        t.readNode p n = (if old = b.toNat % 2 ^ tyBits ty then toBytes n c.toNat else s.readNode p n) ∧
        (∀ x, x < p ∨ p + n ≤ x → t.byteAt x = s.byteAt x) ∧ (∀ h, h ≠ a.g → t.group? h = s.group? h) ∧
        ∀ (i r : Nat) (w : Word), a.dst[i]? = some r → (loadWords ty (toBytes n old))[i]? = some w →
          (t.thread a.g a.lane).vreg r = w) ∧
    (∀ b cap top bot q h u, op = .push b → s.slotOf' id a op (.mem (.node p)) = (.at' (.mem (.node q)) h, u) →
      queueBad (u.readNodeN p 16) = false → cap = 2 ^ fldN (u.readNodeN p 16) 64 5 →
      top = u.readNodeN p 4 → bot = u.readNodeN (p + 4) 4 → (top + 2 ^ 32 - bot) % 2 ^ 32 < cap →
      u.nodeOk p 16 = true → u.nodeOk q 8 = true → (q + 8 ≤ p ∨ p + 4 ≤ q) →
      ∃ t, exec (.loadResult id .local) s = .next t ∧ t.acc = alDel s.acc id ∧
        t.readNodeN q 8 = b.toNat ∧ t.readNodeN p 4 = (top + 1) % 2 ^ 32 ∧
        (∀ x, (x < p ∨ p + 4 ≤ x) → (x < q ∨ q + 8 ≤ x) → t.byteAt x = u.byteAt x) ∧
        ∀ n, a.cc = some n → (t.thread a.g a.lane).flags n =
          mkFlags false false ((top + 1) % 2 ^ 32 == bot) false) ∧
    (∀ cap top bot q h u, op = .pop → s.slotOf' id a op (.mem (.node p)) = (.at' (.mem (.node q)) h, u) →
      queueBad (u.readNodeN p 16) = false → cap = 2 ^ fldN (u.readNodeN p 16) 64 5 →
      top = u.readNodeN p 4 → bot = u.readNodeN (p + 4) 4 → top ≠ bot → u.nodeOk p 16 = true → u.nodeOk q 8 = true →
      ∃ t, exec (.loadResult id .local) s = .next t ∧ t.acc = alDel s.acc id ∧
        t.readNodeN p 4 = (top + 2 ^ 32 - 1) % 2 ^ 32 ∧ (∀ x, x < p ∨ p + 4 ≤ x → t.byteAt x = u.byteAt x) ∧
        ∀ (i r : Nat) (w : Word), a.dst[i]? = some r → (AtomOp.pop.words (u.readNodeN q 8))[i]? = some w →
          (t.thread a.g a.lane).vreg r = w) ∧
    (op.isQueue = true → queueBad (s.readNodeN p 16) = true →
      exec (.loadResult id .local) s = .next (s.failed id a 0x097 a.va))

/-- `PREF` goes on and leaves every register, group, store and context; the accesses that it adds only prefetch. `PROBE` delivers its
report as a load, that of a place outside the device when it answers; `FENCE` goes on once what its halves order is performed (R175,
R177, R408). -/
def PrefetchProbeFenceComplete : Prop :=
  WhenSolo (fun _ => { Spec.plain with types := [.n32], a := slPair, l1 := true, l2 := true, imm := true }) (fun f e s u g l =>
    ∃ t, Passes (.pref f) s g l e t ∧ t.groups = u.groups ∧ (∀ p ∈ t.acc, p ∈ u.acc ∨ p.2.op.isPref = true) ∧ t.sb = u.sb ∧
      t.ctxs = u.ctxs) ∧
  WhenSolo (fun f => { Spec.plain with
      types := [.n32], var := if f.var = 1 then 1 else 0, d := slSrc32, a := slPair, l2 := true, imm := true }) (fun f e s u g l =>
    let va := u.addrA g l e
    let r := (u.resolve g l (if e.v0 then .store else .load) va 1 1 0x094 true).1
    (∀ p h, r = .mem p h → p.untracked = true → Passes (.probe f) s g l e
      (u.addAcc { u.newAcc g l va (.probe (u.probeKnown g va)) with tgt := some (.mem p), dst := e.d.vregs 1 })) ∧
    ∀ x, (∀ p h, r = .mem p h → p.untracked = false) → u.probe g l va e.v0 r = some x → Passes (.probe f) s g l e
      (u.addAcc { u.newAcc g l va (.value [BitVec.ofNat 32 (x + u.probeKnown g va)]) with dst := e.d.vregs 1 })) ∧
  WhenSolo (fun f => { Spec.plain with var := f.var &&& 7, scope := some .grp, rels := (fenceHalves f.var).2 }) (fun f e s u g l =>
    u.acqPending g l = false → ((fenceHalves e.var).1 = true → u.readsBound g l = true) →
    ((fenceHalves e.var).2 = true → u.releaseReady g l e.scope = true) →
    ∃ t, Passes (.fence f) s g l e t ∧
      t.groups = (if (fenceHalves e.var).1 then u.modThread g l fun x => { x with lastAcq := u.nextId } else u).groups ∧ t.acc = u.acc ∧ t.sb = u.sb ∧ ∀ a, t.byteAt a = u.byteAt a)

/-- Atomics, queue operations, `PREF`, `PROBE` and `FENCE` issue (R175 to R182, R408). -/
def Obligations.AtomicsPrefetchesAndFencesIssue : Prop := AtomicsIssue ∧ PrefetchProbeFenceComplete

/-! ## Ply images (R299, R300) -/

/-- A trap of an instruction that acts once for its sub-group of one thread. -/
def TrapsOnce (i : Instr) (s u : State) (g l : Nat) (cause : Nat) (tval : Dword) : Prop := exec i s = .next (u.trap g l cause tval)

/-- The rows of the ply images. -/
def specPst (cell : Bool) : Fields → Spec := fun _ =>
  if cell then { Spec.plain with var := 1, a := slPair, b := slPly, imm := true }
  else { Spec.plain with a := slPair, b := slPly2, imm := true }

/-- The rows of the ply image loads. -/
def specPld (cell : Bool) : Fields → Spec := fun _ =>
  if cell then { Spec.plain with var := 1, d := slPly, a := slPair, imm := true }
  else { Spec.plain with d := slPly2, a := slPair, imm := true, tileOk := true }

/-- The pieces of the image that one thread stores: where each lies and its bytes (R299). -/
def imagePieces (u : State) (g l : Nat) (e : Eff) : List ((Nat × Nat) × List Byte) :=
  (u.imageParts g e.b [l]).flatMap fun p =>
    (atomsOf (u.addrA g l e) p.1 p.2.length).map fun q => (q, (p.2.drop (q.1 - p.1)).take q.2)

/-- The stores of an image: each piece at the address of the image plus its offset. -/
def storePieces (g l : Nat) (va : Dword) (rs : List ((Nat × Nat) × Rsv)) (ps : List ((Nat × Nat) × List Byte)) (t : State) : State :=
  (rs.zip ps).foldl (fun (v : State) x => v.store g l [] (va + BitVec.ofNat 64 x.1.1.1) x.1.2 x.2.2 0 false) t

/-- `PSTW` and `PSTW.cell` issue: the image's bytes, or the thread's cell, go to the store path at the address, in aligned
pieces of 16 bytes (R299 to R301); the `.cell` form of a tile is the other form; a fault traps with the address. -/
def PlyImagesStored : Prop :=
  WhenSolo (specPst false) (fun f e s u g l => ∀ i : Instr, (i = .pstw f ∨ (i = .pstwCell f ∧ ∃ k, f.b = .a k)) →
    u.acqPending g l = false →
    u.sbFits (u.coreOf g) ((u.imageParts g e.b [l]).foldl
      (fun n p => n + (piecesOf (u.addrA g l e) p.1 p.2.length).length) 0) = true →
    let va := u.addrA g l e
    let ps := imagePieces u g l e
    (∀ rs t, u.resolveRun g l .store va 16 (ps.map (·.1)) = (.inr rs, t) → (rs.any fun r => r.2 == .wait) = false →
      Passes i s g l e (storePieces g l va rs ps t)) ∧
    ∀ c t, u.resolveRun g l .store va 16 (ps.map (·.1)) = (.inl c, t) → TrapsOnce i s u g l c va) ∧
  WhenSolo (specPst true) (fun f e s u g l => isTile f.b = false → u.acqPending g l = false →
    let va := u.addrA g l e
    let bs := (u.plyElem g l e.b).1.cell (u.plyElem g l e.b).2
    let r := u.resolve g l .store va 64 64 0x094 false
    (∀ p h t, r = (.mem p h, t) → t.storeRoom g va (.mem p h) = true →
      Passes (.pstwCell f) s g l e (t.bufferStore g l [] va (some p) h bs 0 false none)) ∧
    (∀ i j o t, r = (.spad i j o, t) → t.earlierSame g l t.now (some (.spad i j o)) va 64 = false →
      t.sstAhead g t.now (.spad i j o) 64 = false → Passes (.pstwCell f) s g l e (t.modSpad i j fun x => x.write o bs)) ∧
    (∀ i j o t, r = (.spad i j o, t) →
      (t.earlierSame g l t.now (some (.spad i j o)) va 64 || t.sstAhead g t.now (.spad i j o) 64) = true →
      Passes (.pstwCell f) s g l e (t.addAcc { t.newAcc g l va (.sst bs) with tgt := some (.spad i j o) })) ∧
    (∀ p t, r = (.park p, t) → t.storeRoom g va (.park p) = true → Passes (.pstwCell f) s g l e
      ((t.bufferStore g l [] va none 0 bs 0 false (some p)).parkFault p.slot (t.coreOf g) 0 p)) ∧
    ∀ c t, r = (.fault c, t) → Traps (.pstwCell f) s u g l c va)

/-- `PLDW` of one thread issues: the thread waits at the instruction with one access outstanding for every piece of the image, and
`PLDW.cell` goes on with one access for its cell, on every path that its address names; an image on the compressed view is one read,
which binds its records at issue (R102); a fault traps with the address (R299, R300). -/
def PlyImagesLoaded : Prop :=
  WhenSolo (specPld false) (fun f e s u g l => ∀ i : Instr, (i = .pldw f ∨ (i = .pldwCell f ∧ ∃ k, f.d = .a k)) →
    memReadyOnce e u g l [l] = true → fld (u.addrA g l e) 60 4 ≠ 5 →
    let va := u.addrA g l e
    let wants := (u.imageWants g (isTile f.d) [l]).flatMap fun p => atomsOf va p.1 p.2
    (∀ rs t, u.resolveRun g l .load va 16 wants = (.inr rs, t) → (rs.any fun r => r.2 == .wait) = false →
      ∃ t', exec i s = .next t' ∧ (t'.thread g l).wait = .image ∧ (t'.thread g l).pc = (s.thread g l).pc ∧
        (∀ k, k ≠ l → t'.thread? g k = s.thread? g k) ∧ (∀ h, h ≠ g → t'.group? h = s.group? h) ∧
        ((∀ x ∈ rs, ∀ q, x.2 ≠ .park q) → ∀ b, t'.byteAt b = t.byteAt b) ∧
        ∀ (k o n : Nat) (p : Loc) (h : Nat), rs[k]? = some ((o, n), .mem p h) →
          (∀ x ∈ rs, ∃ q w, x.2 = .mem q w) → ∃ a, alGet? t'.acc (t.nextId + 1 + k) = some a ∧
          a.op = .image t.nextId o n ∧ a.tgt = some (.mem p) ∧ a.va = va + BitVec.ofNat 64 o ∧ a.g = g ∧ a.lane = l) ∧
    ∀ c t, u.resolveRun g l .load va 16 wants = (.inl c, t) → TrapsOnce i s u g l c va) ∧
  WhenSolo (specPld false) (fun f e s u g l => ∀ i : Instr, (i = .pldw f ∨ (i = .pldwCell f ∧ ∃ k, f.d = .a k)) →
    memReadyOnce e u g l [l] = true → fld (u.addrA g l e) 60 4 = 5 →
    let va := u.addrA g l e
    let n := (u.imageWants g (isTile f.d) [l]).foldl (fun (m : Nat) p => max m (p.1 + p.2)) 0
    (∀ j x t ts t1 bs t2, u.resolveRun g l .load va 16 [(0, n)] = (.inr [((0, n), .view j x)], t) →
      let v := (t.beginImage g e (isTile f.d) [l] va 1).2
      ((v.viaWalker g l v.now).forView []).bindAll j v = .ok ts t1 →
      (((v.viaWalker g l v.now).forView []).forView ts).viewWhole (ts.headD ⟨0, 0, []⟩) x n va t1 = .ok bs t2 →
      exec i s = .next ((t2.addAcc { v.newAcc g l va (.image (t.beginImage g e (isTile f.d) [l] va 1).1 0 n) with
        recs := ts, hold := true }).also g l e 0)) ∧
    (∀ j x t t1 c tv, u.resolveRun g l .load va 16 [(0, n)] = (.inr [((0, n), .view j x)], t) →
      let v := (t.beginImage g e (isTile f.d) [l] va 1).2
      ((v.viaWalker g l v.now).forView []).bindAll j v = .error (.fault c tv) t1 → TrapsOnce i s u g l c tv) ∧
    ∀ c t, u.resolveRun g l .load va 16 [(0, n)] = (.inl c, t) → TrapsOnce i s u g l c va) ∧
  WhenSolo (specPld true) (fun f e s u g l => isTile f.d = false → u.acqPending g l = false →
    let va := u.addrA g l e
    let reg := match e.d with
      | .p k => k.toNat
      | _ => 16
    let acc := u.newAcc g l va (.cell reg)
    let r := u.resolve g l .load va 64 64 0x094 false
    let tail := fun (t : State) (x : Rsv) => (t.tailOf acc x 64).any fun q => t.rsvPoisoned q.1 q.2
    (∀ x p h t, (x = .mem p h ∨ x = .const p h) → r = (x, t) →
      (t.readPoisoned acc x 64 .none = false →
        Passes (.pldwCell f) s g l e (t.addAcc { acc with
          tgt := some (.mem p), home := h, hold := tail t x || p.untracked || t.rsvPoisoned x 64 })) ∧
      (t.readPoisoned acc x 64 .none = true → Traps (.pldwCell f) s u g l 0x169 va)) ∧
    (∀ off t, r = (.param off, t) → Passes (.pldwCell f) s g l e (t.addAcc acc)) ∧
    (∀ i x t ts t1 bs t2, r = (.view i x, t) → ((t.viaWalker g l t.now).forView []).bindAll i t = .ok ts t1 →
      (((t.viaWalker g l t.now).forView []).forView ts).viewWhole (ts.headD ⟨0, 0, []⟩) x 64 va t1 = .ok bs t2 →
      Passes (.pldwCell f) s g l e (t2.addAcc { acc with recs := ts, hold := true })) ∧
    (∀ i j o t, r = (.spad i j o, t) → Passes (.pldwCell f) s g l e (t.addAcc { acc with tgt := some (.spad i j o) })) ∧
    (∀ p t, r = (.park p, t) → Passes (.pldwCell f) s g l e
      ((t.addAcc { acc with park := some p, parked := true }).parkFault p.slot (u.coreOf g) 0 p)) ∧
    ∀ c t, r = (.fault c, t) → Traps (.pldwCell f) s u g l c va)

/-- The last piece of an image lands (R299): where its header is a right one, the holder has the header's anchor and the elements of
its loading lanes, and those lanes go on past their instruction; where it is not, the loading thread traps with 0x047, the address of the image in
TVAL. No byte of memory changes. -/
def PlyImagesLand : Prop :=
  ∀ (s : State) id a img off n p x m, alGet? s.acc id = some a → a.op = .image img off n → a.tgt = some (.mem (.node p)) →
    a.park = none → s.dstLocked id a = false → s.earlierSame a.g a.lane id a.tgt a.va a.op.size = false → s.passBehind a = false →
    s.targetOwned (.mem (.node p)) n = false → s.poisoned p n = false → p % 64 + n ≤ 64 →
    cacheSector (s.core a.core).l1 (.node p) = none → (∀ q ∈ s.sb, q.2.core ≠ a.core) →
    s.group? a.g = some x → alGet? x.pimgs img = some m → m.left = 1 → m.reg < 16 → m.tile = false →
    let byte := fun i => if off ≤ i ∧ i < off + n then (s.readNode p n).getD (i - off) 0 else alGet m.got 0 i
    let bytes := fun o k => (List.range k).map fun i => byte (o + i)
    let h := ofBytes (bytes 0 16)
    (headerOk h false x.width = true → m.lanes.Nodup → (∀ l ∈ m.lanes, (s.thread? a.g l).isSome = true) →
      ∃ t, exec (.loadResult id .local) s = .next t ∧ (t.preg a.g m.reg).anc = BitVec.ofNat 10 h ∧
        (∀ l ∈ m.lanes, (t.preg a.g m.reg).get l = recordElem (bytes (16 + 33 * l) 33) ∧
          (t.thread a.g l).wait = .none ∧ (t.thread a.g l).pc = (s.thread a.g l).pc + 16) ∧
        (∀ g, g ≠ a.g → t.group? g = s.group? g) ∧ ∀ b, t.byteAt b = s.byteAt b) ∧
    ∀ l, headerOk h false x.width = false → m.lanes = [l] → (s.thread? a.g l).isSome = true →
      ∃ u : State, exec (.loadResult id .local) s = .next (u.trap a.g l 0x047 m.va) ∧
        (u.thread a.g l).pc = (s.thread a.g l).pc ∧ ∀ b, u.byteAt b = s.byteAt b

/-- Ply images are stored and loaded (R299, R300). -/
def Obligations.PlyImagesMove : Prop := PlyImagesStored ∧ PlyImagesLoaded ∧ PlyImagesLand

/-! ## Walkers (R195 to R220) -/

/-- A cursor instruction of one thread issues: the operation waits for the walker with the record that it binds (R89), D is empty
until it lands, and the thread goes on; a cursor operand that is none, or of the wrong kind, traps with its cause and the operand's field (R195, R198, R200). -/
def WalkIssues (i : Fields → Instr) (sp : Fields → Spec) (check : Eff → State → Nat → Nat → Option (Nat × Dword))
    (op : Eff → State → Nat → Nat → WalkOp) (appends : Bool) : Prop :=
  WhenSolo sp fun f e s u g l => walkReady e u g l = true →
    (check e u g l = none → Passes (i f) s g l e
      (if appends then (u.walkIssue g l e (op e u g l) 1 none).defer g l else u.walkIssue g l e (op e u g l) 1 none)) ∧
    ∀ c tv, check e u g l = some (c, tv) → Traps (i f) s u g l c tv

/-- The check of the cursor in A. -/
def checkA (append : Bool) (e : Eff) (s : State) (g l : Nat) : Option (Nat × Dword) :=
  curCheck append (s.cursor g l e.a) (e.tvalOf 0)

/-- The check of the append cursor in A, which D must name too (R219, R220). -/
def checkAppend (e : Eff) (s : State) (g l : Nat) : Option (Nat × Dword) :=
  checkA true e s g l <|> if sameCursor e then none else some (0x107, e.tvalOf 0)

/-- The walker instructions that write a cursor issue (R201 to R208, R212, R218 to R220). -/
def CursorInstructionsIssue : Prop :=
  WalkIssues .croot (fun f => specCur (f.var &&& 9) slCur slSrc32 (if bit f.var 0 then slSrc32 else slNone)
      (if bit f.var 0 then slSrc32 else slNone)) (fun _ _ _ _ => none)
    (fun e s g l => .root (s.rdA g l e % 65536) (if e.v0 then s.rdB g l e else 0) (if e.v0 then s.rdC g l e else 0)) false ∧
  WalkIssues .next (fun f => specCur (f.var &&& 8) slCur slCur slNone slNone) (checkA false)
    (fun e s g l => .next (s.cursor g l e.a)) false ∧
  WalkIssues .seek (fun f => specCur (f.var &&& 8) slCur slCur slSrc32 slNone) (checkA false)
    (fun e s g l => .seek (s.cursor g l e.a) (s.rdB g l e)) false ∧
  WalkIssues .desc (fun f => specCur (f.var &&& 8) slCur slCur slNone slNone) (checkA false)
    (fun e s g l => .desc (s.cursor g l e.a)) false ∧
  WalkIssues .csplit (fun f => specCur (f.var &&& 8) slCur slCur slSrc32 slSrc32)
    (fun e s g l => checkA false e s g l <|>
      if (curOf (s.cursor g l e.a)).kind = 6 then some (0x105, e.tvalOf 0)
      else if s.rdB g l e = 0 ∨ s.rdB g l e ≤ s.rdC g l e then some (0x10B, BitVec.ofNat 64 (s.rdB g l e)) else none)
    (fun e s g l => .split (s.cursor g l e.a) (s.rdB g l e) (s.rdC g l e)) false ∧
  WalkIssues .appnd (fun f => { specCur (f.var &&& 8) slCur slCur slSrc32 slSrc32 with scope := some .core, rels := true }) checkAppend
    (fun e s g l => .append (s.cursor g l e.a) (s.rdB g l e) (s.rdC g l e)) true ∧
  WalkIssues .appndOpen (fun f => { specCur (f.var &&& 9) slCur slSrc32 slSrc32 slSrc32 with e := slSrc32, scope := some .core, rels := true })
    (fun _ _ _ _ => none)
    (fun e s g l => .openList (s.rdA g l e % 65536) (s.rdB g l e) (s.rdC g l e) (s.rdE g l e)) true ∧
  WalkIssues .acommit (fun f => { specCur (f.var &&& 9) slCur slCur slNone slNone with scope := some .core, rels := true }) checkAppend
    (fun e s g l => .commit (s.cursor g l e.a) e.v0) true

/-- `COIT` issues with two cursors and its flags to come, for kinds that Table 8-7 joins, and traps with 0x105 for others
(R206 to R208); `CLDV` issues with the value that it can read by then, or holds its thread for it, one of a done cursor giving 0 (log 106), and infers the
tags of a pair (R226); it, `HALLOC` and `HFREE` trap with a cause that the walker meets (R210, R217);
`CRD` and `CTEST` complete at once (R209, R211); `CPREF` changes no register, access or group (R213). -/
def CursorReadsComplete : Prop :=
  WhenSolo (fun f => { specCur (f.var &&& 0xB) ⟨.cur, 2⟩ slCur slCur slCc with outC := true }) (fun f e s u g l => walkReady e u g l = true →
    let a := u.cursor g l e.a
    let b := u.cursor g l e.b
    let fits := if e.v0 then unionKind (curOf a).kind && unionKind (curOf b).kind
      else (coitMethod (curOf a).kind (curOf b).kind).isSome
    let chk := curCheck false a (e.tvalOf 0) <|> curCheck false b (e.tvalOf 1)
    (∀ k, chk = none → fits = true → e.c = .cc k → Passes (.coit f) s g l e
      (u.walkIssue g l e (.coit e.v0 (bit e.var 1) a b) 2 (some k))) ∧
    (chk = none → fits = false → Traps (.coit f) s u g l 0x105 (e.tvalOf 0)) ∧
    ∀ c tv, chk = some (c, tv) → Traps (.coit f) s u g l c tv) ∧
  WhenSolo (fun f => specCur (crdVar f.var) ⟨.src, if crdVar f.var = 1 ∨ crdVar f.var = 2 then 2 else 1⟩ slCur slNone slNone)
    (fun f e s u g l =>
      let c := s.cursor g l e.a
      let ok := (curOf c).valid || ((curOf c).isFault && (curOf c).nf)
      (ok = true → CompletesLane (.crd f) s g l
        (specCur (crdVar f.var) ⟨.src, if crdVar f.var = 1 ∨ crdVar f.var = 2 then 2 else 1⟩ slCur slNone slNone) f 0
        (putDT e (fld c (crdField e.var.toNat).1 (crdField e.var.toNat).2))) ∧
      (ok = false → Traps (.crd f) s u g l 0x102 (e.tvalOf 0))) ∧
  CompletesAs .ctest (fun _ => specCur 0 slCc slCur slNone slNone) (fun e s g l t =>
    let c := curOf (s.cursor g l e.a)
    t.writeCc e.d (mkFlags (!c.valid) c.done (c.done && c.aux == 0 && c.valid) c.append)) ∧
  WhenSolo (fun _ => { specCur 0 slSrc32 slCur slSrc32 slNone with l2 := true }) (fun f e s u g l =>
    walkReady e u g l = true →
    let gives := fun t : State => exec (.cldv f) s = .next (s.tagPairs t)
    let past := fun t : State => gives (((t.also g l e 0).pass g l e.stall).retag g [l] (e.d.vregs e.nd))
    let c := u.cursor g l e.a
    let op := WalkOp.ldv c (u.rdB g l e) e.l2
    let recs := (u.bindRecs g l [(curOf c).tid]).1
    let stop := (u.bindRecs g l [(curOf c).tid]).2.1
    let u1 := (u.bindRecs g l [(curOf c).tid]).2.2
    let run := ({ u1.viaWalker g l u1.now with bound := recs } : Via).run op u1
    (∀ x tv, checkA false e u g l = some (x, tv) → gives (u.trap g l x tv)) ∧
    (checkA false e u g l = none → (curOf c).done = true →
      past (u.addAcc { u.newAcc g l 0 (.value [0]) with dst := e.d.vregs 1 })) ∧
    ∀ k, e.d = .v k → checkA false e u g l = none → (curOf c).done = false →
      (∀ n ∈ ldvMarks recs k.toNat, n ∉ (u1.thread g l).vEmpty) →
      let acc := { u1.newAcc g l 0 (.walk op false) with dst := ldvMarks recs k.toNat, recs := recs }
      (∀ x tv, stop = some (.fault x tv) → gives (u.trap g l x tv)) ∧
      (∀ p, stop = some (.park p) → past (u1.addParked acc p 1)) ∧
      (∀ r t, stop = none → run = .ok r t → u1.readsBound g l = true →
        past (t.addAcc { acc with op := .walk (.got r.ws) false })) ∧
      (∀ r t, stop = none → run = .ok r t → u1.readsBound g l = false → past (u1.addAcc { acc with hold := true })) ∧
      (∀ p t, stop = none → run = .error (.park p) t → past (t.addParked acc p 1)) ∧
      ∀ x tv t, stop = none → run = .error (.fault x tv) t → gives (u.trap g l x tv)) ∧
  WhenSolo (fun _ => specCur 0 slSrc64 slSrc32 slNone slNone) (fun f e s u g l => walkReady e u g l = true →
    let op := WalkOp.alloc (u.rdA g l e)
    (∀ r t, ({ u.viaWalker g l u.now with bound := [] } : Via).run op u = .ok r t → Passes (.halloc f) s g l e
      ((u.addAcc { u.newAcc g l 0 (.walk op false) with dst := e.d.vregs 2, acq := some .dev, hold := true }).defer g l)) ∧
    ∀ x tv t, ({ u.viaWalker g l u.now with bound := [] } : Via).run op u = .error (.fault x tv) t →
      Traps (.halloc f) s u g l x tv) ∧
  WhenSolo (fun _ => { specCur 0 slNone slSrc64 slSrc32 slNone with rels := true }) (fun f e s u g l => walkReady e u g l = true →
    u.releaseReady g l .dev = true →
    let op := WalkOp.free (BitVec.ofNat 64 (u.rdA g l e)) (u.rdB g l e) [l]
    (∀ r t, ({ u.viaWalker g l u.now with bound := [] } : Via).run op u = .ok r t → Passes (.hfree f) s g l e
      ((u.addAcc { u.newAcc g l 0 (.walk op false) with hold := true }).defer g l)) ∧
    ∀ x tv t, ({ u.viaWalker g l u.now with bound := [] } : Via).run op u = .error (.fault x tv) t →
      Traps (.hfree f) s u g l x tv) ∧
  WhenSolo (fun f => { specCur (f.var &&& 1) slNone slCur slSrc32 slNone with l2 := true }) (fun f e s u g l =>
    let c := curOf (u.cursor g l e.a)
    let recs := (u.bindRecs g l [c.tid]).1
    let u1 := (u.bindRecs g l [c.tid]).2.2
    let pre := ({ u1.viaWalker g l u1.now with bound := recs } : Via).prefetch (if e.v0 then some e.l2 else none)
      (min (u.rdB g l e) 4096) c false u1
    (c.valid = false ∨ c.append = true → Passes (.cpref f) s g l e u) ∧
    (∀ t, c.valid = true → c.append = false → (pre = .ok () t ∨ ∃ x, pre = .error x t) → Passes (.cpref f) s g l e t))

/-- Cursor instructions issue or complete (R195 to R220). -/
def Obligations.CursorInstructionsComplete : Prop := CursorInstructionsIssue ∧ CursorReadsComplete

/-- A walker operation that may be performed lands (R195, R198): its cursors are in its registers, which are full, with its flags
in its cc register; a fault leaves the fault form of the cursors, with the cause, and no trap. -/
def Obligations.WalkerResultsLand : Prop :=
  ∀ (s : State) id a op nf, alGet? s.acc id = some a → a.op = .walk op nf → op.deferred = true → s.walkMay id a op = true →
    a.dst = [] → a.cdst.Nodup → a.acq = none →
    (∀ r t, ({ s.viaWalker a.g a.lane id with bound := a.recs } : Via).run op s = .ok r t → (t.thread? a.g a.lane).isSome = true →
      (t.thread a.g a.lane).exited = false →
      ∃ t', exec (.walkerResult id) s = .next t' ∧ t'.acc = alDel t.acc id ∧
        (∀ (i k : Nat) (c : BitVec 192), a.cdst[i]? = some k → r.cs[i]? = some c →
          (t'.thread a.g a.lane).creg k = c ∧ k ∉ (t'.thread a.g a.lane).cEmpty) ∧
        (∀ k, k ∉ a.cdst → (t'.thread a.g a.lane).creg k = (t.thread a.g a.lane).creg k) ∧
        (∀ n x, a.cc = some n → r.fl = some x → (t'.thread a.g a.lane).flags n = x) ∧
        (t'.thread a.g a.lane).v = (t.thread a.g a.lane).v ∧ (t'.thread a.g a.lane).pc = (t.thread a.g a.lane).pc ∧
        (∀ h, h ≠ a.g → t'.group? h = t.group? h) ∧ ∀ b, t'.byteAt b = t.byteAt b) ∧
    (∀ x tv t, ({ s.viaWalker a.g a.lane id with bound := a.recs } : Via).run op s = .error (.fault x tv) t → (t.thread? a.g a.lane).isSome = true →
      (t.thread a.g a.lane).exited = false →
      ∃ t', exec (.walkerResult id) s = .next t' ∧ t'.acc = alDel t.acc id ∧
        (∀ (i k : Nat) q, a.cdst[i]? = some k → op.request[i]? = some q →
          (t'.thread a.g a.lane).creg k =
            (faultForm q.1 q.2.1 (q.2.2.getD (t.boundKind a q.1 q.2.1)) nf x tv).bits) ∧
        (t'.thread a.g a.lane).pc = (t.thread a.g a.lane).pc ∧ ∀ b, t'.byteAt b = t.byteAt b)

/-! ## Records and modes (R92 to R96, R83) -/

/-- The record instructions of one thread complete where the record is read or written: `TLD` loads a shape register (or is outstanding until its read lands, R90), `TST` writes
the record at its home, `TSWAP` writes it with its version raised where the versions agree and D holds the old version, `TINV` drops
it from every record cache; a tid at or above TCOUNT traps with 0x101 (R92 to R96). -/
def RecordsComplete : Prop :=
  WhenSolo (fun f => { Spec.plain with
      var := f.var &&& 3, d := slShape, a := slSrc32, scope := some .die, ord := some (true, false) }) (fun f e s u g l =>
    recReady false e u g l [l] = true →
    let tid := u.rdA g l e % 65536
    let acc := { u.newAcc g l (u.recAddr (u.slotOf g) tid) (.shape tid ((shapeOf e.d).getD 16)) with
      acq := if e.acq then some e.scope else none }
    let read := (u.viaThread g l u.now).record tid u
    (∀ r t, read = .ok r t →
      Passes (.tld f) s g l e (if e.acq then (t.setShape g e.d r).acquired g l e.scope else t.setShape g e.d r)) ∧
    (∀ t, read = .error .wait t → Passes (.tld f) s g l e (t.addAcc { acc with hold := true })) ∧
    (∀ p t, read = .error (.park p) t → t.parkTraps g l = false → Passes (.tld f) s g l e (t.addParked acc p 0)) ∧
    ∀ c tv t, read = .error (.fault c tv) t → TrapsOnce (.tld f) s u g l c tv) ∧
  WhenSolo (fun f => { Spec.plain with
      var := f.var &&& 3, a := slSrc32, b := slShape, scope := some .dev, ord := some (false, true) }) (fun f e s u g l =>
    recReady false e u g l [l] = true →
    let tid := u.rdA g l e % 65536
    (∀ t, tid < (u.ctx (u.slotOf g)).tcount.toNat →
      u.recordBuffered g tid = false →
      u.putRecord g l tid (u.shape g e.b) u = .ok () t → Passes (.tst f) s g l e t) ∧
    ((u.ctx (u.slotOf g)).tcount.toNat ≤ tid → TrapsOnce (.tst f) s u g l 0x101 (BitVec.ofNat 64 tid))) ∧
  WhenSolo (fun _ => { Spec.plain with d := slVec32, a := slSrc32, b := slShape, scope := some .dev, rels := true }) (fun f e s u g l =>
    recReady true e u g l [l] = true →
    let tid := u.rdA g l e % 65536
    let mine := u.shape g e.b
    let done := fun (t : State) (old : Nat) =>
      (t.modThread g l fun x => x.write e.d 1 old).acquired g l e.scope
    (∀ old t, u.homeRecord g l tid u = .ok old t → recVer old ≠ recVer mine →
      Passes (.tswap f) s g l e (done t (recVer old))) ∧
    ∀ old t t', u.homeRecord g l tid u = .ok old t → recVer old = recVer mine →
      u.putRecord g l tid (setFld mine 386 16 (recVer mine + 1)) t = .ok () t' →
      Passes (.tswap f) s g l e (done (t'.setShape g e.b (setFld mine 386 16 (recVer mine + 1))) (recVer old))) ∧
  WhenSolo (fun f => { Spec.plain with
      var := f.var &&& 1, a := if bit f.var 0 then slNone else slSrc32, scope := some .dev, rels := true }) (fun f e s u g l =>
    recReady true e u g l [l] = true →
    let tid := u.rdA g l e % 65536
    (bit e.var 0 = true → Passes (.tinv f) s g l e (u.dropRecords (u.slotOf g))) ∧
    (bit e.var 0 = false → tid < (u.ctx (u.slotOf g)).tcount.toNat →
      Passes (.tinv f) s g l e (u.dropRecord (u.slotOf g) tid)) ∧
    (bit e.var 0 = false → (u.ctx (u.slotOf g)).tcount.toNat ≤ tid →
      TrapsOnce (.tinv f) s u g l 0x101 (BitVec.ofNat 64 tid)))

/-- `TSETF` changes the named field of a shape register, an index above 5 changing nothing, and `TGETF` reads it, an index above 5
giving 0 (R94). `MODEW` changes the bits of MODE that B selects, or clears those of WARN that both operands select, and `MODER`
reads them (R83). -/
def FieldsAndModesComplete : Prop :=
  WhenSolo (fun f => { Spec.plain with
      var := varField f.var, d := slShape, a := if (varField f.var).toNat ≤ 1 then slSrc64 else slSrc32,
      b := if fieldLevel (varField f.var) then slSrc32 else slNone }) (fun f e s u g l =>
    (recField e.var.toNat (u.rdB g l e) = none → Passes (.tsetf f) s g l e u) ∧
    ∀ lo w, recField e.var.toNat (u.rdB g l e) = some (lo, w) →
      Passes (.tsetf f) s g l e (u.setShape g e.d (setFld (u.shape g e.d) lo w (u.rdA g l e)))) ∧
  CompletesAs .tgetf (fun f => { Spec.plain with
      var := varField f.var, d := ⟨.vec, if (varField f.var).toNat ≤ 1 then 2 else 1⟩, a := slShape,
      b := if fieldLevel (varField f.var) then slSrc32 else slNone })
    (fun e s g l => putDT e (fieldValue (s.shape g e.a) e.var.toNat (s.rdB g l e))) ∧
  WhenSolo (fun f => { Spec.plain with var := varMode f.var, a := slSrc32, b := slSrc32 }) (fun f e s u g l =>
    flgReady e u g l [l] = true → Passes (.modew f) s g l e ((u.modGroup g fun x =>
      if e.var = 2 then { x with warn := x.warn &&& ~~~ BitVec.ofNat 32 (Nat.land (u.rdA g l e) (u.rdB g l e)) }
      else { x with mode := modeWrite x.mode (e.var == 1) (u.rdA g l e) (u.rdB g l e) }).modThread g l fun t =>
        { t with noRegion := true })) ∧
  WhenSolo (fun f => { Spec.plain with var := varMode f.var, d := slVec32 }) (fun f e s u g l =>
    flgReady e u g l [l] = true →
    (e.var = 0 → Passes (.moder f) s g l e (u.modThread g l fun t => t.write e.d 1 (fld (s.mode g) 0 32))) ∧
    (e.var = 1 → Passes (.moder f) s g l e (u.modThread g l fun t => t.write e.d 1 (fld (s.mode g) 32 32))) ∧
    (e.var = 2 → Passes (.moder f) s g l e (u.modThread g l fun t => t.write e.d 1
      (((u.group? g).map fun x => x.warn.toNat).getD 0))))

/-- Records, their fields and MODE are read and written (R83, R92 to R98). -/
def Obligations.RecordsFieldsAndModesComplete : Prop := RecordsComplete ∧ FieldsAndModesComplete

/-! ## Command engines (R130 to R157) -/

/-- A command instruction of one thread issues where its block can be read, is well formed and binds: the command enters its
queue with all that it has bound, its compressed views among them, and claims the destinations known at issue; a cause met in
binding such a view ends it with STATE 3 (R102, R155); a malformed block traps with 0x110 and the number of its reason (R131 to
R133). -/
def CommandIssues (i : Fields → Instr) (op : Fields → EngOp) (ok : BitVec 4 → BitVec 4) : Prop :=
  WhenSolo (specCmd ok .core) fun f e s u g l => cmdReady 1024 EngOp.copies e u g l = true → u.laneAhead e g l = false →
    (∀ blk t ts t' h v, u.issueRead g l (u.addrA g l e) 64 0x111 = .ok blk t → blockReason (op f) blk = none →
      (Via.make (t.cmdIssuer g l) (some (g, l, t.now)) false none [] 0).bindBlock (op f) blk t = .ok ts t' →
      (op f = .gathr → t'.issueRead g l (bSrc blk) 16 0x094 = .ok h v) → (op f ≠ .gathr → h = 0 ∧ v = t') →
      let c := { Cmd.new (op f) (v.cmdIssuer g l) g l (v.coreOf g) e (v.mode g) blk with
        tens := ts.head?, bound := ts, header := h }
      let views := (Via.make (t.cmdIssuer g l) (some (g, l, t.now)) false none [] 0).bindViews 65536 (viewsOf (op f) blk ts) ts v
      let enters := fun (c : Cmd) (v : State) =>
        let w := (v.enterCmd g l e c).2.claimAll (v.enterCmd g l e c).1 c
        Passes (i f) s g l e (if op f = .scatr true ∨ fldN blk 177 1 = 1 then w.defer g l else w)
      (∀ all w, views = .ok all w → enters { c with bound := all } w) ∧
      ∀ x tv w, views = .error (.fault x tv) w → enters { c with plan := some [], result := some (3, x) } w) ∧
    (∀ blk t n, u.issueRead g l (u.addrA g l e) 64 0x111 = .ok blk t → blockReason (op f) blk = some n →
      Traps (i f) s u g l 0x110 (BitVec.ofNat 64 n)) ∧
    ∀ c tv t, u.issueRead g l (u.addrA g l e) 64 0x111 = .trap c tv t → Traps (i f) s u g l c tv

/-- The five command instructions of the copy engines issue; entering a command gives it the next number, a slot of its die's
completion table, and the handle in the register after D, D being empty (R131, R138); `PREF.list` changes no register, and goes on at once
even where its table cannot be bound yet (R153, R176). -/
def CommandsIssue : Prop :=
  CommandIssues .copy (fun _ => .copy) (fun v => v &&& 3) ∧
  CommandIssues .xform (fun _ => .xform) (fun v => v &&& 3) ∧
  CommandIssues .gathr (fun _ => .gathr) (fun v => v &&& 3) ∧
  CommandIssues .scatr (fun f => .scatr (fld f.var 2 2 == 1)) varTwo ∧
  CommandIssues .sortu (fun f => .sortu (fld f.var 2 2 == 1)) varTwo ∧
  (∀ (s : State) g l e c i h t, s.fresh.2.takeEntry c.iss.die c.iss.slot s.nextId c.scope = some (i, h, t) → (s.thread? g l).isSome = true →
    let v := (s.enterCmd g l e c).2
    (s.enterCmd g l e c).1 = s.nextId ∧
    (∀ k, e.d = .v k → bit e.var 1 = false → alGet? v.cmds s.nextId = some { c with entry := i, dst := some k.toNat } ∧
      (v.thread g l).vreg (k.toNat + 1) = h ∧ k.toNat ∈ (v.thread g l).vEmpty) ∧
    (bit e.var 1 = true → alGet? v.cmds s.nextId = some { c with entry := i, dst := none } ∧ v.groups = s.groups) ∧
    (∀ k, k ≠ g → v.group? k = s.group? k) ∧ ∀ a, v.byteAt a = s.byteAt a) ∧
  WhenSolo (fun _ => { Spec.plain with
      types := [.n32], var := 1, a := slPair, b := slSrc32, l1 := true, l2 := true, imm := true }) (fun f e s u g l =>
    ∀ tn, (Via.make (u.cmdIssuer g l) (some (g, l, u.now)) false none [] 0).tensor (u.rdB g l e % 65536) u = tn →
      (∀ x t, tn = .ok x t → ∃ v, Passes (.prefList f) s g l e v ∧ v.groups = t.groups ∧ v.acc = t.acc ∧
        ∀ a, v.byteAt a = t.byteAt a) ∧
      (∀ t, tn = .error .wait t → ∃ v, Passes (.prefList f) s g l e v ∧ v.groups = u.groups ∧ v.acc = u.acc ∧
        ∀ a, v.byteAt a = u.byteAt a) ∧
      ∀ q t, tn = .error q t → q ≠ .wait → Passes (.prefList f) s g l e t)

/-- A command's next piece, whose line the command may write, is written at its home in node space: exactly its bytes change and
the piece leaves the plan (R125, R134). `LINE_RECALL` brings the pieces of a line forward and writes nothing (R126);
`SCATR_ROW_CLAIM` forms the next row from its prior value and its sources (R124, R151). -/
def Obligations.EnginesWritePieces : Prop :=
  (∀ (s : State) id c p ps a h t1, alGet? s.cmds id = some c → c.coll = none → c.op.copies = true → c.park = none →
    c.over = false → c.plan = some (p :: ps) → s.claimWant id = s → s.mayPut id c.iss p = true →
    s.reach c.iss .store p.va p.bytes.length 1 0x094 false = (.mem (.node a) h, t1) →
    t1.ownedBy (some id) a p.bytes.length = false → t1.nodeOk a p.bytes.length = true →
      ∃ t, exec (.engineWrite id) s = .next t ∧
        (∀ (i : Nat) (b : Byte), p.bytes[i]? = some b → t.byteAt (a + i) = b) ∧
        (∀ b, b < a ∨ a + p.bytes.length ≤ b → t.byteAt b = t1.byteAt b) ∧
        ((alGet? t.cmds id).map fun x => (x.plan, x.bytes)) = some (some ps, c.bytes + p.bytes.length) ∧
        t.groups = s.groups ∧ t.acc = s.acc ∧ t.sb = s.sb) ∧
  (∀ (s : State) line id ids, alGet? s.owners line = some (id :: ids) →
    ∃ t, exec (.lineRecall line) s = .next t ∧ t = { s with cmds := t.cmds } ∧
      ∀ c, alGet? s.cmds id = some c → ∃ d, alGet? t.cmds id = some d ∧ d = { c with plan := d.plan } ∧
        (c.plan = none → d.plan = none) ∧ ∀ ps qs, c.plan = some ps → d.plan = some qs → qs.Perm ps ∧
          ∃ as bs, qs = as ++ bs ∧ (∀ p ∈ as, s.lineAt c.iss p.va = some line) ∧ ∀ p ∈ bs, s.lineAt c.iss p.va ≠ some line) ∧
  ∀ (s : State) id c t row tally srcs rest prior s2, alGet? s.cmds id = some c → c.tens = some t → c.plan = some [] →
    c.rows = (row, tally, srcs) :: rest → c.park = none → c.over = false →
    let base := BitVec.ofNat 64 (recBase t.r)
    let s1 := (swzRuns (recSwz t.r) (row * rowBytes t.r) (rowBytes t.r)).foldl
      (fun (u : State) q => u.claimRun id (base + BitVec.ofNat 64 q.1) q.2) s
    let c1 := (alGet? s1.cmds id).getD c
    let v := c.scatValue t.r prior srcs
    (c.via id).tableBytes t.r row s1 = .ok prior s2 →
      exec (.scatrRowClaim id) s = .next (s2.setCmd id (Cmd.addPieces { c1 with rows := rest, mid := true }
        ((piecesAt base (recSwz t.r) (row * rowBytes t.r) v.1).map fun p => { p with key := p.va.toNat })
        (tally.add ⟨v.2.1, 0, v.2.2, 1⟩)))

/-- A command whose work is over ends (R136, R137): where CREC names a place in node space its record is written there, and
nowhere else; its lines are free, its slot of the completion table holds the status word, and its future is full with it. -/
def Obligations.CommandsEnd : Prop :=
  ∀ (s : State) id c r, alGet? s.cmds id = some c → c.over = true → c.op ≠ .pref → c.op ≠ .coll → c.coll = none → c.bare = false →
    c.dst = some r → (s.thread? c.g c.lane).isSome = true → (s.thread c.g c.lane).exited = false →
    let w := statusWord c.ending.1 c.ending.2 c.flg
    let ended := fun (t : State) => t.cmds = alDel s.cmds id ∧ (∀ p ∈ t.owners, id ∉ p.2) ∧
      (t.thread c.g c.lane).vreg r = w ∧ r ∉ (t.thread c.g c.lane).vEmpty ∧
      (∀ k, k ≠ r → (t.thread c.g c.lane).vreg k = (s.thread c.g c.lane).vreg k) ∧
      (∀ x, alGet? (s.die c.iss.die).ctab c.entry = some x → x.cmd = some id →
        alGet? (t.die c.iss.die).ctab c.entry = some { x with cmd := none, status := w }) ∧
      ∀ k, k ≠ c.g → t.group? k = s.group? k
    (c.crec = 0 → ∃ t, exec (.commandComplete id) s = .next t ∧ ended t ∧ ∀ a, t.byteAt a = s.byteAt a) ∧
    ∀ a h t1, c.crec ≠ 0 → c.crec % 32 = 0 → c.norec = false →
      s.reach c.iss .store (BitVec.ofNat 64 c.crec) 32 1 0x094 false = (.mem (.node a) h, t1) →
      t1.ownedBy (some id) a 32 = false → t1.nodeOk a 32 = true →
      ∃ t, exec (.commandComplete id) s = .next t ∧ ended t ∧ t.readNode a 32 = c.record w ∧
        ∀ b, b < a ∨ a + 32 ≤ b → t.byteAt b = t1.byteAt b

/-- `FTEST` reports a handle in a cc register, `FWAIT` waits with D empty, `FCNCL` asks the command of a handle to cancel
(R139). `BINIT`, `BARV` and `BWAIT` act on the object that their address names, and trap with 0x111 or their own cause
elsewhere; arrivals at an object raise its count modulo EXPECT and its phase by what they fill (R141). -/
def FuturesAndBarriersComplete : Prop :=
  CompletesAs .ftest (fun _ => { Spec.plain with d := slCc, a := slSrc32 }) (fun e s g l t => t.writeCc e.d
    (match s.handleState (s.slotOf g) (BitVec.ofNat 32 (s.rdA g l e)) with
      | none => mkFlags true false false false
      | some none => mkFlags false false false false
      | some (some w) => mkFlags false (decide (1 ≤ fld w 0 3) && decide (fld w 0 3 ≤ 5))
          (decide (3 ≤ fld w 0 3) && decide (fld w 0 3 ≤ 5)) ((fld w 0 3 == 1 || fld w 0 3 == 2) && fld w 8 24 != 0))) ∧
  WhenSolo (fun _ => { Spec.plain with d := slVec32, a := slSrc32, scope := some .core }) (fun f e s u g l =>
    u.acqPending g l = false →
    let h := BitVec.ofNat 32 (u.rdA g l e)
    Passes (.fwait f) s g l e (u.addAcc { u.newAcc g l 0 (.fwait h) with
      dst := e.d.vregs 1,
      acq := some (((u.handleSlot (u.slotOf g) h).map fun x => widest e.scope x.scope).getD e.scope) })) ∧
  WhenSolo (fun _ => { Spec.plain with a := slSrc32 }) (fun f e s u g l =>
    Passes (.fcncl f) s g l e (u.cancelHandle (u.slotOf g) (BitVec.ofNat 32 (u.rdA g l e)))) ∧
  WhenSolo (fun _ => specBar slNone 0 true) (fun f e s u g l => relReady e u g l = true →
    (∀ i j o t, u.barrierAt g l (u.addrA g l e) = (.inr (i, j, o), t) → Passes (.binit f) s g l e
      (t.modSpad i j fun x =>
        { (x.write o (toBytes 16 (max (u.rdB g l e) 1))).setFull o true with came := alDel x.came (o / 16) })) ∧
    ∀ c t, u.barrierAt g l (u.addrA g l e) = (.inl c, t) → Traps (.binit f) s u g l c (u.addrA g l e)) ∧
  WhenSolo (fun f => specBar (if bit f.var 0 then slVec32 else slNone) (f.var &&& 1) true) (fun f e s u g l => relReady e u g l = true →
    (∀ i j o t, u.barrierAt g l (u.addrA g l e) = (.inr (i, j, o), t) → Passes (.barv f) s g l e
      (((t.arrive i j o (u.rdB g l e)).modThread g l fun x => x.write e.d 1
        (fldN (ofBytes ((t.spad i j).read o 16)) 64 32)).defer g l)) ∧
    ∀ c t, u.barrierAt g l (u.addrA g l e) = (.inl c, t) → Traps (.barv f) s u g l c (u.addrA g l e)) ∧
  WhenSolo (fun _ => specBar slVec32 0 false) (fun f e s u g l => u.acqPending g l = false →
    (∀ i j o t, u.barrierAt g l (u.addrA g l e) = (.inr (i, j, o), t) → Passes (.bwait f) s g l e
      (t.addAcc { t.newAcc g l (u.addrA g l e) (.bwait (BitVec.ofNat 32 (u.rdB g l e))) with
        tgt := some (.spad i j o), dst := e.d.vregs 1, acq := some (scopeOn e.scope (u.addrA g l e)) })) ∧
    ∀ c t, u.barrierAt g l (u.addrA g l e) = (.inl c, t) → Traps (.bwait f) s u g l c (u.addrA g l e)) ∧
  ∀ e c p n : Nat, 0 < e → e < 2 ^ 32 → c < e → p < 2 ^ 32 → n < 2 ^ 32 →
    let y := barrierArrive (e + c * 2 ^ 32 + p * 2 ^ 64) n
    fldN y 0 32 = e ∧ fldN y 32 32 = (c + n) % e ∧ fldN y 64 32 = (p + (c + n) / e) % 2 ^ 32

/-- Commands issue; futures and barriers act (R130 to R141). -/
def Obligations.CommandsFuturesAndBarriersComplete : Prop := CommandsIssue ∧ FuturesAndBarriersComplete

/-! ## Matrix operations (R304 to R325) -/

/-- A matrix instruction of one thread issues where its quad is whole, no other quad holds the baton, its block is well formed and its
operands are mapped: the operation enters the core's queue with its locks; outside a quad it traps with 0x122, a malformed
block with 0x120 and the number of its reason, and A in the other core's scratchpad of a team that is on one core with 0x083 (R307 to R311). -/
def MatrixIssues (i : Fields → Instr) (k : MKind) : Prop :=
  WhenSolo specMma fun f e s u g l => memReadyOnce e u g l [l] = true →
    (u.quad g = none → TrapsOnce (i f) s u g l 0x122 0) ∧
    ∀ q gs a b o t, u.quad g = some (q, gs) → u.batonElsewhere (u.coreOf g) q = false →
      u.resolve g l .fe (u.addrA g l e) 64 64 0x121 false = (.spad a b o, t) →
      t.earlierSame g l t.now (some (.spad a b o)) (u.addrA g l e) 64 = false →
      let blk := ofBytes ((t.spad a b).read o 64)
      let width := ((u.group? g).map fun x => x.width).getD 0
      let first := match e.b with
        | .v r => some r.toNat
        | _ => none
      let run := match first with
        | some r => (List.range (runLength k e.ty width blk)).map fun n => r + n
        | none => []
      (∀ n, mBlockReason k e.ty width blk first = some n → TrapsOnce (i f) s u g l 0x120 (BitVec.ofNat 64 n)) ∧
      ∀ ta tb sides t2, mBlockReason k e.ty width blk first = none →
        (Via.make (t.issuerOf g l 3) (some (g, l, t.now)) false none [] 0).bindPair e.ty blk t = .ok (ta, tb, sides) t2 →
        t2.runMapped gs run = true → (∀ n, tileField f.c = some n → (gs.all fun h => t2.tMapped h n && t2.tMapped h (n + 1)) = true) →
        t2.quadFailed gs (tileField f.c) = none → (bit e.fe 1 = false ∨ t2.runPending gs run = false) →
        let other := mAmode blk = false ∧ fld (mAaddr blk) 60 4 = 3 ∧ (t.issuerOf g l 3).pair = false
        (other → TrapsOnce (i f) s u g l 0x083 (mAaddr blk)) ∧
        (¬ other → (mAmode blk = true ∨ t2.firstOutside (t.issuerOf g l 3) k blk (tyBits e.ty) = none) →
        t2.releaseReady g l (mScope e.scope (u.addrA g l e) blk) = true → (t2.core (u.coreOf g)).mq.length < 8 →
        Passes (i f) s g l e (t2.fresh.2.enterMatrix (u.coreOf g)
          { id := t2.nextId, kind := k, neg := bit e.var 0, ty := e.ty, team := q.1, groups := gs, g := g, lane := l,
            iss := t.issuerOf g l 3, blk := blk, ta := ta, tb := tb, bound := sides, mode := t2.mode g, width := width, b := first,
            c := tileField f.c, run := run, cyc := t2.cycle, started := false, kdone := 0, grans := [], park := [] }))

/-- `MMA`, `MMAB` and `MMAT` issue; the operation at the head of its core's queue makes its last steps, lets a register of its run
go that every step has read, and when every step is added lets its locks and tiles go, its quad's threads deferring
pre-emption (R231, R309, R321, R323). -/
def MatrixOperationsComplete : Prop :=
  MatrixIssues .mma .mma ∧ MatrixIssues .mmab .mmab ∧ MatrixIssues .mmat .mmat ∧
  (∀ (s : State) core m ms t, (s.core core).mq = m :: ms → m.park = [] → s.tilesLoading m = false → m.cyc < s.cycle → m.started = true →
    m.kdone < mK m.blk → mK m.blk ≤ m.kdone + m.stride → MOp.step m m.kdone (s.modMOp core m.id fun x => { x with started := true }) =
      .added t → exec (.matrixOperationStart core) s = .next
        ((t.modMOp core m.id fun x => { x with kdone := m.kdone + m.stride }).count core none 7 m.stride)) ∧
  (∀ (s : State) core r m ms, (s.core core).mq = m :: ms → m.readDone r = true →
    ∃ t, exec (.bLockRelease core r) s = .next t ∧
      (∀ g x, g ∈ m.groups → t.group? g = some x → (r, m.id) ∉ x.locks) ∧
      (∀ g x y, s.group? g = some x → t.group? g = some y → y = { x with locks := y.locks } ∧
        ∀ k, k ≠ (r, m.id) → (k ∈ y.locks ↔ k ∈ x.locks)) ∧
      ∀ a, t.byteAt a = s.byteAt a) ∧
  ∀ (s : State) core m ms, (s.core core).mq = m :: ms → m.started = true → mK m.blk ≤ m.kdone →
    ∃ t, exec (.matrixComplete core) s = .next t ∧ (∀ n ∈ (t.core core).mq, n.id ≠ m.id) ∧
      (∀ g x, g ∈ m.groups → t.group? g = some x → (∀ k ∈ x.locks, k.2 ≠ m.id) ∧ (∀ k ∈ x.tileOut, k.2 ≠ m.id) ∧
        ∀ th ∈ x.lanes, th.exited = false → th.deferral = true) ∧
      (∀ g, g ∉ m.groups → m.c = none → t.group? g = s.group? g) ∧ ∀ a, t.byteAt a = s.byteAt a

/-- The baton of a core (R320): `MBAT.acq` takes a free one for the quad, where no thread that still waits for it came before, `MBAT.pass` hands it to the next quad of the team that B
names (and frees it where that quad's groups have all exited), `MBAT.rel` frees it; one that the quad does not hold traps with 0x123, and a group outside a quad with 0x122. -/
def BatonsComplete : Prop :=
  WhenSolo (fun _ => specMbat 0 slNone) (fun f e s u g l =>
    (u.quad g = none → TrapsOnce (.mbatAcq f) s u g l 0x122 0) ∧
    ∀ q gs, u.quad g = some (q, gs) →
      let live := (u.core (u.coreOf g)).batonWait.filter u.awaitsBaton
      let mine := fun w : Nat × Nat × Nat => w.1 == g && [l].contains w.2.1
      ((u.core (u.coreOf g)).baton = some q ∨
        ((u.core (u.coreOf g)).baton = none ∧ (live.head?.map mine).getD true = true)) →
      Passes (.mbatAcq f) s g l e (u.modCore (u.coreOf g) fun x =>
        { x with baton := some q, batonWait := live.filter fun w => !mine w })) ∧
  WhenSolo (fun _ => specMbat 1 slSrc32) (fun f e s u g l =>
    (u.quad g = none → TrapsOnce (.mbatPass f) s u g l 0x122 0) ∧
    ∀ q gs, u.quad g = some (q, gs) →
      ((u.core (u.coreOf g)).baton ≠ some q → TrapsOnce (.mbatPass f) s u g l 0x123 0) ∧
      ((u.core (u.coreOf g)).baton = some q →
        let set := (u.quadsOn q.1 (u.coreOf g)).filter fun j => fldN (u.rdB g l e) j 1 == 1
        Passes (.mbatPass f) s g l e (u.modCore (u.coreOf g) fun x =>
          { x with baton := u.holderOf (q.1, ((set.find? fun j => decide (q.2 < j)) <|> set.head?).getD q.2) }))) ∧
  WhenSolo (fun _ => specMbat 2 slNone) (fun f e s u g l =>
    (u.quad g = none → TrapsOnce (.mbatRel f) s u g l 0x122 0) ∧
    ∀ q gs, u.quad g = some (q, gs) →
      ((u.core (u.coreOf g)).baton ≠ some q → TrapsOnce (.mbatRel f) s u g l 0x123 0) ∧
      ((u.core (u.coreOf g)).baton = some q →
        Passes (.mbatRel f) s g l e (u.modCore (u.coreOf g) fun x => { x with baton := none })))

/-- Matrix operations issue, run and end, and batons pass (R304 to R325). -/
def Obligations.MatrixOperationsAndBatonsComplete : Prop := MatrixOperationsComplete ∧ BatonsComplete

/-! ## Collectives (R339 to R348, R475) -/

/-- `COLL` of one thread issues where its descriptor and roster can be read and are well formed; a contribution for an open chunk
owned here is taken, one for an operation not issued yet is held; a chunk whose time is over closes with the contributors it
has, each live member being sent the result; the result of a chunk owned elsewhere is taken once; nothing arrives over a stopped link (R447); an operation whose results
are late says so (R340 to R346, R475). -/
def Obligations.CollectivesComplete : Prop :=
  WhenSolo (specCmd (fun v => v &&& 3) .dev) (fun f e s u g l => cmdReady 4096 (fun o => o == .coll) e u g l = true →
    u.laneAhead e g l = false →
    (∀ b t ef t1 r t2, u.issueRead g l (u.addrA g l e) 128 0x12C = .ok b t →
      collReason b (t.ctx (t.slotOf g)).rsbase = none →
      (Via.make (t.issuerOf g l 0) (some (g, l, t.now)) false none [] 0).feedback b t = .ok ef t1 →
      (Via.make (t.issuerOf g l 0) (some (g, l, t.now)) false none [] 0).roster b t1 = .ok r t2 →
      Passes (.coll f) s g l e (t2.enterColl g l e b r ef)) ∧
    ∀ b t n, u.issueRead g l (u.addrA g l e) 128 0x12C = .ok b t → collReason b (t.ctx (t.slotOf g)).rsbase = some n →
      Traps (.coll f) s u g l 0x128 (BitVec.ofNat 64 n)) ∧
  (∀ (s : State) m, s.arrives (Config.contributionText m) = false → exec (.collContributionReceive m) s = .next s) ∧
  (∀ (s : State) m, s.arrives (Config.contributionText m) = true → s.nextOrdinal m.slot m.roster m.stream ≤ m.ordinal →
    exec (.collContributionReceive m) s = .next { s.takeMessage (Config.contributionText m) with
      collIn := s.collIn ++ [⟨m, s.ns, none⟩] }) ∧
  (∀ (s : State) m id c k, s.arrives (Config.contributionText m) = true → m.ordinal < s.nextOrdinal m.slot m.roster m.stream →
    s.findColl m.slot m.roster m.stream m.ordinal = some (id, c, k) → (k.chunk m.chunk).closed = false →
    k.owner m.chunk = k.rank → k.liveNow.contains m.rank = true → m.chunk < chunkCount c.blk k.live.length →
    alGet? (k.chunk m.chunk).parts m.rank = none →
    ∃ t, exec (.collContributionReceive m) s = .next t ∧ ∃ k', alGet? t.cmds id = some { c with coll := some k' } ∧
      alGet? (k'.chunk m.chunk).parts m.rank = some m.bytes ∧ ∀ n, n ≠ m.chunk → k'.chunk n = k.chunk n) ∧
  (∀ (s : State) id c k n, alGet? s.cmds id = some c → c.coll = some k → k.due n s.ns = true →
    ∃ t, exec (.collDeadline id n) s = .next t ∧ t = { s with cmds := t.cmds } ∧
      ∃ k', alGet? t.cmds id = some { c with coll := some k' } ∧ (k'.chunk n).expired = true ∧
        ∀ j, j ≠ n → k'.chunk j = k.chunk j) ∧
  (∀ (s : State) id c k n, alGet? s.cmds id = some c → c.coll = some k → c.result = none → k.closable c.blk n = true →
    let who := k.liveNow.filter fun r => (alGet? (k.chunk n).parts r).isSome
    let ok := decide (kQuorum c.blk ≤ who.length) && (kOp c.blk != 3 || who.contains (kRoot c.blk))
    ∃ t k', exec (.collChunkClose id n) s = .next t ∧ alGet? t.cmds id = some { c with coll := some k' } ∧
      (k'.chunk n).closed = true ∧ (k'.chunk n).result = some (ok, who, ((k.chunk n).late.map fun p => p.rank).eraseDups) ∧
      (ok = false → (k'.chunk n).out = none) ∧ (∀ j, j ≠ n → k'.chunk j = k.chunk j) ∧
      t.groups = s.groups ∧ ∀ a, t.byteAt a = s.byteAt a) ∧
  (∀ (s : State) (r : ChunkResult), s.arrives (Config.resultText r) = false → exec (.collResultReceive r) s = .next s) ∧
  (∀ (s : State) (r : ChunkResult) c k, s.arrives (Config.resultText r) = true → alGet? s.cmds r.id = some c → c.coll = some k → c.result = none → k.timedOut = false →
    (k.chunk r.chunk).result = none → k.owner r.chunk ≠ k.rank → r.chunk < chunkCount c.blk k.live.length →
    ∃ t k', exec (.collResultReceive r) s = .next t ∧ t = { s.takeMessage (Config.resultText r) with cmds := t.cmds } ∧
      alGet? t.cmds r.id = some { c with coll := some k' } ∧ (k'.chunk r.chunk).closed = true ∧
      (k'.chunk r.chunk).result = some (r.ok, r.contributors, r.late) ∧ ∀ j, j ≠ r.chunk → k'.chunk j = k.chunk j) ∧
  ∀ (s : State) id c k, alGet? s.cmds id = some c → c.coll = some k → c.result = none → k.overdue c.blk s.ns = true →
    ∃ t, exec (.collResultTimeout id) s = .next t ∧ t = { s with cmds := t.cmds } ∧
      alGet? t.cmds id = some { c with coll := some { k with timedOut := true } }

/-! ## Signals, spawns and pieces (R377 to R392, R232 to R238) -/

/-- `SIGNL` issues as an atomic addition, `SIGW` and `JWAIT` go on at once where the word they name already satisfies them and wait
at it otherwise; a waiting thread whose word does is woken, and one whose word can be read no more traps at its instruction (R128, R378,
R379, R392). `SPAWN` issues with its record and its payload,
its join word to be raised first, an empty payload register trapping where C's FE bit is set (R42); `JINIT` writes its count at the home,
in one step (R386, R391, R397). `LAUNCH` writes the record at PROD of its queue's ring; of a misaligned record the causes that come before
the alignment are raised first (R380, R472). -/
def Obligations.SignalsSpawnsAndLaunchesComplete : Prop :=
  WhenSolo (specWord slWide .dev true) (fun f e s u g l => relReady e u g l = true →
    let va := u.addrA g l e
    let op := AtomOp.rmw 0 .n64 (BitVec.ofNat 64 (u.rdWide g l e e.b))
    (∀ p h t, u.resolve g l .atomic va 8 8 0x094 false = (.mem p h, t) → t.rsvPoisoned (.mem p h) 8 = false →
      Passes (.signl f) s g l e (((t.dropL1 (t.coreOf g) p 8).addAcc { u.newAcc g l va (.atom op) with
        acq := e.acqOf va, l2 := e.l2, tgt := some (.mem p), home := h, hold := p.untracked }).defer g l)) ∧
    ∀ c t, u.resolve g l .atomic va 8 8 0x094 false = (.fault c, t) → Traps (.signl f) s u g l c va) ∧
  WhenSolo (specWord slWide .dev false) (fun f e s u g l => u.acqPending g l = false →
    let va := u.addrA g l e
    let b := u.rdWide g l e e.b % 2 ^ 64
    (∀ p h t, u.resolve g l .word va 8 8 0x094 false = (.mem (.node p) h, t) → t.targetOwned (.mem (.node p)) 8 = false →
      t.bufferedBefore (t.coreOf g) (t.slotOf g) t.now (some (.node p)) va 8 = false →
      t.earlierSame g l t.now (some (.mem (.node p))) va 8 = false →
      (t.poisoned p 8 = true → Traps (.sigw f) s u g l 0x169 va) ∧
      (t.poisoned p 8 = false → b ≤ t.readNodeN p 8 → Passes (.sigw f) s g l e (t.acquired g l e.scope)) ∧
      (t.poisoned p 8 = false → t.readNodeN p 8 < b → Passes (.sigw f) s g l e (t.modThread g l fun x =>
        { x with wait := .signal va (some (.mem (.node p))) (BitVec.ofNat 64 b) e.scope }))) ∧
    ∀ c t, u.resolve g l .word va 8 8 0x094 false = (.fault c, t) → Traps (.sigw f) s u g l c va) ∧
  WhenSolo (specWord slNone .die false) (fun f e s u g l => u.acqPending g l = false →
    let va := u.addrA g l e
    (∀ p h t, u.resolve g l .word va 8 8 0x094 false = (.mem (.node p) h, t) → t.targetOwned (.mem (.node p)) 8 = false →
      t.bufferedBefore (t.coreOf g) (t.slotOf g) t.now (some (.node p)) va 8 = false →
      t.earlierSame g l t.now (some (.mem (.node p))) va 8 = false →
      (t.poisoned p 8 = true → Traps (.jwait f) s u g l 0x169 va) ∧
      (t.poisoned p 8 = false → t.readNodeN p 8 % 2 ^ 32 = 0 → Passes (.jwait f) s g l e (t.acquired g l e.scope)) ∧
      (t.poisoned p 8 = false → t.readNodeN p 8 % 2 ^ 32 ≠ 0 → Passes (.jwait f) s g l e (t.modThread g l fun x =>
        { x with wait := .join va (some (.mem (.node p))) e.scope }))) ∧
    ∀ c t, u.resolve g l .word va 8 8 0x094 false = (.fault c, t) → Traps (.jwait f) s u g l c va) ∧
  (∀ (s : State) g l, (s.thread? g l).isSome = true → ((s.group? g).bind fun x => x.place).isSome = true →
    (∀ sc u, s.wordNow g l = (.over sc, u) → ∃ t, exec (.sigwReread g l) s = .next t ∧ (t.thread g l).wait = .none ∧
      (t.thread g l).pc = (u.thread g l).pc ∧ (t.thread g l).v = (u.thread g l).v ∧ (t.thread g l).lastAcq = u.nextId ∧
      (∀ k, k ≠ l → t.thread? g k = u.thread? g k) ∧ (∀ h, h ≠ g → t.group? h = u.group? h) ∧ ∀ a, t.byteAt a = u.byteAt a) ∧
    ∀ c va u, s.wordNow g l = (.stop c va, u) → exec (.sigwReread g l) s =
      .next ((u.modThread g l fun x => { x with wait := .none }).trapWith g l c va ((u.thread g l).pc - 16) false false)) ∧
  WhenSolo (fun f => { Spec.plain with
      var := varSpawn f.var, a := if bit f.var 3 then slNone else slPair, b := slSrc32, c := slVec32, scope := some .die,
      imm := !bit f.var 3, rels := true }) (fun f e s u g l => relReady e u g l = true →
    let n := u.rdB g l e
    let mapped := (payloadRegs e).all fun r => u.vMapped g r
    let full := (payloadRegs e).all fun r => !(u.thread g l).vEmpty.contains r
    ((full = true ∨ bit e.fe 2 = true) → mapped = false → Traps (.spawn f) s u g l 0x141 (e.tvalOf 2)) ∧
    (mapped = true → full = false → bit e.fe 2 = true → Traps (.spawn f) s u g l 0x00A (e.tvalOf 2)) ∧
    (mapped = true → full = true → (u.kernel g).nent ≤ n → Traps (.spawn f) s u g l 0x150 (BitVec.ofNat 64 n)) ∧
    (mapped = true → full = true → n < (u.kernel g).nent → bit e.var 3 = true → ∃ r t, r.entry = n ∧ r.slot = u.slotOf g ∧ r.core = u.coreOf g ∧
      r.payload.length = fld e.var 0 3 ∧
      (∀ (i : Nat) (k : BitVec 8), e.c = .v k → i < fld e.var 0 3 → k.toNat + i < 256 →
        r.payload[i]? = some ((u.thread g l).vreg (k.toNat + i))) ∧
      t = (u.addAcc { u.newAcc g l 0 (.spawn r false) with hold := true }).defer g l ∧ Passes (.spawn f) s g l e t) ∧
    ∀ p h t', mapped = true → full = true → n < (u.kernel g).nent → bit e.var 3 = false →
      u.resolve g l .atomic (u.addrA g l e) 8 8 0x094 false = (.mem p h, t') →
      (t'.targetPoisoned (.mem p) 8 = true → Traps (.spawn f) s u g l 0x169 (u.addrA g l e)) ∧
      (t'.targetPoisoned (.mem p) 8 = false → ∃ r t, r.entry = n ∧ r.joinAddr = u.addrA g l e ∧
        t = ((t'.dropL1 (t'.coreOf g) p 8).addAcc { u.newAcc g l (u.addrA g l e) (.spawn r true) with
          hold := true, tgt := some (.mem p), home := h }).defer g l ∧ Passes (.spawn f) s g l e t)) ∧
  WhenSolo (specWord slSrc32 .die true) (fun f e s u g l => relReady e u g l = true →
    let va := u.addrA g l e
    let bs := toBytes 8 (u.rdB g l e)
    (∀ p h t, u.resolve g l .atomic va 8 8 0x094 false = (.mem (.node p) h, t) → t.targetOwned (.mem (.node p)) 8 = false →
      t.bufferedBefore (t.coreOf g) (t.slotOf g) t.now (some (.node p)) va 8 = false →
      t.earlierSame g l t.now (some (.mem (.node p))) va 8 = false →
      Passes (.jinit f) s g l e
        (((t.atomicDrop (t.coreOf g) (.mem (.node p)) 8).targetWrite h (.mem (.node p)) 0 bs).defer g l)) ∧
    (∀ p h t, u.resolve g l .atomic va 8 8 0x094 false = (.mem p h, t) → p.untracked = true →
      Passes (.jinit f) s g l e (t.addAcc { u.newAcc g l va (.jinit bs) with tgt := some (.mem p), home := h, hold := true })) ∧
    ∀ c t, u.resolve g l .atomic va 8 8 0x094 false = (.fault c, t) → TrapsOnce (.jinit f) s u g l c va) ∧
  WhenSolo (fun f => { Spec.plain with
      var := f.var &&& 2, d := if bit f.var 1 then slNone else slPair, a := slPair, b := slSrc32, scope := some .dev,
      imm := true, rels := true }) (fun f e s u g l => u.acqPending g l = false → u.laneAhead e g l = false →
    (bit e.var 1 = true ∨ (u.die (dieOf (u.coreOf g))).nextEntry.isSome = true) →
    let va := u.addrA g l e
    let q := u.rdB g l e
    let open' := q < 64 ∧ (u.queue q).en = true ∧ (u.queue q).dev = true ∧ (u.queue q).ctx = (u.ctx (u.slotOf g)).id
    (va.toNat % 128 ≠ 0 → Traps (.launch f) s u g l (match (u.resolve g l .load va 1 128 0x151 false).1 with
      | .fault c => c
      | _ => 0x151) va) ∧
    (va.toNat % 128 = 0 → ¬ open' → Traps (.launch f) s u g l 0x152 (BitVec.ofNat 64 q)) ∧
    ∀ r t a h t1, va.toNat % 128 = 0 → open' → u.issueRead g l va 128 0x151 = .ok r t → t.releaseReady g l e.scope = true →
      ((t.queue q).prod - (t.queue q).cons).toNat < 2 ^ (t.queue q).log2 →
      t.reach (t.issuerOf g l 0) .store
        ((t.queue q).base + BitVec.ofNat 64 (128 * ((t.queue q).prod.toNat % 2 ^ (t.queue q).log2))) 128 128 0x094 false =
          (.mem (.node a) h, t1) → t1.ownedBy none a 128 = false → t1.nodeOk a 128 = true →
      ∃ t2, Passes (.launch f) s g l e t2 ∧ t2.readNode a 128 = toBytes 128 r ∧
        (∀ b, b < a ∨ a + 128 ≤ b → t2.byteAt b = t1.byteAt b) ∧ (t2.queue q).prod = (t.queue q).prod + 1 ∧
        (t2.queue q).cons = (t.queue q).cons ∧ ∀ k, k ≠ g → t2.group? k = t1.group? k)

/-- `RACQ` of a kind by one thread completes: a range that the group has whole is granted at no charge; a new one is mapped with its
first values, charged, where no request is ahead of it and the reservation has room, and with `.try` fails in cc0 where it has
not; a range outside the kernel's allocation, or mapped in part, traps with 0x142, a group without a team with 0x14D, and a
failed tile with its own cause (R232 to R234, R237, R325). A field that names no range of the kind maps nothing, and `.try` then
fails. -/
def RacqCompletes (kind : Nat) (i : Fields → Instr) : Prop :=
  WhenSolo (specRacq kind) fun f e s u g l => (bit e.var 2 = true → u.ccBusy g l 0 = false) →
    let k := u.rdB g l e
    let n := opndIndex f.d
    let tv := BitVec.ofNat 64 (opndCode f.d)
    let team := (u.group? g).bind fun x => x.team
    let named := kind < 3 → rangeFile (kind + 1) f.d = true
    let ok := rangeOk (u.kernel g) kind n k
    let tried := fun (t : State) (fail : Bool) =>
      if bit e.var 2 then t.modThread g l fun x => x.setFlags 0 (mkFlags false fail false false) else t
    let mine := u.subLanes g e [l]
    let all := ((List.range k).map fun i => n + i).all (u.pieceMapped g kind)
    let part := ((List.range k).map fun i => n + i).any (u.pieceMapped g kind)
    let width := ((u.group? g).map fun x => x.width).getD 0
    (¬ named → Passes (i f) s g l e (tried u true)) ∧
    (named → ok = false → TrapsOnce (i f) s u g l 0x142 tv) ∧
    (named → ok = true → team = none → bit e.var 2 = false → TrapsOnce (i f) s u g l 0x14D 0) ∧
    (named → ok = true → team = none → bit e.var 2 = true → Passes (i f) s g l e (tried u true)) ∧
    ∀ tm, named → ok = true → team = some tm →
      (∀ c a, kind < 3 → u.rangeFailed g kind n k = some (c, a) → TrapsOnce (i f) s u g l c a) ∧
      (kind < 3 → u.rangeFailed g kind n k = none →
        (all = true → Passes (i f) s g l e (tried (u.unblock g tm mine) false)) ∧
        (all = false → part = true → TrapsOnce (i f) s u g l 0x142 tv)) ∧
      ((kind = 3 ∨ (u.rangeFailed g kind n k = none ∧ all = false ∧ part = false)) →
        (∀ x, (u.blocked tm (u.sideOf g)).head? = some x → x.1 = g ∧ (u.requestsOf g [l]).contains x.2.1 = true) →
        (u.holds tm (u.sideOf g) kind k width = true → Passes (i f) s g l e
          (tried ((u.unblock g tm mine).grant g tm (u.sideOf g) kind (if kind = 3 then 0 else n) k [l] e) false)) ∧
        (u.holds tm (u.sideOf g) kind k width = false → bit e.var 2 = true → Passes (i f) s g l e (tried u true)))

/-- `RREL` of one thread completes: it unmaps a range that is mapped whole and has nothing pending, or gives back a grant of
scratchpad; one that is not held, or of a group without a team, traps with 0x143, one outside the allocation with 0x142, and a failed tile with its
own cause (R233, R236, R325). -/
def RrelCompletes : Prop :=
  WhenSolo (fun f => { Spec.plain with
      var := f.var &&& 3, a := if fld f.var 0 2 = 3 then slVec32 else slRange (fld f.var 0 2), b := slSrc32 }) (fun f e s u g l =>
    let kind := fld e.var 0 2
    let k := u.rdB g l e
    let n := opndIndex f.a
    let tv := BitVec.ofNat 64 (opndCode f.a)
    let named := kind < 3 → rangeFile (kind + 1) f.a = true
    let ok := rangeOk (u.kernel g) kind n k
    let held := (List.range k).all fun i => u.pieceMapped g kind (n + i)
    (¬ named → Passes (.rrel f) s g l e u) ∧
    (named → ok = false → TrapsOnce (.rrel f) s u g l 0x142 tv) ∧
    (named → ok = true → ((u.group? g).bind fun x => x.team) = none → TrapsOnce (.rrel f) s u g l 0x143 tv) ∧
    ∀ tm, named → ok = true → ((u.group? g).bind fun x => x.team) = some tm →
      (kind < 3 → held = false → TrapsOnce (.rrel f) s u g l 0x143 tv) ∧
      (∀ c a, kind < 3 → held = true → u.rangePending g kind n k = false → u.rangeFailed g kind n k = some (c, a) →
        TrapsOnce (.rrel f) s u g l c a) ∧
      (kind < 3 → held = true → u.rangePending g kind n k = false → u.rangeFailed g kind n k = none →
        Passes (.rrel f) s g l e (u.modGroup g fun x => x.unmapRange kind n k)) ∧
      ∀ x, kind = 3 → u.group? g = some x →
        (x.grants.contains (u.rdA g l e, k) = false → TrapsOnce (.rrel f) s u g l 0x143 tv) ∧
        (x.grants.contains (u.rdA g l e, k) = true → Passes (.rrel f) s g l e
          ((u.modSpad tm (u.sideOf g) fun y => { y with mapped := y.mapped.filter fun r => r != (u.rdA g l e, k) }).modGroup g
            fun y => { y with grants := y.grants.filter fun r => r != (u.rdA g l e, k) })))

/-- `RACQ.vreg`, `RACQ.tile`, `RACQ.preg`, `RACQ.spad` and `RREL` complete, each on its own operands (R232 to R237). -/
def Obligations.PiecesComplete : Prop :=
  RacqCompletes 0 .racqVreg ∧ RacqCompletes 1 .racqTile ∧ RacqCompletes 2 .racqPreg ∧ RacqCompletes 3 .racqSpad ∧ RrelCompletes

/-! ## Events of caches, groups and Skein (R128, R352, R383 to R392) -/

/-- A corrected soft error is counted, up to 2^32 − 1, and traps with 0x168 after the instruction whose access saw it where CETRAP is
set, one whose access still holds its thread trapping when it goes on; an uncorrected one is counted and poisons a dirty sector of L2, a
clean one there or in the RDC being dropped (R128, R416, R454). -/
def SoftErrorsCounted : Prop :=
  (∀ (s : State) die g l,
    let c := s.modDie die fun d => { d with corrected := min (d.corrected + 1) (2 ^ 32 - 1) }
    let traps := (s.thread? g l).isSome = true ∧ (s.thread g l).exited = false ∧ bit (s.ctx (s.slotOf g)).tcfg 1 = true
    (¬ traps → exec (.softErrorCorrected die g l) s = .next c) ∧
    (traps → s.heldBy g l = false → exec (.softErrorCorrected die g l) s = .next (c.trap g l 0x168 0)) ∧
    (traps → s.heldBy g l = true → exec (.softErrorCorrected die g l) s = .next (c.modThread g l fun x =>
      { x with late := x.late ++ [⟨0x168, 0, s.nextId, [], .next⟩] }))) ∧
  ∀ (s : State) die sector q, (s.die die).sectorAt sector = some q → ∃ t, exec (.softErrorUncorrected die sector) s = .next t ∧
    (t.die die).uncorrected = min ((s.die die).uncorrected + 1) (2 ^ 32 - 1) ∧ (t.die die).corrected = (s.die die).corrected ∧
    (sector < 2 ^ 36 → (s.die die).dirtySector sector = true → (alGet? t.poison sector).isSome = true ∧ (t.die die).l2 = (s.die die).l2) ∧
    (2 ^ 36 ≤ sector ∨ (s.die die).dirtySector sector = false → t.poison = s.poison ∧
      (t.die die).l2 = cacheDrop (s.die die).l2 q ∧ (t.die die).rdc = cacheDrop (s.die die).rdc q) ∧
    (∀ d, d ≠ die → t.die d = s.die d) ∧ t.groups = s.groups ∧ ∀ a, t.byteAt a = s.byteAt a

/-- `GROUP_SWAP` makes the pending group of the quarter that has been ready longest active in place of one that has no ready thread and
has not issued for 64 cycles, yields, or waits for what lasts, that has given way, or that is stopped, ready two cycles later; `GROUP_BOOST` marks an active group that was ready and
passed over for 256 cycles; `KEY_STARVATION_PROMOTION` promotes
the key passed over longest, of several the least; none changes a register, another group or memory (R352, R383, R384). -/
def SchedulerEventsAct : Prop :=
  (∀ (s : State) out into x y, s.group? out = some x → s.group? into = some y → out ≠ into → x.place.isSome = true →
    x.active = true →
    (let live := (List.range x.lanes.length).filter fun l => !(s.thread out l).exited
     x.yielded = s.cycle ∨ x.stopped = true ∨ (s.vote out = [] ∧ (x.lastIssue + 64 < s.cycle ∨
      (∃ l ∈ live, s.cycle < (s.thread out l).yieldTo) ∨
      ∃ l0 l, minBy? (fun k => (s.thread out k).key) live = some l0 ∧ l ∈ live ∧ (s.thread out l).key = (s.thread out l0).key ∧
        s.waitsLong out l = true))) → s.pendingFor x = some into →
    ∃ t, exec (.groupSwap out into) s = .next t ∧
      t.group? out = some { x with active := false, boosted := none, readySince := s.cycle } ∧
      t.group? into = some { y with active := true, notBefore := s.cycle + 2, lastIssue := s.cycle } ∧
      (∀ h, h ≠ out → h ≠ into → t.group? h = s.group? h) ∧ ∀ a, t.byteAt a = s.byteAt a) ∧
  (∀ (s : State) g x, s.group? g = some x → x.place.isSome = true → x.active = true → x.stopped = false → s.vote g ≠ [] →
    x.lastIssue + 256 ≤ s.cycle → x.readySince + 256 ≤ s.cycle → x.boosted = none →
    exec (.groupBoost g) s = .next (s.modGroup g fun y => { y with boosted := some s.cycle })) ∧
  ∀ (s : State) g x n, s.group? g = some x → 64 ≤ n → n < promoted → (∀ t ∈ x.lanes, t.exited = false → t.passed ≤ n) →
    (∃ t ∈ x.lanes, t.exited = false ∧ t.passed = n) →
    ∃ t y, exec (.keyStarvationPromotion g) s = .next t ∧ t.group? g = some y ∧ y = { x with lanes := y.lanes } ∧
      (∃ key, (∃ th ∈ x.lanes, th.exited = false ∧ th.passed = n ∧ th.key = key) ∧
        (∀ th ∈ x.lanes, th.exited = false → th.passed = n → key ≤ th.key) ∧
        y.lanes = x.lanes.map fun th =>
          if th.exited = false ∧ th.key = key then { th with passed := th.passed + promoted } else th) ∧
      (∀ h, h ≠ g → t.group? h = s.group? h) ∧ ∀ a, t.byteAt a = s.byteAt a

/-- `GROUP_PARK` gathers the return stacks of a group whose threads wait on joins, writes its section and takes it off its slot, or leaves it
while a line has to be waited for; one whose word has come comes back to a free slot of its
quarter, from the park table or from its save slot; the Skein timer flushes a list, and the oldest record of a ring goes back to
the Skein of its core (R388, R390, R392). -/
def ParkingAndSkeinEventsAct : Prop :=
  (∀ (s : State) g, s.parkable g = true →
    (s.parkNow g = none → exec (.groupPark g) s = .next s) ∧
    ∀ s1 x s2, s.gatherStacks g = some s1 → s1.group? g = some x → s1.writeSection g x = some s2 → (s2.group? g).isSome = true →
      (s2.die (dieOf x.home.core)).parkTable.length < 2048 →
      exec (.groupPark g) s = .next ((s2.modDie (dieOf x.home.core) fun d => { d with parkTable := d.parkTable ++ [g] }).leaveSlot g)) ∧
  (∀ (s : State) g x k, s.joinDone g = true → s.group? g = some x → (s.die (dieOf x.home.core)).parkTable.contains g = true →
    s.freeSlot x.home.core x.home.quarter (s.kernelOf x.launch).charge = some k →
    (∀ th ∈ x.lanes, th.joinHeld = true → ∃ va w sc, th.wait = .join va (some w) sc) → s.poison = [] →
    ∃ t, exec (.parkedGroupReturn g) s = .next t ∧
      ((t.group? g).map fun y => y.place) = some (some ⟨x.home.core, x.home.quarter, k⟩) ∧
      g ∉ (t.die (dieOf x.home.core)).parkTable ∧ ∀ h, h ≠ g → t.group? h = s.group? h) ∧
  (∀ (s : State) g x k, s.groups = [(g, x)] → s.joinDone g = true →
    (s.die (dieOf x.home.core)).parkTable.contains g = false →
    s.freeSlot x.home.core x.home.quarter (s.kernelOf x.launch).charge = some k →
    (∀ th ∈ x.lanes, th.joinHeld = true → ∃ va w sc, th.wait = .join va (some w) sc) → s.poison = [] →
    ∃ t, exec (.parkSlotReread (dieOf x.home.core)) s = .next t ∧
      ((t.group? g).map fun y => y.place) = some (some ⟨x.home.core, x.home.quarter, k⟩)) ∧
  (∀ (s : State) core l e, s.timedList core = some (l, e) → s.skeinList core l e ≠ [] →
    exec (.skeinTimerFlush core) s = .next ((s.ripen core l e).formFirst core l e (s.kernelOf l).width)) ∧
  ∀ (s : State) slot die h t a hm s1, alGet (s.ctx slot).rings (0, 0) die = (h, t) → h ≠ t → (s.ctx slot).ringPark = none →
    ((s.ctx slot).state = 0 ∨ (s.ctx slot).state = 4) → fld ((s.ctx slot).ringAddr die h) 56 8 = 0 →
    s.xlate none die slot ((s.ctx slot).ringAddr die h).toNat .read = (.ok a hm, s1) → s1.ownedBy none a 32 = false →
    s1.poisoned a 32 = false →
    let x := s1.readNodeN a 32
    let r := ringRec slot x (alGet (s.ctx slot).ringInfo ⟨0, none, 0, none⟩ (2 ^ 32 * die + h.toNat))
    fldN x 211 1 = 1 → s1.skeinRoom r.core = true →
      exec (.spillRingReturn slot die) s = .next ((s1.modCtx slot fun c =>
        { c with rings := alSet c.rings die (h + 1, t), ringInfo := alDel c.ringInfo (2 ^ 32 * die + h.toNat) }).skeinPut r)

/-- The events of caches, groups and Skein act (R128, R352, R383 to R392). -/
def Obligations.SchedulingEventsComplete : Prop := SoftErrorsCounted ∧ SchedulerEventsAct ∧ ParkingAndSkeinEventsAct

/-! ## Launches (R368 to R375) -/

/-- A doorbell waits behind the host's earlier accesses (R330). One that names a queue whose EN is 1 and DEV is 0, and moves PROD on by at most the ring's size, sets PROD; any other sets ERR,
with HIRQ bit 2. A queue's BASE is written only while EN is 0, with its low bits zero. A record that can be read makes a launch with the
next number, and CONS goes on; a launch whose dependences are met becomes ready; a team is placed on the lowest core with
room; a launch that has ended writes its status and is forgotten (R368 to R375). -/
def Obligations.LaunchEventsComplete : Prop :=
  (∀ (s : State) (v : Dword),
    let q := fld v 0 6
    let x := s.queue q
    let prod := BitVec.ofNat 32 (fld v 32 32)
    (s.hostTurnNow = false → exec (.ldoorWrite v) s = .next (s.hostHold (.ldoorWrite v))) ∧
    (s.hostTurnNow = true → x.en = true → x.dev = false → prod ≠ x.prod → (prod - x.prod).toNat ≤ 2 ^ x.log2 →
      exec (.ldoorWrite v) s = .next (s.hostTaken.modQueue q fun y => { y with prod := prod })) ∧
    (s.hostTurnNow = true → (x.en = false ∨ x.dev = true ∨ prod = x.prod ∨ 2 ^ x.log2 < (prod - x.prod).toNat) → x.err = false →
      ∃ t, exec (.ldoorWrite v) s = .next t ∧ t.queue q = { x with err := true } ∧ bit t.hirq 2 = true ∧
        ∀ k, k ≠ q → t.queue k = s.queue k)) ∧
  (∀ (s : State) q v,
    ((s.queue q).en = true → exec (.launchQueueCsrWrite q 0 v) s = .next s) ∧
    ((s.queue q).en = false →
      exec (.launchQueueCsrWrite q 0 v) s = .next (s.modQueue q fun y => { y with base := setFld v 0 7 0 }))) ∧
  (∀ (s : State) q slot bs s1 l1 ok s2, s.nextQueue = some q → s.slotOfId (s.queue q).ctx = some slot → (s.queue q).failed = none →
    (distVia slot).rd ((s.queue q).base + BitVec.ofNat 64 (128 * ((s.queue q).cons.toNat % 2 ^ (s.queue q).log2))) 128 s = .ok bs s1 →
    recordError (launchOf slot (s.queue q).prio 0 (ofBytes bs)) (ofBytes bs) = none →
    readLaunch (distVia slot) (launchOf slot (s.queue q).prio 0 (ofBytes bs)) (BitVec.ofNat 64 (fldN (ofBytes bs) 192 64)) s1 =
      .ok (l1, ok) s2 →
    ∃ t, exec (.launchAccept q) s = .next t ∧
      alGet? t.launches s2.nextId = some { l1 with error := if ok then none else some (2, 1), lnum := s2.nextLnum } ∧
      t.nextLnum = s2.nextLnum + 1 ∧ (t.queue q).cons = (s2.queue q).cons + 1 ∧
      alGet? t.lastQueue (s2.queue q).prio = some q) ∧
  (∀ (s : State) l x t, alGet? s.launches l = some x → x.ready = false → x.error = none → x.park = none → x.failed = false →
    (s.ctx x.slot).state ≠ 3 → depsMet (distVia x.slot) x.waits s = .ok true t →
      ∃ u, exec (.launchDependenceReread l) s = .next u ∧ u = t.makeReady l ∧
        ∀ y, alGet? t.launches l = some y → ((alGet? u.launches l).map fun z => z.ready) = some true) ∧
  (∀ (s : State) i l c, (∀ p ∈ s.ctxs, p.2.state ≠ 5) → (∀ k, k ∉ s.ctxs.map (·.1) → (s.ctx k).state ≠ 5) →
    s.placeOrder = [i] → alGet? s.launches i = some l → l.coop = false → l.teams = l.nextTeam + 1 → s.coreFor l.kernel = some c →
      ∃ t, exec .placementRound s = .next t ∧ t = s.placeTeam i c l) ∧
  ∀ (s : State) l x st rs, alGet? s.launches l = some x → s.launchEnd l x = some (st, rs) → (∀ p ∈ s.sb, p.2.slot ≠ x.slot) →
    x.saddr = 0 →
    (x.stat = 0 → exec (.launchComplete l) s = .next { s with launches := alDel s.launches l }) ∧
    ∀ a h t, x.stage = 0 → x.stat ≠ 0 → x.park = none → x.failed = false →
      s.reach (distVia x.slot).iss .store x.stat 16 16 0x094 false = (.mem (.node a) h, t) → t.ownedBy none a 16 = false → t.nodeOk a 16 = true →
      ∃ u, exec (.launchComplete l) s = .next u ∧ u.readNode a 16 = x.status st rs ∧
        (∀ b, b < a ∨ a + 16 ≤ b → u.byteAt b = t.byteAt b) ∧ u.groups = s.groups

/-! ## The host port and contexts (R112 to R114, R129, R327 to R335, R436 to R442) -/

/-- An event sets its bit of HIRQ and sends its vector the first time, where the bit is not masked; a bit already set sends nothing;
software clears bits, and one whose condition holds still is set again and sends its vector (R331). -/
def Obligations.InterruptsAreSentOnce : Prop :=
  (∀ (s : State) b, b < 7 → bit (s.irq b).hirq b = true ∧
    (∀ k, k < 7 → k ≠ b → bit (s.irq b).hirq k = bit s.hirq k) ∧
    (bit s.hirq b = true → s.irq b = s) ∧
    (bit s.hirq b = false → (s.irq b).vectors = if bit s.himask b then s.vectors else s.vectors ++ [b]) ∧
    s.irq b = { s with hirq := (s.irq b).hirq, vectors := (s.irq b).vectors }) ∧
  ∀ (s : State) (v : Dword), ∃ t, exec (.hirqClear v) s = .next t ∧
    (∀ k, k < 7 → bit t.hirq k = (bit s.hirq k && (!bit v k || s.irqHolds k))) ∧
    t = { s with hirq := t.hirq, vectors := t.vectors }

/-- Answers and invalidations: `PGINV` of everything leaves no translation of the context in any TLB and is busy until what used one is
performed; `RDCINV` empties the die's RDC; a deferred fault record is written at its slot of the queue, with HIRQ bit 0, where there is room and no command owns its line; a retry
lets every access that was parked on the record walk again, a failure ends them, and an answer to no record changes nothing (R112 to R114,
R129). -/
def InvalidationsAndAnswersAct : Prop :=
  (∀ (s : State) slot v,
    ((s.ctx slot).pginvBusy = true →
      exec (.pginvWrite slot v) s = .next (s.modCtx slot fun c => { c with pginvNext := c.pginvNext ++ [v] })) ∧
    ((s.ctx slot).pginvBusy = false → ∃ t, exec (.pginvWrite slot v) s = .next t ∧ (t.ctx slot).pginvBusy = true ∧
      (pginvRange v = none → (∀ p ∈ t.cores, ∀ x ∈ p.2.tlb, x.slot ≠ slot) ∧ (∀ p ∈ t.dies, ∀ x ∈ p.2.tlb, x.slot ≠ slot) ∧
        ∀ x ∈ t.walkCache, x.slot ≠ slot) ∧
      (∀ g l, t.thread g l = { s.thread g l with wait := (t.thread g l).wait, spawn := (t.thread g l).spawn }) ∧
      ∀ a, t.byteAt a = s.byteAt a)) ∧
  (∀ (s : State) slot, (s.pginvDone slot = false → exec (.pginvComplete slot) s = .next s) ∧
    (s.pginvDone slot = true → (s.ctx slot).pginvNext = [] →
      exec (.pginvComplete slot) s = .next (s.modCtx slot fun c => { c with pginvBusy := false, pginvWait := [] }))) ∧
  (∀ (s : State) die v, (bit v 0 = false → exec (.rdcinvWrite die v) s = .next s) ∧
    (∀ x, bit v 0 = true → (s.die die).rdcinv = some x → exec (.rdcinvWrite die v) s =
      .next (s.modDie die fun d => { d with rdcinvNext := d.rdcinvNext ++ [bit v 1] })) ∧
    (bit v 0 = true → (s.die die).rdcinv = none →
      exec (.rdcinvWrite die v) s = .next (s.modDie die fun d =>
        { d with rdc := if bit v 1 then d.rdc.filter fun x => !x.loc.untracked else [],
                 rdcinv := some (s.cycle + (if bit v 1 then 6 else 16384), bit v 1) }))) ∧
  (∀ (s : State) die at' u, (s.die die).rdcinv = some (at', u) → at' ≤ s.cycle → (s.die die).rdcinvNext = [] →
    exec (.rdcinvComplete die) s = .next (s.modDie die fun d => { d with rdcinv := none })) ∧
  (∀ (s : State) slot, (s.ctx slot).faults.find? (fun f => f.seq.isNone) = none ∨ s.recordFits slot = false →
    exec (.faultRecordDeferred slot) s = .next s) ∧
  (∀ (s : State) slot f, (s.ctx slot).faults.find? (fun f => f.seq.isNone) = some f → (s.ctx slot).faultRoom = true →
    let a := (s.ctx slot).fqbase.toNat + 32 * ((s.ctx slot).fqprod.toNat % ((s.ctx slot).fqmask.toNat + 1))
    s.ownedBy none a 32 = false → s.nodeOk a 32 = true → ∃ t, exec (.faultRecordDeferred slot) s = .next t ∧ t.readNode a 32 = f.bytes (s.ctx slot).fqprod ∧
      (∀ b, b < a ∨ a + 32 ≤ b → t.byteAt b = s.byteAt b) ∧ (t.ctx slot).fqprod = (s.ctx slot).fqprod + 1 ∧
      bit t.hirq 0 = true ∧ t.groups = s.groups) ∧
  ∀ (s : State) slot (v : Dword),
    ((s.ctx slot).faults.find? (fun f => f.seq == some (BitVec.ofNat 32 (fld v 0 32))) = none →
      exec (.fqrespWrite slot v) s = .next s) ∧
    ∀ f, (s.ctx slot).faults.find? (fun f => f.seq == some (BitVec.ofNat 32 (fld v 0 32))) = some f →
      (fld v 32 2 = 1 → ∃ t, exec (.fqrespWrite slot v) s = .next t ∧ f ∉ (t.ctx slot).faults ∧
        (∀ p ∈ t.acc, parkedOn p.2.park slot f = false) ∧ (∀ p ∈ t.sb, parkedOn p.2.park slot f = false) ∧
        t.groups = s.groups ∧ ∀ a, t.byteAt a = s.byteAt a) ∧
      (fld v 32 2 = 2 → exec (.fqrespWrite slot v) s =
        .next ((s.modCtx slot fun c => { c with faults := c.faults.filter fun x => x != f }).failFault slot f)) ∧
      (fld v 32 2 = 0 ∨ fld v 32 2 = 3 → exec (.fqrespWrite slot v) s = .next s)

/-- The registers of the host: PSEL clears its counter, reads of THREV and ERRC clear their counts, HIMASK takes its seven bits, and MPOL is
written only while it is not locked; a register that is only written or an offset that is reserved reads as 0, one that is read leaves
its word; the host reads and writes memory at the homes, absent bytes reading as 0xFF, in its own order: an access that meets a
line which a command owns, or that follows one which waits, waits itself; a flit sent again is counted (R8, R327, R328, R332, R333, R430, R448, R453,
R454). -/
def HostAccessesAct : Prop :=
  (∀ (s : State) n v, ∃ t, exec (.pselWrite n v) s = .next t ∧ t.psel = alSet s.psel n (BitVec.ofNat 64 (fld v 0 12)) ∧
    (∀ p ∈ t.cores, ∃ q ∈ s.cores, p = (q.1, { q.2 with perf := alDel q.2.perf n })) ∧
    t = { s with psel := t.psel, cores := t.cores }) ∧
  (∀ s : State, ∃ t, exec .threvRead s = .next t ∧ t.hostOut = s.hostOut ++ [toBytes 8 s.threv.toNat] ∧
    fld t.threv 0 32 = 0 ∧ fld t.threv 32 32 = fld s.threv 32 32 ∧ t = { s with threv := t.threv, hostOut := t.hostOut }) ∧
  (∀ (s : State) die, ∃ t, exec (.errcRead die) s = .next t ∧
    t.hostOut = s.hostOut ++ [toBytes 8 ((s.die die).corrected + (s.die die).uncorrected * 2 ^ 32)] ∧
    t.die die = { s.die die with corrected := 0, uncorrected := 0 } ∧ ∀ d, d ≠ die → t.die d = s.die d) ∧
  (∀ (s : State) (v : Dword), exec (.registerWrite 0x1010 v) s = .next { s with himask := BitVec.ofNat 7 v.toNat } ∧
    (s.sec.locked = true → exec (.registerWrite 0x4100 v) s = .next s) ∧
    (s.sec.locked = false →
      exec (.registerWrite 0x4100 v) s = .next { s with sec := { s.sec with mpol := BitVec.ofNat 40 v.toNat } }) ∧
    ∀ c n, c < 256 → n < 0x1A → exec (.registerWrite (0x800000 + 4096 * c + 0x100 + 8 * n) v) s =
      .next (s.writeCsr c (0x100 + n) v)) ∧
  (∀ (s : State) a n, fld s.boot.stat 0 2 ≠ 2 → s.hostTurnNow = true → s.ownedBy none a n = false →
    ∃ t, exec (.hostMemoryAccess (.read a n)) s = .next t ∧ t.groups = s.groups ∧ (∀ b, t.byteAt b = s.byteAt b) ∧
      t.hostOut = s.hostOut ++ [(List.range n).map fun i => if s.nodeOk (a + i) 1 then s.byteAt (a + i) else 0xFF]) ∧
  (∀ (s : State) a bs, fld s.boot.stat 0 2 ≠ 2 → s.hostTurnNow = true → s.ownedBy none a bs.length = false →
    ∃ t, exec (.hostMemoryAccess (.write a bs)) s = .next t ∧ t.groups = s.groups ∧
      (∀ (i : Nat) (b : Byte), bs[i]? = some b → s.nodeOk (a + i) 1 = true → t.byteAt (a + i) = b) ∧
      ∀ b, b < a ∨ a + bs.length ≤ b → t.byteAt b = s.byteAt b) ∧
  (∀ (s : State) a bs, fld s.boot.stat 0 2 ≠ 2 → s.hostTurn = false → s.hostHeld ≠ [] ∨ s.ownedBy none a bs.length = true →
    exec (.hostMemoryAccess (.write a bs)) s = .next { s with hostHeld := s.hostHeld ++ [.hostMemoryAccess (.write a bs)] }) ∧
  (∀ (s : State) v, s.hostTurn = false → s.hostHeld ≠ [] →
    exec (.ldoorWrite v) s = .next { s with hostHeld := s.hostHeld ++ [.ldoorWrite v] }) ∧
  (∀ (s : State) n, n = 4 ∨ n = 8 →
    let reads := fun off x => exec (.hostMemoryAccess (.register off n)) s = .next { s with hostOut := s.hostOut ++ [toBytes n x] }
    reads 0x1000 0 ∧ reads 0x1008 s.hirq.toNat ∧ reads 0x1010 s.himask.toNat ∧ reads 0x4110 (if s.sec.locked then 2 else 0) ∧
      reads 0x5810 0 ∧ ∀ k, 0x900000 ≤ k → reads (8 * (k / 8)) 0) ∧
  ∀ (s : State) k, exec (.latticeFlitRetry k) s = .next { s with flitRetries := s.flitRetries + 1 }

/-- A peer's access that its binding admits reads or writes at the home and is answered, or is performed as its kind says; one without
a context, a binding or a translation is refused, one that meets a fault of the pager is held, and over stopped links, or where
boot failed, none is answered (R103, R334, R447, R450). -/
def PeerAccessesAct : Prop :=
  (∀ (s : State) r, s.peersShut = true → ∃ t, exec (.peerAccessRequest r) s = .next t ∧
    t = { s with peerParked := t.peerParked }) ∧
  (∀ (s : State) r, s.peersShut = false → s.peerSlot r.pctx = none →
    ∃ t, exec (.peerAccessRequest r) s = .next t ∧ t.peerOut = s.peerOut ++ [(r.tag, .refused)] ∧ t.groups = s.groups ∧
      ∀ a, t.byteAt a = s.byteAt a) ∧
  ∀ (s s1 : State) r slot x, s.peersShut = false → (∀ p ∈ s.peerParked, p.1.tag ≠ r.tag) →
    s.peerSlot r.pctx = some slot → s.findBinding slot r 384 0 = (x, s1) →
    (x = .inl false → exec (.peerAccessRequest r) s = .next (s1.answerPeer r .refused)) ∧
    (∀ p, x = .inr p → exec (.peerAccessRequest r) s = .next (s1.holdPeer r p)) ∧
    ∀ y s2, x = .inl true → s1.peerRuns slot (peerKind r) (r.va.setWidth 64) (peerParts r) = (y, s2) →
      (y = .inl none → exec (.peerAccessRequest r) s = .next (s2.answerPeer r .refused)) ∧
      (∀ p, y = .inl (some p) → exec (.peerAccessRequest r) s = .next (s2.holdPeer r p)) ∧
      (∀ runs, y = .inr runs → exec (.peerAccessRequest r) s = .next (s2.performPeer r slot runs)) ∧
      (∀ n a h, r.op = .read n → y = .inr [(a, h, 0, n)] → ∃ t, exec (.peerAccessRequest r) s = .next t ∧
        (∀ b, t.byteAt b = s2.byteAt b) ∧ t.peerOut = s2.peerOut ++ [(r.tag, .data (s2.readNode a n))]) ∧
      ∀ bs a h, r.op = .write bs → y = .inr [(a, h, 0, bs.length)] → s2.nodeOk a bs.length = true →
        ∃ t, exec (.peerAccessRequest r) s = .next t ∧ t.peerOut = s2.peerOut ++ [(r.tag, .data [])] ∧
          (∀ (i : Nat) (b : Byte), bs[i]? = some b → t.byteAt (a + i) = b) ∧
          ∀ b, b < a ∨ a + bs.length ≤ b → t.byteAt b = s2.byteAt b

/-- An access of a thread to a peer that had no answer in LTMO ends with 0x088, the trap being that of its instruction where the thread
is still there; a probe reports the cause, and a buffered store ends with it (R335, R474). -/
def PeerTimeoutsAct : Prop :=
  (∀ (s : State) id a, alGet? s.acc id = some a → ((a.tgt.bind Target.loc?).map Loc.isPeer).getD false = true →
    a.ns + s.ltmo ≤ s.ns →
    (∀ known, a.op = .probe known →
      exec (.peerAccessTimeout id) s = .next (s.land id a [BitVec.ofNat 32 (known + 4 + 8 * 2 ^ 24)])) ∧
    ((∀ known, a.op ≠ .probe known) → exec (.peerAccessTimeout id) s = .next (s.endAcc id a 0x088 a.va)) ∧
    ∀ ty n fr home l1 l2, a.op = .load ty n fr home l1 l2 → a.parked = false → a.lanes = [] → (s.thread a.g a.lane).issues = a.mark →
      (s.thread? a.g a.lane).isSome = true → (s.thread a.g a.lane).exited = false →
      ∃ u : State, exec (.peerAccessTimeout id) s = .next (u.trapWith a.g a.lane 0x088 a.va a.pc false false) ∧
        u.acc = alDel s.acc id ∧ (u.thread a.g a.lane).v = (s.thread a.g a.lane).v ∧
        (∀ h, h ≠ a.g → u.group? h = s.group? h) ∧ ∀ b, u.byteAt b = s.byteAt b) ∧
  ∀ (s : State) id x, alGet? s.acc id = none → alGet? s.sb id = some x → (x.loc.map Loc.isPeer).getD false = true →
    x.ns + s.ltmo ≤ s.ns → exec (.peerAccessTimeout id) s = .next (s.failedStore id x 0x088)

/-- CTXCTL (R436, R437, R442): OPEN gives a free slot a context in STATE 0 with its id and reset values, and a write without it to a
free slot sets ID alone; CLOSE frees a slot whose context has ended; KILL ends it with 0x166; PREEMPT without an area is refused
with STATE 4, and otherwise begins with STATE 1, each team being saved at its turn once no line that its image needs is owned; RESUME of a context without images lets it
run at once. -/
def ContextControlActs : Prop :=
  (∀ (s : State) slot (v : Dword), bit v 3 = true → (s.ctx slot).state = 7 →
    (∀ p ∈ s.ctxs, p.1 ≠ slot → p.2.state ≠ 7 → p.2.id ≠ BitVec.ofNat 16 (fld v 32 16)) →
    ∃ t, exec (.ctxctlOpen slot v) s = .next t ∧ t.ctx slot = { Ctx.free with state := 0, id := BitVec.ofNat 16 (fld v 32 16) } ∧
      (∀ d, d ≠ slot → t.ctx d = s.ctx d) ∧ t.groups = s.groups ∧ ∀ a, t.byteAt a = s.byteAt a) ∧
  (∀ (s : State) slot v, slot < 256 → exec (.registerWrite (0x800000 + 4096 * slot) v) s =
    .next (s.modCtx slot fun c => if c.state = 7 then { c with id := BitVec.ofNat 16 (fld v 32 16) } else c)) ∧
  (∀ (s : State) slot, s.closable slot = true →
    ∃ t, exec (.ctxctlClose slot) s = .next t ∧ t.ctx slot = { Ctx.free with id := (s.ctx slot).id } ∧ (∀ d, d ≠ slot → t.ctx d = s.ctx d) ∧
      (∀ q, q < 64 → (s.queue q).ctx = (s.ctx slot).id → (t.queue q).en = false ∧ (t.queue q).err = true) ∧
      t.groups = s.groups ∧ ∀ a, t.byteAt a = s.byteAt a) ∧
  (∀ (s : State) slot, exec (.ctxctlKill slot) s = .next (s.kill slot 0x166 0 none)) ∧
  (∀ (s : State) slot, (s.ctx slot).state = 0 →
    (((s.ctx slot).pimbase = 0 ∨ (s.ctx slot).pimmax.toNat < s.units slot) →
      exec (.ctxctlPreempt slot) s = .next (s.modCtx slot fun c => { c with state := 4 })) ∧
    ((s.ctx slot).pimbase ≠ 0 → s.units slot ≤ (s.ctx slot).pimmax.toNat →
      (∃ p ∈ s.groups, p.2.slot = slot) → (∀ p ∈ s.ctxs, p.2.state ≠ 1) → (∀ k, k ∉ s.ctxs.map (·.1) → (s.ctx k).state ≠ 1) →
      exec (.ctxctlPreempt slot) s = .next (s.modCtx slot fun c => { c with state := 1, images := [] }))) ∧
  (∀ (s : State) g, s.preemptable g = true → exec (.preemptionTaken g) s = .next (((s.preempt g).map State.finishAll).getD s)) ∧
  ∀ (s : State) slot, (s.ctx slot).state = 2 → (s.ctx slot).images = [] →
    exec (.ctxctlResume slot) s =
      .next (((s.modCtx slot fun c => { c with state := 5, moved := [] }).dropRecords slot).finishRestore slot)

/-- Answers of the pager, invalidations and the control of contexts act (R112 to R114, R129, R436 to R442). -/
def Obligations.AnswersAndContextsComplete : Prop := InvalidationsAndAnswersAct ∧ ContextControlActs

/-- Accesses of the host and of peers act, and those to a peer end in time (R8, R103, R327 to R335). -/
def Obligations.HostAndPeerAccessesComplete : Prop := HostAccessesAct ∧ PeerAccessesAct ∧ PeerTimeoutsAct

/-! ## Links, security and health (R336 to R339, R443 to R455) -/

/-- A Span entry written with V = 1 lets a closed session handshake, a failed one no more often than once per second, and with V = 0
closes it; a good handshake opens the session or gives it new keys, keeping the old ones for 5 s, and a bad one closes it with HIRQ
bit 6; a packet whose tag is right is accepted once, a data packet being delivered in its order and acknowledged, and a repeated one
is dropped and counted; old keys expire; a rekey, after an hour or 2^32 packets of a direction, sends a handshake of type 4; a closed
session is tried again after a second; and the oldest packet without acknowledgement is sent again, as it was (R336 to R339). -/
def Obligations.SpanEventsComplete : Prop :=
  (∀ (s : State) e (v : BitVec 256), bit v 164 = true → s.spanUp = true →
    s.spanState e = 0 ∨ s.spanState e = 3 ∧ (s.sessionOf e).tried + 1000000000 ≤ s.ns →
    ∃ t, exec (.spanPeerEntryWrite e v) s = .next t ∧ t.spanState e = 1 ∧ fld (t.spanEntry e) 0 169 = fld v 0 169 ∧
      (t.sessionOf e).tried = s.ns ∧ (∃ p, t.spanOut = s.spanOut ++ [⟨e, p⟩]) ∧ ∀ d, d ≠ e → t.spanEntry d = s.spanEntry d ∧ t.sessionOf d = s.sessionOf d) ∧
  (∀ (s : State) e (v : BitVec 256), bit v 164 = true → s.spanState e = 3 → s.ns < (s.sessionOf e).tried + 1000000000 →
    ∃ t, exec (.spanPeerEntryWrite e v) s = .next t ∧ t.spanState e = 3 ∧ t.sessions = s.sessions ∧ t.spanOut = s.spanOut) ∧
  (∀ (s : State) e (v : BitVec 256), bit v 164 = false →
    ∃ t, exec (.spanPeerEntryWrite e v) s = .next t ∧ t.spanState e = 0 ∧ (t.sessionOf e).keys = [] ∧
      ∀ d, d ≠ e → t.spanEntry d = s.spanEntry d ∧ t.sessionOf d = s.sessionOf d) ∧
  (∀ (s : State) h, bit (s.spanEntry h.entry) 164 = true → s.spanUp = true →
    (s.handshakeOk h = true → s.spanState h.entry = 1 → ∃ t, exec (.spanHandshake h) s = .next t ∧ t.spanState h.entry = 2 ∧
      (t.sessionOf h.entry).id = h.session ∧ (t.sessionOf h.entry).keys = spanKeys (s.sessionOf h.entry).secret h ∧
      (t.sessionOf h.entry).oldKeys = [] ∧
      (t.sessionOf h.entry).opened = s.ns) ∧
    (s.handshakeOk h = true → s.spanState h.entry = 2 → ∃ t, exec (.spanHandshake h) s = .next t ∧ t.spanState h.entry = 2 ∧
      (t.sessionOf h.entry).id = (s.sessionOf h.entry).id ∧
      ((s.sessionOf h.entry).rekeying = true → t.spanOut = s.spanOut) ∧
      ((s.sessionOf h.entry).rekeying = false → ∃ p, t.spanOut = s.spanOut ++ [⟨h.entry, p⟩]) ∧
      (t.sessionOf h.entry).keys = spanKeys
        (if (s.sessionOf h.entry).rekeying then (s.sessionOf h.entry).secret else Config.ephemeral s.freeTick) h ∧
      (t.sessionOf h.entry).oldKeys = (s.sessionOf h.entry).keys ∧ (t.sessionOf h.entry).oldUntil = s.ns + 5000000000) ∧
    (s.handshakeOk h = false → (s.spanState h.entry = 1 ∨ s.spanState h.entry = 2) →
      ∃ t, exec (.spanHandshake h) s = .next t ∧ t.spanState h.entry = 3 ∧ (t.sessionOf h.entry).keys = [] ∧
        bit t.hirq 6 = true)) ∧
  (∀ (s : State) (p : SpanPacket),
    let e := p.entry
    let x := s.sessionOf e
    let h := ofBytes (p.bytes.take 24)
    let n := fldN h 48 64
    let fits := s.spanState e = 2 ∧ 104 ≤ p.bytes.length ∧ p.bytes.length ≤ 8232 ∧ fldN h 0 8 = 1 ∧ fldN h 8 8 ≠ 0 ∧
      fldN h 8 8 ≤ 4 ∧ fldN h 112 80 = 0 ∧ fldN h 16 32 = x.id.toNat
    (fits → n ∈ x.seen → exec (.spanPacketReceive p) s = .next (s.modSession e fun y => { y with dropped := y.dropped + 1 })) ∧
    (∀ text, fits → n ∉ x.seen → x.top < n + 65536 →
      s.openPacket e x.keys (p.bytes.take 24) ((p.bytes.drop 24).take (p.bytes.length - 40)) (p.bytes.drop (p.bytes.length - 16)) n =
        some text →
      ∃ t, exec (.spanPacketReceive p) s = .next t ∧ n ∈ (t.sessionOf e).seen ∧ (t.sessionOf e).top = max x.top n ∧
        (t.sessionOf e).underNew = x.underNew + 1 ∧ (t.sessionOf e).dropped = x.dropped ∧
        (fldN h 8 8 ≠ 1 → t.spanOut = s.spanOut ∧ ∀ m, m ∈ (t.sessionOf e).unacked → m ∈ x.unacked) ∧
        (fldN h 8 8 = 1 → ∃ q, t.spanOut = s.spanOut ++ [⟨e, q⟩] ∧ (t.sessionOf e).unacked = x.unacked ++ [(x.sent, q)]) ∧
        (fldN h 8 8 = 1 → x.held = [] → n = x.next → t.spanIn = s.spanIn ++ [(e, text)] ∧ (t.sessionOf e).next = n + 1))) ∧
  (∀ (s : State) e p ps, (s.sessionOf e).unacked = p :: ps → s.spanState e = 2 →
    exec (.spanRetransmit e) s = .next { s with spanOut := s.spanOut ++ [⟨e, p.2⟩] }) ∧
  (∀ (s : State) e, s.spanState e = 2 → (s.sessionOf e).keys ≠ [] → (s.sessionOf e).rekeying = false →
    (s.sessionOf e).opened + 3600000000000 ≤ s.ns ∨ 2 ^ 32 ≤ (s.sessionOf e).sent - (s.sessionOf e).keyFrom ∨
      2 ^ 32 ≤ (s.sessionOf e).underNew →
      exec (.spanRekey e) s = .next ((s.modSession e fun x => { x with rekeying := true, tried := s.ns }).sendHello e 4)) ∧
  (∀ (s : State) e typ, ∃ p, (s.sendHello e typ).spanOut = s.spanOut ++ [⟨e, p⟩] ∧
    p.take 24 = spanHeader typ (s.sessionOf e).id 0) ∧
  (∀ (s : State) e, (s.sessionOf e).oldKeys ≠ [] → ((s.sessionOf e).oldUntil ≤ s.ns ∨ 4096 ≤ (s.sessionOf e).underNew) →
    exec (.spanOldKeyExpiry e) s = .next (s.modSession e fun x => { x with oldKeys := [] })) ∧
  ∀ (s : State) e, bit (s.spanEntry e) 164 = true → s.spanUp = true → (s.spanState e = 0 ∨ s.spanState e = 3) →
    (s.sessionOf e).tried + 1000000000 ≤ s.ns →
      ∃ t, exec (.spanSessionRetry e) s = .next t ∧ t.spanState e = 1 ∧ (t.sessionOf e).tried = s.ns ∧
        ∃ p, t.spanOut = s.spanOut ++ [⟨e, p⟩]

/-- A device reset leaves memory empty, no group, launch, access or session, and keeps the fused SVN and an erased seed. The report
of a boot step that passes clears its count, one that fails raises it, and one of no step in hand does nothing; step 1 passes with
firmware that verifies, step 2 in its alternative form sets BONDCAP, and step 3 sets the rate; a report may set LTMO, between 0.1 ms and 1 s.
BOOTCLR clears the named steps for the next start; the attestation report takes the nonce
and ends with DONE, or with ERR once the seed is erased (R335, R444, R445, R447, R450, R452). -/
def BootAndAttestationAct : Prop :=
  (∀ s : State, ∃ t, exec .deviceReset s = .next t ∧ t.mem = [] ∧ t.groups = [] ∧ t.launches = [] ∧ t.acc = [] ∧ t.sb = [] ∧
    t.sessions = [] ∧ t.boot.fused = s.boot.fused ∧ t.sec.seedErased = s.sec.seedErased ∧ t.sec.locked = false) ∧
  (∀ (s : State) r, s.boot.inHand = false → exec (.bootStepComplete r) s = .next (s.setLtmo r.ltmo)) ∧
  (∀ (s : State) n, s.setLtmo none = s ∧
    s.setLtmo (some n) = if 100000 ≤ n ∧ n ≤ 1000000000 then { s with ltmo := n } else s) ∧
  (∀ (s : State) r, s.boot.inHand = true →
    let i := s.boot.step
    let u := s.setLtmo r.ltmo
    let fails := ∃ t, exec (.bootStepComplete r) s = .next t ∧ t = { u with boot := t.boot } ∧
      (t.boot.entry i).a = (s.boot.entry i).a + 1 ∧ (t.boot.entry i).mark = 3
    (r.passed = false → fails) ∧
    (r.passed = true → i = 1 → s.boot.load r.image = none → fails) ∧
    (∀ b, r.passed = true → i = 1 → s.boot.load r.image = some b → ∃ t, exec (.bootStepComplete r) s = .next t ∧
      t = { u with boot := t.boot } ∧ (t.boot.entry 1).a = 0 ∧ (t.boot.entry 1).mark = 2 ∧ t.boot.svn = b.svn ∧
      t.boot.fused = b.fused) ∧
    (r.passed = true → i ≠ 1 → ∃ t, exec (.bootStepComplete r) s = .next t ∧
      t = { u with boot := t.boot, dies := t.dies } ∧ (i ≠ 2 → t.dies = s.dies) ∧ (t.boot.entry i).a = 0 ∧
      (i = 2 → s.boot.alt 2 = true → ∀ d, d < 8 → (t.die d).bondcap = 3072 - 32 * (s.boot.banksOut r.banks).getD d 0) ∧
      (t.boot.entry i).mark = 2 ∧ (i = 3 → t.boot.rate = if s.boot.alt 3 then 8533 else 10667))) ∧
  (∀ (s : State) (v : Dword), ∃ t, exec (.bootclrWrite v) s = .next t ∧ t = { s with boot := t.boot } ∧
    (∀ i, t.boot.alt i = s.boot.alt i) ∧ ∀ i, 1 ≤ i → i ≤ 7 → t.boot.entry i =
      if bit v i then { s.boot.entry i with a := 0, p := false, banks := [] } else s.boot.entry i) ∧
  (∀ s : State, exec .attestationGo s = .next (if s.sec.busy then s else { s with
    sec := { s.sec with busy := true, done := false, err := false, taken := s.sec.nonce, boot := s.boot.stat } })) ∧
  ∀ s : State, (s.sec.busy = false → exec .attestationDone s = .next s) ∧
    (s.sec.busy = true → s.sec.seedErased = true →
      exec .attestationDone s = .next { s with sec := { s.sec with busy := false, err := true } }) ∧
    (s.sec.busy = true → s.sec.seedErased = false → ∃ t, exec .attestationDone s = .next t ∧ t.sec.busy = false ∧
      t.sec.done = true ∧ t.sec.err = s.sec.err ∧ t.sec.report.take s.reportBody.length = s.reportBody ∧ t = { s with sec := t.sec })

/-- An alarm sets the bits that fired, counts once, stops the links and sets HIRQ bit 4; an action of 2 or more erases the seed and STOPCTX
kills every open context; while an erase runs, a source only raises that erase or is only recorded. The links run again once every bit is
clear. MLOCK locks MPOL until reset. The debug port takes a session from a certificate for this device, stops and resumes groups of the
session's context, and fires source 4 otherwise. A throttle event whose cause holds counts and sets HIRQ bit 5, and a die at TCRIT
fires source 2 (R446 to R449, R453). How long an erase runs is the model's choice (log 112). -/
def AlarmsDebugAndThrottleAct : Prop :=
  (∀ (s : State) (fired : BitVec 5), fired ≠ 0 → s.erasing = none → ∃ t, exec (.madderAlarm fired) s = .next t ∧
    t.sec.fired = s.sec.fired ||| fired ∧ t.sec.alarms = s.sec.alarms + 1 ∧ t.sec.linksDown = true ∧ bit t.hirq 4 = true ∧
    (∀ n, n < 5 → bit fired n = true → 2 ≤ s.sec.policy n % 4 → t.sec.seedErased = true) ∧
    (∀ n, n < 5 → bit fired n = true → fldN (s.sec.policy n) 2 1 = 1 → ∀ c, (s.ctx c).state ≠ 7 → c ∈ s.ctxs.map (·.1) →
      (t.ctx c).state = 3)) ∧
  (∀ (s : State) (fired : BitVec 5) a, fired ≠ 0 → s.erasing = some a → ∃ t, exec (.madderAlarm fired) s = .next t ∧
    t.sec.fired = s.sec.fired ||| fired ∧ t.sec.alarms = s.sec.alarms + 1 ∧ t = { s with sec := t.sec } ∧
    t.sec.linksDown = s.sec.linksDown ∧
    ((∀ n, n < 5 → bit fired n = true → s.sec.policy n % 4 ≤ a) → t.sec.erase = s.sec.erase ∧ t.sec.seedErased = s.sec.seedErased) ∧
    ∀ n, n < 5 → bit fired n = true → a < s.sec.policy n % 4 → 2 ≤ s.sec.policy n % 4 → t.sec.seedErased = true) ∧
  (∀ (s : State) (v : Dword), ∃ t, exec (.mstatClear v) s = .next t ∧
    t.sec.fired = s.sec.fired &&& ~~~ (BitVec.ofNat 5 v.toNat) ∧ (t.sec.fired = 0 → t.sec.linksDown = false) ∧
    (t.sec.fired ≠ 0 → t.sec.linksDown = s.sec.linksDown) ∧ t = { s with sec := t.sec }) ∧
  (∀ (s : State) (v : Dword), bit v 0 = false → exec (.mlockWrite v) s = .next s) ∧
  (∀ (s : State) (v w : Dword), bit v 0 = true → ∃ t, exec (.mlockWrite v) s = .next t ∧ t.sec.locked = true ∧
    exec (.registerWrite 0x4100 w) t = .next t ∧ t = { s with sec := { s.sec with locked := true } }) ∧
  (∀ (s : State) cert, ∃ t, exec (.debugSessionRequest (.session cert)) s = .next t ∧
    (∀ ctx, Config.debugCert Config.root cert = some (Config.device, ctx) →
      t = { s with sec := { s.sec with session := some ctx } }) ∧
    ((∀ ctx, Config.debugCert Config.root cert ≠ some (Config.device, ctx)) → exec (.madderAlarm 0x10) s = .next t)) ∧
  (∀ (s : State) g, (s.sessionFor g = true →
      exec (.debugSessionRequest (.stop g)) s = .next (s.modGroup g fun x => { x with stopped := true }) ∧
      exec (.debugResume g) s = .next (s.modGroup g fun x => { x with stopped := false })) ∧
    (s.sessionFor g = false → exec (.debugSessionRequest (.stop g)) s = exec (.madderAlarm 0x10) s ∧
      exec (.debugResume g) s = exec (.madderAlarm 0x10) s)) ∧
  (∀ s : State, exec (.debugSessionRequest .other) s = exec (.madderAlarm 0x10) s) ∧
  (∀ s : State, exec (.madderAlarm 0) s = .next s) ∧
  (∀ (s : State) (e : Throttle), (∀ r ∈ e.readings, r.temp < s.tcrit) → (e.causes.filter fun p => s.causeHolds e p.1) = [] →
    exec (.throttleEvent e) s = .next s) ∧
  (∀ (s : State) (e : Throttle), (∃ r ∈ e.readings, s.tcrit ≤ r.temp) →
    exec (.throttleEvent e) s = exec (.madderAlarm 4) (s.throttled e (e.causes.filter fun p => s.causeHolds e p.1))) ∧
  ∀ (s : State) (e : Throttle),
    let causes := e.causes.filter fun p => s.causeHolds e p.1
    (∀ r ∈ e.readings, r.temp < s.tcrit) → causes ≠ [] → ∃ t, exec (.throttleEvent e) s = .next t ∧
    fld t.threv 0 32 = (fld s.threv 0 32 + 1) % 2 ^ 32 ∧ bit t.hirq 5 = true ∧
    (∀ c fr, causes = [(c, fr)] → c < 8 → fr < 65536 → fld t.threv 32 3 = c ∧ fld t.threv 48 16 = fr) ∧
    t.groups = s.groups ∧ ∀ a, t.byteAt a = s.byteAt a

/-- The events of resets, boot and attestation act. -/
def Obligations.BootAndAttestationComplete : Prop := BootAndAttestationAct

/-- The events of alarms, debugging and throttling act. -/
def Obligations.AlarmsDebugAndThrottleComplete : Prop := AlarmsDebugAndThrottleAct

/-! ## Steps and reset -/

/-- A step runs what is decoded. Where nothing is due, the ready threads of the cycle have been found and a group is picked, the bytes at
the PC of its least key, which the translation of a fetch finds, run as the instruction that they decode to, by the sub-group
that has the key; what follows settles the sub-group: none is current any more, and what it was passed over is counted. What the
agenda holds runs first, then what the host waits to do, an event that is due, and the finding of the ready threads, once a cycle. Before
all of it, commands claim the lines of pages that have become present. This order of events and instructions is the model's (log 9). -/
def Obligations.StepRunsDecoded : Prop :=
  (∀ (s s1 : State) dec g l ls a home (i : Instr) bs,
    let c := s.claimWants
    c.agenda = [] → c.flushNote = none → c.hostReady = none → c.due = none → c.surveyed = some c.cycle →
    c.pick = some (dec, g) → c.vote g = l :: ls → (c.thread g l).pc.toNat % 16 = 0 → fld (c.thread g l).pc 56 8 = 0 →
    c.xlate (some (c.coreOf g)) (dieOf (c.coreOf g)) (c.slotOf g) (c.thread g l).pc.toNat .fetch = (.ok a home, s1) →
    s1.ownedBy none a 16 = false → s1.poisoned a 16 = false → decodeBytes (s1.readNode a 16) = .ok (i, bs) →
      let t := (s1.touchDie (dieOf (c.coreOf g)) home (.node a) 0 false).offer g (l :: ls)
      t.cur = some ⟨g, l :: ls⟩ ∧ step s = settleOut t dec (exec i t)) ∧
  (∀ (s : State) i rest, s.claimWants.agenda = .event i :: rest → i.wf = true →
    step s = exec i { s.claimWants with agenda := rest }) ∧
  (∀ s : State, s.cmds = [] → s.claimWants = s) ∧
  (∀ (s : State) i,
    let c := s.claimWants
    c.agenda = [] → c.flushNote = none →
    (c.hostReady = some i → step s = exec i { c with hostTurn := true }) ∧
    (c.hostReady = none → c.due = some i → step s = exec i c) ∧
    (c.hostReady = none → c.due = none → c.surveyed ≠ some c.cycle → step s = .next c.survey)) ∧
  ∀ (b a t : State) dec, settleOut b dec (.next a) = .next t → t.cur = if b.cur = none then a.cur else none

/-- A step answers a next state, but for an event of the agenda that is not well formed, which is the one fault (the model's
choices, log 1 and log 9). -/
def Obligations.StepsGoOn : Prop :=
  (∀ i (s : State), isNext (exec i s) = true) ∧
  ∀ s : State, step s = .fault .illFormedEvent ∨ ∃ t, step s = .next t

/-- Every step keeps memory in its canonical form: addresses rise, and no listed byte reads as an unlisted one does. -/
def Obligations.StepKeepsMemoryCanonical : Prop := ∀ s t : State, s.MemOk → step s = .next t → t.MemOk

/-- After reset memory lists nothing and is canonical, no group, launch, team, access or command exists, every context slot is
free, no interrupt is pending and no queue is enabled. That every byte then reads as 0 is the model's choice (log 3). -/
def Obligations.ResetState : Prop :=
  State.reset.MemOk ∧ State.reset.mem = [] ∧ State.reset.groups = [] ∧ State.reset.launches = [] ∧ State.reset.teams = [] ∧
  State.reset.acc = [] ∧ State.reset.sb = [] ∧ State.reset.cmds = [] ∧ State.reset.hirq = 0 ∧ State.reset.vectors = [] ∧
  (∀ c, (State.reset.ctx c).state = 7) ∧ (∀ q, (State.reset.queue q).en = false ∧ (State.reset.queue q).err = false) ∧
  ∀ a, State.reset.byteAt a = 0

/-! ## Rules stated whole -/

/-- `IMULH` writes bits [2w − 1 : w] of the exact product, of two's complement numbers for s-types and naturals for n-types
(R244). -/
def Obligations.ImulhWritesUpperHalf : Prop :=
  CompletesAs .imulh (specInt [.s32, .n32, .s64, .n64] 0 slSrc slSrc slNone false) (fun e s g l t =>
    let w := tyBits e.ty
    let product : Int := if e.ty = .s32 ∨ e.ty = .s64 then toSigned w (s.rdA g l e % 2 ^ w) * toSigned w (s.rdB g l e % 2 ^ w)
      else (s.rdA g l e % 2 ^ w * (s.rdB g l e % 2 ^ w) : Nat)
    t.write e.d e.nd (fld (BitVec.ofInt (2 * w) product) w w))

/-- `CCMOV` moves the flags of a thread between cc registers and the low bits of a register: S in bit 3, Z in bit 2, C in bit 1,
V in bit 0 (R264). -/
def Obligations.CcmovMovesFlags : Prop :=
  CompletesAs .ccmovTov (fun _ => { Spec.plain with d := slVec32, a := slCc, hOk := true }) (fun e s g l t =>
    let x := s.rdCc g l e.a
    t.write e.d e.nd (b2n (bit x 3) * 8 + b2n (bit x 2) * 4 + b2n (bit x 1) * 2 + b2n (bit x 0))) ∧
  CompletesAs .ccmovTocc (fun _ => { Spec.plain with var := 1, d := slCc, a := slSrc32, hOk := true }) (fun e s g l t =>
    let x := s.rdA g l e
    t.writeCc e.d (mkFlags (fldN x 3 1 == 1) (fldN x 2 1 == 1) (fldN x 1 1 == 1) (fldN x 0 1 == 1))) ∧
  CompletesAs .ccmovCopy (fun _ => { Spec.plain with var := 2, d := slCc, a := slCc, hOk := true })
    (fun e s g l t => t.writeCc e.d (s.rdCc g l e.a)) ∧
  ∀ s z c v, bit (mkFlags s z c v) 3 = s ∧ bit (mkFlags s z c v) 2 = z ∧ bit (mkFlags s z c v) 1 = c ∧ bit (mkFlags s z c v) 0 = v

/-- `CTEST` writes Z := DONE, C := DONE and AUX = 0 and VALID, V := APPEND and S := not VALID of the cursor in A, without a walk:
nothing else changes. A fault form made with `.nf` gives Z = 1 and S = 1. One made without `.nf` traps the reading thread with the
recorded cause and TVAL, TSTAT.DEFR set, before any effect (R211, R198). -/
def Obligations.CtestWritesFlags : Prop :=
  (∀ f s g l, s.solo g l (specCur 0 slCc slCur slNone slNone) f = true →
    let e := effOf (specCur 0 slCc slCur slNone slNone) f
    let c := s.cursor g l e.a
    CompletesLane (.ctest f) s g l (specCur 0 slCc slCur slNone slNone) f 0 (fun t => t.writeCc e.d
      (mkFlags (!bit c 24) (bit c 22) (bit c 22 && fld c 112 16 == 0 && bit c 24) (bit c 23))) ∧
    ∀ tid lv k cause tv n, c = (faultForm tid lv k true cause tv).bits → e.d = .cc n → ∃ t, exec (.ctest f) s = .next t ∧
      bit ((t.thread g l).flags n) 2 = true ∧ bit ((t.thread g l).flags n) 3 = true) ∧
  ∀ f (s : State) g l k tid lv kd cause tv,
    let e := effOf (specCur 0 slCc slCur slNone slNone) f
    let u := s.begun g (specCur 0 slCc slCur slNone slNone) f
    s.cur = some ⟨g, [l]⟩ → (s.thread? g l).isSome = true → e.guard.passes (s.thread g l) = true → s.screenReady g l e = true →
    e.a = .c k → (s.thread g l).full e.a 1 = true → (s.thread g l).creg k.toNat = (faultForm tid lv kd false cause tv).bits →
    cause < 1024 → fld tv 56 8 = 0 →
      exec (.ctest f) s = .next (u.trapWith g l cause tv (s.thread g l).pc true false) ∧
      ∀ h s1, (s.thread g l).level = 0 → u.handler g cause = (.at' h, s1) → h ≠ 0 → cause < 512 →
        let y := (u.trapWith g l cause tv (s.thread g l).pc true false).thread g l
        y.pc = h ∧ y.level = 1 ∧ y.cc = (s.thread g l).cc ∧ y.bank1.cause = BitVec.ofNat 32 cause ∧ y.bank1.tval = tv ∧
          y.bank1.epc = (s.thread g l).pc ∧ bit y.bank1.stat 3 = true
end

