-- ==== Sys2Proof/Laws/Dispatch.lean ====
section
/-! SUPPORT. Each arm of `exec`, as an equation. -/

namespace Sys2Proof.Machine

open Sys2Proof

theorem exec_nop f (s : State) : exec (.nop f) s = execNop f s := rfl
theorem exec_mov f (s : State) : exec (.mov f) s = execMov f s := rfl
theorem exec_ldi f (s : State) : exec (.ldi f) s = execLdi f s := rfl
theorem exec_iadd f (s : State) : exec (.iadd f) s = execIadd f s := rfl
theorem exec_isub f (s : State) : exec (.isub f) s = execIsub f s := rfl
theorem exec_imul f (s : State) : exec (.imul f) s = execImul f s := rfl
theorem exec_imulh f (s : State) : exec (.imulh f) s = execImulh f s := rfl
theorem exec_imad f (s : State) : exec (.imad f) s = execImad f s := rfl
theorem exec_idiv f (s : State) : exec (.idiv f) s = execIdiv f s := rfl
theorem exec_irem f (s : State) : exec (.irem f) s = execIrem f s := rfl
theorem exec_imin f (s : State) : exec (.imin f) s = execImin f s := rfl
theorem exec_imax f (s : State) : exec (.imax f) s = execImax f s := rfl
theorem exec_iabs f (s : State) : exec (.iabs f) s = execIabs f s := rfl
theorem exec_ineg f (s : State) : exec (.ineg f) s = execIneg f s := rfl
theorem exec_isat f (s : State) : exec (.isat f) s = execIsat f s := rfl
theorem exec_and f (s : State) : exec (.and f) s = execAnd f s := rfl
theorem exec_or f (s : State) : exec (.or f) s = execOr f s := rfl
theorem exec_xor f (s : State) : exec (.xor f) s = execXor f s := rfl
theorem exec_not f (s : State) : exec (.not f) s = execNot f s := rfl
theorem exec_shl f (s : State) : exec (.shl f) s = execShl f s := rfl
theorem exec_shr f (s : State) : exec (.shr f) s = execShr f s := rfl
theorem exec_sar f (s : State) : exec (.sar f) s = execSar f s := rfl
theorem exec_rot f (s : State) : exec (.rot f) s = execRot f s := rfl
theorem exec_popc f (s : State) : exec (.popc f) s = execPopc f s := rfl
theorem exec_clz f (s : State) : exec (.clz f) s = execClz f s := rfl
theorem exec_brev f (s : State) : exec (.brev f) s = execBrev f s := rfl
theorem exec_bfe f (s : State) : exec (.bfe f) s = execBfe f s := rfl
theorem exec_bfi f (s : State) : exec (.bfi f) s = execBfi f s := rfl
theorem exec_prmt f (s : State) : exec (.prmt f) s = execPrmt f s := rfl
theorem exec_sel f (s : State) : exec (.sel f) s = execSel f s := rfl
theorem exec_icmp f (s : State) : exec (.icmp f) s = execIcmp f s := rfl
theorem exec_lea f (s : State) : exec (.lea f) s = execLea f s := rfl
theorem exec_addc f (s : State) : exec (.addc f) s = execAddc f s := rfl
theorem exec_subb f (s : State) : exec (.subb f) s = execSubb f s := rfl
theorem exec_fadd f (s : State) : exec (.fadd f) s = execFadd f s := rfl
theorem exec_fsub f (s : State) : exec (.fsub f) s = execFsub f s := rfl
theorem exec_fmul f (s : State) : exec (.fmul f) s = execFmul f s := rfl
theorem exec_ffma f (s : State) : exec (.ffma f) s = execFfma f s := rfl
theorem exec_fmin f (s : State) : exec (.fmin f) s = execFmin f s := rfl
theorem exec_fmax f (s : State) : exec (.fmax f) s = execFmax f s := rfl
theorem exec_fcmp f (s : State) : exec (.fcmp f) s = execFcmp f s := rfl
theorem exec_fclass f (s : State) : exec (.fclass f) s = execFclass f s := rfl
theorem exec_frnd f (s : State) : exec (.frnd f) s = execFrnd f s := rfl
theorem exec_fscl f (s : State) : exec (.fscl f) s = execFscl f s := rfl
theorem exec_cvt f (s : State) : exec (.cvt f) s = execCvt f s := rfl
theorem exec_qnt f (s : State) : exec (.qnt f) s = execQnt f s := rfl
theorem exec_dqnt f (s : State) : exec (.dqnt f) s = execDqnt f s := rfl
theorem exec_fdot2 f (s : State) : exec (.fdot2 f) s = execFdot2 f s := rfl
theorem exec_fdot4 f (s : State) : exec (.fdot4 f) s = execFdot4 f s := rfl
theorem exec_fdot8 f (s : State) : exec (.fdot8 f) s = execFdot8 f s := rfl
theorem exec_rcp f (s : State) : exec (.rcp f) s = execRcp f s := rfl
theorem exec_rsq f (s : State) : exec (.rsq f) s = execRsq f s := rfl
theorem exec_sqrt f (s : State) : exec (.sqrt f) s = execSqrt f s := rfl
theorem exec_ex2 f (s : State) : exec (.ex2 f) s = execEx2 f s := rfl
theorem exec_lg2 f (s : State) : exec (.lg2 f) s = execLg2 f s := rfl
theorem exec_sin f (s : State) : exec (.sin f) s = execSin f s := rfl
theorem exec_cos f (s : State) : exec (.cos f) s = execCos f s := rfl
theorem exec_tanh f (s : State) : exec (.tanh f) s = execTanh f s := rfl
theorem exec_sfuResult id (s : State) : exec (.sfuResult id) s = execSfuResult id s := rfl
theorem exec_pzero f (s : State) : exec (.pzero f) s = execPzero f s := rfl
theorem exec_pacc f (s : State) : exec (.pacc f) s = execPacc f s := rfl
theorem exec_padd f (s : State) : exec (.padd f) s = execPadd f s := rfl
theorem exec_psub f (s : State) : exec (.psub f) s = execPsub f s := rfl
theorem exec_pmrg f (s : State) : exec (.pmrg f) s = execPmrg f s := rfl
theorem exec_rslv f (s : State) : exec (.rslv f) s = execRslv f s := rfl
theorem exec_ptest f (s : State) : exec (.ptest f) s = execPtest f s := rfl
theorem exec_panc f (s : State) : exec (.panc f) s = execPanc f s := rfl
theorem exec_pstw f (s : State) : exec (.pstw f) s = execPstw f s := rfl
theorem exec_pstwCell f (s : State) : exec (.pstwCell f) s = execPstwCell f s := rfl
theorem exec_pldw f (s : State) : exec (.pldw f) s = execPldw f s := rfl
theorem exec_pldwCell f (s : State) : exec (.pldwCell f) s = execPldwCell f s := rfl
theorem exec_pmov f (s : State) : exec (.pmov f) s = execPmov f s := rfl
theorem exec_shfl f (s : State) : exec (.shfl f) s = execShfl f s := rfl
theorem exec_vote f (s : State) : exec (.vote f) s = execVote f s := rfl
theorem exec_ballot f (s : State) : exec (.ballot f) s = execBallot f s := rfl
theorem exec_bplane f (s : State) : exec (.bplane f) s = execBplane f s := rfl
theorem exec_selk f (s : State) : exec (.selk f) s = execSelk f s := rfl
theorem exec_gred f (s : State) : exec (.gred f) s = execGred f s := rfl
theorem exec_gscan f (s : State) : exec (.gscan f) s = execGscan f s := rfl
theorem exec_matchLanes f (s : State) : exec (.matchLanes f) s = execMatchLanes f s := rfl
theorem exec_lnmask f (s : State) : exec (.lnmask f) s = execLnmask f s := rfl
theorem exec_ccmovTov f (s : State) : exec (.ccmovTov f) s = execCcmovTov f s := rfl
theorem exec_ccmovTocc f (s : State) : exec (.ccmovTocc f) s = execCcmovTocc f s := rfl
theorem exec_ccmovCopy f (s : State) : exec (.ccmovCopy f) s = execCcmovCopy f s := rfl
theorem exec_bra f (s : State) : exec (.bra f) s = execBra f s := rfl
theorem exec_brx f (s : State) : exec (.brx f) s = execBrx f s := rfl
theorem exec_call f (s : State) : exec (.call f) s = execCall f s := rfl
theorem exec_callx f (s : State) : exec (.callx f) s = execCallx f s := rfl
theorem exec_ret f (s : State) : exec (.ret f) s = execRet f s := rfl
theorem exec_meet f (s : State) : exec (.meet f) s = execMeet f s := rfl
theorem exec_meetClr f (s : State) : exec (.meetClr f) s = execMeetClr f s := rfl
theorem exec_syncm f (s : State) : exec (.syncm f) s = execSyncm f s := rfl
theorem exec_waitm f (s : State) : exec (.waitm f) s = execWaitm f s := rfl
theorem exec_waitmTimeout g lane (s : State) : exec (.waitmTimeout g lane) s = execWaitmTimeout g lane s := rfl
theorem exec_exit f (s : State) : exec (.exit f) s = execExit f s := rfl
theorem exec_groupSlotFree g (s : State) : exec (.groupSlotFree g) s = execGroupSlotFree g s := rfl
theorem exec_spawn f (s : State) : exec (.spawn f) s = execSpawn f s := rfl
theorem exec_jinit f (s : State) : exec (.jinit f) s = execJinit f s := rfl
theorem exec_jwait f (s : State) : exec (.jwait f) s = execJwait f s := rfl
theorem exec_yield f (s : State) : exec (.yield f) s = execYield f s := rfl
theorem exec_rgn f (s : State) : exec (.rgn f) s = execRgn f s := rfl
theorem exec_trap f (s : State) : exec (.trap f) s = execTrap f s := rfl
theorem exec_tret f (s : State) : exec (.tret f) s = execTret f s := rfl
theorem exec_lateTrap g lane (s : State) : exec (.lateTrap g lane) s = execLateTrap g lane s := rfl
theorem exec_reservedOpcode w (s : State) : exec (.reservedOpcode w) s = execReservedOpcode w s := rfl
theorem exec_ld f (s : State) : exec (.ld f) s = execLd f s := rfl
theorem exec_st f (s : State) : exec (.st f) s = execSt f s := rfl
theorem exec_ldfe f (s : State) : exec (.ldfe f) s = execLdfe f s := rfl
theorem exec_stfe f (s : State) : exec (.stfe f) s = execStfe f s := rfl
theorem exec_feclr f (s : State) : exec (.feclr f) s = execFeclr f s := rfl
theorem exec_pref f (s : State) : exec (.pref f) s = execPref f s := rfl
theorem exec_prefList f (s : State) : exec (.prefList f) s = execPrefList f s := rfl
theorem exec_atom f (s : State) : exec (.atom f) s = execAtom f s := rfl
theorem exec_atomc f (s : State) : exec (.atomc f) s = execAtomc f s := rfl
theorem exec_red f (s : State) : exec (.red f) s = execRed f s := rfl
theorem exec_fence f (s : State) : exec (.fence f) s = execFence f s := rfl
theorem exec_qpush f (s : State) : exec (.qpush f) s = execQpush f s := rfl
theorem exec_qpop f (s : State) : exec (.qpop f) s = execQpop f s := rfl
theorem exec_qsteal f (s : State) : exec (.qsteal f) s = execQsteal f s := rfl
theorem exec_probe f (s : State) : exec (.probe f) s = execProbe f s := rfl
theorem exec_loadResult id ans (s : State) : exec (.loadResult id ans) s = execLoadResult id ans s := rfl
theorem exec_faultRecordDeferred slot (s : State) : exec (.faultRecordDeferred slot) s = execFaultRecordDeferred slot s := rfl
theorem exec_lineRecall line (s : State) : exec (.lineRecall line) s = execLineRecall line s := rfl
theorem exec_croot f (s : State) : exec (.croot f) s = execCroot f s := rfl
theorem exec_next f (s : State) : exec (.next f) s = execNext f s := rfl
theorem exec_seek f (s : State) : exec (.seek f) s = execSeek f s := rfl
theorem exec_desc f (s : State) : exec (.desc f) s = execDesc f s := rfl
theorem exec_coit f (s : State) : exec (.coit f) s = execCoit f s := rfl
theorem exec_crd f (s : State) : exec (.crd f) s = execCrd f s := rfl
theorem exec_cldv f (s : State) : exec (.cldv f) s = execCldv f s := rfl
theorem exec_ctest f (s : State) : exec (.ctest f) s = execCtest f s := rfl
theorem exec_appnd f (s : State) : exec (.appnd f) s = execAppnd f s := rfl
theorem exec_appndOpen f (s : State) : exec (.appndOpen f) s = execAppndOpen f s := rfl
theorem exec_acommit f (s : State) : exec (.acommit f) s = execAcommit f s := rfl
theorem exec_csplit f (s : State) : exec (.csplit f) s = execCsplit f s := rfl
theorem exec_halloc f (s : State) : exec (.halloc f) s = execHalloc f s := rfl
theorem exec_hfree f (s : State) : exec (.hfree f) s = execHfree f s := rfl
theorem exec_cpref f (s : State) : exec (.cpref f) s = execCpref f s := rfl
theorem exec_walkerResult id (s : State) : exec (.walkerResult id) s = execWalkerResult id s := rfl
theorem exec_tld f (s : State) : exec (.tld f) s = execTld f s := rfl
theorem exec_tst f (s : State) : exec (.tst f) s = execTst f s := rfl
theorem exec_tsetf f (s : State) : exec (.tsetf f) s = execTsetf f s := rfl
theorem exec_tgetf f (s : State) : exec (.tgetf f) s = execTgetf f s := rfl
theorem exec_tswap f (s : State) : exec (.tswap f) s = execTswap f s := rfl
theorem exec_tinv f (s : State) : exec (.tinv f) s = execTinv f s := rfl
theorem exec_modew f (s : State) : exec (.modew f) s = execModew f s := rfl
theorem exec_moder f (s : State) : exec (.moder f) s = execModer f s := rfl
theorem exec_copy f (s : State) : exec (.copy f) s = execCopy f s := rfl
theorem exec_xform f (s : State) : exec (.xform f) s = execXform f s := rfl
theorem exec_gathr f (s : State) : exec (.gathr f) s = execGathr f s := rfl
theorem exec_scatr f (s : State) : exec (.scatr f) s = execScatr f s := rfl
theorem exec_sortu f (s : State) : exec (.sortu f) s = execSortu f s := rfl
theorem exec_commandComplete id (s : State) : exec (.commandComplete id) s = execCommandComplete id s := rfl
theorem exec_scatrRowClaim id (s : State) : exec (.scatrRowClaim id) s = execScatrRowClaim id s := rfl
theorem exec_binit f (s : State) : exec (.binit f) s = execBinit f s := rfl
theorem exec_barv f (s : State) : exec (.barv f) s = execBarv f s := rfl
theorem exec_bwait f (s : State) : exec (.bwait f) s = execBwait f s := rfl
theorem exec_ftest f (s : State) : exec (.ftest f) s = execFtest f s := rfl
theorem exec_fwait f (s : State) : exec (.fwait f) s = execFwait f s := rfl
theorem exec_fcncl f (s : State) : exec (.fcncl f) s = execFcncl f s := rfl
theorem exec_mma f (s : State) : exec (.mma f) s = execMma f s := rfl
theorem exec_mmab f (s : State) : exec (.mmab f) s = execMmab f s := rfl
theorem exec_mmat f (s : State) : exec (.mmat f) s = execMmat f s := rfl
theorem exec_mbatAcq f (s : State) : exec (.mbatAcq f) s = execMbatAcq f s := rfl
theorem exec_mbatPass f (s : State) : exec (.mbatPass f) s = execMbatPass f s := rfl
theorem exec_mbatRel f (s : State) : exec (.mbatRel f) s = execMbatRel f s := rfl
theorem exec_matrixOperationStart core (s : State) : exec (.matrixOperationStart core) s = execMatrixOperationStart core s := rfl
theorem exec_matrixComplete core (s : State) : exec (.matrixComplete core) s = execMatrixComplete core s := rfl
theorem exec_bLockRelease core r (s : State) : exec (.bLockRelease core r) s = execBLockRelease core r s := rfl
theorem exec_coll f (s : State) : exec (.coll f) s = execColl f s := rfl
theorem exec_launch f (s : State) : exec (.launch f) s = execLaunch f s := rfl
theorem exec_signl f (s : State) : exec (.signl f) s = execSignl f s := rfl
theorem exec_sigw f (s : State) : exec (.sigw f) s = execSigw f s := rfl
theorem exec_sigwReread g lane (s : State) : exec (.sigwReread g lane) s = execSigwReread g lane s := rfl
theorem exec_racqVreg f (s : State) : exec (.racqVreg f) s = execRacqVreg f s := rfl
theorem exec_racqTile f (s : State) : exec (.racqTile f) s = execRacqTile f s := rfl
theorem exec_racqPreg f (s : State) : exec (.racqPreg f) s = execRacqPreg f s := rfl
theorem exec_racqSpad f (s : State) : exec (.racqSpad f) s = execRacqSpad f s := rfl
theorem exec_rrel f (s : State) : exec (.rrel f) s = execRrel f s := rfl
theorem exec_csrr f (s : State) : exec (.csrr f) s = execCsrr f s := rfl
theorem exec_csrw f (s : State) : exec (.csrw f) s = execCsrw f s := rfl
theorem exec_clockCyc f (s : State) : exec (.clockCyc f) s = execClockCyc f s := rfl
theorem exec_clockNs f (s : State) : exec (.clockNs f) s = execClockNs f s := rfl
theorem exec_perf f (s : State) : exec (.perf f) s = execPerf f s := rfl
theorem exec_dbrk f (s : State) : exec (.dbrk f) s = execDbrk f s := rfl
theorem exec_kill f (s : State) : exec (.kill f) s = execKill f s := rfl
theorem exec_handlerWatchdog g lane (s : State) : exec (.handlerWatchdog g lane) s = execHandlerWatchdog g lane s := rfl
theorem exec_softErrorCorrected die g lane (s : State) : exec (.softErrorCorrected die g lane) s = execSoftErrorCorrected die g lane s := rfl
theorem exec_softErrorUncorrected die sector (s : State) : exec (.softErrorUncorrected die sector) s = execSoftErrorUncorrected die sector s := rfl
theorem exec_groupSwap out into (s : State) : exec (.groupSwap out into) s = execGroupSwap out into s := rfl
theorem exec_groupBoost g (s : State) : exec (.groupBoost g) s = execGroupBoost g s := rfl
theorem exec_keyStarvationPromotion g (s : State) : exec (.keyStarvationPromotion g) s = execKeyStarvationPromotion g s := rfl
theorem exec_groupPark g (s : State) : exec (.groupPark g) s = execGroupPark g s := rfl
theorem exec_parkedGroupReturn g (s : State) : exec (.parkedGroupReturn g) s = execParkedGroupReturn g s := rfl
theorem exec_parkSlotReread die (s : State) : exec (.parkSlotReread die) s = execParkSlotReread die s := rfl
theorem exec_skeinTimerFlush core (s : State) : exec (.skeinTimerFlush core) s = execSkeinTimerFlush core s := rfl
theorem exec_spillRingReturn slot die (s : State) : exec (.spillRingReturn slot die) s = execSpillRingReturn slot die s := rfl
theorem exec_ldoorWrite v (s : State) : exec (.ldoorWrite v) s = execLdoorWrite v s := rfl
theorem exec_launchAccept q (s : State) : exec (.launchAccept q) s = execLaunchAccept q s := rfl
theorem exec_launchDependenceReread l (s : State) : exec (.launchDependenceReread l) s = execLaunchDependenceReread l s := rfl
theorem exec_placementRound (s : State) : exec (.placementRound) s = execPlacementRound s := rfl
theorem exec_launchComplete l (s : State) : exec (.launchComplete l) s = execLaunchComplete l s := rfl
theorem exec_launchQueueCsrWrite q off v (s : State) : exec (.launchQueueCsrWrite q off v) s = execLaunchQueueCsrWrite q off v s := rfl
theorem exec_hirqClear v (s : State) : exec (.hirqClear v) s = execHirqClear v s := rfl
theorem exec_hostMemoryAccess a (s : State) : exec (.hostMemoryAccess a) s = execHostMemoryAccess a s := rfl
theorem exec_fqrespWrite slot v (s : State) : exec (.fqrespWrite slot v) s = execFqrespWrite slot v s := rfl
theorem exec_pginvWrite slot v (s : State) : exec (.pginvWrite slot v) s = execPginvWrite slot v s := rfl
theorem exec_pginvComplete slot (s : State) : exec (.pginvComplete slot) s = execPginvComplete slot s := rfl
theorem exec_rdcinvWrite die v (s : State) : exec (.rdcinvWrite die v) s = execRdcinvWrite die v s := rfl
theorem exec_rdcinvComplete die (s : State) : exec (.rdcinvComplete die) s = execRdcinvComplete die s := rfl
theorem exec_pselWrite n v (s : State) : exec (.pselWrite n v) s = execPselWrite n v s := rfl
theorem exec_threvRead (s : State) : exec (.threvRead) s = execThrevRead s := rfl
theorem exec_errcRead die (s : State) : exec (.errcRead die) s = execErrcRead die s := rfl
theorem exec_ctxctlPreempt slot (s : State) : exec (.ctxctlPreempt slot) s = execCtxctlPreempt slot s := rfl
theorem exec_ctxctlResume slot (s : State) : exec (.ctxctlResume slot) s = execCtxctlResume slot s := rfl
theorem exec_ctxctlKill slot (s : State) : exec (.ctxctlKill slot) s = execCtxctlKill slot s := rfl
theorem exec_ctxctlOpen slot v (s : State) : exec (.ctxctlOpen slot v) s = execCtxctlOpen slot v s := rfl
theorem exec_ctxctlClose slot (s : State) : exec (.ctxctlClose slot) s = execCtxctlClose slot s := rfl
theorem exec_preemptionTaken g (s : State) : exec (.preemptionTaken g) s = execPreemptionTaken g s := rfl
theorem exec_peerAccessRequest r (s : State) : exec (.peerAccessRequest r) s = execPeerAccessRequest r s := rfl
theorem exec_peerAccessTimeout id (s : State) : exec (.peerAccessTimeout id) s = execPeerAccessTimeout id s := rfl
theorem exec_latticeFlitRetry lane (s : State) : exec (.latticeFlitRetry lane) s = execLatticeFlitRetry lane s := rfl
theorem exec_spanPeerEntryWrite e v (s : State) : exec (.spanPeerEntryWrite e v) s = execSpanPeerEntryWrite e v s := rfl
theorem exec_spanHandshake h (s : State) : exec (.spanHandshake h) s = execSpanHandshake h s := rfl
theorem exec_spanPacketReceive p (s : State) : exec (.spanPacketReceive p) s = execSpanPacketReceive p s := rfl
theorem exec_spanRetransmit e (s : State) : exec (.spanRetransmit e) s = execSpanRetransmit e s := rfl
theorem exec_spanRekey e (s : State) : exec (.spanRekey e) s = execSpanRekey e s := rfl
theorem exec_spanSessionRetry e (s : State) : exec (.spanSessionRetry e) s = execSpanSessionRetry e s := rfl
theorem exec_collContributionReceive c (s : State) : exec (.collContributionReceive c) s = execCollContributionReceive c s := rfl
theorem exec_collChunkClose id chunk (s : State) : exec (.collChunkClose id chunk) s = execCollChunkClose id chunk s := rfl
theorem exec_collDeadline id chunk (s : State) : exec (.collDeadline id chunk) s = execCollDeadline id chunk s := rfl
theorem exec_collResultReceive r (s : State) : exec (.collResultReceive r) s = execCollResultReceive r s := rfl
theorem exec_collResultTimeout id (s : State) : exec (.collResultTimeout id) s = execCollResultTimeout id s := rfl
theorem exec_deviceReset (s : State) : exec (.deviceReset) s = execDeviceReset s := rfl
theorem exec_bootStepComplete b (s : State) : exec (.bootStepComplete b) s = execBootStepComplete b s := rfl
theorem exec_bootclrWrite v (s : State) : exec (.bootclrWrite v) s = execBootclrWrite v s := rfl
theorem exec_attestationGo (s : State) : exec (.attestationGo) s = execAttestationGo s := rfl
theorem exec_attestationDone (s : State) : exec (.attestationDone) s = execAttestationDone s := rfl
theorem exec_madderAlarm fired (s : State) : exec (.madderAlarm fired) s = execMadderAlarm fired s := rfl
theorem exec_mstatClear v (s : State) : exec (.mstatClear v) s = execMstatClear v s := rfl
theorem exec_mlockWrite v (s : State) : exec (.mlockWrite v) s = execMlockWrite v s := rfl
theorem exec_debugSessionRequest a (s : State) : exec (.debugSessionRequest a) s = execDebugSessionRequest a s := rfl
theorem exec_debugResume g (s : State) : exec (.debugResume g) s = execDebugResume g s := rfl
theorem exec_throttleEvent t (s : State) : exec (.throttleEvent t) s = execThrottleEvent t s := rfl
theorem exec_registerWrite off v (s : State) : exec (.registerWrite off v) s = execRegisterWrite off v s := rfl
theorem exec_storeBufferDrain id ans (s : State) : exec (.storeBufferDrain id ans) s = execStoreBufferDrain id ans s := rfl
theorem exec_engineWrite id (s : State) : exec (.engineWrite id) s = execEngineWrite id s := rfl
theorem exec_spanOldKeyExpiry e (s : State) : exec (.spanOldKeyExpiry e) s = execSpanOldKeyExpiry e s := rfl

end Sys2Proof.Machine
end

