-- ==== Sys2Proof/Laws/Maps.lean ====
section
/-! SUPPORT. What the operations of sparse maps do. -/

namespace Sys2Proof

@[simp] theorem alGet?_nil {α : Type} (i : Nat) : alGet? ([] : AL α) i = none := rfl

/-- A key that was set reads as set, and no other key changes. -/
theorem alGet?_alSet {α : Type} (m : AL α) (i j : Nat) (v : α) :
    alGet? (alSet m i v) j = if i = j then some v else alGet? m j := by
  induction m with
  | nil => simp [alSet, alGet?]
  | cons p m ih =>
    obtain ⟨k, w⟩ := p
    simp only [alSet]
    split
    · simp [alGet?]
    · split
      · next h => subst h; simp only [alGet?]; split <;> rfl
      · next h =>
        simp only [alGet?]
        split
        · next hk => subst hk; simp [h]
        · exact ih

@[simp] theorem alGet?_alSet_same {α : Type} (m : AL α) (i : Nat) (v : α) : alGet? (alSet m i v) i = some v := by
  simp [alGet?_alSet]

theorem alGet?_alSet_ne {α : Type} (m : AL α) {i j : Nat} (v : α) (h : j ≠ i) :
    alGet? (alSet m i v) j = alGet? m j := by
  simp [alGet?_alSet, Ne.symm h]

/-- A change of one key changes its value, where it has one, and no other key. -/
theorem alGet?_alMod {α : Type} (m : AL α) (i j : Nat) (f : α → α) :
    alGet? (alMod m i f) j = if j = i then (alGet? m j).map f else alGet? m j := by
  induction m with
  | nil => simp [alMod]
  | cons p m ih =>
    obtain ⟨k, w⟩ := p
    simp only [alMod, List.map_cons] at ih ⊢
    by_cases hk : k = i
    · subst hk
      simp only [if_true, alGet?]
      by_cases hj : k = j
      · simp [hj]
      · simpa [hj, Ne.symm hj] using ih
    · simp only [hk, if_false, alGet?]
      by_cases hj : k = j
      · subst hj; simp [hk]
      · simpa [hj] using ih

@[simp] theorem alGet?_alMod_same {α : Type} (m : AL α) (i : Nat) (f : α → α) :
    alGet? (alMod m i f) i = (alGet? m i).map f := by
  simp [alGet?_alMod]

theorem alGet?_alMod_ne {α : Type} (m : AL α) {i j : Nat} (f : α → α) (h : j ≠ i) :
    alGet? (alMod m i f) j = alGet? m j := by
  simp [alGet?_alMod, h]

/-- A key that was taken out leaves every other key. -/
theorem alGet?_alDel_ne {α : Type} (m : AL α) {i j : Nat} (h : j ≠ i) : alGet? (alDel m i) j = alGet? m j := by
  induction m with
  | nil => rfl
  | cons p m ih =>
    obtain ⟨k, w⟩ := p
    simp only [alDel]
    split
    · next hk => subst hk; simpa [alGet?, Ne.symm h] using ih
    · simp only [alGet?, ih]

/-- A key that was taken out has no value. -/
@[simp] theorem alGet?_alDel_same {α : Type} (m : AL α) (i : Nat) : alGet? (alDel m i) i = none := by
  induction m with
  | nil => rfl
  | cons p m ih =>
    obtain ⟨k, w⟩ := p
    simp only [alDel]
    split
    · exact ih
    · next hk => simp [alGet?, hk, ih]

/-- Changes of one key follow one another. -/
theorem alMod_alMod {α : Type} (m : AL α) (i : Nat) (f h : α → α) : alMod (alMod m i f) i h = alMod m i (h ∘ f) := by
  induction m with
  | nil => rfl
  | cons p m ih =>
    obtain ⟨k, w⟩ := p
    simp only [alMod, List.map_cons, List.cons.injEq] at ih ⊢
    refine ⟨?_, ih⟩
    by_cases hk : k = i <;> simp [hk]

/-- A change that leaves the value is none. -/
theorem alMod_id {α : Type} (m : AL α) (i : Nat) : alMod m i id = m := by
  induction m with
  | nil => rfl
  | cons p m ih =>
    simp only [alMod, List.map_cons, List.cons.injEq] at ih ⊢
    refine ⟨?_, ih⟩
    split <;> simp

end Sys2Proof
end

