-- ==== Sys2Proof/Laws/State.lean ====
section
/-! SUPPORT. What each update of the state leaves: one lemma per field per update. -/

namespace Sys2Proof.Machine

open Sys2Proof

@[simp] theorem State.modGroup_agenda (s : State) (g : Nat) (f : Group → Group) : (s.modGroup g f).agenda = s.agenda := rfl
@[simp] theorem State.modGroup_cur (s : State) (g : Nat) (f : Group → Group) : (s.modGroup g f).cur = s.cur := rfl
@[simp] theorem State.modGroup_cycle (s : State) (g : Nat) (f : Group → Group) : (s.modGroup g f).cycle = s.cycle := rfl
@[simp] theorem State.modGroup_nextId (s : State) (g : Nat) (f : Group → Group) : (s.modGroup g f).nextId = s.nextId := rfl
@[simp] theorem State.modGroup_freeTick (s : State) (g : Nat) (f : Group → Group) : (s.modGroup g f).freeTick = s.freeTick := rfl
@[simp] theorem State.modGroup_ns (s : State) (g : Nat) (f : Group → Group) : (s.modGroup g f).ns = s.ns := rfl
@[simp] theorem State.modGroup_surveyed (s : State) (g : Nat) (f : Group → Group) : (s.modGroup g f).surveyed = s.surveyed := rfl
@[simp] theorem State.modGroup_teams (s : State) (g : Nat) (f : Group → Group) : (s.modGroup g f).teams = s.teams := rfl
@[simp] theorem State.modGroup_cores (s : State) (g : Nat) (f : Group → Group) : (s.modGroup g f).cores = s.cores := rfl
@[simp] theorem State.modGroup_dies (s : State) (g : Nat) (f : Group → Group) : (s.modGroup g f).dies = s.dies := rfl
@[simp] theorem State.modGroup_ctxs (s : State) (g : Nat) (f : Group → Group) : (s.modGroup g f).ctxs = s.ctxs := rfl
@[simp] theorem State.modGroup_launches (s : State) (g : Nat) (f : Group → Group) : (s.modGroup g f).launches = s.launches := rfl
@[simp] theorem State.modGroup_queues (s : State) (g : Nat) (f : Group → Group) : (s.modGroup g f).queues = s.queues := rfl
@[simp] theorem State.modGroup_nextLnum (s : State) (g : Nat) (f : Group → Group) : (s.modGroup g f).nextLnum = s.nextLnum := rfl
@[simp] theorem State.modGroup_lastQueue (s : State) (g : Nat) (f : Group → Group) : (s.modGroup g f).lastQueue = s.lastQueue := rfl
@[simp] theorem State.modGroup_mem (s : State) (g : Nat) (f : Group → Group) : (s.modGroup g f).mem = s.mem := rfl
@[simp] theorem State.modGroup_acc (s : State) (g : Nat) (f : Group → Group) : (s.modGroup g f).acc = s.acc := rfl
@[simp] theorem State.modGroup_sb (s : State) (g : Nat) (f : Group → Group) : (s.modGroup g f).sb = s.sb := rfl
@[simp] theorem State.modGroup_poison (s : State) (g : Nat) (f : Group → Group) : (s.modGroup g f).poison = s.poison := rfl
@[simp] theorem State.modGroup_sharers (s : State) (g : Nat) (f : Group → Group) : (s.modGroup g f).sharers = s.sharers := rfl
@[simp] theorem State.modGroup_owners (s : State) (g : Nat) (f : Group → Group) : (s.modGroup g f).owners = s.owners := rfl
@[simp] theorem State.modGroup_walkCache (s : State) (g : Nat) (f : Group → Group) : (s.modGroup g f).walkCache = s.walkCache := rfl
@[simp] theorem State.modGroup_hirq (s : State) (g : Nat) (f : Group → Group) : (s.modGroup g f).hirq = s.hirq := rfl
@[simp] theorem State.modGroup_himask (s : State) (g : Nat) (f : Group → Group) : (s.modGroup g f).himask = s.himask := rfl
@[simp] theorem State.modGroup_vectors (s : State) (g : Nat) (f : Group → Group) : (s.modGroup g f).vectors = s.vectors := rfl
@[simp] theorem State.modGroup_psel (s : State) (g : Nat) (f : Group → Group) : (s.modGroup g f).psel = s.psel := rfl
@[simp] theorem State.modGroup_cmds (s : State) (g : Nat) (f : Group → Group) : (s.modGroup g f).cmds = s.cmds := rfl
@[simp] theorem State.modGroup_collIn (s : State) (g : Nat) (f : Group → Group) : (s.modGroup g f).collIn = s.collIn := rfl
@[simp] theorem State.modGroup_collOut (s : State) (g : Nat) (f : Group → Group) : (s.modGroup g f).collOut = s.collOut := rfl
@[simp] theorem State.modGroup_collSent (s : State) (g : Nat) (f : Group → Group) : (s.modGroup g f).collSent = s.collSent := rfl
@[simp] theorem State.modGroup_collOrd (s : State) (g : Nat) (f : Group → Group) : (s.modGroup g f).collOrd = s.collOrd := rfl
@[simp] theorem State.modGroup_collHist (s : State) (g : Nat) (f : Group → Group) : (s.modGroup g f).collHist = s.collHist := rfl
@[simp] theorem State.modGroup_collMiss (s : State) (g : Nat) (f : Group → Group) : (s.modGroup g f).collMiss = s.collMiss := rfl
@[simp] theorem State.modGroup_homeQ (s : State) (g : Nat) (f : Group → Group) : (s.modGroup g f).homeQ = s.homeQ := rfl
@[simp] theorem State.modGroup_hostOut (s : State) (g : Nat) (f : Group → Group) : (s.modGroup g f).hostOut = s.hostOut := rfl
@[simp] theorem State.modGroup_hostHeld (s : State) (g : Nat) (f : Group → Group) : (s.modGroup g f).hostHeld = s.hostHeld := rfl
@[simp] theorem State.modGroup_hostTurn (s : State) (g : Nat) (f : Group → Group) : (s.modGroup g f).hostTurn = s.hostTurn := rfl
@[simp] theorem State.modGroup_peerOut (s : State) (g : Nat) (f : Group → Group) : (s.modGroup g f).peerOut = s.peerOut := rfl
@[simp] theorem State.modGroup_peerParked (s : State) (g : Nat) (f : Group → Group) : (s.modGroup g f).peerParked = s.peerParked := rfl
@[simp] theorem State.modGroup_ltmo (s : State) (g : Nat) (f : Group → Group) : (s.modGroup g f).ltmo = s.ltmo := rfl
@[simp] theorem State.modGroup_flitRetries (s : State) (g : Nat) (f : Group → Group) : (s.modGroup g f).flitRetries = s.flitRetries := rfl
@[simp] theorem State.modGroup_span (s : State) (g : Nat) (f : Group → Group) : (s.modGroup g f).span = s.span := rfl
@[simp] theorem State.modGroup_sessions (s : State) (g : Nat) (f : Group → Group) : (s.modGroup g f).sessions = s.sessions := rfl
@[simp] theorem State.modGroup_spanOut (s : State) (g : Nat) (f : Group → Group) : (s.modGroup g f).spanOut = s.spanOut := rfl
@[simp] theorem State.modGroup_spanIn (s : State) (g : Nat) (f : Group → Group) : (s.modGroup g f).spanIn = s.spanIn := rfl
@[simp] theorem State.modGroup_sec (s : State) (g : Nat) (f : Group → Group) : (s.modGroup g f).sec = s.sec := rfl
@[simp] theorem State.modGroup_boot (s : State) (g : Nat) (f : Group → Group) : (s.modGroup g f).boot = s.boot := rfl
@[simp] theorem State.modGroup_threv (s : State) (g : Nat) (f : Group → Group) : (s.modGroup g f).threv = s.threv := rfl
@[simp] theorem State.modGroup_thcfg (s : State) (g : Nat) (f : Group → Group) : (s.modGroup g f).thcfg = s.thcfg := rfl

@[simp] theorem State.modThread_agenda (s : State) (g l : Nat) (f : Thread → Thread) : (s.modThread g l f).agenda = s.agenda := rfl
@[simp] theorem State.modThread_cur (s : State) (g l : Nat) (f : Thread → Thread) : (s.modThread g l f).cur = s.cur := rfl
@[simp] theorem State.modThread_cycle (s : State) (g l : Nat) (f : Thread → Thread) : (s.modThread g l f).cycle = s.cycle := rfl
@[simp] theorem State.modThread_nextId (s : State) (g l : Nat) (f : Thread → Thread) : (s.modThread g l f).nextId = s.nextId := rfl
@[simp] theorem State.modThread_freeTick (s : State) (g l : Nat) (f : Thread → Thread) : (s.modThread g l f).freeTick = s.freeTick := rfl
@[simp] theorem State.modThread_ns (s : State) (g l : Nat) (f : Thread → Thread) : (s.modThread g l f).ns = s.ns := rfl
@[simp] theorem State.modThread_surveyed (s : State) (g l : Nat) (f : Thread → Thread) : (s.modThread g l f).surveyed = s.surveyed := rfl
@[simp] theorem State.modThread_teams (s : State) (g l : Nat) (f : Thread → Thread) : (s.modThread g l f).teams = s.teams := rfl
@[simp] theorem State.modThread_cores (s : State) (g l : Nat) (f : Thread → Thread) : (s.modThread g l f).cores = s.cores := rfl
@[simp] theorem State.modThread_dies (s : State) (g l : Nat) (f : Thread → Thread) : (s.modThread g l f).dies = s.dies := rfl
@[simp] theorem State.modThread_ctxs (s : State) (g l : Nat) (f : Thread → Thread) : (s.modThread g l f).ctxs = s.ctxs := rfl
@[simp] theorem State.modThread_launches (s : State) (g l : Nat) (f : Thread → Thread) : (s.modThread g l f).launches = s.launches := rfl
@[simp] theorem State.modThread_queues (s : State) (g l : Nat) (f : Thread → Thread) : (s.modThread g l f).queues = s.queues := rfl
@[simp] theorem State.modThread_nextLnum (s : State) (g l : Nat) (f : Thread → Thread) : (s.modThread g l f).nextLnum = s.nextLnum := rfl
@[simp] theorem State.modThread_lastQueue (s : State) (g l : Nat) (f : Thread → Thread) : (s.modThread g l f).lastQueue = s.lastQueue := rfl
@[simp] theorem State.modThread_mem (s : State) (g l : Nat) (f : Thread → Thread) : (s.modThread g l f).mem = s.mem := rfl
@[simp] theorem State.modThread_acc (s : State) (g l : Nat) (f : Thread → Thread) : (s.modThread g l f).acc = s.acc := rfl
@[simp] theorem State.modThread_sb (s : State) (g l : Nat) (f : Thread → Thread) : (s.modThread g l f).sb = s.sb := rfl
@[simp] theorem State.modThread_poison (s : State) (g l : Nat) (f : Thread → Thread) : (s.modThread g l f).poison = s.poison := rfl
@[simp] theorem State.modThread_sharers (s : State) (g l : Nat) (f : Thread → Thread) : (s.modThread g l f).sharers = s.sharers := rfl
@[simp] theorem State.modThread_owners (s : State) (g l : Nat) (f : Thread → Thread) : (s.modThread g l f).owners = s.owners := rfl
@[simp] theorem State.modThread_walkCache (s : State) (g l : Nat) (f : Thread → Thread) : (s.modThread g l f).walkCache = s.walkCache := rfl
@[simp] theorem State.modThread_hirq (s : State) (g l : Nat) (f : Thread → Thread) : (s.modThread g l f).hirq = s.hirq := rfl
@[simp] theorem State.modThread_himask (s : State) (g l : Nat) (f : Thread → Thread) : (s.modThread g l f).himask = s.himask := rfl
@[simp] theorem State.modThread_vectors (s : State) (g l : Nat) (f : Thread → Thread) : (s.modThread g l f).vectors = s.vectors := rfl
@[simp] theorem State.modThread_psel (s : State) (g l : Nat) (f : Thread → Thread) : (s.modThread g l f).psel = s.psel := rfl
@[simp] theorem State.modThread_cmds (s : State) (g l : Nat) (f : Thread → Thread) : (s.modThread g l f).cmds = s.cmds := rfl
@[simp] theorem State.modThread_collIn (s : State) (g l : Nat) (f : Thread → Thread) : (s.modThread g l f).collIn = s.collIn := rfl
@[simp] theorem State.modThread_collOut (s : State) (g l : Nat) (f : Thread → Thread) : (s.modThread g l f).collOut = s.collOut := rfl
@[simp] theorem State.modThread_collSent (s : State) (g l : Nat) (f : Thread → Thread) : (s.modThread g l f).collSent = s.collSent := rfl
@[simp] theorem State.modThread_collOrd (s : State) (g l : Nat) (f : Thread → Thread) : (s.modThread g l f).collOrd = s.collOrd := rfl
@[simp] theorem State.modThread_collHist (s : State) (g l : Nat) (f : Thread → Thread) : (s.modThread g l f).collHist = s.collHist := rfl
@[simp] theorem State.modThread_collMiss (s : State) (g l : Nat) (f : Thread → Thread) : (s.modThread g l f).collMiss = s.collMiss := rfl
@[simp] theorem State.modThread_homeQ (s : State) (g l : Nat) (f : Thread → Thread) : (s.modThread g l f).homeQ = s.homeQ := rfl
@[simp] theorem State.modThread_hostOut (s : State) (g l : Nat) (f : Thread → Thread) : (s.modThread g l f).hostOut = s.hostOut := rfl
@[simp] theorem State.modThread_hostHeld (s : State) (g l : Nat) (f : Thread → Thread) : (s.modThread g l f).hostHeld = s.hostHeld := rfl
@[simp] theorem State.modThread_hostTurn (s : State) (g l : Nat) (f : Thread → Thread) : (s.modThread g l f).hostTurn = s.hostTurn := rfl
@[simp] theorem State.modThread_peerOut (s : State) (g l : Nat) (f : Thread → Thread) : (s.modThread g l f).peerOut = s.peerOut := rfl
@[simp] theorem State.modThread_peerParked (s : State) (g l : Nat) (f : Thread → Thread) : (s.modThread g l f).peerParked = s.peerParked := rfl
@[simp] theorem State.modThread_ltmo (s : State) (g l : Nat) (f : Thread → Thread) : (s.modThread g l f).ltmo = s.ltmo := rfl
@[simp] theorem State.modThread_flitRetries (s : State) (g l : Nat) (f : Thread → Thread) : (s.modThread g l f).flitRetries = s.flitRetries := rfl
@[simp] theorem State.modThread_span (s : State) (g l : Nat) (f : Thread → Thread) : (s.modThread g l f).span = s.span := rfl
@[simp] theorem State.modThread_sessions (s : State) (g l : Nat) (f : Thread → Thread) : (s.modThread g l f).sessions = s.sessions := rfl
@[simp] theorem State.modThread_spanOut (s : State) (g l : Nat) (f : Thread → Thread) : (s.modThread g l f).spanOut = s.spanOut := rfl
@[simp] theorem State.modThread_spanIn (s : State) (g l : Nat) (f : Thread → Thread) : (s.modThread g l f).spanIn = s.spanIn := rfl
@[simp] theorem State.modThread_sec (s : State) (g l : Nat) (f : Thread → Thread) : (s.modThread g l f).sec = s.sec := rfl
@[simp] theorem State.modThread_boot (s : State) (g l : Nat) (f : Thread → Thread) : (s.modThread g l f).boot = s.boot := rfl
@[simp] theorem State.modThread_threv (s : State) (g l : Nat) (f : Thread → Thread) : (s.modThread g l f).threv = s.threv := rfl
@[simp] theorem State.modThread_thcfg (s : State) (g l : Nat) (f : Thread → Thread) : (s.modThread g l f).thcfg = s.thcfg := rfl

@[simp] theorem State.modCtx_agenda (s : State) (c : Nat) (f : Ctx → Ctx) : (s.modCtx c f).agenda = s.agenda := rfl
@[simp] theorem State.modCtx_cur (s : State) (c : Nat) (f : Ctx → Ctx) : (s.modCtx c f).cur = s.cur := rfl
@[simp] theorem State.modCtx_cycle (s : State) (c : Nat) (f : Ctx → Ctx) : (s.modCtx c f).cycle = s.cycle := rfl
@[simp] theorem State.modCtx_nextId (s : State) (c : Nat) (f : Ctx → Ctx) : (s.modCtx c f).nextId = s.nextId := rfl
@[simp] theorem State.modCtx_freeTick (s : State) (c : Nat) (f : Ctx → Ctx) : (s.modCtx c f).freeTick = s.freeTick := rfl
@[simp] theorem State.modCtx_ns (s : State) (c : Nat) (f : Ctx → Ctx) : (s.modCtx c f).ns = s.ns := rfl
@[simp] theorem State.modCtx_surveyed (s : State) (c : Nat) (f : Ctx → Ctx) : (s.modCtx c f).surveyed = s.surveyed := rfl
@[simp] theorem State.modCtx_groups (s : State) (c : Nat) (f : Ctx → Ctx) : (s.modCtx c f).groups = s.groups := rfl
@[simp] theorem State.modCtx_teams (s : State) (c : Nat) (f : Ctx → Ctx) : (s.modCtx c f).teams = s.teams := rfl
@[simp] theorem State.modCtx_cores (s : State) (c : Nat) (f : Ctx → Ctx) : (s.modCtx c f).cores = s.cores := rfl
@[simp] theorem State.modCtx_dies (s : State) (c : Nat) (f : Ctx → Ctx) : (s.modCtx c f).dies = s.dies := rfl
@[simp] theorem State.modCtx_launches (s : State) (c : Nat) (f : Ctx → Ctx) : (s.modCtx c f).launches = s.launches := rfl
@[simp] theorem State.modCtx_queues (s : State) (c : Nat) (f : Ctx → Ctx) : (s.modCtx c f).queues = s.queues := rfl
@[simp] theorem State.modCtx_nextLnum (s : State) (c : Nat) (f : Ctx → Ctx) : (s.modCtx c f).nextLnum = s.nextLnum := rfl
@[simp] theorem State.modCtx_lastQueue (s : State) (c : Nat) (f : Ctx → Ctx) : (s.modCtx c f).lastQueue = s.lastQueue := rfl
@[simp] theorem State.modCtx_mem (s : State) (c : Nat) (f : Ctx → Ctx) : (s.modCtx c f).mem = s.mem := rfl
@[simp] theorem State.modCtx_acc (s : State) (c : Nat) (f : Ctx → Ctx) : (s.modCtx c f).acc = s.acc := rfl
@[simp] theorem State.modCtx_sb (s : State) (c : Nat) (f : Ctx → Ctx) : (s.modCtx c f).sb = s.sb := rfl
@[simp] theorem State.modCtx_poison (s : State) (c : Nat) (f : Ctx → Ctx) : (s.modCtx c f).poison = s.poison := rfl
@[simp] theorem State.modCtx_sharers (s : State) (c : Nat) (f : Ctx → Ctx) : (s.modCtx c f).sharers = s.sharers := rfl
@[simp] theorem State.modCtx_owners (s : State) (c : Nat) (f : Ctx → Ctx) : (s.modCtx c f).owners = s.owners := rfl
@[simp] theorem State.modCtx_walkCache (s : State) (c : Nat) (f : Ctx → Ctx) : (s.modCtx c f).walkCache = s.walkCache := rfl
@[simp] theorem State.modCtx_hirq (s : State) (c : Nat) (f : Ctx → Ctx) : (s.modCtx c f).hirq = s.hirq := rfl
@[simp] theorem State.modCtx_himask (s : State) (c : Nat) (f : Ctx → Ctx) : (s.modCtx c f).himask = s.himask := rfl
@[simp] theorem State.modCtx_vectors (s : State) (c : Nat) (f : Ctx → Ctx) : (s.modCtx c f).vectors = s.vectors := rfl
@[simp] theorem State.modCtx_psel (s : State) (c : Nat) (f : Ctx → Ctx) : (s.modCtx c f).psel = s.psel := rfl
@[simp] theorem State.modCtx_cmds (s : State) (c : Nat) (f : Ctx → Ctx) : (s.modCtx c f).cmds = s.cmds := rfl
@[simp] theorem State.modCtx_collIn (s : State) (c : Nat) (f : Ctx → Ctx) : (s.modCtx c f).collIn = s.collIn := rfl
@[simp] theorem State.modCtx_collOut (s : State) (c : Nat) (f : Ctx → Ctx) : (s.modCtx c f).collOut = s.collOut := rfl
@[simp] theorem State.modCtx_collSent (s : State) (c : Nat) (f : Ctx → Ctx) : (s.modCtx c f).collSent = s.collSent := rfl
@[simp] theorem State.modCtx_collOrd (s : State) (c : Nat) (f : Ctx → Ctx) : (s.modCtx c f).collOrd = s.collOrd := rfl
@[simp] theorem State.modCtx_collHist (s : State) (c : Nat) (f : Ctx → Ctx) : (s.modCtx c f).collHist = s.collHist := rfl
@[simp] theorem State.modCtx_collMiss (s : State) (c : Nat) (f : Ctx → Ctx) : (s.modCtx c f).collMiss = s.collMiss := rfl
@[simp] theorem State.modCtx_homeQ (s : State) (c : Nat) (f : Ctx → Ctx) : (s.modCtx c f).homeQ = s.homeQ := rfl
@[simp] theorem State.modCtx_hostOut (s : State) (c : Nat) (f : Ctx → Ctx) : (s.modCtx c f).hostOut = s.hostOut := rfl
@[simp] theorem State.modCtx_hostHeld (s : State) (c : Nat) (f : Ctx → Ctx) : (s.modCtx c f).hostHeld = s.hostHeld := rfl
@[simp] theorem State.modCtx_hostTurn (s : State) (c : Nat) (f : Ctx → Ctx) : (s.modCtx c f).hostTurn = s.hostTurn := rfl
@[simp] theorem State.modCtx_peerOut (s : State) (c : Nat) (f : Ctx → Ctx) : (s.modCtx c f).peerOut = s.peerOut := rfl
@[simp] theorem State.modCtx_peerParked (s : State) (c : Nat) (f : Ctx → Ctx) : (s.modCtx c f).peerParked = s.peerParked := rfl
@[simp] theorem State.modCtx_ltmo (s : State) (c : Nat) (f : Ctx → Ctx) : (s.modCtx c f).ltmo = s.ltmo := rfl
@[simp] theorem State.modCtx_flitRetries (s : State) (c : Nat) (f : Ctx → Ctx) : (s.modCtx c f).flitRetries = s.flitRetries := rfl
@[simp] theorem State.modCtx_span (s : State) (c : Nat) (f : Ctx → Ctx) : (s.modCtx c f).span = s.span := rfl
@[simp] theorem State.modCtx_sessions (s : State) (c : Nat) (f : Ctx → Ctx) : (s.modCtx c f).sessions = s.sessions := rfl
@[simp] theorem State.modCtx_spanOut (s : State) (c : Nat) (f : Ctx → Ctx) : (s.modCtx c f).spanOut = s.spanOut := rfl
@[simp] theorem State.modCtx_spanIn (s : State) (c : Nat) (f : Ctx → Ctx) : (s.modCtx c f).spanIn = s.spanIn := rfl
@[simp] theorem State.modCtx_sec (s : State) (c : Nat) (f : Ctx → Ctx) : (s.modCtx c f).sec = s.sec := rfl
@[simp] theorem State.modCtx_boot (s : State) (c : Nat) (f : Ctx → Ctx) : (s.modCtx c f).boot = s.boot := rfl
@[simp] theorem State.modCtx_threv (s : State) (c : Nat) (f : Ctx → Ctx) : (s.modCtx c f).threv = s.threv := rfl
@[simp] theorem State.modCtx_thcfg (s : State) (c : Nat) (f : Ctx → Ctx) : (s.modCtx c f).thcfg = s.thcfg := rfl

@[simp] theorem State.modCore_agenda (s : State) (c : Nat) (f : Core → Core) : (s.modCore c f).agenda = s.agenda := rfl
@[simp] theorem State.modCore_cur (s : State) (c : Nat) (f : Core → Core) : (s.modCore c f).cur = s.cur := rfl
@[simp] theorem State.modCore_cycle (s : State) (c : Nat) (f : Core → Core) : (s.modCore c f).cycle = s.cycle := rfl
@[simp] theorem State.modCore_nextId (s : State) (c : Nat) (f : Core → Core) : (s.modCore c f).nextId = s.nextId := rfl
@[simp] theorem State.modCore_freeTick (s : State) (c : Nat) (f : Core → Core) : (s.modCore c f).freeTick = s.freeTick := rfl
@[simp] theorem State.modCore_ns (s : State) (c : Nat) (f : Core → Core) : (s.modCore c f).ns = s.ns := rfl
@[simp] theorem State.modCore_surveyed (s : State) (c : Nat) (f : Core → Core) : (s.modCore c f).surveyed = s.surveyed := rfl
@[simp] theorem State.modCore_groups (s : State) (c : Nat) (f : Core → Core) : (s.modCore c f).groups = s.groups := rfl
@[simp] theorem State.modCore_teams (s : State) (c : Nat) (f : Core → Core) : (s.modCore c f).teams = s.teams := rfl
@[simp] theorem State.modCore_dies (s : State) (c : Nat) (f : Core → Core) : (s.modCore c f).dies = s.dies := rfl
@[simp] theorem State.modCore_ctxs (s : State) (c : Nat) (f : Core → Core) : (s.modCore c f).ctxs = s.ctxs := rfl
@[simp] theorem State.modCore_launches (s : State) (c : Nat) (f : Core → Core) : (s.modCore c f).launches = s.launches := rfl
@[simp] theorem State.modCore_queues (s : State) (c : Nat) (f : Core → Core) : (s.modCore c f).queues = s.queues := rfl
@[simp] theorem State.modCore_nextLnum (s : State) (c : Nat) (f : Core → Core) : (s.modCore c f).nextLnum = s.nextLnum := rfl
@[simp] theorem State.modCore_lastQueue (s : State) (c : Nat) (f : Core → Core) : (s.modCore c f).lastQueue = s.lastQueue := rfl
@[simp] theorem State.modCore_mem (s : State) (c : Nat) (f : Core → Core) : (s.modCore c f).mem = s.mem := rfl
@[simp] theorem State.modCore_acc (s : State) (c : Nat) (f : Core → Core) : (s.modCore c f).acc = s.acc := rfl
@[simp] theorem State.modCore_sb (s : State) (c : Nat) (f : Core → Core) : (s.modCore c f).sb = s.sb := rfl
@[simp] theorem State.modCore_poison (s : State) (c : Nat) (f : Core → Core) : (s.modCore c f).poison = s.poison := rfl
@[simp] theorem State.modCore_sharers (s : State) (c : Nat) (f : Core → Core) : (s.modCore c f).sharers = s.sharers := rfl
@[simp] theorem State.modCore_owners (s : State) (c : Nat) (f : Core → Core) : (s.modCore c f).owners = s.owners := rfl
@[simp] theorem State.modCore_walkCache (s : State) (c : Nat) (f : Core → Core) : (s.modCore c f).walkCache = s.walkCache := rfl
@[simp] theorem State.modCore_hirq (s : State) (c : Nat) (f : Core → Core) : (s.modCore c f).hirq = s.hirq := rfl
@[simp] theorem State.modCore_himask (s : State) (c : Nat) (f : Core → Core) : (s.modCore c f).himask = s.himask := rfl
@[simp] theorem State.modCore_vectors (s : State) (c : Nat) (f : Core → Core) : (s.modCore c f).vectors = s.vectors := rfl
@[simp] theorem State.modCore_psel (s : State) (c : Nat) (f : Core → Core) : (s.modCore c f).psel = s.psel := rfl
@[simp] theorem State.modCore_cmds (s : State) (c : Nat) (f : Core → Core) : (s.modCore c f).cmds = s.cmds := rfl
@[simp] theorem State.modCore_collIn (s : State) (c : Nat) (f : Core → Core) : (s.modCore c f).collIn = s.collIn := rfl
@[simp] theorem State.modCore_collOut (s : State) (c : Nat) (f : Core → Core) : (s.modCore c f).collOut = s.collOut := rfl
@[simp] theorem State.modCore_collSent (s : State) (c : Nat) (f : Core → Core) : (s.modCore c f).collSent = s.collSent := rfl
@[simp] theorem State.modCore_collOrd (s : State) (c : Nat) (f : Core → Core) : (s.modCore c f).collOrd = s.collOrd := rfl
@[simp] theorem State.modCore_collHist (s : State) (c : Nat) (f : Core → Core) : (s.modCore c f).collHist = s.collHist := rfl
@[simp] theorem State.modCore_collMiss (s : State) (c : Nat) (f : Core → Core) : (s.modCore c f).collMiss = s.collMiss := rfl
@[simp] theorem State.modCore_homeQ (s : State) (c : Nat) (f : Core → Core) : (s.modCore c f).homeQ = s.homeQ := rfl
@[simp] theorem State.modCore_hostOut (s : State) (c : Nat) (f : Core → Core) : (s.modCore c f).hostOut = s.hostOut := rfl
@[simp] theorem State.modCore_hostHeld (s : State) (c : Nat) (f : Core → Core) : (s.modCore c f).hostHeld = s.hostHeld := rfl
@[simp] theorem State.modCore_hostTurn (s : State) (c : Nat) (f : Core → Core) : (s.modCore c f).hostTurn = s.hostTurn := rfl
@[simp] theorem State.modCore_peerOut (s : State) (c : Nat) (f : Core → Core) : (s.modCore c f).peerOut = s.peerOut := rfl
@[simp] theorem State.modCore_peerParked (s : State) (c : Nat) (f : Core → Core) : (s.modCore c f).peerParked = s.peerParked := rfl
@[simp] theorem State.modCore_ltmo (s : State) (c : Nat) (f : Core → Core) : (s.modCore c f).ltmo = s.ltmo := rfl
@[simp] theorem State.modCore_flitRetries (s : State) (c : Nat) (f : Core → Core) : (s.modCore c f).flitRetries = s.flitRetries := rfl
@[simp] theorem State.modCore_span (s : State) (c : Nat) (f : Core → Core) : (s.modCore c f).span = s.span := rfl
@[simp] theorem State.modCore_sessions (s : State) (c : Nat) (f : Core → Core) : (s.modCore c f).sessions = s.sessions := rfl
@[simp] theorem State.modCore_spanOut (s : State) (c : Nat) (f : Core → Core) : (s.modCore c f).spanOut = s.spanOut := rfl
@[simp] theorem State.modCore_spanIn (s : State) (c : Nat) (f : Core → Core) : (s.modCore c f).spanIn = s.spanIn := rfl
@[simp] theorem State.modCore_sec (s : State) (c : Nat) (f : Core → Core) : (s.modCore c f).sec = s.sec := rfl
@[simp] theorem State.modCore_boot (s : State) (c : Nat) (f : Core → Core) : (s.modCore c f).boot = s.boot := rfl
@[simp] theorem State.modCore_threv (s : State) (c : Nat) (f : Core → Core) : (s.modCore c f).threv = s.threv := rfl
@[simp] theorem State.modCore_thcfg (s : State) (c : Nat) (f : Core → Core) : (s.modCore c f).thcfg = s.thcfg := rfl

@[simp] theorem State.modDie_agenda (s : State) (d : Nat) (f : Die → Die) : (s.modDie d f).agenda = s.agenda := rfl
@[simp] theorem State.modDie_cur (s : State) (d : Nat) (f : Die → Die) : (s.modDie d f).cur = s.cur := rfl
@[simp] theorem State.modDie_cycle (s : State) (d : Nat) (f : Die → Die) : (s.modDie d f).cycle = s.cycle := rfl
@[simp] theorem State.modDie_nextId (s : State) (d : Nat) (f : Die → Die) : (s.modDie d f).nextId = s.nextId := rfl
@[simp] theorem State.modDie_freeTick (s : State) (d : Nat) (f : Die → Die) : (s.modDie d f).freeTick = s.freeTick := rfl
@[simp] theorem State.modDie_ns (s : State) (d : Nat) (f : Die → Die) : (s.modDie d f).ns = s.ns := rfl
@[simp] theorem State.modDie_surveyed (s : State) (d : Nat) (f : Die → Die) : (s.modDie d f).surveyed = s.surveyed := rfl
@[simp] theorem State.modDie_groups (s : State) (d : Nat) (f : Die → Die) : (s.modDie d f).groups = s.groups := rfl
@[simp] theorem State.modDie_teams (s : State) (d : Nat) (f : Die → Die) : (s.modDie d f).teams = s.teams := rfl
@[simp] theorem State.modDie_cores (s : State) (d : Nat) (f : Die → Die) : (s.modDie d f).cores = s.cores := rfl
@[simp] theorem State.modDie_ctxs (s : State) (d : Nat) (f : Die → Die) : (s.modDie d f).ctxs = s.ctxs := rfl
@[simp] theorem State.modDie_launches (s : State) (d : Nat) (f : Die → Die) : (s.modDie d f).launches = s.launches := rfl
@[simp] theorem State.modDie_queues (s : State) (d : Nat) (f : Die → Die) : (s.modDie d f).queues = s.queues := rfl
@[simp] theorem State.modDie_nextLnum (s : State) (d : Nat) (f : Die → Die) : (s.modDie d f).nextLnum = s.nextLnum := rfl
@[simp] theorem State.modDie_lastQueue (s : State) (d : Nat) (f : Die → Die) : (s.modDie d f).lastQueue = s.lastQueue := rfl
@[simp] theorem State.modDie_mem (s : State) (d : Nat) (f : Die → Die) : (s.modDie d f).mem = s.mem := rfl
@[simp] theorem State.modDie_acc (s : State) (d : Nat) (f : Die → Die) : (s.modDie d f).acc = s.acc := rfl
@[simp] theorem State.modDie_sb (s : State) (d : Nat) (f : Die → Die) : (s.modDie d f).sb = s.sb := rfl
@[simp] theorem State.modDie_poison (s : State) (d : Nat) (f : Die → Die) : (s.modDie d f).poison = s.poison := rfl
@[simp] theorem State.modDie_sharers (s : State) (d : Nat) (f : Die → Die) : (s.modDie d f).sharers = s.sharers := rfl
@[simp] theorem State.modDie_owners (s : State) (d : Nat) (f : Die → Die) : (s.modDie d f).owners = s.owners := rfl
@[simp] theorem State.modDie_walkCache (s : State) (d : Nat) (f : Die → Die) : (s.modDie d f).walkCache = s.walkCache := rfl
@[simp] theorem State.modDie_hirq (s : State) (d : Nat) (f : Die → Die) : (s.modDie d f).hirq = s.hirq := rfl
@[simp] theorem State.modDie_himask (s : State) (d : Nat) (f : Die → Die) : (s.modDie d f).himask = s.himask := rfl
@[simp] theorem State.modDie_vectors (s : State) (d : Nat) (f : Die → Die) : (s.modDie d f).vectors = s.vectors := rfl
@[simp] theorem State.modDie_psel (s : State) (d : Nat) (f : Die → Die) : (s.modDie d f).psel = s.psel := rfl
@[simp] theorem State.modDie_cmds (s : State) (d : Nat) (f : Die → Die) : (s.modDie d f).cmds = s.cmds := rfl
@[simp] theorem State.modDie_collIn (s : State) (d : Nat) (f : Die → Die) : (s.modDie d f).collIn = s.collIn := rfl
@[simp] theorem State.modDie_collOut (s : State) (d : Nat) (f : Die → Die) : (s.modDie d f).collOut = s.collOut := rfl
@[simp] theorem State.modDie_collSent (s : State) (d : Nat) (f : Die → Die) : (s.modDie d f).collSent = s.collSent := rfl
@[simp] theorem State.modDie_collOrd (s : State) (d : Nat) (f : Die → Die) : (s.modDie d f).collOrd = s.collOrd := rfl
@[simp] theorem State.modDie_collHist (s : State) (d : Nat) (f : Die → Die) : (s.modDie d f).collHist = s.collHist := rfl
@[simp] theorem State.modDie_collMiss (s : State) (d : Nat) (f : Die → Die) : (s.modDie d f).collMiss = s.collMiss := rfl
@[simp] theorem State.modDie_homeQ (s : State) (d : Nat) (f : Die → Die) : (s.modDie d f).homeQ = s.homeQ := rfl
@[simp] theorem State.modDie_hostOut (s : State) (d : Nat) (f : Die → Die) : (s.modDie d f).hostOut = s.hostOut := rfl
@[simp] theorem State.modDie_hostHeld (s : State) (d : Nat) (f : Die → Die) : (s.modDie d f).hostHeld = s.hostHeld := rfl
@[simp] theorem State.modDie_hostTurn (s : State) (d : Nat) (f : Die → Die) : (s.modDie d f).hostTurn = s.hostTurn := rfl
@[simp] theorem State.modDie_peerOut (s : State) (d : Nat) (f : Die → Die) : (s.modDie d f).peerOut = s.peerOut := rfl
@[simp] theorem State.modDie_peerParked (s : State) (d : Nat) (f : Die → Die) : (s.modDie d f).peerParked = s.peerParked := rfl
@[simp] theorem State.modDie_ltmo (s : State) (d : Nat) (f : Die → Die) : (s.modDie d f).ltmo = s.ltmo := rfl
@[simp] theorem State.modDie_flitRetries (s : State) (d : Nat) (f : Die → Die) : (s.modDie d f).flitRetries = s.flitRetries := rfl
@[simp] theorem State.modDie_span (s : State) (d : Nat) (f : Die → Die) : (s.modDie d f).span = s.span := rfl
@[simp] theorem State.modDie_sessions (s : State) (d : Nat) (f : Die → Die) : (s.modDie d f).sessions = s.sessions := rfl
@[simp] theorem State.modDie_spanOut (s : State) (d : Nat) (f : Die → Die) : (s.modDie d f).spanOut = s.spanOut := rfl
@[simp] theorem State.modDie_spanIn (s : State) (d : Nat) (f : Die → Die) : (s.modDie d f).spanIn = s.spanIn := rfl
@[simp] theorem State.modDie_sec (s : State) (d : Nat) (f : Die → Die) : (s.modDie d f).sec = s.sec := rfl
@[simp] theorem State.modDie_boot (s : State) (d : Nat) (f : Die → Die) : (s.modDie d f).boot = s.boot := rfl
@[simp] theorem State.modDie_threv (s : State) (d : Nat) (f : Die → Die) : (s.modDie d f).threv = s.threv := rfl
@[simp] theorem State.modDie_thcfg (s : State) (d : Nat) (f : Die → Die) : (s.modDie d f).thcfg = s.thcfg := rfl

@[simp] theorem State.modQueue_agenda (s : State) (q : Nat) (f : LQueue → LQueue) : (s.modQueue q f).agenda = s.agenda := rfl
@[simp] theorem State.modQueue_cur (s : State) (q : Nat) (f : LQueue → LQueue) : (s.modQueue q f).cur = s.cur := rfl
@[simp] theorem State.modQueue_cycle (s : State) (q : Nat) (f : LQueue → LQueue) : (s.modQueue q f).cycle = s.cycle := rfl
@[simp] theorem State.modQueue_nextId (s : State) (q : Nat) (f : LQueue → LQueue) : (s.modQueue q f).nextId = s.nextId := rfl
@[simp] theorem State.modQueue_freeTick (s : State) (q : Nat) (f : LQueue → LQueue) : (s.modQueue q f).freeTick = s.freeTick := rfl
@[simp] theorem State.modQueue_ns (s : State) (q : Nat) (f : LQueue → LQueue) : (s.modQueue q f).ns = s.ns := rfl
@[simp] theorem State.modQueue_surveyed (s : State) (q : Nat) (f : LQueue → LQueue) : (s.modQueue q f).surveyed = s.surveyed := rfl
@[simp] theorem State.modQueue_groups (s : State) (q : Nat) (f : LQueue → LQueue) : (s.modQueue q f).groups = s.groups := rfl
@[simp] theorem State.modQueue_teams (s : State) (q : Nat) (f : LQueue → LQueue) : (s.modQueue q f).teams = s.teams := rfl
@[simp] theorem State.modQueue_cores (s : State) (q : Nat) (f : LQueue → LQueue) : (s.modQueue q f).cores = s.cores := rfl
@[simp] theorem State.modQueue_dies (s : State) (q : Nat) (f : LQueue → LQueue) : (s.modQueue q f).dies = s.dies := rfl
@[simp] theorem State.modQueue_ctxs (s : State) (q : Nat) (f : LQueue → LQueue) : (s.modQueue q f).ctxs = s.ctxs := rfl
@[simp] theorem State.modQueue_launches (s : State) (q : Nat) (f : LQueue → LQueue) : (s.modQueue q f).launches = s.launches := rfl
@[simp] theorem State.modQueue_nextLnum (s : State) (q : Nat) (f : LQueue → LQueue) : (s.modQueue q f).nextLnum = s.nextLnum := rfl
@[simp] theorem State.modQueue_lastQueue (s : State) (q : Nat) (f : LQueue → LQueue) : (s.modQueue q f).lastQueue = s.lastQueue := rfl
@[simp] theorem State.modQueue_mem (s : State) (q : Nat) (f : LQueue → LQueue) : (s.modQueue q f).mem = s.mem := rfl
@[simp] theorem State.modQueue_acc (s : State) (q : Nat) (f : LQueue → LQueue) : (s.modQueue q f).acc = s.acc := rfl
@[simp] theorem State.modQueue_sb (s : State) (q : Nat) (f : LQueue → LQueue) : (s.modQueue q f).sb = s.sb := rfl
@[simp] theorem State.modQueue_poison (s : State) (q : Nat) (f : LQueue → LQueue) : (s.modQueue q f).poison = s.poison := rfl
@[simp] theorem State.modQueue_sharers (s : State) (q : Nat) (f : LQueue → LQueue) : (s.modQueue q f).sharers = s.sharers := rfl
@[simp] theorem State.modQueue_owners (s : State) (q : Nat) (f : LQueue → LQueue) : (s.modQueue q f).owners = s.owners := rfl
@[simp] theorem State.modQueue_walkCache (s : State) (q : Nat) (f : LQueue → LQueue) : (s.modQueue q f).walkCache = s.walkCache := rfl
@[simp] theorem State.modQueue_hirq (s : State) (q : Nat) (f : LQueue → LQueue) : (s.modQueue q f).hirq = s.hirq := rfl
@[simp] theorem State.modQueue_himask (s : State) (q : Nat) (f : LQueue → LQueue) : (s.modQueue q f).himask = s.himask := rfl
@[simp] theorem State.modQueue_vectors (s : State) (q : Nat) (f : LQueue → LQueue) : (s.modQueue q f).vectors = s.vectors := rfl
@[simp] theorem State.modQueue_psel (s : State) (q : Nat) (f : LQueue → LQueue) : (s.modQueue q f).psel = s.psel := rfl
@[simp] theorem State.modQueue_cmds (s : State) (q : Nat) (f : LQueue → LQueue) : (s.modQueue q f).cmds = s.cmds := rfl
@[simp] theorem State.modQueue_collIn (s : State) (q : Nat) (f : LQueue → LQueue) : (s.modQueue q f).collIn = s.collIn := rfl
@[simp] theorem State.modQueue_collOut (s : State) (q : Nat) (f : LQueue → LQueue) : (s.modQueue q f).collOut = s.collOut := rfl
@[simp] theorem State.modQueue_collSent (s : State) (q : Nat) (f : LQueue → LQueue) : (s.modQueue q f).collSent = s.collSent := rfl
@[simp] theorem State.modQueue_collOrd (s : State) (q : Nat) (f : LQueue → LQueue) : (s.modQueue q f).collOrd = s.collOrd := rfl
@[simp] theorem State.modQueue_collHist (s : State) (q : Nat) (f : LQueue → LQueue) : (s.modQueue q f).collHist = s.collHist := rfl
@[simp] theorem State.modQueue_collMiss (s : State) (q : Nat) (f : LQueue → LQueue) : (s.modQueue q f).collMiss = s.collMiss := rfl
@[simp] theorem State.modQueue_homeQ (s : State) (q : Nat) (f : LQueue → LQueue) : (s.modQueue q f).homeQ = s.homeQ := rfl
@[simp] theorem State.modQueue_hostOut (s : State) (q : Nat) (f : LQueue → LQueue) : (s.modQueue q f).hostOut = s.hostOut := rfl
@[simp] theorem State.modQueue_hostHeld (s : State) (q : Nat) (f : LQueue → LQueue) : (s.modQueue q f).hostHeld = s.hostHeld := rfl
@[simp] theorem State.modQueue_hostTurn (s : State) (q : Nat) (f : LQueue → LQueue) : (s.modQueue q f).hostTurn = s.hostTurn := rfl
@[simp] theorem State.modQueue_peerOut (s : State) (q : Nat) (f : LQueue → LQueue) : (s.modQueue q f).peerOut = s.peerOut := rfl
@[simp] theorem State.modQueue_peerParked (s : State) (q : Nat) (f : LQueue → LQueue) : (s.modQueue q f).peerParked = s.peerParked := rfl
@[simp] theorem State.modQueue_ltmo (s : State) (q : Nat) (f : LQueue → LQueue) : (s.modQueue q f).ltmo = s.ltmo := rfl
@[simp] theorem State.modQueue_flitRetries (s : State) (q : Nat) (f : LQueue → LQueue) : (s.modQueue q f).flitRetries = s.flitRetries := rfl
@[simp] theorem State.modQueue_span (s : State) (q : Nat) (f : LQueue → LQueue) : (s.modQueue q f).span = s.span := rfl
@[simp] theorem State.modQueue_sessions (s : State) (q : Nat) (f : LQueue → LQueue) : (s.modQueue q f).sessions = s.sessions := rfl
@[simp] theorem State.modQueue_spanOut (s : State) (q : Nat) (f : LQueue → LQueue) : (s.modQueue q f).spanOut = s.spanOut := rfl
@[simp] theorem State.modQueue_spanIn (s : State) (q : Nat) (f : LQueue → LQueue) : (s.modQueue q f).spanIn = s.spanIn := rfl
@[simp] theorem State.modQueue_sec (s : State) (q : Nat) (f : LQueue → LQueue) : (s.modQueue q f).sec = s.sec := rfl
@[simp] theorem State.modQueue_boot (s : State) (q : Nat) (f : LQueue → LQueue) : (s.modQueue q f).boot = s.boot := rfl
@[simp] theorem State.modQueue_threv (s : State) (q : Nat) (f : LQueue → LQueue) : (s.modQueue q f).threv = s.threv := rfl
@[simp] theorem State.modQueue_thcfg (s : State) (q : Nat) (f : LQueue → LQueue) : (s.modQueue q f).thcfg = s.thcfg := rfl

@[simp] theorem State.modSpad_agenda (s : State) (t i : Nat) (f : Spad → Spad) : (s.modSpad t i f).agenda = s.agenda := rfl
@[simp] theorem State.modSpad_cur (s : State) (t i : Nat) (f : Spad → Spad) : (s.modSpad t i f).cur = s.cur := rfl
@[simp] theorem State.modSpad_cycle (s : State) (t i : Nat) (f : Spad → Spad) : (s.modSpad t i f).cycle = s.cycle := rfl
@[simp] theorem State.modSpad_nextId (s : State) (t i : Nat) (f : Spad → Spad) : (s.modSpad t i f).nextId = s.nextId := rfl
@[simp] theorem State.modSpad_freeTick (s : State) (t i : Nat) (f : Spad → Spad) : (s.modSpad t i f).freeTick = s.freeTick := rfl
@[simp] theorem State.modSpad_ns (s : State) (t i : Nat) (f : Spad → Spad) : (s.modSpad t i f).ns = s.ns := rfl
@[simp] theorem State.modSpad_surveyed (s : State) (t i : Nat) (f : Spad → Spad) : (s.modSpad t i f).surveyed = s.surveyed := rfl
@[simp] theorem State.modSpad_groups (s : State) (t i : Nat) (f : Spad → Spad) : (s.modSpad t i f).groups = s.groups := rfl
@[simp] theorem State.modSpad_cores (s : State) (t i : Nat) (f : Spad → Spad) : (s.modSpad t i f).cores = s.cores := rfl
@[simp] theorem State.modSpad_dies (s : State) (t i : Nat) (f : Spad → Spad) : (s.modSpad t i f).dies = s.dies := rfl
@[simp] theorem State.modSpad_ctxs (s : State) (t i : Nat) (f : Spad → Spad) : (s.modSpad t i f).ctxs = s.ctxs := rfl
@[simp] theorem State.modSpad_launches (s : State) (t i : Nat) (f : Spad → Spad) : (s.modSpad t i f).launches = s.launches := rfl
@[simp] theorem State.modSpad_queues (s : State) (t i : Nat) (f : Spad → Spad) : (s.modSpad t i f).queues = s.queues := rfl
@[simp] theorem State.modSpad_nextLnum (s : State) (t i : Nat) (f : Spad → Spad) : (s.modSpad t i f).nextLnum = s.nextLnum := rfl
@[simp] theorem State.modSpad_lastQueue (s : State) (t i : Nat) (f : Spad → Spad) : (s.modSpad t i f).lastQueue = s.lastQueue := rfl
@[simp] theorem State.modSpad_mem (s : State) (t i : Nat) (f : Spad → Spad) : (s.modSpad t i f).mem = s.mem := rfl
@[simp] theorem State.modSpad_acc (s : State) (t i : Nat) (f : Spad → Spad) : (s.modSpad t i f).acc = s.acc := rfl
@[simp] theorem State.modSpad_sb (s : State) (t i : Nat) (f : Spad → Spad) : (s.modSpad t i f).sb = s.sb := rfl
@[simp] theorem State.modSpad_poison (s : State) (t i : Nat) (f : Spad → Spad) : (s.modSpad t i f).poison = s.poison := rfl
@[simp] theorem State.modSpad_sharers (s : State) (t i : Nat) (f : Spad → Spad) : (s.modSpad t i f).sharers = s.sharers := rfl
@[simp] theorem State.modSpad_owners (s : State) (t i : Nat) (f : Spad → Spad) : (s.modSpad t i f).owners = s.owners := rfl
@[simp] theorem State.modSpad_walkCache (s : State) (t i : Nat) (f : Spad → Spad) : (s.modSpad t i f).walkCache = s.walkCache := rfl
@[simp] theorem State.modSpad_hirq (s : State) (t i : Nat) (f : Spad → Spad) : (s.modSpad t i f).hirq = s.hirq := rfl
@[simp] theorem State.modSpad_himask (s : State) (t i : Nat) (f : Spad → Spad) : (s.modSpad t i f).himask = s.himask := rfl
@[simp] theorem State.modSpad_vectors (s : State) (t i : Nat) (f : Spad → Spad) : (s.modSpad t i f).vectors = s.vectors := rfl
@[simp] theorem State.modSpad_psel (s : State) (t i : Nat) (f : Spad → Spad) : (s.modSpad t i f).psel = s.psel := rfl
@[simp] theorem State.modSpad_cmds (s : State) (t i : Nat) (f : Spad → Spad) : (s.modSpad t i f).cmds = s.cmds := rfl
@[simp] theorem State.modSpad_collIn (s : State) (t i : Nat) (f : Spad → Spad) : (s.modSpad t i f).collIn = s.collIn := rfl
@[simp] theorem State.modSpad_collOut (s : State) (t i : Nat) (f : Spad → Spad) : (s.modSpad t i f).collOut = s.collOut := rfl
@[simp] theorem State.modSpad_collSent (s : State) (t i : Nat) (f : Spad → Spad) : (s.modSpad t i f).collSent = s.collSent := rfl
@[simp] theorem State.modSpad_collOrd (s : State) (t i : Nat) (f : Spad → Spad) : (s.modSpad t i f).collOrd = s.collOrd := rfl
@[simp] theorem State.modSpad_collHist (s : State) (t i : Nat) (f : Spad → Spad) : (s.modSpad t i f).collHist = s.collHist := rfl
@[simp] theorem State.modSpad_collMiss (s : State) (t i : Nat) (f : Spad → Spad) : (s.modSpad t i f).collMiss = s.collMiss := rfl
@[simp] theorem State.modSpad_homeQ (s : State) (t i : Nat) (f : Spad → Spad) : (s.modSpad t i f).homeQ = s.homeQ := rfl
@[simp] theorem State.modSpad_hostOut (s : State) (t i : Nat) (f : Spad → Spad) : (s.modSpad t i f).hostOut = s.hostOut := rfl
@[simp] theorem State.modSpad_hostHeld (s : State) (t i : Nat) (f : Spad → Spad) : (s.modSpad t i f).hostHeld = s.hostHeld := rfl
@[simp] theorem State.modSpad_hostTurn (s : State) (t i : Nat) (f : Spad → Spad) : (s.modSpad t i f).hostTurn = s.hostTurn := rfl
@[simp] theorem State.modSpad_peerOut (s : State) (t i : Nat) (f : Spad → Spad) : (s.modSpad t i f).peerOut = s.peerOut := rfl
@[simp] theorem State.modSpad_peerParked (s : State) (t i : Nat) (f : Spad → Spad) : (s.modSpad t i f).peerParked = s.peerParked := rfl
@[simp] theorem State.modSpad_ltmo (s : State) (t i : Nat) (f : Spad → Spad) : (s.modSpad t i f).ltmo = s.ltmo := rfl
@[simp] theorem State.modSpad_flitRetries (s : State) (t i : Nat) (f : Spad → Spad) : (s.modSpad t i f).flitRetries = s.flitRetries := rfl
@[simp] theorem State.modSpad_span (s : State) (t i : Nat) (f : Spad → Spad) : (s.modSpad t i f).span = s.span := rfl
@[simp] theorem State.modSpad_sessions (s : State) (t i : Nat) (f : Spad → Spad) : (s.modSpad t i f).sessions = s.sessions := rfl
@[simp] theorem State.modSpad_spanOut (s : State) (t i : Nat) (f : Spad → Spad) : (s.modSpad t i f).spanOut = s.spanOut := rfl
@[simp] theorem State.modSpad_spanIn (s : State) (t i : Nat) (f : Spad → Spad) : (s.modSpad t i f).spanIn = s.spanIn := rfl
@[simp] theorem State.modSpad_sec (s : State) (t i : Nat) (f : Spad → Spad) : (s.modSpad t i f).sec = s.sec := rfl
@[simp] theorem State.modSpad_boot (s : State) (t i : Nat) (f : Spad → Spad) : (s.modSpad t i f).boot = s.boot := rfl
@[simp] theorem State.modSpad_threv (s : State) (t i : Nat) (f : Spad → Spad) : (s.modSpad t i f).threv = s.threv := rfl
@[simp] theorem State.modSpad_thcfg (s : State) (t i : Nat) (f : Spad → Spad) : (s.modSpad t i f).thcfg = s.thcfg := rfl

@[simp] theorem State.pass_agenda (s : State) (g l n : Nat) : (s.pass g l n).agenda = s.agenda := rfl
@[simp] theorem State.pass_cur (s : State) (g l n : Nat) : (s.pass g l n).cur = s.cur := rfl
@[simp] theorem State.pass_cycle (s : State) (g l n : Nat) : (s.pass g l n).cycle = s.cycle := rfl
@[simp] theorem State.pass_nextId (s : State) (g l n : Nat) : (s.pass g l n).nextId = s.nextId := rfl
@[simp] theorem State.pass_freeTick (s : State) (g l n : Nat) : (s.pass g l n).freeTick = s.freeTick := rfl
@[simp] theorem State.pass_ns (s : State) (g l n : Nat) : (s.pass g l n).ns = s.ns := rfl
@[simp] theorem State.pass_surveyed (s : State) (g l n : Nat) : (s.pass g l n).surveyed = s.surveyed := rfl
@[simp] theorem State.pass_teams (s : State) (g l n : Nat) : (s.pass g l n).teams = s.teams := rfl
@[simp] theorem State.pass_cores (s : State) (g l n : Nat) : (s.pass g l n).cores = s.cores := rfl
@[simp] theorem State.pass_dies (s : State) (g l n : Nat) : (s.pass g l n).dies = s.dies := rfl
@[simp] theorem State.pass_ctxs (s : State) (g l n : Nat) : (s.pass g l n).ctxs = s.ctxs := rfl
@[simp] theorem State.pass_launches (s : State) (g l n : Nat) : (s.pass g l n).launches = s.launches := rfl
@[simp] theorem State.pass_queues (s : State) (g l n : Nat) : (s.pass g l n).queues = s.queues := rfl
@[simp] theorem State.pass_nextLnum (s : State) (g l n : Nat) : (s.pass g l n).nextLnum = s.nextLnum := rfl
@[simp] theorem State.pass_lastQueue (s : State) (g l n : Nat) : (s.pass g l n).lastQueue = s.lastQueue := rfl
@[simp] theorem State.pass_mem (s : State) (g l n : Nat) : (s.pass g l n).mem = s.mem := rfl
@[simp] theorem State.pass_acc (s : State) (g l n : Nat) : (s.pass g l n).acc = s.acc := rfl
@[simp] theorem State.pass_sb (s : State) (g l n : Nat) : (s.pass g l n).sb = s.sb := rfl
@[simp] theorem State.pass_poison (s : State) (g l n : Nat) : (s.pass g l n).poison = s.poison := rfl
@[simp] theorem State.pass_sharers (s : State) (g l n : Nat) : (s.pass g l n).sharers = s.sharers := rfl
@[simp] theorem State.pass_owners (s : State) (g l n : Nat) : (s.pass g l n).owners = s.owners := rfl
@[simp] theorem State.pass_walkCache (s : State) (g l n : Nat) : (s.pass g l n).walkCache = s.walkCache := rfl
@[simp] theorem State.pass_hirq (s : State) (g l n : Nat) : (s.pass g l n).hirq = s.hirq := rfl
@[simp] theorem State.pass_himask (s : State) (g l n : Nat) : (s.pass g l n).himask = s.himask := rfl
@[simp] theorem State.pass_vectors (s : State) (g l n : Nat) : (s.pass g l n).vectors = s.vectors := rfl
@[simp] theorem State.pass_psel (s : State) (g l n : Nat) : (s.pass g l n).psel = s.psel := rfl
@[simp] theorem State.pass_cmds (s : State) (g l n : Nat) : (s.pass g l n).cmds = s.cmds := rfl
@[simp] theorem State.pass_collIn (s : State) (g l n : Nat) : (s.pass g l n).collIn = s.collIn := rfl
@[simp] theorem State.pass_collOut (s : State) (g l n : Nat) : (s.pass g l n).collOut = s.collOut := rfl
@[simp] theorem State.pass_collSent (s : State) (g l n : Nat) : (s.pass g l n).collSent = s.collSent := rfl
@[simp] theorem State.pass_collOrd (s : State) (g l n : Nat) : (s.pass g l n).collOrd = s.collOrd := rfl
@[simp] theorem State.pass_collHist (s : State) (g l n : Nat) : (s.pass g l n).collHist = s.collHist := rfl
@[simp] theorem State.pass_collMiss (s : State) (g l n : Nat) : (s.pass g l n).collMiss = s.collMiss := rfl
@[simp] theorem State.pass_homeQ (s : State) (g l n : Nat) : (s.pass g l n).homeQ = s.homeQ := rfl
@[simp] theorem State.pass_hostOut (s : State) (g l n : Nat) : (s.pass g l n).hostOut = s.hostOut := rfl
@[simp] theorem State.pass_hostHeld (s : State) (g l n : Nat) : (s.pass g l n).hostHeld = s.hostHeld := rfl
@[simp] theorem State.pass_hostTurn (s : State) (g l n : Nat) : (s.pass g l n).hostTurn = s.hostTurn := rfl
@[simp] theorem State.pass_peerOut (s : State) (g l n : Nat) : (s.pass g l n).peerOut = s.peerOut := rfl
@[simp] theorem State.pass_peerParked (s : State) (g l n : Nat) : (s.pass g l n).peerParked = s.peerParked := rfl
@[simp] theorem State.pass_ltmo (s : State) (g l n : Nat) : (s.pass g l n).ltmo = s.ltmo := rfl
@[simp] theorem State.pass_flitRetries (s : State) (g l n : Nat) : (s.pass g l n).flitRetries = s.flitRetries := rfl
@[simp] theorem State.pass_span (s : State) (g l n : Nat) : (s.pass g l n).span = s.span := rfl
@[simp] theorem State.pass_sessions (s : State) (g l n : Nat) : (s.pass g l n).sessions = s.sessions := rfl
@[simp] theorem State.pass_spanOut (s : State) (g l n : Nat) : (s.pass g l n).spanOut = s.spanOut := rfl
@[simp] theorem State.pass_spanIn (s : State) (g l n : Nat) : (s.pass g l n).spanIn = s.spanIn := rfl
@[simp] theorem State.pass_sec (s : State) (g l n : Nat) : (s.pass g l n).sec = s.sec := rfl
@[simp] theorem State.pass_boot (s : State) (g l n : Nat) : (s.pass g l n).boot = s.boot := rfl
@[simp] theorem State.pass_threv (s : State) (g l n : Nat) : (s.pass g l n).threv = s.threv := rfl
@[simp] theorem State.pass_thcfg (s : State) (g l n : Nat) : (s.pass g l n).thcfg = s.thcfg := rfl

@[simp] theorem State.hold_agenda (s : State) (g l : Nat) : (s.hold g l).agenda = s.agenda := rfl
@[simp] theorem State.hold_cur (s : State) (g l : Nat) : (s.hold g l).cur = s.cur := rfl
@[simp] theorem State.hold_cycle (s : State) (g l : Nat) : (s.hold g l).cycle = s.cycle := rfl
@[simp] theorem State.hold_nextId (s : State) (g l : Nat) : (s.hold g l).nextId = s.nextId := rfl
@[simp] theorem State.hold_freeTick (s : State) (g l : Nat) : (s.hold g l).freeTick = s.freeTick := rfl
@[simp] theorem State.hold_ns (s : State) (g l : Nat) : (s.hold g l).ns = s.ns := rfl
@[simp] theorem State.hold_surveyed (s : State) (g l : Nat) : (s.hold g l).surveyed = s.surveyed := rfl
@[simp] theorem State.hold_teams (s : State) (g l : Nat) : (s.hold g l).teams = s.teams := rfl
@[simp] theorem State.hold_cores (s : State) (g l : Nat) : (s.hold g l).cores = s.cores := rfl
@[simp] theorem State.hold_dies (s : State) (g l : Nat) : (s.hold g l).dies = s.dies := rfl
@[simp] theorem State.hold_ctxs (s : State) (g l : Nat) : (s.hold g l).ctxs = s.ctxs := rfl
@[simp] theorem State.hold_launches (s : State) (g l : Nat) : (s.hold g l).launches = s.launches := rfl
@[simp] theorem State.hold_queues (s : State) (g l : Nat) : (s.hold g l).queues = s.queues := rfl
@[simp] theorem State.hold_nextLnum (s : State) (g l : Nat) : (s.hold g l).nextLnum = s.nextLnum := rfl
@[simp] theorem State.hold_lastQueue (s : State) (g l : Nat) : (s.hold g l).lastQueue = s.lastQueue := rfl
@[simp] theorem State.hold_mem (s : State) (g l : Nat) : (s.hold g l).mem = s.mem := rfl
@[simp] theorem State.hold_acc (s : State) (g l : Nat) : (s.hold g l).acc = s.acc := rfl
@[simp] theorem State.hold_sb (s : State) (g l : Nat) : (s.hold g l).sb = s.sb := rfl
@[simp] theorem State.hold_poison (s : State) (g l : Nat) : (s.hold g l).poison = s.poison := rfl
@[simp] theorem State.hold_sharers (s : State) (g l : Nat) : (s.hold g l).sharers = s.sharers := rfl
@[simp] theorem State.hold_owners (s : State) (g l : Nat) : (s.hold g l).owners = s.owners := rfl
@[simp] theorem State.hold_walkCache (s : State) (g l : Nat) : (s.hold g l).walkCache = s.walkCache := rfl
@[simp] theorem State.hold_hirq (s : State) (g l : Nat) : (s.hold g l).hirq = s.hirq := rfl
@[simp] theorem State.hold_himask (s : State) (g l : Nat) : (s.hold g l).himask = s.himask := rfl
@[simp] theorem State.hold_vectors (s : State) (g l : Nat) : (s.hold g l).vectors = s.vectors := rfl
@[simp] theorem State.hold_psel (s : State) (g l : Nat) : (s.hold g l).psel = s.psel := rfl
@[simp] theorem State.hold_cmds (s : State) (g l : Nat) : (s.hold g l).cmds = s.cmds := rfl
@[simp] theorem State.hold_collIn (s : State) (g l : Nat) : (s.hold g l).collIn = s.collIn := rfl
@[simp] theorem State.hold_collOut (s : State) (g l : Nat) : (s.hold g l).collOut = s.collOut := rfl
@[simp] theorem State.hold_collSent (s : State) (g l : Nat) : (s.hold g l).collSent = s.collSent := rfl
@[simp] theorem State.hold_collOrd (s : State) (g l : Nat) : (s.hold g l).collOrd = s.collOrd := rfl
@[simp] theorem State.hold_collHist (s : State) (g l : Nat) : (s.hold g l).collHist = s.collHist := rfl
@[simp] theorem State.hold_collMiss (s : State) (g l : Nat) : (s.hold g l).collMiss = s.collMiss := rfl
@[simp] theorem State.hold_homeQ (s : State) (g l : Nat) : (s.hold g l).homeQ = s.homeQ := rfl
@[simp] theorem State.hold_hostOut (s : State) (g l : Nat) : (s.hold g l).hostOut = s.hostOut := rfl
@[simp] theorem State.hold_hostHeld (s : State) (g l : Nat) : (s.hold g l).hostHeld = s.hostHeld := rfl
@[simp] theorem State.hold_hostTurn (s : State) (g l : Nat) : (s.hold g l).hostTurn = s.hostTurn := rfl
@[simp] theorem State.hold_peerOut (s : State) (g l : Nat) : (s.hold g l).peerOut = s.peerOut := rfl
@[simp] theorem State.hold_peerParked (s : State) (g l : Nat) : (s.hold g l).peerParked = s.peerParked := rfl
@[simp] theorem State.hold_ltmo (s : State) (g l : Nat) : (s.hold g l).ltmo = s.ltmo := rfl
@[simp] theorem State.hold_flitRetries (s : State) (g l : Nat) : (s.hold g l).flitRetries = s.flitRetries := rfl
@[simp] theorem State.hold_span (s : State) (g l : Nat) : (s.hold g l).span = s.span := rfl
@[simp] theorem State.hold_sessions (s : State) (g l : Nat) : (s.hold g l).sessions = s.sessions := rfl
@[simp] theorem State.hold_spanOut (s : State) (g l : Nat) : (s.hold g l).spanOut = s.spanOut := rfl
@[simp] theorem State.hold_spanIn (s : State) (g l : Nat) : (s.hold g l).spanIn = s.spanIn := rfl
@[simp] theorem State.hold_sec (s : State) (g l : Nat) : (s.hold g l).sec = s.sec := rfl
@[simp] theorem State.hold_boot (s : State) (g l : Nat) : (s.hold g l).boot = s.boot := rfl
@[simp] theorem State.hold_threv (s : State) (g l : Nat) : (s.hold g l).threv = s.threv := rfl
@[simp] theorem State.hold_thcfg (s : State) (g l : Nat) : (s.hold g l).thcfg = s.thcfg := rfl

@[simp] theorem State.fresh_fst (s : State) : s.fresh.1 = s.nextId := rfl
@[simp] theorem State.fresh_agenda (s : State) : s.fresh.2.agenda = s.agenda := rfl
@[simp] theorem State.fresh_cur (s : State) : s.fresh.2.cur = s.cur := rfl
@[simp] theorem State.fresh_cycle (s : State) : s.fresh.2.cycle = s.cycle := rfl
@[simp] theorem State.fresh_nextId (s : State) : s.fresh.2.nextId = s.nextId + 1 := rfl
@[simp] theorem State.fresh_freeTick (s : State) : s.fresh.2.freeTick = s.freeTick := rfl
@[simp] theorem State.fresh_ns (s : State) : s.fresh.2.ns = s.ns := rfl
@[simp] theorem State.fresh_surveyed (s : State) : s.fresh.2.surveyed = s.surveyed := rfl
@[simp] theorem State.fresh_groups (s : State) : s.fresh.2.groups = s.groups := rfl
@[simp] theorem State.fresh_teams (s : State) : s.fresh.2.teams = s.teams := rfl
@[simp] theorem State.fresh_cores (s : State) : s.fresh.2.cores = s.cores := rfl
@[simp] theorem State.fresh_dies (s : State) : s.fresh.2.dies = s.dies := rfl
@[simp] theorem State.fresh_ctxs (s : State) : s.fresh.2.ctxs = s.ctxs := rfl
@[simp] theorem State.fresh_launches (s : State) : s.fresh.2.launches = s.launches := rfl
@[simp] theorem State.fresh_queues (s : State) : s.fresh.2.queues = s.queues := rfl
@[simp] theorem State.fresh_nextLnum (s : State) : s.fresh.2.nextLnum = s.nextLnum := rfl
@[simp] theorem State.fresh_lastQueue (s : State) : s.fresh.2.lastQueue = s.lastQueue := rfl
@[simp] theorem State.fresh_mem (s : State) : s.fresh.2.mem = s.mem := rfl
@[simp] theorem State.fresh_acc (s : State) : s.fresh.2.acc = s.acc := rfl
@[simp] theorem State.fresh_sb (s : State) : s.fresh.2.sb = s.sb := rfl
@[simp] theorem State.fresh_poison (s : State) : s.fresh.2.poison = s.poison := rfl
@[simp] theorem State.fresh_sharers (s : State) : s.fresh.2.sharers = s.sharers := rfl
@[simp] theorem State.fresh_owners (s : State) : s.fresh.2.owners = s.owners := rfl
@[simp] theorem State.fresh_walkCache (s : State) : s.fresh.2.walkCache = s.walkCache := rfl
@[simp] theorem State.fresh_hirq (s : State) : s.fresh.2.hirq = s.hirq := rfl
@[simp] theorem State.fresh_himask (s : State) : s.fresh.2.himask = s.himask := rfl
@[simp] theorem State.fresh_vectors (s : State) : s.fresh.2.vectors = s.vectors := rfl
@[simp] theorem State.fresh_psel (s : State) : s.fresh.2.psel = s.psel := rfl
@[simp] theorem State.fresh_cmds (s : State) : s.fresh.2.cmds = s.cmds := rfl
@[simp] theorem State.fresh_collIn (s : State) : s.fresh.2.collIn = s.collIn := rfl
@[simp] theorem State.fresh_collOut (s : State) : s.fresh.2.collOut = s.collOut := rfl
@[simp] theorem State.fresh_collSent (s : State) : s.fresh.2.collSent = s.collSent := rfl
@[simp] theorem State.fresh_collOrd (s : State) : s.fresh.2.collOrd = s.collOrd := rfl
@[simp] theorem State.fresh_collHist (s : State) : s.fresh.2.collHist = s.collHist := rfl
@[simp] theorem State.fresh_collMiss (s : State) : s.fresh.2.collMiss = s.collMiss := rfl
@[simp] theorem State.fresh_homeQ (s : State) : s.fresh.2.homeQ = s.homeQ := rfl
@[simp] theorem State.fresh_hostOut (s : State) : s.fresh.2.hostOut = s.hostOut := rfl
@[simp] theorem State.fresh_hostHeld (s : State) : s.fresh.2.hostHeld = s.hostHeld := rfl
@[simp] theorem State.fresh_hostTurn (s : State) : s.fresh.2.hostTurn = s.hostTurn := rfl
@[simp] theorem State.fresh_peerOut (s : State) : s.fresh.2.peerOut = s.peerOut := rfl
@[simp] theorem State.fresh_peerParked (s : State) : s.fresh.2.peerParked = s.peerParked := rfl
@[simp] theorem State.fresh_ltmo (s : State) : s.fresh.2.ltmo = s.ltmo := rfl
@[simp] theorem State.fresh_flitRetries (s : State) : s.fresh.2.flitRetries = s.flitRetries := rfl
@[simp] theorem State.fresh_span (s : State) : s.fresh.2.span = s.span := rfl
@[simp] theorem State.fresh_sessions (s : State) : s.fresh.2.sessions = s.sessions := rfl
@[simp] theorem State.fresh_spanOut (s : State) : s.fresh.2.spanOut = s.spanOut := rfl
@[simp] theorem State.fresh_spanIn (s : State) : s.fresh.2.spanIn = s.spanIn := rfl
@[simp] theorem State.fresh_sec (s : State) : s.fresh.2.sec = s.sec := rfl
@[simp] theorem State.fresh_boot (s : State) : s.fresh.2.boot = s.boot := rfl
@[simp] theorem State.fresh_threv (s : State) : s.fresh.2.threv = s.threv := rfl
@[simp] theorem State.fresh_thcfg (s : State) : s.fresh.2.thcfg = s.thcfg := rfl

@[simp] theorem State.raise_agenda (s : State) (g : Nat) (fl : Flg) : (s.raise g fl).agenda = s.agenda := by
  unfold State.raise; split <;> rfl
@[simp] theorem State.retag_agenda (s : State) (g : Nat) (ls rs : List Nat) : (s.retag g ls rs).agenda = s.agenda := by
  unfold State.retag; split <;> rfl
@[simp] theorem State.raise_cur (s : State) (g : Nat) (fl : Flg) : (s.raise g fl).cur = s.cur := by
  unfold State.raise; split <;> rfl
@[simp] theorem State.retag_cur (s : State) (g : Nat) (ls rs : List Nat) : (s.retag g ls rs).cur = s.cur := by
  unfold State.retag; split <;> rfl
@[simp] theorem State.raise_cycle (s : State) (g : Nat) (fl : Flg) : (s.raise g fl).cycle = s.cycle := by
  unfold State.raise; split <;> rfl
@[simp] theorem State.retag_cycle (s : State) (g : Nat) (ls rs : List Nat) : (s.retag g ls rs).cycle = s.cycle := by
  unfold State.retag; split <;> rfl
@[simp] theorem State.raise_nextId (s : State) (g : Nat) (fl : Flg) : (s.raise g fl).nextId = s.nextId := by
  unfold State.raise; split <;> rfl
@[simp] theorem State.retag_nextId (s : State) (g : Nat) (ls rs : List Nat) : (s.retag g ls rs).nextId = s.nextId := by
  unfold State.retag; split <;> rfl
@[simp] theorem State.raise_freeTick (s : State) (g : Nat) (fl : Flg) : (s.raise g fl).freeTick = s.freeTick := by
  unfold State.raise; split <;> rfl
@[simp] theorem State.retag_freeTick (s : State) (g : Nat) (ls rs : List Nat) : (s.retag g ls rs).freeTick = s.freeTick := by
  unfold State.retag; split <;> rfl
@[simp] theorem State.raise_ns (s : State) (g : Nat) (fl : Flg) : (s.raise g fl).ns = s.ns := by
  unfold State.raise; split <;> rfl
@[simp] theorem State.retag_ns (s : State) (g : Nat) (ls rs : List Nat) : (s.retag g ls rs).ns = s.ns := by
  unfold State.retag; split <;> rfl
@[simp] theorem State.raise_surveyed (s : State) (g : Nat) (fl : Flg) : (s.raise g fl).surveyed = s.surveyed := by
  unfold State.raise; split <;> rfl
@[simp] theorem State.retag_surveyed (s : State) (g : Nat) (ls rs : List Nat) : (s.retag g ls rs).surveyed = s.surveyed := by
  unfold State.retag; split <;> rfl
@[simp] theorem State.raise_teams (s : State) (g : Nat) (fl : Flg) : (s.raise g fl).teams = s.teams := by
  unfold State.raise; split <;> rfl
@[simp] theorem State.retag_teams (s : State) (g : Nat) (ls rs : List Nat) : (s.retag g ls rs).teams = s.teams := by
  unfold State.retag; split <;> rfl
@[simp] theorem State.raise_cores (s : State) (g : Nat) (fl : Flg) : (s.raise g fl).cores = s.cores := by
  unfold State.raise; split <;> rfl
@[simp] theorem State.retag_cores (s : State) (g : Nat) (ls rs : List Nat) : (s.retag g ls rs).cores = s.cores := by
  unfold State.retag; split <;> rfl
@[simp] theorem State.raise_dies (s : State) (g : Nat) (fl : Flg) : (s.raise g fl).dies = s.dies := by
  unfold State.raise; split <;> rfl
@[simp] theorem State.retag_dies (s : State) (g : Nat) (ls rs : List Nat) : (s.retag g ls rs).dies = s.dies := by
  unfold State.retag; split <;> rfl
@[simp] theorem State.raise_ctxs (s : State) (g : Nat) (fl : Flg) : (s.raise g fl).ctxs = s.ctxs := by
  unfold State.raise; split <;> rfl
@[simp] theorem State.retag_ctxs (s : State) (g : Nat) (ls rs : List Nat) : (s.retag g ls rs).ctxs = s.ctxs := by
  unfold State.retag; split <;> rfl
@[simp] theorem State.raise_launches (s : State) (g : Nat) (fl : Flg) : (s.raise g fl).launches = s.launches := by
  unfold State.raise; split <;> rfl
@[simp] theorem State.retag_launches (s : State) (g : Nat) (ls rs : List Nat) : (s.retag g ls rs).launches = s.launches := by
  unfold State.retag; split <;> rfl
@[simp] theorem State.raise_queues (s : State) (g : Nat) (fl : Flg) : (s.raise g fl).queues = s.queues := by
  unfold State.raise; split <;> rfl
@[simp] theorem State.retag_queues (s : State) (g : Nat) (ls rs : List Nat) : (s.retag g ls rs).queues = s.queues := by
  unfold State.retag; split <;> rfl
@[simp] theorem State.raise_nextLnum (s : State) (g : Nat) (fl : Flg) : (s.raise g fl).nextLnum = s.nextLnum := by
  unfold State.raise; split <;> rfl
@[simp] theorem State.retag_nextLnum (s : State) (g : Nat) (ls rs : List Nat) : (s.retag g ls rs).nextLnum = s.nextLnum := by
  unfold State.retag; split <;> rfl
@[simp] theorem State.raise_lastQueue (s : State) (g : Nat) (fl : Flg) : (s.raise g fl).lastQueue = s.lastQueue := by
  unfold State.raise; split <;> rfl
@[simp] theorem State.retag_lastQueue (s : State) (g : Nat) (ls rs : List Nat) : (s.retag g ls rs).lastQueue = s.lastQueue := by
  unfold State.retag; split <;> rfl
@[simp] theorem State.raise_mem (s : State) (g : Nat) (fl : Flg) : (s.raise g fl).mem = s.mem := by
  unfold State.raise; split <;> rfl
@[simp] theorem State.retag_mem (s : State) (g : Nat) (ls rs : List Nat) : (s.retag g ls rs).mem = s.mem := by
  unfold State.retag; split <;> rfl
@[simp] theorem State.raise_acc (s : State) (g : Nat) (fl : Flg) : (s.raise g fl).acc = s.acc := by
  unfold State.raise; split <;> rfl
@[simp] theorem State.retag_acc (s : State) (g : Nat) (ls rs : List Nat) : (s.retag g ls rs).acc = s.acc := by
  unfold State.retag; split <;> rfl
@[simp] theorem State.raise_sb (s : State) (g : Nat) (fl : Flg) : (s.raise g fl).sb = s.sb := by
  unfold State.raise; split <;> rfl
@[simp] theorem State.retag_sb (s : State) (g : Nat) (ls rs : List Nat) : (s.retag g ls rs).sb = s.sb := by
  unfold State.retag; split <;> rfl
@[simp] theorem State.raise_poison (s : State) (g : Nat) (fl : Flg) : (s.raise g fl).poison = s.poison := by
  unfold State.raise; split <;> rfl
@[simp] theorem State.retag_poison (s : State) (g : Nat) (ls rs : List Nat) : (s.retag g ls rs).poison = s.poison := by
  unfold State.retag; split <;> rfl
@[simp] theorem State.raise_sharers (s : State) (g : Nat) (fl : Flg) : (s.raise g fl).sharers = s.sharers := by
  unfold State.raise; split <;> rfl
@[simp] theorem State.retag_sharers (s : State) (g : Nat) (ls rs : List Nat) : (s.retag g ls rs).sharers = s.sharers := by
  unfold State.retag; split <;> rfl
@[simp] theorem State.raise_owners (s : State) (g : Nat) (fl : Flg) : (s.raise g fl).owners = s.owners := by
  unfold State.raise; split <;> rfl
@[simp] theorem State.retag_owners (s : State) (g : Nat) (ls rs : List Nat) : (s.retag g ls rs).owners = s.owners := by
  unfold State.retag; split <;> rfl
@[simp] theorem State.raise_walkCache (s : State) (g : Nat) (fl : Flg) : (s.raise g fl).walkCache = s.walkCache := by
  unfold State.raise; split <;> rfl
@[simp] theorem State.retag_walkCache (s : State) (g : Nat) (ls rs : List Nat) : (s.retag g ls rs).walkCache = s.walkCache := by
  unfold State.retag; split <;> rfl
@[simp] theorem State.raise_hirq (s : State) (g : Nat) (fl : Flg) : (s.raise g fl).hirq = s.hirq := by
  unfold State.raise; split <;> rfl
@[simp] theorem State.retag_hirq (s : State) (g : Nat) (ls rs : List Nat) : (s.retag g ls rs).hirq = s.hirq := by
  unfold State.retag; split <;> rfl
@[simp] theorem State.raise_himask (s : State) (g : Nat) (fl : Flg) : (s.raise g fl).himask = s.himask := by
  unfold State.raise; split <;> rfl
@[simp] theorem State.retag_himask (s : State) (g : Nat) (ls rs : List Nat) : (s.retag g ls rs).himask = s.himask := by
  unfold State.retag; split <;> rfl
@[simp] theorem State.raise_vectors (s : State) (g : Nat) (fl : Flg) : (s.raise g fl).vectors = s.vectors := by
  unfold State.raise; split <;> rfl
@[simp] theorem State.retag_vectors (s : State) (g : Nat) (ls rs : List Nat) : (s.retag g ls rs).vectors = s.vectors := by
  unfold State.retag; split <;> rfl
@[simp] theorem State.raise_psel (s : State) (g : Nat) (fl : Flg) : (s.raise g fl).psel = s.psel := by
  unfold State.raise; split <;> rfl
@[simp] theorem State.retag_psel (s : State) (g : Nat) (ls rs : List Nat) : (s.retag g ls rs).psel = s.psel := by
  unfold State.retag; split <;> rfl
@[simp] theorem State.raise_cmds (s : State) (g : Nat) (fl : Flg) : (s.raise g fl).cmds = s.cmds := by
  unfold State.raise; split <;> rfl
@[simp] theorem State.retag_cmds (s : State) (g : Nat) (ls rs : List Nat) : (s.retag g ls rs).cmds = s.cmds := by
  unfold State.retag; split <;> rfl
@[simp] theorem State.raise_collIn (s : State) (g : Nat) (fl : Flg) : (s.raise g fl).collIn = s.collIn := by
  unfold State.raise; split <;> rfl
@[simp] theorem State.retag_collIn (s : State) (g : Nat) (ls rs : List Nat) : (s.retag g ls rs).collIn = s.collIn := by
  unfold State.retag; split <;> rfl
@[simp] theorem State.raise_collOut (s : State) (g : Nat) (fl : Flg) : (s.raise g fl).collOut = s.collOut := by
  unfold State.raise; split <;> rfl
@[simp] theorem State.retag_collOut (s : State) (g : Nat) (ls rs : List Nat) : (s.retag g ls rs).collOut = s.collOut := by
  unfold State.retag; split <;> rfl
@[simp] theorem State.raise_collSent (s : State) (g : Nat) (fl : Flg) : (s.raise g fl).collSent = s.collSent := by
  unfold State.raise; split <;> rfl
@[simp] theorem State.retag_collSent (s : State) (g : Nat) (ls rs : List Nat) : (s.retag g ls rs).collSent = s.collSent := by
  unfold State.retag; split <;> rfl
@[simp] theorem State.raise_collOrd (s : State) (g : Nat) (fl : Flg) : (s.raise g fl).collOrd = s.collOrd := by
  unfold State.raise; split <;> rfl
@[simp] theorem State.retag_collOrd (s : State) (g : Nat) (ls rs : List Nat) : (s.retag g ls rs).collOrd = s.collOrd := by
  unfold State.retag; split <;> rfl
@[simp] theorem State.raise_collHist (s : State) (g : Nat) (fl : Flg) : (s.raise g fl).collHist = s.collHist := by
  unfold State.raise; split <;> rfl
@[simp] theorem State.retag_collHist (s : State) (g : Nat) (ls rs : List Nat) : (s.retag g ls rs).collHist = s.collHist := by
  unfold State.retag; split <;> rfl
@[simp] theorem State.raise_collMiss (s : State) (g : Nat) (fl : Flg) : (s.raise g fl).collMiss = s.collMiss := by
  unfold State.raise; split <;> rfl
@[simp] theorem State.retag_collMiss (s : State) (g : Nat) (ls rs : List Nat) : (s.retag g ls rs).collMiss = s.collMiss := by
  unfold State.retag; split <;> rfl
@[simp] theorem State.raise_homeQ (s : State) (g : Nat) (fl : Flg) : (s.raise g fl).homeQ = s.homeQ := by
  unfold State.raise; split <;> rfl
@[simp] theorem State.retag_homeQ (s : State) (g : Nat) (ls rs : List Nat) : (s.retag g ls rs).homeQ = s.homeQ := by
  unfold State.retag; split <;> rfl
@[simp] theorem State.raise_hostOut (s : State) (g : Nat) (fl : Flg) : (s.raise g fl).hostOut = s.hostOut := by
  unfold State.raise; split <;> rfl
@[simp] theorem State.retag_hostOut (s : State) (g : Nat) (ls rs : List Nat) : (s.retag g ls rs).hostOut = s.hostOut := by
  unfold State.retag; split <;> rfl
@[simp] theorem State.raise_hostHeld (s : State) (g : Nat) (fl : Flg) : (s.raise g fl).hostHeld = s.hostHeld := by
  unfold State.raise; split <;> rfl
@[simp] theorem State.retag_hostHeld (s : State) (g : Nat) (ls rs : List Nat) : (s.retag g ls rs).hostHeld = s.hostHeld := by
  unfold State.retag; split <;> rfl
@[simp] theorem State.raise_hostTurn (s : State) (g : Nat) (fl : Flg) : (s.raise g fl).hostTurn = s.hostTurn := by
  unfold State.raise; split <;> rfl
@[simp] theorem State.retag_hostTurn (s : State) (g : Nat) (ls rs : List Nat) : (s.retag g ls rs).hostTurn = s.hostTurn := by
  unfold State.retag; split <;> rfl
@[simp] theorem State.raise_peerOut (s : State) (g : Nat) (fl : Flg) : (s.raise g fl).peerOut = s.peerOut := by
  unfold State.raise; split <;> rfl
@[simp] theorem State.retag_peerOut (s : State) (g : Nat) (ls rs : List Nat) : (s.retag g ls rs).peerOut = s.peerOut := by
  unfold State.retag; split <;> rfl
@[simp] theorem State.raise_peerParked (s : State) (g : Nat) (fl : Flg) : (s.raise g fl).peerParked = s.peerParked := by
  unfold State.raise; split <;> rfl
@[simp] theorem State.retag_peerParked (s : State) (g : Nat) (ls rs : List Nat) : (s.retag g ls rs).peerParked = s.peerParked := by
  unfold State.retag; split <;> rfl
@[simp] theorem State.raise_ltmo (s : State) (g : Nat) (fl : Flg) : (s.raise g fl).ltmo = s.ltmo := by
  unfold State.raise; split <;> rfl
@[simp] theorem State.retag_ltmo (s : State) (g : Nat) (ls rs : List Nat) : (s.retag g ls rs).ltmo = s.ltmo := by
  unfold State.retag; split <;> rfl
@[simp] theorem State.raise_flitRetries (s : State) (g : Nat) (fl : Flg) : (s.raise g fl).flitRetries = s.flitRetries := by
  unfold State.raise; split <;> rfl
@[simp] theorem State.retag_flitRetries (s : State) (g : Nat) (ls rs : List Nat) : (s.retag g ls rs).flitRetries = s.flitRetries := by
  unfold State.retag; split <;> rfl
@[simp] theorem State.raise_span (s : State) (g : Nat) (fl : Flg) : (s.raise g fl).span = s.span := by
  unfold State.raise; split <;> rfl
@[simp] theorem State.retag_span (s : State) (g : Nat) (ls rs : List Nat) : (s.retag g ls rs).span = s.span := by
  unfold State.retag; split <;> rfl
@[simp] theorem State.raise_sessions (s : State) (g : Nat) (fl : Flg) : (s.raise g fl).sessions = s.sessions := by
  unfold State.raise; split <;> rfl
@[simp] theorem State.retag_sessions (s : State) (g : Nat) (ls rs : List Nat) : (s.retag g ls rs).sessions = s.sessions := by
  unfold State.retag; split <;> rfl
@[simp] theorem State.raise_spanOut (s : State) (g : Nat) (fl : Flg) : (s.raise g fl).spanOut = s.spanOut := by
  unfold State.raise; split <;> rfl
@[simp] theorem State.retag_spanOut (s : State) (g : Nat) (ls rs : List Nat) : (s.retag g ls rs).spanOut = s.spanOut := by
  unfold State.retag; split <;> rfl
@[simp] theorem State.raise_spanIn (s : State) (g : Nat) (fl : Flg) : (s.raise g fl).spanIn = s.spanIn := by
  unfold State.raise; split <;> rfl
@[simp] theorem State.retag_spanIn (s : State) (g : Nat) (ls rs : List Nat) : (s.retag g ls rs).spanIn = s.spanIn := by
  unfold State.retag; split <;> rfl
@[simp] theorem State.raise_sec (s : State) (g : Nat) (fl : Flg) : (s.raise g fl).sec = s.sec := by
  unfold State.raise; split <;> rfl
@[simp] theorem State.retag_sec (s : State) (g : Nat) (ls rs : List Nat) : (s.retag g ls rs).sec = s.sec := by
  unfold State.retag; split <;> rfl
@[simp] theorem State.raise_boot (s : State) (g : Nat) (fl : Flg) : (s.raise g fl).boot = s.boot := by
  unfold State.raise; split <;> rfl
@[simp] theorem State.retag_boot (s : State) (g : Nat) (ls rs : List Nat) : (s.retag g ls rs).boot = s.boot := by
  unfold State.retag; split <;> rfl
@[simp] theorem State.raise_threv (s : State) (g : Nat) (fl : Flg) : (s.raise g fl).threv = s.threv := by
  unfold State.raise; split <;> rfl
@[simp] theorem State.retag_threv (s : State) (g : Nat) (ls rs : List Nat) : (s.retag g ls rs).threv = s.threv := by
  unfold State.retag; split <;> rfl
@[simp] theorem State.raise_thcfg (s : State) (g : Nat) (fl : Flg) : (s.raise g fl).thcfg = s.thcfg := by
  unfold State.raise; split <;> rfl
@[simp] theorem State.retag_thcfg (s : State) (g : Nat) (ls rs : List Nat) : (s.retag g ls rs).thcfg = s.thcfg := by
  unfold State.retag; split <;> rfl

/-! ## What is read after an update -/

theorem State.group?_modGroup (s : State) (g h : Nat) (f : Group → Group) :
    (s.modGroup g f).group? h = if h = g then (s.group? h).map f else s.group? h := alGet?_alMod _ _ _ _

@[simp] theorem State.group?_modGroup_same (s : State) (g : Nat) (f : Group → Group) :
    (s.modGroup g f).group? g = (s.group? g).map f := by simp [State.group?_modGroup]

theorem State.group?_modGroup_ne (s : State) {g h : Nat} (f : Group → Group) (n : h ≠ g) :
    (s.modGroup g f).group? h = s.group? h := by simp [State.group?_modGroup, n]

@[simp] theorem State.group?_modThread_same (s : State) (g l : Nat) (f : Thread → Thread) :
    (s.modThread g l f).group? g = (s.group? g).map fun x => x.modLane l f := State.group?_modGroup_same s g _

theorem State.group?_modThread_ne (s : State) {g h : Nat} (l : Nat) (f : Thread → Thread) (n : h ≠ g) :
    (s.modThread g l f).group? h = s.group? h := State.group?_modGroup_ne s _ n

/-- A thread that was changed reads as changed. -/
theorem State.thread?_modThread_same (s : State) (g l : Nat) (f : Thread → Thread) :
    (s.modThread g l f).thread? g l = (s.thread? g l).map f := by
  simp only [State.thread?, State.group?_modThread_same]
  cases s.group? g with
  | none => rfl
  | some x => simp [Group.modLane]

/-- Every other thread stays. -/
theorem State.thread?_modThread_ne (s : State) {g l h k : Nat} (f : Thread → Thread) (n : h ≠ g ∨ k ≠ l) :
    (s.modThread g l f).thread? h k = s.thread? h k := by
  by_cases hg : h = g
  · subst hg
    have hk : k ≠ l := by simpa using n
    simp only [State.thread?, State.group?_modThread_same]
    cases s.group? h with
    | none => rfl
    | some x => simp [Group.modLane, Ne.symm hk]
  · simp [State.thread?, State.group?_modThread_ne s l f hg]

theorem State.thread_modThread_same (s : State) (g l : Nat) (f : Thread → Thread) (h : (s.thread? g l).isSome) :
    (s.modThread g l f).thread g l = f (s.thread g l) := by
  obtain ⟨t, ht⟩ := Option.isSome_iff_exists.1 h
  simp [State.thread, State.thread?_modThread_same, ht]

theorem State.thread_modThread_ne (s : State) {g l h k : Nat} (f : Thread → Thread) (n : h ≠ g ∨ k ≠ l) :
    (s.modThread g l f).thread h k = s.thread h k := by
  simp [State.thread, State.thread?_modThread_ne s f n]

/-- A change of a group that keeps its lanes keeps every thread. -/
theorem State.thread?_modGroup_lanes (s : State) (g h k : Nat) (f : Group → Group) (hf : ∀ x, (f x).lanes = x.lanes) :
    (s.modGroup g f).thread? h k = s.thread? h k := by
  simp only [State.thread?, State.group?_modGroup]
  split
  · cases s.group? h <;> simp [hf]
  · rfl

theorem State.thread_modGroup_lanes (s : State) (g h k : Nat) (f : Group → Group) (hf : ∀ x, (f x).lanes = x.lanes) :
    (s.modGroup g f).thread h k = s.thread h k := by
  simp [State.thread, State.thread?_modGroup_lanes s g h k f hf]

@[simp] theorem State.ctx_modCtx (s : State) (c : Nat) (f : Ctx → Ctx) : (s.modCtx c f).ctx c = f (s.ctx c) := by
  simp [State.ctx, State.modCtx, alGet]

theorem State.ctx_modCtx_ne (s : State) {c d : Nat} (f : Ctx → Ctx) (n : d ≠ c) : (s.modCtx c f).ctx d = s.ctx d := by
  simp [State.ctx, State.modCtx, alGet, alGet?_alSet_ne _ _ n]

@[simp] theorem State.core_modCore (s : State) (c : Nat) (f : Core → Core) : (s.modCore c f).core c = f (s.core c) := by
  simp [State.core, State.modCore, alGet]

theorem State.core_modCore_ne (s : State) {c d : Nat} (f : Core → Core) (n : d ≠ c) : (s.modCore c f).core d = s.core d := by
  simp [State.core, State.modCore, alGet, alGet?_alSet_ne _ _ n]

@[simp] theorem State.die_modDie (s : State) (c : Nat) (f : Die → Die) : (s.modDie c f).die c = f (s.die c) := by
  simp [State.die, State.modDie, alGet]

theorem State.die_modDie_ne (s : State) {c d : Nat} (f : Die → Die) (n : d ≠ c) : (s.modDie c f).die d = s.die d := by
  simp [State.die, State.modDie, alGet, alGet?_alSet_ne _ _ n]

@[simp] theorem State.queue_modQueue (s : State) (q : Nat) (f : LQueue → LQueue) :
    (s.modQueue q f).queue q = f (s.queue q) := by
  simp [State.queue, State.modQueue, alGet]

theorem State.queue_modQueue_ne (s : State) {q r : Nat} (f : LQueue → LQueue) (n : r ≠ q) :
    (s.modQueue q f).queue r = s.queue r := by
  simp [State.queue, State.modQueue, alGet, alGet?_alSet_ne _ _ n]

/-! ## Registers of a thread -/

@[simp] theorem Thread.vreg_setV_same (t : Thread) (n : Nat) (x : Word) : (t.setV n x).vreg n = x := by
  simp [Thread.vreg, Thread.setV, alGet]

/-- A write of one vector register leaves the others. -/
theorem Thread.vreg_setV_ne (t : Thread) {n m : Nat} (x : Word) (h : m ≠ n) : (t.setV n x).vreg m = t.vreg m := by
  simp [Thread.vreg, Thread.setV, alGet, alGet?_alSet_ne _ _ h]

/-- A write of a destination leaves every vector register that it does not name. -/
theorem Thread.vreg_write_ne (t : Thread) (o : Opnd) (n x m : Nat)
    (h : ∀ k, o = .v k → m ≠ k.toNat ∧ (n ≠ 1 → m ≠ k.toNat + 1)) : (t.write o n x).vreg m = t.vreg m := by
  cases o with
  | v k =>
    obtain ⟨h1, h2⟩ := h k rfl
    by_cases hn : n = 1
    · simp [Thread.write, hn, Thread.vreg_setV_ne _ _ h1]
    · simp [Thread.write, hn, Thread.vreg_setV_ne _ _ h1, Thread.vreg_setV_ne _ _ (h2 hn)]
  | _ => rfl

end Sys2Proof.Machine
end

