-- ==== Sys2Proof/Laws/Issue.lean ====
section
/-! SUPPORT. How an instruction issues: what a thread reads does not depend on the other threads of its group, and what the
shared issue operations do with a sub-group that nothing holds back. -/

namespace Sys2Proof.Machine

open Sys2Proof

/-! ## States that a thread cannot tell apart -/

/-- Two states that differ in other threads of a group, its WARN, YLD and tags, and otherwise agree. -/
structure LikeFor (s t : State) (g l : Nat) : Prop where
  rest : t = { s with groups := t.groups }
  grp : ∃ x y, s.group? g = some x ∧ t.group? g = some y ∧
    y = { x with lanes := y.lanes, warn := y.warn, yielded := y.yielded, tags := y.tags } ∧ y.lanes[l]? = x.lanes[l]?

namespace LikeFor

variable {s t : State} {g l : Nat} (h : LikeFor s t g l)

include h

theorem thread?_eq : t.thread? g l = s.thread? g l := by
  obtain ⟨x, y, h1, h2, _, h4⟩ := h.grp
  simp [State.thread?, h1, h2, h4]

theorem thread_eq : t.thread g l = s.thread g l := by simp [State.thread, h.thread?_eq]

/-- A field of the group that is none of the four reads the same. -/
theorem map_eq {α : Type} (F : Group → α) (hF : ∀ x y : Group,
    y = { x with lanes := y.lanes, warn := y.warn, yielded := y.yielded, tags := y.tags } → F y = F x) :
    (t.group? g).map F = (s.group? g).map F := by
  obtain ⟨x, y, h1, h2, h3, _⟩ := h.grp
  simp [h1, h2, hF x y h3]

theorem acc_eq : t.acc = s.acc := by rw [h.rest]

theorem cycle_eq : t.cycle = s.cycle := by rw [h.rest]

theorem launches_eq : t.launches = s.launches := by rw [h.rest]

theorem coreOf_eq : t.coreOf g = s.coreOf g := by
  simp only [State.coreOf]; rw [h.map_eq (·.home.core)]; intro x y e; rw [e]

theorem slotOf_eq : t.slotOf g = s.slotOf g := by
  simp only [State.slotOf]; rw [h.map_eq (·.slot)]; intro x y e; rw [e]

theorem mode_eq : t.mode g = s.mode g := by
  simp only [State.mode, h.cycle_eq]; rw [h.map_eq fun x => x.modeAt s.cycle]; intro x y e; rw [e]; rfl

theorem preg_eq (n : Nat) : t.preg g n = s.preg g n := by
  simp only [State.preg]; rw [h.map_eq fun x => alGet x.p PReg.zero n]; intro x y e; rw [e]

theorem kernel_eq : t.kernel g = s.kernel g := by
  simp only [State.kernel, State.kernelOf, h.launches_eq]
  rw [h.map_eq fun x => ((alGet? s.launches x.launch).map (·.kernel)).getD .zero]; intro x y e; rw [e]

theorem special_eq (x : Special) : t.special g l x = s.special g l x := by
  obtain ⟨a, b, h1, h2, h3, _⟩ := h.grp
  have e1 : b.grp = a.grp := by rw [h3]
  have e2 : b.teamNo = a.teamNo := by rw [h3]
  have e3 : b.launch = a.launch := by rw [h3]
  have e4 : b.width = a.width := by rw [h3]
  have e5 : b.spawned = a.spawned := by rw [h3]
  cases x <;> simp [State.special, h1, h2, h.coreOf_eq, h.cycle_eq, h.launches_eq, e1, e2, e3, e4, e5]

theorem plySource_eq (ty : Ty) (n : Nat) : t.plySource g l ty n = s.plySource g l ty n := by
  simp [State.plySource, h.preg_eq, h.mode_eq]

theorem read_eq (e : Eff) (o : Opnd) (n : Nat) : t.read g l e o n = s.read g l e o n := by
  cases o <;> simp [State.read, h.thread_eq, h.special_eq, h.plySource_eq]

theorem rdA_eq (e : Eff) : t.rdA g l e = s.rdA g l e := h.read_eq _ _ _
theorem rdB_eq (e : Eff) : t.rdB g l e = s.rdB g l e := h.read_eq _ _ _
theorem rdC_eq (e : Eff) : t.rdC g l e = s.rdC g l e := h.read_eq _ _ _
theorem rdE_eq (e : Eff) : t.rdE g l e = s.rdE g l e := h.read_eq _ _ _

theorem rdCc_eq (o : Opnd) : t.rdCc g l o = s.rdCc g l o := by
  cases o <;> simp [State.rdCc, h.thread_eq]

theorem addrA_eq (e : Eff) : t.addrA g l e = s.addrA g l e := by simp [State.addrA, h.rdA_eq]

theorem plyFlags_eq (e : Eff) : t.plyFlags g l e = s.plyFlags g l e := by
  simp only [State.plyFlags, h.plySource_eq]

theorem vMapped_eq (n : Nat) : t.vMapped g n = s.vMapped g n := by
  simp only [State.vMapped, h.kernel_eq]; rw [h.map_eq fun x => x.extV.contains n]; intro x y e; rw [e]

theorem pMapped_eq (n : Nat) : t.pMapped g n = s.pMapped g n := by
  simp only [State.pMapped, h.kernel_eq]; rw [h.map_eq fun x => x.extP.contains n]; intro x y e; rw [e]

theorem tMapped_eq (n : Nat) : t.tMapped g n = s.tMapped g n := by
  simp only [State.tMapped]; rw [h.map_eq fun x => (alGet? x.tiles n).isSome]; intro x y e; rw [e]

theorem mapped_eq (o : Opnd) (n : Nat) : t.mapped g o n = s.mapped g o n := by
  cases o <;> simp [State.mapped, h.vMapped_eq, h.pMapped_eq, h.tMapped_eq]

theorem tileFailed_eq (o : Opnd) : t.tileFailed g o = s.tileFailed g o := by
  obtain ⟨x, y, h1, h2, h3, _⟩ := h.grp
  have e1 : y.tiles = x.tiles := by rw [h3]
  cases o <;> simp [State.tileFailed, h1, h2, e1]

theorem ccBusy_eq (n : BitVec 2) : t.ccBusy g l n = s.ccBusy g l n := by simp [State.ccBusy, h.acc_eq]

theorem nameTrap_eq (e : Eff) : t.nameTrap g e = s.nameTrap g e := by
  have ht : t.tileFailed g = s.tileFailed g := funext h.tileFailed_eq
  simp only [State.nameTrap, h.mapped_eq, ht]

theorem screenTrap_eq (e : Eff) : t.screenTrap g l e = s.screenTrap g l e := by
  simp only [State.screenTrap, h.thread_eq, h.nameTrap_eq]

theorem imageInto_eq (b : Bool) (n : Nat) : t.imageInto g b n = s.imageInto g b n := by
  simp only [State.imageInto]; rw [h.map_eq fun x => x.pimgs.any fun p => p.2.tile == b && p.2.reg == n]; intro x y e; rw [e]

theorem plyBusy_eq (o : Opnd) : t.plyBusy g l o = s.plyBusy g l o := by
  obtain ⟨x, y, h1, h2, h3, _⟩ := h.grp
  have e1 : y.tileOut = x.tileOut := by rw [h3]
  cases o <;> simp [State.plyBusy, State.shapeBusy, State.barrierPending, h.acc_eq, h.imageInto_eq, h1, h2, e1]

theorem lockedWith_eq (id c : Nat) : t.lockedWith g id c = s.lockedWith g id c := by
  have e : t.core = s.core := by funext n; rw [h.rest]; rfl
  simp only [State.lockedWith, h.coreOf_eq, e]

theorem ccFree_eq (o : Opnd) : t.ccFree g l o = s.ccFree g l o := by cases o <;> simp [State.ccFree, h.ccBusy_eq]

theorem destReady_eq (e : Eff) : t.destReady g l e = s.destReady g l e := by
  obtain ⟨x, y, h1, h2, h3, _⟩ := h.grp
  have e1 : y.locks = x.locks := by rw [h3]
  simp only [State.destReady, h.thread_eq, h.ccBusy_eq, funext h.ccFree_eq, h.plyBusy_eq, h.lockedWith_eq, h.cycle_eq, h1, h2,
    Option.map_some, e1]

theorem screenReady_eq (e : Eff) : t.screenReady g l e = s.screenReady g l e := by
  simp only [State.screenReady, h.thread_eq, h.destReady_eq]

theorem clearFor_eq (e : Eff) : t.clearFor g l e = s.clearFor g l e := by
  simp only [State.clearFor, h.thread?_eq, h.thread_eq, h.screenReady_eq, h.screenTrap_eq, h.plyFlags_eq]

end LikeFor

/-! ## Decoding -/

theorem State.decoded_eq (s : State) (g : Nat) (sp : Spec) (f : Fields) :
    s.decoded g sp f = (effOf sp f, s.begun g sp f) := rfl

theorem State.begun_eq (s : State) (g : Nat) (sp : Spec) (f : Fields) : s.begun g sp f = s.modGroup g fun x =>
    { x with warn := x.warn ||| warnOf sp f, yielded := if f.yld then s.cycle + 1 else x.yielded } := rfl

theorem State.begun_group? {s : State} {g : Nat} {x : Group} (hx : s.group? g = some x) (sp : Spec) (f : Fields) :
    (s.begun g sp f).group? g =
      some { x with warn := x.warn ||| warnOf sp f, yielded := if f.yld then s.cycle + 1 else x.yielded } := by
  simp [State.begun_eq, hx]

theorem likeFor_begun {s : State} {g l : Nat} {x : Group} (hx : s.group? g = some x) (sp : Spec) (f : Fields) :
    LikeFor s (s.begun g sp f) g l :=
  ⟨rfl, x, _, hx, State.begun_group? hx sp f, rfl, rfl⟩

theorem State.group?_of_thread? {s : State} {g l : Nat} (h : (s.thread? g l).isSome) : ∃ x, s.group? g = some x := by
  cases hx : s.group? g with
  | none => simp [State.thread?, hx] at h
  | some x => exact ⟨x, rfl⟩

/-! ## One thread -/

theorem State.pass_eq (s : State) (g l n : Nat) :
    s.pass g l n = s.modThread g l fun t => t.advance (t.pc + 16) s.cycle n := rfl

/-- What the conditions of a clear thread are. -/
theorem State.clearFor_iff (s : State) (g l : Nat) (e : Eff) : s.clearFor g l e = true ↔
    (s.thread? g l).isSome ∧ e.guard.passes (s.thread g l) = true ∧ s.screenReady g l e = true ∧
      (s.thread g l).cursorFault e = none ∧ s.screenTrap g l e = none ∧ s.plyFlags g l e = 0 ∧
      (s.thread g l).futures = [] := by
  simp [State.clearFor, and_assoc]

/-- With no future to be read, a read of operands acquires nothing. -/
theorem State.readFutures_nil {s : State} {g l : Nat} (e : Eff) (h : (s.thread g l).futures = []) :
    s.readFutures g e l = s := by
  simp [State.readFutures, h]

/-- A clear thread meets no operand trap. -/
theorem State.screenTrap_none {s : State} {g l : Nat} {e : Eff} (h : s.screenTrap g l e = none) :
    s.nameTrap g e = none ∧ (s.thread g l).emptyTrap e = none := by
  simpa [State.screenTrap] using h

theorem flagCause_zero (m : Dword) : flagCause m 0 = none := by
  have z : ∀ i, bit (0#5) i = false := fun i => by simp [bit, fld, fldN]
  simp [flagCause, z]

/-- A clear thread does what the instruction does. -/
theorem laneStep_clear {s : State} {g l : Nat} {e : Eff} (body : Eff → State → Nat → Nat → Res)
    (h : s.clearFor g l e = true) :
    laneStep e body g s l = match body e s g l with
      | .ok t => ((t.also g l e 0).pass g l e.stall, true)
      | .goto t pc => ((t.also g l e 0).modThread g l fun x => x.advance pc s.cycle e.stall, true)
      | .stay => (s.hold g l, false)
      | .wait t => (t.hold g l, false)
      | .trap c tv => (s.trap g l c tv, false)
      | .halt t => (t.also g l e 0, !(t.thread g l).full e.d e.nd) := by
  obtain ⟨h1, h2, _, h4, h5, h6, h7⟩ := (State.clearFor_iff s g l e).1 h
  obtain ⟨x, hx⟩ := State.group?_of_thread? h1
  obtain ⟨h8, h9⟩ := State.screenTrap_none h5
  have hf := State.readFutures_nil e h7
  have hp : s.plyTrap g l e = none := by simp only [State.plyTrap, h6, flagCause_zero, ite_self]
  cases hb : body e s g l <;> simp [laneStep, hx, h2, h4, h6, h8, h9, hp, hf, hb]

/-- What an instruction of one thread leaves that nothing holds back. -/
def soloAfter (s : State) (g l : Nat) (e : Eff) : Res → State
  | .ok t => ((t.also g l e 0).pass g l e.stall).retag g [l] (e.d.vregs e.nd)
  | .goto t pc => ((t.also g l e 0).modThread g l fun x => x.advance pc s.cycle e.stall).retag g [l] (e.d.vregs e.nd)
  | .stay => s.hold g l
  | .wait t => t.hold g l
  | .trap c tv => s.trap g l c tv
  | .halt t => if (t.thread g l).full e.d e.nd then t.also g l e 0 else (t.also g l e 0).retag g [l] (e.d.vregs e.nd)

/-- An instruction of one thread that nothing holds back. -/
theorem issueThreads_solo {s : State} {g l : Nat} {sp : Fields → Spec} {f : Fields}
    (ready : Eff → State → Nat → Nat → Bool) (body : Eff → State → Nat → Nat → Res)
    (h : s.solo g l (sp f) f = true) (hr : ready (effOf (sp f) f) (s.begun g (sp f) f) g l = true) :
    issueThreads sp ready body f s = .next (soloAfter (s.begun g (sp f) f) g l (effOf (sp f) f)
      (body (effOf (sp f) f) (s.begun g (sp f) f) g l)) := by
  obtain ⟨hc, hl⟩ : s.cur = some ⟨g, [l]⟩ ∧ s.clearFor g l (effOf (sp f) f) = true := by
    simpa [State.solo] using h
  obtain ⟨x, hx⟩ := State.group?_of_thread? ((State.clearFor_iff _ _ _ _).1 hl).1
  have like := likeFor_begun (l := l) hx (sp f) f
  have hl' : (s.begun g (sp f) f).clearFor g l (effOf (sp f) f) = true := by rw [like.clearFor_eq]; exact hl
  obtain ⟨_, h2, h3, _⟩ := (State.clearFor_iff _ _ _ _).1 hl'
  have hs := laneStep_clear body hl'
  have r0 (t : State) (rs : List Nat) : t.retag g [] rs = t := by simp [State.retag]
  simp only [issueThreads, hc, State.decoded_eq, h2, h3, hr, Bool.not_true, Bool.or_true, Bool.and_self,
    List.filter_cons, List.filter_nil, if_true, lanesBut, List.contains_cons, List.contains_nil, BEq.rfl, Bool.true_or, Bool.false_eq_true,
    if_false, State.holdEach, List.foldl_nil, laneSteps, hs]
  cases hb : body (effOf (sp f) f) (s.begun g (sp f) f) g l <;> simp [soloAfter, r0]
  split <;> simp_all

/-! ## What the last steps of an issue leave -/

/-- The tags of an instruction change nothing of a group but what belongs to the tags. -/
theorem Group.retag_eq (x : Group) (ls rs : List Nat) : ∃ m w, x.retag ls rs = { x with tags := m, tagWait := w } := by
  induction rs generalizing x with
  | nil => exact ⟨x.tags, x.tagWait, rfl⟩
  | cons r rs ih =>
    have step : ∃ m w, (if x.pends ls r then { x with tagWait := x.tagWait ++ [(r, ls)] } else x.infer ls r) =
        { x with tags := m, tagWait := w } := by
      split
      · exact ⟨x.tags, _, rfl⟩
      · exact ⟨_, x.tagWait, rfl⟩
    obtain ⟨m, w, e⟩ := step
    obtain ⟨m', w', e'⟩ := ih { x with tags := m, tagWait := w }
    exact ⟨m', w', by rw [← e', ← e]; rfl⟩

theorem Group.retag_lanes (x : Group) (ls rs : List Nat) : (x.retag ls rs).lanes = x.lanes := by
  obtain ⟨m, w, e⟩ := x.retag_eq ls rs
  rw [e]

theorem State.retag_group? (s : State) (g : Nat) (ls rs : List Nat) {x : Group} (hx : s.group? g = some x) :
    ∃ m w, (s.retag g ls rs).group? g = some { x with tags := m, tagWait := w } := by
  unfold State.retag
  split
  · exact ⟨x.tags, x.tagWait, hx⟩
  · obtain ⟨m, w, h⟩ := Group.retag_eq x ls rs
    exact ⟨m, w, by rw [State.group?_modGroup_same, hx, Option.map_some, h]⟩

theorem State.retag_group?_ne (s : State) {g h : Nat} (ls rs : List Nat) (n : h ≠ g) :
    (s.retag g ls rs).group? h = s.group? h := by
  unfold State.retag
  split
  · rfl
  · exact State.group?_modGroup_ne _ _ n

theorem State.retag_thread? (s : State) (g h k : Nat) (ls rs : List Nat) :
    (s.retag g ls rs).thread? h k = s.thread? h k := by
  unfold State.retag
  split
  · rfl
  · exact State.thread?_modGroup_lanes _ _ _ _ _ fun x => x.retag_lanes ls rs

theorem State.retag_thread (s : State) (g h k : Nat) (ls rs : List Nat) :
    (s.retag g ls rs).thread h k = s.thread h k := by
  simp [State.thread, State.retag_thread?]

theorem State.retag_rest (s : State) (g : Nat) (ls rs : List Nat) :
    s.retag g ls rs = { s with groups := (s.retag g ls rs).groups } := by
  unfold State.retag
  split <;> rfl

/-- An instruction whose body changes its own thread alone completes with that change and its frame. -/
theorem completes_of_body {i : Fields → Instr} {sp : Fields → Spec} {ready : Eff → State → Nat → Nat → Bool}
    {body : Eff → State → Nat → Nat → Res} {f : Fields} {s : State} {g l : Nat} {upd : Thread → Thread}
    (hi : exec (i f) s = issueThreads sp ready body f s)
    (h : s.solo g l (sp f) f = true)
    (hr : ready (effOf (sp f) f) (s.begun g (sp f) f) g l = true)
    (hb : body (effOf (sp f) f) (s.begun g (sp f) f) g l = .ok ((s.begun g (sp f) f).modThread g l upd))
    (hpc : ∀ t, (upd t).pc = t.pc) (hrel : (effOf (sp f) f).rels = false := by rfl) :
    CompletesLane (i f) s g l (sp f) f 0 upd := by
  have hs : issueThreads sp ready body f s = .next ((((s.begun g (sp f) f).modThread g l upd).pass g l
      (effOf (sp f) f).stall).retag g [l] ((effOf (sp f) f).d.vregs (effOf (sp f) f).nd)) := by
    have h0 := issueThreads_solo ready body h hr
    rw [hb] at h0
    simpa [soloAfter, State.also, hrel, State.raise] using h0
  obtain ⟨hc, hl⟩ : s.cur = some ⟨g, [l]⟩ ∧ s.clearFor g l (effOf (sp f) f) = true := by
    simpa [State.solo] using h
  have ht := ((State.clearFor_iff _ _ _ _).1 hl).1
  obtain ⟨x, hx⟩ := State.group?_of_thread? ht
  have like := likeFor_begun (l := l) hx (sp f) f
  have ht' : ((s.begun g (sp f) f).thread? g l).isSome := by rw [like.thread?_eq]; exact ht
  refine ⟨_, hi.trans hs, ?_, ?_, ?_, ?_, ?_, ?_⟩
  · rw [State.retag_thread, State.pass_eq, State.thread_modThread_same, State.thread_modThread_same _ _ _ _ ht', like.thread_eq]
    · rw [hpc]; rfl
    · simp [State.thread?_modThread_same, ht']
  · rw [State.retag_rest]; rfl
  · intro k hk
    rw [State.retag_group?_ne _ _ _ hk, State.pass_eq, State.group?_modThread_ne _ _ _ hk, State.group?_modThread_ne _ _ _ hk]
    exact State.group?_modGroup_ne _ _ hk
  · intro k hk
    have hk' : k ≠ l := by simpa using hk
    rw [State.retag_thread?, State.pass_eq, State.thread?_modThread_ne _ _ (.inr hk'), State.thread?_modThread_ne _ _ (.inr hk'),
      State.begun_eq]
    exact State.thread?_modGroup_lanes _ _ _ _ _ fun _ => rfl
  · have e1 := State.begun_group? hx (sp f) f
    have e2 := State.group?_modThread_same (s.begun g (sp f) f) g l upd
    have e3 := State.group?_modThread_same ((s.begun g (sp f) f).modThread g l upd) g l
      fun t => t.advance (t.pc + 16) ((s.begun g (sp f) f).modThread g l upd).cycle (effOf (sp f) f).stall
    rw [e2, e1, Option.map_some, Option.map_some] at e3
    obtain ⟨m, w, hm⟩ := State.retag_group? _ g [l] ((effOf (sp f) f).d.vregs (effOf (sp f) f).nd) e3
    exact ⟨x, _, hx, hm, rfl⟩
  · intro a
    simp [State.byteAt, State.begun_eq]

end Sys2Proof.Machine
end

