-- ==== Sys2Proof/Laws/Memory.lean ====
section
/-! SUPPORT. What the operations of memory do: the canonical form is kept, a byte that was written reads back, and every
other byte stays. -/

namespace Sys2Proof.Machine

open Sys2Proof

/-- Every listed address of a memory is at least a bound. -/
def memFrom (a : Nat) (m : List Host.Cell) : Prop := ∀ c ∈ m, a ≤ c.1

theorem Memory.wf_nil : Memory.wf [] = true := rfl

theorem Memory.wf_cons (c : Host.Cell) (m : List Host.Cell) :
    Memory.wf (c :: m) = true ↔ c.2 ≠ 0 ∧ memFrom (c.1 + 1) m ∧ Memory.wf m = true := by
  induction m generalizing c with
  | nil => simp [Memory.wf, memFrom]
  | cons d m ih =>
    simp only [Memory.wf, Bool.and_eq_true, decide_eq_true_eq, bne_iff_ne]
    constructor
    · rintro ⟨⟨h1, h2⟩, h3⟩
      refine ⟨h2, ?_, h3⟩
      intro x hx
      rcases List.mem_cons.1 hx with rfl | hx
      · omega
      · have := ((ih d).1 h3).2.1 x hx
        omega
    · rintro ⟨h1, h2, h3⟩
      exact ⟨⟨by have := h2 d (by simp); omega, h1⟩, h3⟩

theorem memFrom_le {a b : Nat} {m : List Host.Cell} (h : memFrom a m) (hb : b ≤ a) : memFrom b m :=
  fun c hc => le_trans hb (h c hc)

theorem alGet?_memFrom {a b : Nat} {m : List Host.Cell} (h : memFrom a m) (hb : b < a) : alGet? m b = none := by
  induction m with
  | nil => rfl
  | cons c m ih =>
    have h1 := h c (by simp)
    have h2 : memFrom a m := fun x hx => h x (by simp [hx])
    obtain ⟨k, w⟩ := c
    have : k ≠ b := by simp at h1; omega
    simp [alGet?, this, ih h2]

theorem memFrom_alSet {a i : Nat} {b : Byte} {m : List Host.Cell} (h : memFrom a m) (hi : a ≤ i) :
    memFrom a (alSet m i b) := by
  induction m with
  | nil => intro c hc; simp [alSet] at hc; simp [hc, hi]
  | cons c m ih =>
    have h1 := h c (by simp)
    have h2 : memFrom a m := fun x hx => h x (by simp [hx])
    obtain ⟨k, w⟩ := c
    intro x hx
    simp only [alSet] at hx
    split at hx
    · rcases List.mem_cons.1 hx with rfl | hx
      · exact hi
      · exact h x hx
    · split at hx
      · rcases List.mem_cons.1 hx with rfl | hx
        · exact hi
        · exact h2 x hx
      · rcases List.mem_cons.1 hx with rfl | hx
        · exact h1
        · exact ih h2 x hx

theorem memFrom_alDel {a i : Nat} {m : List Host.Cell} (h : memFrom a m) : memFrom a (alDel m i) := by
  induction m with
  | nil => exact h
  | cons c m ih =>
    have h2 : memFrom a m := fun x hx => h x (by simp [hx])
    obtain ⟨k, w⟩ := c
    simp only [alDel]
    split
    · exact ih h2
    · intro x hx
      rcases List.mem_cons.1 hx with rfl | hx
      · exact h _ (by simp)
      · exact ih h2 x hx

theorem Memory.wf_alSet {m : List Host.Cell} {i : Nat} {b : Byte} (h : Memory.wf m = true) (hb : b ≠ 0) :
    Memory.wf (alSet m i b) = true := by
  induction m with
  | nil => simpa [alSet, Memory.wf] using hb
  | cons c m ih =>
    obtain ⟨h1, h2, h3⟩ := (Memory.wf_cons c m).1 h
    obtain ⟨k, w⟩ := c
    simp only [alSet]
    split
    · next hlt =>
      refine (Memory.wf_cons _ _).2 ⟨hb, ?_, h⟩
      intro x hx
      rcases List.mem_cons.1 hx with rfl | hx
      · simpa using hlt
      · have := h2 x hx
        simp only at this ⊢
        omega
    · split
      · next he => subst he; exact (Memory.wf_cons _ _).2 ⟨hb, h2, h3⟩
      · refine (Memory.wf_cons _ _).2 ⟨h1, memFrom_alSet h2 ?_, ih h3⟩
        simp only
        omega

theorem Memory.wf_alDel {m : List Host.Cell} {i : Nat} (h : Memory.wf m = true) : Memory.wf (alDel m i) = true := by
  induction m with
  | nil => exact h
  | cons c m ih =>
    obtain ⟨h1, h2, h3⟩ := (Memory.wf_cons c m).1 h
    obtain ⟨k, w⟩ := c
    simp only [alDel]
    split
    · exact ih h3
    · exact (Memory.wf_cons _ _).2 ⟨h1, memFrom_alDel h2, ih h3⟩

/-- A write of a byte keeps the canonical form. -/
theorem Memory.wf_memSet {m : List Host.Cell} (a : Nat) (b : Byte) (h : Memory.wf m = true) :
    Memory.wf (memSet m a b) = true := by
  unfold memSet
  split
  · exact Memory.wf_alDel h
  · next hb => exact Memory.wf_alSet h hb

/-- A write of bytes keeps the canonical form. -/
theorem Memory.wf_memSetBytes {m : List Host.Cell} (a : Nat) (bs : List Byte) (h : Memory.wf m = true) :
    Memory.wf (memSetBytes m a bs) = true := by
  induction bs generalizing m a with
  | nil => exact h
  | cons b bs ih => exact ih (a + 1) (Memory.wf_memSet a b h)

/-- After a write of one byte, that byte reads back, and every other byte reads as before. -/
theorem memSet_read (m : List Host.Cell) (a c : Nat) (b : Byte) :
    alGet (memSet m a b) 0 c = if c = a then b else alGet m 0 c := by
  unfold memSet alGet
  by_cases hc : c = a
  · subst hc
    split
    · next hb => simp [hb]
    · simp
  · split
    · simp [alGet?_alDel_ne m hc]
    · simp [alGet?_alSet_ne m b hc]

/-- After a write of bytes, each reads back, and every byte outside them reads as before. -/
theorem memSetBytes_read (m : List Host.Cell) (a c : Nat) (bs : List Byte) :
    alGet (memSetBytes m a bs) 0 c = if a ≤ c ∧ c < a + bs.length then bs.getD (c - a) 0 else alGet m 0 c := by
  induction bs generalizing m a with
  | nil => simp [memSetBytes]
  | cons b bs ih =>
    simp only [memSetBytes]
    rw [ih (memSet m a b) (a + 1), memSet_read m a c b]
    simp only [List.length_cons]
    by_cases h1 : c = a
    · subst h1; simp
    · by_cases h2 : a + 1 ≤ c ∧ c < a + 1 + bs.length
      · have : a ≤ c ∧ c < a + (bs.length + 1) := by omega
        rw [if_pos h2, if_pos this]
        obtain ⟨k, hk⟩ : ∃ k, c - a = k + 1 := ⟨c - a - 1, by omega⟩
        have : c - (a + 1) = k := by omega
        rw [hk, this]
        simp
      · have : ¬ (a ≤ c ∧ c < a + (bs.length + 1)) := by omega
        rw [if_neg h2, if_neg h1, if_neg this]

/-- What happens to the copies of lines leaves memory. -/
theorem invalidateRdc_fold_mem (w : Option Nat) (ls : List Nat) (s : State) :
    (ls.foldl (fun t l => t.invalidateRdc w l) s).mem = s.mem := by
  induction ls generalizing s with
  | nil => rfl
  | cons l ls ih => exact ih _

/-- What a write at the home leaves in memory. -/
theorem State.writeHome_mem (s : State) (w : Option Nat) (a : Nat) (bs : List Byte) :
    (s.writeHome w a bs).mem = if s.nodeOk a bs.length then memSetBytes s.mem a bs else s.mem := by
  unfold State.writeHome
  split
  · simp only [invalidateRdc_fold_mem]
  · rfl

/-- A write at the home keeps the canonical form of memory. -/
theorem State.writeHome_wf (s : State) (w : Option Nat) (a : Nat) (bs : List Byte) (h : Memory.wf s.mem = true) :
    Memory.wf (s.writeHome w a bs).mem = true := by
  rw [State.writeHome_mem]
  split
  · exact Memory.wf_memSetBytes a bs h
  · exact h

/-- A write at the home that node space takes: its bytes read back, every other byte reads as before. -/
theorem State.writeHome_byteAt (s : State) (w : Option Nat) (a c : Nat) (bs : List Byte)
    (ok : s.nodeOk a bs.length = true) :
    (s.writeHome w a bs).byteAt c = if a ≤ c ∧ c < a + bs.length then bs.getD (c - a) 0 else s.byteAt c := by
  simp only [State.byteAt, State.writeHome_mem, ok, if_true]
  exact memSetBytes_read s.mem a c bs

end Sys2Proof.Machine
end

