-- ==== Sys2Proof/Tests/Slice0.lean ====
section
/-! SUPPORT. Tests: ill-formed terms that are refused, words written out from the encodings, worked values of the manual, and
for every statement with hypotheses a state and operands that meet them: the witness of a statement, or of each named part of one, stands
under its name. -/

namespace Sys2Proof.Tests

open Sys2Proof Sys2Proof.Machine

set_option maxRecDepth 100000
set_option exponentiation.threshold 4096
set_option Elab.async false

/-! ## Helpers -/

/-- A group of one live thread (group 2, lane 0) at the start of a kernel, its thread being the issuing sub-group. -/
def base : State := { State.reset.boot1.2 with cur := some ⟨2, [0]⟩ }

/-- The thread with a register set. -/
def withV (r : Nat) (x : Word) (s : State) : State := s.modThread 2 0 fun t => t.setV r x

/-- The thread with the pair v0, v1 naming byte `x` of the scratchpad. -/
def spadAt (x : Nat) : State := withV 0 (BitVec.ofNat 32 x) (withV 1 0x20000000 base)

/-- D = v4, A = v1, B = v2. -/
def fab : Fields := { blank with d := .v 4, a := .v 1, b := .v 2 }

/-- D = v4, A = the pair v0, v1, offset `x`. -/
def fm (x : Nat) : Fields := { blank with typ := .n32, d := .v 4, a := .v 0, b := .v 8, imm := BitVec.ofNat 32 x }

/-- The one thread is issuing alone and nothing holds it back. -/
def ok (sp : Fields → Spec) (f : Fields) : Bool := base.solo 2 0 (sp f) f

/-- The sub-group of that thread passes. -/
def okLanes (sp : State → Fields → Spec) (f : Fields) : Bool := base.sub 2 [0] (sp base f) f

/-- The state after the decode. -/
def dec (sp : Fields → Spec) (f : Fields) (s : State) : State := s.begun 2 (sp f) f

/-- A vector register of the thread after a step. -/
def vOut (o : Out) (r : Nat) : Option Nat :=
  match o with
  | .next t => some ((t.thread 2 0).vreg r).toNat
  | _ => none

/-- The flags of the thread after a step. -/
def ccOut (o : Out) (n : BitVec 2) : Option Nat :=
  match o with
  | .next t => some ((t.thread 2 0).flags n).toNat
  | _ => none

/-- The PC, level and cause of the thread after a step. -/
def trapOut (o : Out) : Option (Nat × Nat × Nat × Nat) :=
  match o with
  | .next t => some ((t.thread 2 0).pc.toNat, (t.thread 2 0).level.toNat, (t.thread 2 0).bank1.cause.toNat,
      (t.thread 2 0).bank1.tval.toNat)
  | _ => none

/-- Something of the state after a step. -/
def after {α : Type} (o : Out) (f : State → α) : Option α :=
  match o with
  | .next t => some (f t)
  | _ => none

/-- What an access reaches: 0 memory, 1 scratchpad, 2 a parked fault, 3 a fatal one, 4 anything else. -/
def kindOf (r : Rsv) : Nat :=
  match r with
  | .mem _ _ => 0
  | .spad _ _ _ => 1
  | .park _ => 2
  | .fault _ => 3
  | _ => 4

/-! ## Ill-formed terms (every check of `Instr.wf`) -/

theorem test_wf_reserved_file : (Instr.iadd { fab with d := .rsvFile 0x53 }).wf = false ∧
    (Instr.iadd { fab with d := .rsvFile 0x54 }).wf = true := by decide
theorem test_wf_reserved_const : (Instr.iadd { fab with b := .rsvConst 0x08 }).wf = false ∧
    (Instr.iadd { fab with b := .rsvConst 0x88 }).wf = true := by decide
theorem test_wf_other_fields : (Instr.iadd { fab with a := .rsvFile 0 }).wf = false ∧
    (Instr.iadd { fab with c := .rsvFile 0 }).wf = false ∧ (Instr.iadd { fab with e := .rsvFile 0 }).wf = false := by decide
theorem test_wf_variants :
    (Instr.pstw { fab with var := 1 }).wf = false ∧ (Instr.pstwCell fab).wf = false ∧ (Instr.pldw { fab with var := 1 }).wf = false ∧
    (Instr.pldwCell fab).wf = false ∧ (Instr.ccmovTov { fab with var := 1 }).wf = false ∧ (Instr.ccmovTocc fab).wf = false ∧
    (Instr.ccmovCopy fab).wf = false ∧ (Instr.meet { fab with var := 1 }).wf = false ∧ (Instr.meetClr fab).wf = false ∧
    (Instr.pref { fab with var := 1 }).wf = false ∧ (Instr.prefList fab).wf = false ∧ (Instr.appnd { fab with var := 1 }).wf = false ∧
    (Instr.appndOpen fab).wf = false ∧ (Instr.mbatAcq { fab with var := 2 }).wf = false ∧ (Instr.mbatPass fab).wf = false ∧
    (Instr.mbatRel fab).wf = false ∧ (Instr.racqVreg { fab with var := 1 }).wf = false ∧ (Instr.racqTile fab).wf = false ∧
    (Instr.racqPreg fab).wf = false ∧ (Instr.racqSpad fab).wf = false ∧ (Instr.clockCyc { fab with var := 1 }).wf = false ∧
    (Instr.clockNs fab).wf = false := by decide
theorem test_wf_opcode : (Instr.reservedOpcode 3).wf = false ∧ (Instr.reservedOpcode 0xFF).wf = true := by decide
theorem test_wf_lanes : (Instr.waitmTimeout 0 64).wf = false ∧ (Instr.lateTrap 0 64).wf = false ∧ (Instr.sigwReread 0 64).wf = false ∧
    (Instr.handlerWatchdog 0 64).wf = false ∧ (Instr.softErrorCorrected 0 0 64).wf = false := by decide
theorem test_wf_cores_and_dies : (Instr.matrixOperationStart 1024).wf = false ∧ (Instr.matrixComplete 1024).wf = false ∧
    (Instr.bLockRelease 0 256).wf = false ∧ (Instr.skeinTimerFlush 1024).wf = false ∧ (Instr.softErrorUncorrected 8 0).wf = false ∧
    (Instr.softErrorCorrected 8 0 0).wf = false ∧ (Instr.parkSlotReread 8).wf = false ∧ (Instr.spillRingReturn 0 8).wf = false ∧
    (Instr.rdcinvWrite 8 0).wf = false ∧ (Instr.rdcinvComplete 8).wf = false ∧ (Instr.errcRead 8).wf = false := by decide
theorem test_wf_slots : (Instr.faultRecordDeferred 256).wf = false ∧ (Instr.spillRingReturn 256 0).wf = false ∧
    (Instr.fqrespWrite 256 0).wf = false ∧ (Instr.pginvWrite 256 0).wf = false ∧ (Instr.pginvComplete 256).wf = false ∧
    (Instr.ctxctlPreempt 256).wf = false ∧ (Instr.ctxctlResume 256).wf = false ∧ (Instr.ctxctlKill 256).wf = false ∧
    (Instr.ctxctlOpen 256 0).wf = false ∧ (Instr.ctxctlClose 256).wf = false := by decide
theorem test_wf_registers : (Instr.launchAccept 64).wf = false ∧ (Instr.launchQueueCsrWrite 64 0 0).wf = false ∧
    (Instr.launchQueueCsrWrite 0 32 0).wf = false ∧ (Instr.launchQueueCsrWrite 0 4 0).wf = false ∧ (Instr.pselWrite 16 0).wf = false ∧
    (Instr.latticeFlitRetry 72).wf = false ∧ (Instr.registerWrite (2 ^ 24) 0).wf = false ∧ (Instr.registerWrite 4 0).wf = false := by
  decide
theorem test_wf_span : (Instr.spanPeerEntryWrite 4096 0).wf = false ∧ (Instr.spanRetransmit 4096).wf = false ∧
    (Instr.spanRekey 4096).wf = false ∧ (Instr.spanSessionRetry 4096).wf = false ∧ (Instr.spanOldKeyExpiry 4096).wf = false ∧
    (Instr.spanPacketReceive ⟨4096, []⟩).wf = false := by decide
theorem test_wf_payloads : (Instr.hostMemoryAccess (.read (2 ^ 41) 1)).wf = false ∧
    (Instr.hostMemoryAccess (.write (2 ^ 41) [0])).wf = false ∧ PeerOp.wf (.atomic 15 .n32 0 0) = false ∧
    Throttle.wf ⟨0, List.replicate 8 ⟨0, 0⟩, []⟩ = false ∧ Throttle.wf ⟨0, [], [(1, 0)]⟩ = false ∧
    Throttle.wf ⟨0, List.replicate 8 ⟨0, 0⟩, [(5, 0)]⟩ = false ∧ (Instr.bootStepComplete ⟨true, [], [0], none⟩).wf = false := by decide

/-! ## Words written out from the encodings -/

/-- `FADD.f32 v4, v1, v2`: OPC 0x28, TYP 8 in [15:12], D 4 in [39:30], A 1 in [49:40], B 2 in [59:50]. -/
theorem test_decode_fadd : decode 0x0008010100008028 = .fadd { fab with typ := .f32 } := by decide
/-- `RCP.f32 v4, v1`. -/
theorem test_decode_rcp : decode 0x0000010100008040 = .rcp { fab with typ := .f32, b := .v 0 } := by decide
/-- `SHFL.up.n32 v4, v1, v2`: VAR 1 in [11:8], TYP 1. -/
theorem test_decode_shfl : decode 0x0008010100001158 = .shfl { fab with typ := .n32, var := 1 } := by decide
/-- `PZERO p1, 3`: D 0x141, A 0x243. -/
theorem test_decode_pzero : decode 0x0002435040000048 = .pzero { blank with d := .p 1, a := .int 3 } := by decide
/-- The `COIT` of the worked example: var 2, cursors in class 01, a cc register in C. -/
theorem test_decode_coit : (match decode 0x00000000000000152415044100000294 with
    | .coit f => (f.var, f.d, f.a, f.b, f.c) == (2, .c 4, .c 4, .c 5, .cc 2)
    | _ => false) = true := by decide
/-- `SPAWN` of the worked example, under the guard that cc0's N is clear. -/
theorem test_decode_spawn : (match decode 0x0000000080000000690004000C000171 with
    | .spawn f => (f.var, f.a, f.b, f.c, f.scope) == (1, .v 4, .int 0, .v 6, .die) && f.guard.cond1 == .pl
    | _ => false) = true := by decide
/-! ## Worked values -/

/-- 5 + 7, and the wrap of 0xFFFFFFFF + 1 with C and Z (R241). -/
theorem test_iadd : vOut (exec (.iadd { fab with a := .int 5, b := .int 7 }) base) 4 = some 12 ∧
    ccOut (exec (.iadd { fab with a := .spec .ones, b := .int 1, e := .cc 1 }) base) 1 = some 6 := by decide
/-- 5 − 7: S, and C for the borrow. -/
theorem test_isub : vOut (exec (.isub { fab with a := .int 5, b := .int 7 }) base) 4 = some 0xFFFFFFFE ∧
    ccOut (exec (.isub { fab with a := .int 5, b := .int 7, e := .cc 1 }) base) 1 = some 10 := by decide
/-- The upper half of (−1) × 2 as s32 and as n32 (R244). -/
theorem test_imulh : vOut (exec (.imulh { fab with a := .spec .ones, b := .int 2 }) base) 4 = some 0xFFFFFFFF ∧
    vOut (exec (.imulh { fab with typ := .n32, a := .spec .ones, b := .int 2 }) base) 4 = some 1 := by decide
/-- A zero divisor kills a context without a handler: the group is gone (R246, R419). -/
theorem test_idiv_zero : after (exec (.idiv { fab with a := .int 5, b := .int 0 }) base) (fun t => (t.group? 2).isNone) = some true ∧
    vOut (exec (.idiv { fab with a := .int 17, b := .int 5 }) base) 4 = some 3 := by decide
/-- 1.0 + 1.0 = 2.0. -/
theorem test_fadd : vOut (exec (.fadd { fab with typ := .f32, a := .fconst .f1, b := .fconst .f1 }) base) 4 = some 0x40000000 := by
  decide
/-- 0.5 × −1.0. -/
theorem test_fmul : vOut (exec (.fmul { fab with typ := .f32, a := .fconst .fhalf, b := .fconst .fm1 }) base) 4 = some 0xBF000000 := by
  decide
/-- A shift by the full width gives 0 with the last bit in C (R248). -/
theorem test_shl_width : vOut (exec (.shl { fab with typ := .n32, a := .int 1, b := .int 32 }) base) 4 = some 0 ∧
    ccOut (exec (.shl { fab with typ := .n32, a := .int 1, b := .int 32, e := .cc 0 }) base) 0 = some 6 := by decide
/-- `CLZ` of 1 and of 0 (R249). -/
theorem test_clz : vOut (exec (.clz { fab with typ := .n32, a := .int 1 }) base) 4 = some 31 ∧
    vOut (exec (.clz { fab with typ := .n32, a := .int 0 }) base) 4 = some 32 := by decide
/-- `CCMOV.tocc` takes the low four bits (R264). -/
theorem test_ccmov : ccOut (exec (.ccmovTocc { blank with var := 1, d := .cc 2, a := .int 37 }) base) 2 = some 5 := by decide
/-- `BRA` by −3 words from its own address (R33). -/
theorem test_bra : after (exec (.bra { blank with imm := 0xFFFFFFFD }) base) (fun t => (t.thread 2 0).pc.toNat) =
    some (0x10000 - 48) := by decide
/-- A guard that never passes: only the PC moves. -/
theorem test_guard : vOut (exec (.iadd { fab with a := .int 5, b := .int 7, guard := ⟨0, .nv, 0, .al, .first⟩ }) base) 4 = some 0 := by
  decide
/-- A call pushes the next word's address, and the return goes there (R357, R358). -/
theorem test_call_ret : after (exec (.call { blank with imm := 4 }) base) (fun t =>
    ((t.thread 2 0).pc.toNat, (t.thread 2 0).rs, (t.thread 2 0).depth.toNat)) = some (0x10040, [0x10010], 1) := by decide
/-- A store waits in the buffer; drained, it is in memory (R164). -/
theorem test_store_drains : after (exec (.st { fm 0x30000 with b := .int 9 }) base) (fun t =>
    (t.readNodeN 0x30000 4, (after (exec (.storeBufferDrain t.now.pred .local) t) fun u => u.readNodeN 0x30000 4).getD 0)) =
      some (0, 9) := by decide
/-- The word that the next step fetches is the one that it runs. -/
theorem test_step_runs : (match step (State.reset.withFetchWord 128 0x0008024040000003) with
    | .next t => t.cur == none
    | _ => false) = true := by decide
/-! ## Witnesses of the statements' hypotheses -/

theorem witness_DecodeOfEncode : ∃ w, (Instr.iadd fab).wf = true ∧ encode (.iadd fab) = some w := ⟨_, by decide, rfl⟩

theorem witness_IntegerArithmeticCompletes : ok (fun _ => Spec.plain) blank = true ∧
    ok (fun _ => { Spec.plain with types := [.n32, .s64, .n64], d := slSrc, imm := true, hOk := true }) { blank with d := .v 4 } = true ∧
    ok (specInt tysInt 1 slSrc slSrc slNone true) fab = true ∧ ok (specInt tysInt 1 slSrc slSrc slSrc true) { fab with c := .v 3 } = true ∧
    ok (specInt tysInt 0 slSrc slSrc slNone false) fab = true ∧ ok (specInt [.s32, .n32, .s64, .n64] 0 slSrc slSrc slNone false) fab = true ∧
    ok (specInt [.s32, .s64, .s16, .s8] 1 slSrc slNone slNone true) fab = true ∧ ok (specInt tysInt 1 slSrc slNone slNone true) fab = true ∧
    ok (fun f => { Spec.plain with
      types := [.s8, .n8, .s16, .n16, .s32, .n32], var := f.var &&& 1, d := slSrc, a := slSrc, e := slCcOpt, hOk := true }) fab = true ∧
    ok (specInt [.n32, .s32, .n64, .s64] 0 slSrc slSrc slCc true) { fab with c := .cc 0, e := .cc 3 } = true := by decide

theorem witness_ImulhWritesUpperHalf :
    ok (specInt [.s32, .n32, .s64, .n64] 0 slSrc slSrc slNone false) { fab with typ := .n64, a := .v 2, b := .v 254 } = true := by decide

theorem witness_CcmovMovesFlags : ok (fun _ => { Spec.plain with d := slSrc32, a := slCc, hOk := true }) { fab with a := .cc 3 } = true ∧
    ok (fun _ => { Spec.plain with var := 1, d := slCc, a := slSrc32, hOk := true }) { fab with d := .cc 0 } = true ∧
    ok (fun _ => { Spec.plain with var := 2, d := slCc, a := slCc, hOk := true }) { fab with d := .cc 0, a := .cc 1 } = true := by decide

theorem witness_LogicAndBitsComplete : ok (specInt tysN 0 slSrc slSrc slNone true) fab = true ∧
    ok (specInt tysN 0 slSrc slNone slNone true) fab = true ∧ ok (specInt tysN 1 slSrc slSrc32 slNone true) fab = true ∧
    ok (specInt [.s32, .s64] 1 slSrc slSrc32 slNone true) fab = true ∧ ok (specInt tysN 1 slSrc slSrc32 slNone false) fab = true ∧
    ok (fun _ => { Spec.plain with types := tysN, d := slSrc32, a := slSrc, hOk := true }) fab = true ∧
    ok (specInt tysN 0 slSrc slNone slNone false) fab = true ∧
    ok (specInt [.n32, .s32, .n64, .s64] 0 slSrc slSrc32 slSrc32 false) { fab with c := .int 8 } = true ∧
    ok (fun _ => { Spec.plain with types := tysN, d := slSrc, a := slSrc, b := slSrc, c := slSrc32, e := slSrc32, hOk := true })
      { fab with c := .int 8, e := .int 4 } = true ∧
    ok (specInt [.n32] 0 slSrc slSrc slSrc false) { fab with c := .v 3 } = true ∧
    ok (fun f => { Spec.plain with types := tysN, var := f.var, d := slSrc, a := slSrc, b := slSrc, c := slCc, hOk := true })
      { fab with c := .cc 1, var := 15 } = true ∧
    ok (fun _ => { Spec.plain with types := tysInt, d := slCc, a := slSrc, b := slSrc, hOk := true }) { fab with d := .cc 0 } = true ∧
    ok (fun f => { Spec.plain with
      types := [.s32, .n32, .s64, .n64], var := f.var, d := ⟨.pair, 2⟩, a := slPair, b := ⟨.srcReg, 0⟩, imm := true, hOk := true })
      { fab with a := .v 0 } = true := by decide

theorem witness_DivisionAndMoveComplete : ok specDiv { fab with b := .int 3 } = true ∧
    (resDiv .s32 false 17 5).isSome = true ∧ resDiv .s32 false 17 0 = none ∧ ok specMov fab = true ∧
    ok specMov { fab with var := 1 } = true ∧
    ((List.range 16).all fun k => (base.thread 2 k).full (effOf (specMov { fab with var := 1 }) { fab with var := 1 }).d 1) = true ∧
    ok specMov { fab with var := 2 } = true := by decide

theorem witness_AddSubtractFlags32 :
    ok (specInt tysInt 1 slSrc slSrc slNone true) { fab with d := .v 255, a := .v 0, e := .cc 3 } = true ∧
    (effOf (specInt tysInt 1 slSrc slSrc slNone true { fab with d := .v 255, a := .v 0, e := .cc 3 })
      { fab with d := .v 255, a := .v 0, e := .cc 3 }).ty = .s32 ∧
    (effOf (specInt tysInt 1 slSrc slSrc slNone true { fab with d := .v 255, a := .v 0, e := .cc 3 })
      { fab with d := .v 255, a := .v 0, e := .cc 3 }).d = .v 255 := by decide

/-- Amounts of 31, 32 and 33. -/
theorem witness_ShiftsOfEveryAmount : 0 < (31 : BitVec 32).toNat ∧ (32 : BitVec 32).toNat ≤ 32 ∧ ¬ (33 : BitVec 32).toNat ≤ 32 ∧
    (resShl 32 0x80000001 32).c = true ∧ (resShr 32 0x80000001 33).c = false ∧ (resSar 32 0x80000001 33).c = true := by decide

/-- Two lanes of a group issue together. -/
def both : State :=
  { base with cur := some ⟨2, [0, 1]⟩ }.modThread 2 1 fun t => { t with exited := false }

theorem witness_LanesAndGuardsSeparate :
    both.sub 2 [0, 1] (specInt tysInt 1 slSrc slSrc slNone true fab) fab = true ∧
    (let f := { fab with guard := ⟨0, .nv, 0, .al, .first⟩ }
     let e := effOf (specInt tysInt 1 slSrc slSrc slNone true f) f
     (base.thread? 2 0).isSome && !e.guard.passes (base.thread 2 0) && base.destReady 2 0 e) = true := by decide

theorem witness_FloatArithmeticCompletes :
    ok (specFloat tysFloat 0xF slSrc slSrc slSrc slNone) { fab with typ := .f32 } = true ∧
    ok (specFloat tysFloat 0xF slSrc slSrc slSrc slSrc) { fab with typ := .f16, c := .v 3 } = true ∧
    ok (specFloat tysFloat 0 slSrc slSrc slSrc slNone) { fab with typ := .bf16 } = true ∧
    ok (specFloat tysFloat 7 slSrc slSrc slNone slNone) { fab with typ := .f4 } = true ∧
    ok (specFloat tysFloat 0xF slSrc slSrc slSrc32 slNone) { fab with typ := .f32 } = true ∧
    flagCause (base.mode 2) 0x1F = none ∧ (flagCause (setFld (base.mode 2) 8 5 0x1F) 1).isSome = true := by decide

theorem witness_DotsComparesAndConversionsComplete :
    ok (specFloat [.f16, .bf16] 0xF slSrc32 slSrc32 slSrc32 slSrc32) { fab with typ := .f16, c := .v 3 } = true ∧
    ok (specFloat [.f8e4, .f8e5] 0xF slSrc32 slSrc32 slSrc32 slSrc32) { fab with typ := .f8e4, c := .v 3 } = true ∧
    ok (specFloat [.f4] 0xF slSrc32 slSrc32 slSrc32 slSrc32) { fab with typ := .f4, c := .v 3 } = true ∧
    ok (specFloat tysFloat 0 slCc slSrc slSrc slNone) { fab with typ := .f32, d := .cc 0 } = true ∧
    ok (specFloat [.f32, .f16, .bf16, .f8e4, .f8e5, .f4] 0 slSrc slSrc slNone slNone) { fab with typ := .f4 } = true ∧
    ok specCvt { fab with typ := .f32 } = true ∧
    ok (specFloat [.qi8, .qi4] 0 slSrc32 slSrc32 slSrc32 slNone) { fab with typ := .qi8 } = true ∧
    ok specQnt { fab with typ := .qi4, e := .cc 1 } = true := by decide

theorem witness_RoundingKeepsRepresentable : fld (0x00000001 : BitVec 32) 23 8 ≠ 255 ∧ fld (0x7F7FFFFF : BitVec 32) 0 31 ≠ 0 := by decide

/-- The state after an instruction. -/
def run (i : Instr) (s : State) : State := (after (exec i s) id).getD s

/-- The thread after an SFU instruction: its result is outstanding under number 3. -/
def sfuWaits : State := (after (exec (.rcp { fab with typ := .f32, a := .fconst .f2, b := .v 0 }) base) id).getD base

theorem witness_SfuInstructionsIssueAndLand : ok (specSfu 7) { fab with typ := .f32, b := .v 0 } = true ∧
    ok (specSfu 0) { fab with typ := .f16, b := .v 0 } = true ∧ (base.sfuQueue 0 0).length < 32 ∧
    (match alGet? sfuWaits.acc base.nextId with
      | some a => (match a.op with
        | .sfu n _ fl _ m => flagCause m fl == none && a.dst == [4] && sfuWaits.acc.length == 1 && n == base.nextId &&
            sfuWaits.sfuRest base.nextId n == [] && (sfuWaits.group? a.g).isSome
        | _ => false)
      | none => false) = true ∧
    ((run (.rcp { fab with typ := .f32, a := .fconst .f2, b := .v 0 }) both).sfuRest base.nextId base.nextId != []) = true := by decide

theorem witness_LaneInstructionsComplete : okLanes (fun _ f => specLane tysN f.var slSrc slVec slSrc32 true) { fab with typ := .n32 } = true ∧
    ((base.thread 2 ((shflSource 0 16 0 15).getD 0)).full (.v 1) 1) = true ∧
    okLanes (fun _ f => specLane tysN (fixVar 2 f.var) slCc slVec slNone false) { fab with d := .cc 0 } = true ∧
    okLanes (fun s _ => specLane tysN 0 ⟨.src, s.maskRegs⟩ slVec slNone false) fab = true ∧
    okLanes (fun _ _ => specLane tysN 0 slSrc slVec slNone false) fab = true ∧
    okLanes (fun _ f => specLane [.n32, .s32, .f32, .n64, .s64, .f16, .bf16] (f.var &&& 1) slSrc32 slVec slSrc32 true) fab = true ∧
    okLanes (fun _ f => specLane (gredTypes (fld f.var 0 3)) (f.var &&& 7) slSrc slVec slNone false) fab = true ∧
    okLanes (fun _ f => specLane (gredTypes (fld f.var 0 3)) f.var slSrc slVec slNone false) { fab with var := 8 } = true ∧
    okLanes (fun s f => specLane [] (fixVar 3 f.var) ⟨.src, s.maskRegs⟩ slNone slNone false) fab = true := by decide

/-- A row of `GRED` under n32, over lane 0. -/
theorem witness_LaneMasksAndSums : (effOf (specLane (gredTypes 3) 3 slSrc slVec slNone false) { fab with typ := .n32, var := 3 }).ty = .n32 ∧
    [0] ≠ ([] : List Nat) ∧ gredLanes (withV 1 9 base) 2
      (effOf (specLane (gredTypes 3) 3 slSrc slVec slNone false) { fab with typ := .n32, var := 3 }) 3 [0] = 9 := by decide

/-- The group holds tiles a0 to a3 and a15. -/
def tiled : State := base.modGroup 2 fun x => { x with tiles := [0, 1, 2, 3, 15].map fun n => (n, ⟨0, [], none⟩) }

/-- The one thread of that group is issuing alone and nothing holds it back. -/
def okT (sp : Fields → Spec) (f : Fields) : Bool := tiled.solo 2 0 (sp f) f

/-- The rows of the instructions that act on holders. -/
def specPmov (f : Fields) : Spec := { Spec.plain with d := slPly2, a := plyPartner f.d, tileOk := true }
def specPacc (f : Fields) : Spec := { Spec.plain with types := tysPacc, var := f.var &&& 1, d := slPly, a := slSrc, b := slSrc }

theorem witness_PlyInstructionsComplete :
    ok (specAnchor true) { blank with d := .p 1, a := .int 3 } = true ∧ okT (specAnchor true) { blank with d := .a 15, a := .int 3 } = true ∧
    ok (specAnchor false) { blank with d := .p 1, a := .int 3 } = true ∧ okT (specAnchor false) { blank with d := .a 2 } = true ∧
    (anchorOf 511).isSome = true ∧ anchorOf 512 = none ∧ (anchorOf (2 ^ 32 - 512)).isSome = true ∧ anchorOf (2 ^ 32 - 513) = none ∧
    ok specPmov { blank with d := .p 1, a := .p 2 } = true ∧ okT specPmov { blank with d := .a 1, a := .a 2 } = true ∧
    ok specPmrg { blank with d := .p 1, a := .p 2 } = true ∧ ok specPmrg { blank with d := .p 1, a := .p 2, var := 1 } = true ∧
    okT specPmrg { blank with d := .a 1, a := .a 2 } = true ∧ ok specPacc { fab with typ := .f32, d := .p 0 } = true ∧
    ok specPadd { fab with typ := .f32, d := .p 0, b := .v 0 } = true ∧ ok (specRslv 16) { blank with typ := .f32, d := .v 6, a := .p 2 } = true ∧
    okT (specRslv base.curWidth) { blank with typ := .f32, d := .v 6, a := .a 2 } = true ∧
    ok (fun _ => { Spec.plain with d := slCc, a := slPly, b := ⟨.plyOpt, 1⟩ }) { blank with d := .cc 1, a := .p 2, b := .p 3 } = true := by
  decide

theorem witness_PlyFrameAndSums : (3 : Nat) ≠ 4 ∧ [Ex.nan, Ex.inf false].Perm [Ex.inf false, Ex.nan] :=
  ⟨by decide, .swap _ _ _⟩

theorem witness_BranchGoesToTarget : ok specTarget { blank with imm := 0x80000000 } = true ∧
    ok specTarget { blank with imm := 0x7FFFFFFF } = true := by decide

/-- The thread with an open call, and one with a full held stack. -/
def called (n : Nat) : State := base.modThread 2 0 fun t => { t with depth := BitVec.ofNat 8 n, rs := List.replicate (min n 16) 0x10010 }

/-- That thread's context with spill space. -/
def spills (n : Nat) : State := (called n).modCtx 0 fun c => { c with rstkbase := 0x100000 }

theorem witness_BranchesCallsAndReturnsComplete : ok specPairA { blank with a := .v 2 } = true ∧
    (withV 2 8 base).solo 2 0 (specPairA { blank with a := .v 2 }) { blank with a := .v 2 } = true ∧
    (withV 2 8 base).rdA 2 0 (effOf (specPairA { blank with a := .v 2 }) { blank with a := .v 2 }) % 16 ≠ 0 ∧
    ok specTarget blank = true ∧ (called 15).solo 2 0 (specTarget blank) blank = true ∧
    (called 255).solo 2 0 (specTarget blank) blank = true ∧ (called 255).sbRoom 0 = true ∧
    (called 16).solo 2 0 Spec.plain blank = true ∧ ok (fun _ => Spec.plain) blank = true ∧
    (spills 16).solo 2 0 (specTarget blank) blank = true ∧
    (match (spills 16).resolve 2 0 .store ((spills 16).spillAddr 2 0 0) 8 8 0x094 false with
      | (.mem p h, u) => u.storeRoom 2 ((spills 16).spillAddr 2 0 0) (.mem p h)
      | _ => false) = true ∧
    (spills 17).solo 2 0 Spec.plain blank = true ∧ (spills 16).acqPending 2 0 = false ∧
    kindOf ((spills 17).resolve 2 0 .load ((spills 17).spillAddr 2 0 0) 8 8 0x094 false).1 = 0 := by decide

/-- The thread's meeting is named at its own next address, and it waits for it until cycle 0. -/
def meets : State := base.modThread 2 0 fun t => { t with mr := ⟨0x10000, 0, true⟩ }
def waits : State := base.modThread 2 0 fun t => { t with wait := .meeting (some 0) (some 1) }

theorem witness_MeetingsCompleteOrTimeOut : ok specTarget { blank with imm := 1 } = true ∧
    ok (fun _ => { Spec.plain with var := 1 }) { blank with var := 1 } = true ∧ ok (fun _ => Spec.plain) blank = true ∧
    ok (fun _ => { Spec.plain with d := slCc, a := slSrc32 }) { blank with d := .cc 1, a := .int 20 } = true ∧
    (base.thread 2 0).arrives = false ∧ meets.solo 2 0 Spec.plain blank = true ∧ (meets.thread 2 0).arrives = true ∧
    ((List.range 20).all fun k => k == 0 || ((base.thread? 2 k).map fun x => x.exited && !x.isHeld).getD true) = true ∧
    (waits.thread? 2 0).isSome = true ∧ (waits.thread 2 0).wait = .meeting (some 0) (some 1) ∧ 0 ≤ waits.cycle := by decide

/-- Every thread of the group has exited. -/
def empty : State := base.modThread 2 0 fun t => { t with exited := true }

theorem witness_ThreadsExitAndSlotsFree : ok (fun _ => Spec.plain) blank = true ∧ (base.thread 2 0).spawn = none ∧
    ((base.group? 2).map fun x => x.exitWaits 0) = some false ∧ empty.slotFreeable 2 = true := by decide

theorem witness_ReservedOpcodesTrap : reservedCode (fld (0xFF : BitVec 128) 0 8) = true ∧ reservedCode (fld (0x22 : BitVec 128) 0 8) = true ∧
    base.cur = some ⟨2, [0]⟩ := by decide

/-- The context of the group has a vector table whose entries for software traps 0 and 1 and for cause 0x107 are 0x50000. -/
def handled : State :=
  { base with mem := memSetBytes (memSetBytes base.mem 0x40100 (toBytes 8 0x50000)) 0x40838 (toBytes 8 0x50000) }.modCtx 0 fun c =>
    { c with tvbase := 0x40000 }

/-- The thread at a trap level, with DEPTH 3 saved. -/
def above (n : Nat) (s : State) : State :=
  s.modThread 2 0 fun t => { t with level := BitVec.ofNat 2 n, bank1 := ⟨0, 0x10020, 0, 0⟩, bank2 := ⟨0, 0x10020, 0, 1⟩ }

theorem witness_TrapEntersHandler : (handled.thread? 2 0).isSome = true ∧ (handled.handler 2 0x20).1 = .at' 0x50000 ∧
    ((above 1 handled).handler 2 0x20).1 = .at' 0x50000 ∧ (handled.thread 2 0).level = 0 ∧ ((above 1 handled).thread 2 0).level = 1 := by
  decide

theorem witness_KillsEndContexts : 2 ≤ ((above 2 base).thread 2 0).level.toNat ∧ (base.handler 2 0x20).1 = .at' 0 ∧
    ((base.modCtx 0 fun c => { c with tvbase := 0x8000000000000000 }).handler 2 0x20).1 = .fault ∧
    (base.ctx 0).state = 0 ∧ (base.ctx 1).state = 7 := by decide

theorem test_kill : after (exec (.kill { blank with a := .int 9 }) base) (fun t => ((t.ctx 0).state, (t.ctx 0).kcause, t.groups.length)) =
    some (3, 0x160, 0) := by decide

theorem test_trap_and_return : trapOut (exec (.trap { blank with a := .int 9 }) handled) = some (0x50000, 1, 0x20, 9) ∧
    after (exec (.tret { blank with var := 1 }) (above 1 handled)) (fun t => ((t.thread 2 0).pc.toNat, (t.thread 2 0).level.toNat)) =
      some (0x10030, 0) := by decide

/-- A late trap is pending. -/
def late : State := handled.modThread 2 0 fun t => { t with late := [⟨0x20, 5, 3, [], .late⟩] }

theorem witness_TrapsReturnAndLateTrapsArrive :
    ok (fun f => { Spec.plain with var := f.var, a := slSrc32 }) { blank with var := 15, a := .int 9 } = true ∧
    (above 1 base).solo 2 0 { Spec.plain with var := 0 } blank = true ∧
    ((above 1 base).thread 2 0).depth.toNat = fld (((above 1 base).thread 2 0).bank 1).stat 4 8 ∧
    ok (fun f => { Spec.plain with var := f.var &&& 1 }) blank = true ∧
    ((above 1 (called 3)).thread 2 0).depth.toNat ≠ fld (((above 1 (called 3)).thread 2 0).bank 1).stat 4 8 ∧
    (above 1 (called 3)).solo 2 0 { Spec.plain with var := 0 } blank = true ∧
    ((late.modThread 2 0 fun t => { t with late := [], vEmpty := t.vEmpty.filter fun _ => true }).handler 2 0x20).1 = .at' 0x50000 ∧
    (late.thread 2 0).late.length = 1 ∧ late.lateReady 2 0 = true ∧ (late.thread 2 0).exited = false ∧
    (late.thread 2 0).level = 0 := by decide

theorem witness_CsrsClocksAndCounters :
    ok (fun _ => { Spec.plain with d := slPair, imm := true, hOk := true }) { blank with d := .v 4, imm := 0x118 } = true ∧
    csrReadLevel 0x119 = some 0 ∧ csrReadLevel 0x116 = some 1 ∧ csrReadLevel 0x11A = none ∧ csrWriteLevel 0x106 = some 0 ∧
    csrWriteLevel 0x119 = some 1 ∧ csrWriteLevel 0x118 = none ∧
    (base.thread 2 0).level.toNat < 1 ∧
    ok (fun _ => { Spec.plain with a := slPair, imm := true, hOk := true, rels := true }) { blank with a := .v 4, imm := 0x10D } = true ∧
    base.releaseReady 2 0 .dev = true ∧
    ok (fun _ => { Spec.plain with d := ⟨.vec, 2⟩ }) { blank with d := .v 4 } = true ∧
    ok (fun _ => { Spec.plain with var := 1, d := ⟨.vec, 2⟩ }) { blank with d := .v 4, var := 1 } = true ∧
    ok (fun _ => { Spec.plain with d := ⟨.vec, 2⟩, a := slSrc32 }) { blank with d := .v 4, a := .int 15 } = true := by decide

theorem witness_DebugKillYieldAndRegions : ok (fun _ => { Spec.plain with imm := true }) { blank with imm := 0xFFFF } = true ∧
    base.sec.session ≠ some (base.ctx (base.slotOf 2)).id ∧
    { base with sec := { base.sec with session := some 0 } }.solo 2 0 { Spec.plain with imm := true } blank = true ∧
    ((base.group? 2).map fun x => x.stopped) = some false ∧
    ok (fun _ => { Spec.plain with a := slSrc32 }) { blank with a := .int 1 } = true ∧
    (let s := { above 1 base with ns := 50000001 }
     decide ((s.thread 2 0).above + 1000 * (s.ctx (s.slotOf 2)).wdog.toNat < s.ns)) = true ∧
    ok (fun f => { Spec.plain with var := f.var &&& 1, a := slSrc32 }) { blank with a := .int 0 } = true ∧
    (base.kernel 2).nrgn ≤ 0 := by decide

/-- The kernel of the group has one region, whose entry at 0x60000 names address `a` as its `RGN`. -/
def regions (a : Nat) : State :=
  { base with
    mem := memSetBytes base.mem 0x60000 (toBytes 64 a)
    launches := base.launches.map fun p => (p.1, { p.2 with kernel := { p.2.kernel with nrgn := 1, rgnt := 0x60000 } }) }

/-- Whether the region entry reads and names the thread's address. -/
def regionRead (s : State) : Option Bool :=
  match s.issueRead 2 0 ((s.kernel 2).rgnt + BitVec.ofNat 64 0) 64 0x094 with
  | .ok x _ => some (rgnOk x (s.thread 2 0).pc)
  | _ => none

theorem witness_RegionsBegin : base.acqPending 2 0 = false ∧ (regions 0x10000).solo 2 0 { Spec.plain with imm := true } blank = true ∧ 0 < ((regions 0x10000).kernel 2).nrgn ∧
    regionRead (dec (fun _ => { Spec.plain with imm := true }) blank (regions 0x10000)) = some true ∧
    regionRead (dec (fun _ => { Spec.plain with imm := true }) blank (regions 0x10010)) = some false := by decide

/-! ### Memory -/


/-- What an instruction's operand address reaches after its decode. -/
def reaches (sp : Fields → Spec) (f : Fields) (k : OpKind) (n : Nat) (s : State) : Nat :=
  let u := dec sp f s
  kindOf (u.resolve 2 0 k (u.addrA 2 0 (effOf (sp f) f)) n n 0x094 ((effOf (sp f) f).ctlForm n)).1

/-- The pair v0, v1 of the thread names an address. -/
def pairAt (x : Nat) (s : State) : State :=
  withV 0 (BitVec.ofNat 32 x) (withV 1 (BitVec.ofNat 32 (x / 2 ^ 32)) s)

/-- No page of the generic space is mapped. -/
def unmapped : State := { base with mem := [] }

/-- Tensor 0: rank 1, dense, dimension 16, format f32, its values at 0x50000 and its level's descriptor (zeros) at 0x51000. Tensor 1 is the
same with a paged level. Heap 0 has blocks of 256 bytes from 0x80000, 64 KiB for each die,
one block of die 0 in use. -/
def tensors : State :=
  let m := memSetBytes base.mem 0x48000 (toBytes 64 (0x50000 + 0x51000 * 2 ^ 64 + 2 ^ 128 + 2 ^ 136 + 16 * 2 ^ 160))
  let n := memSetBytes m 0x48040 (toBytes 64 (0x50000 + 0x52000 * 2 ^ 64 + 2 ^ 128 + 2 ^ 136 + 6 * 2 ^ 140 + 16 * 2 ^ 160))
  let p := memSetBytes n 0x60000 (toBytes 64 (0x80000 + 0x10000 * 2 ^ 64 + 8 * 2 ^ 128 + 2 ^ 136 + 256 * 2 ^ 256))
  { base with mem := p }.modCtx 0 fun c => { c with tbase := 0x48000, tcount := 2, heapbase := 0x60000 }

theorem witness_TranslationsAndAccessesFrame :
    (match (base.tlbOrWalk (some 0) 0 0 0x30000).2 with
      | .leaf _ _ p => base.nodeOk p 2
      | _ => false) = true ∧
    (base.thread? (base.newAcc 2 0 0 (.value [])).g (base.newAcc 2 0 0 (.value [])).lane).isSome = true := by decide

/-- The number of the clause of `LoadsIssue` whose hypotheses a load meets. -/
def ldClause (f : Fields) (s : State) : Nat :=
  let u := dec specLd f s
  let e := effOf (specLd f) f
  let va := u.addrA 2 0 e
  let n := e.accBytes e.nd
  let load := ldAcc e u 2 0 (.load e.ty n (e.l1 == 1) false e.l1 e.l2)
  let const := ldAcc e u 2 0 (.const e.ty n none e.l1)
  if !(s.solo 2 0 (specLd f) f && memReady e u 2 0) then 99
  else match u.resolve 2 0 .load va n n 0x094 (e.ctlForm n) with
    | (.mem p h, t) => if t.readPoisoned load (.mem p h) n load.past then 2 else 1
    | (.spad _ _ _, _) => 3
    | (.const p h, t) => if t.readPoisoned const (.const p h) n .constant then 5 else 4
    | (.param _, _) => 6
    | (.view i x, t) => (match ((t.viaWalker 2 0 t.now).forView []).bindAll i t with
      | .ok ts t1 => (match (((t.viaWalker 2 0 t.now).forView []).forView ts).viewWhole (ts.headD ⟨0, 0, []⟩) x n va t1 with
        | .ok _ t2 => if t2.readsBound 2 0 then 7 else 12
        | _ => 98)
      | .error (.fault _ _) _ => 13
      | _ => 98)
    | (.ctl off, t) => if !t.releaseReady 2 0 .sys then 98 else if (t.ctlRead (t.slotOf 2) off n).isSome then 8 else 9
    | (.park _, _) => 10
    | (.fault _, _) => 11
    | (.wait, _) => 98

/-- The same for `StoresIssue`. -/
def stClause (f : Fields) (s : State) : Nat :=
  let u := dec specSt f s
  let e := effOf (specSt f) f
  let va := u.addrA 2 0 e
  let bs := u.dataB 2 0 e
  if !(s.solo 2 0 (specSt f) f && memReady e u 2 0) then 99
  else match u.resolve 2 0 .store va bs.length bs.length 0x094 (e.ctlForm bs.length) with
    | (.mem p h, t) => if t.storeRoom 2 va (.mem p h) then 1 else 98
    | (.spad i j o, t) =>
      if t.earlierSame 2 0 t.now (some (.spad i j o)) va bs.length || t.sstAhead 2 t.now (.spad i j o) bs.length then 3 else 2
    | (.ctl off, t) =>
      if !t.releaseReady 2 0 .sys then 98 else if (t.ctlWrite (t.slotOf 2) off bs.length (ofBytes bs)).isSome then 4 else 5
    | (.park p, t) => if t.storeRoom 2 va (.park p) then 6 else 98
    | (.fault _, _) => 7
    | _ => 98

/-- The thread in a trap handler with a word of the control path named. -/
def ctlAt (x : Nat) : State := above 1 (pairAt (0xF000000000000000 + x) base)

/-- A parameter and a constant of the kernel (R161). -/
def withParams : State :=
  { base with launches := base.launches.map fun p =>
      (p.1, { p.2 with params := List.replicate 16 7, kernel := { p.2.kernel with param := 1, csize := 64 } }) }

/-- Every sector of the first mebibyte is poisoned, but for those of the page table. -/
def poisoned (s : State) : State := { s with poison := (List.range 0x3800).map fun k => (k + 0x800, 0) }

theorem witness_LoadsAndStoresIssue :
    [ldClause (fm 0x30000) base, ldClause (fm 0x30000) (poisoned base), ldClause (fm 0) (spadAt 0x7FFFC),
      ldClause (fm 0) (pairAt 0x4000000000001000 withParams), ldClause (fm 0) (poisoned (pairAt 0x4000000000001000 withParams)),
      ldClause (fm 0) (pairAt 0x400000000000000C withParams), ldClause (fm 0) (pairAt 0x5000000000000004 tensors),
      ldClause { fm 0 with typ := .n64 } (ctlAt 0x7108), ldClause { fm 0 with typ := .n64 } (ctlAt 0xFFFFF8),
      ldClause (fm 0x30000) unmapped, ldClause (fm 0x30001) base,
      ldClause (fm 0) (pairAt 0x5000000000000004 (run (.ld { fm 0x30000 with d := .v 6 }) tensors)),
      ldClause (fm 0) (pairAt 0x5000200000000004 tensors)] = [1, 2, 3, 4, 5, 6, 7, 8, 9, 10, 11, 12, 13] ∧
    [stClause (fm 0x30000) base, stClause (fm 0) (spadAt 0), stClause (fm 0) (run (.ld (fm 0)) (spadAt 0)),
      stClause { fm 0 with typ := .n64 } (ctlAt (0x800000 + 0x100 + 8 * 7)), stClause { fm 0 with typ := .n64 } (ctlAt 0xFFFFF8),
      stClause (fm 0x30000) unmapped, stClause (fm 0x30001) base] = [1, 2, 3, 4, 5, 6, 7] := by decide +kernel

/-- What `LoadsLand` asks of the access with a number. -/
def landsAt (s : State) (id : Nat) : Bool :=
  match alGet? s.acc id with
  | none => false
  | some a => match a.op, a.tgt with
    | .load _ n _ _ _ _, some (.mem (.node p)) =>
      a.park.isNone && a.lanes == [] && !s.dstLocked id a && !s.earlierSame a.g a.lane id a.tgt a.va a.op.size &&
        !s.passBehind a && s.mates id a == [(id, a)] && !s.targetOwned (.mem (.node p)) n && !s.poisoned p n && decide (p % 64 + n ≤ 64) &&
        (cacheSector (s.core a.core).l1 (.node p)).isNone && (s.sb.all fun q => q.2.core != a.core) && a.cdst == [] &&
        a.cc.isNone && decide a.dst.Nodup && (s.thread? a.g a.lane).isSome && !(s.thread a.g a.lane).exited
    | _, _ => false

theorem witness_LoadsLand : landsAt (run (.ld (fm 0x30000)) base) base.nextId = true := by decide

/-- A load of a byte that lies in memory: 0xFE, extended by sign. -/
theorem test_load_lands : vOut (exec (.loadResult base.nextId .local)
    (run (.ld { fm 0x30000 with typ := .s8 }) { base with mem := memSetBytes base.mem 0x30000 [0xFE] })) 4 = some 0xFFFFFFFE := by decide

/-- What `StoresReachTheirHome` asks of the entry with a number. -/
def drainsAt (s : State) (id : Nat) : Bool :=
  match alGet? s.sb id with
  | none => false
  | some x => match x.loc with
    | some (.node a) => x.park.isNone && !s.storeBehind id x && !s.ownedBy none a x.bytes.length && s.nodeOk a x.bytes.length
    | _ => false

theorem witness_StoresReachTheirHome : drainsAt (run (.st (fm 0x30000)) base) base.nextId = true := by decide

/-- A granule emptied in the scratchpad of the team. -/
def emptied (s : State) : State := s.modSpad 1 0 fun x => x.setFull 0 false

/-- The number of the clause for `LDFE`, `STFE` and `FECLR` whose hypotheses an access meets. -/
def ldfeClause (f : Fields) (s : State) : Nat :=
  let u := dec specLdfe f s
  let e := effOf (specLdfe f) f
  if !(s.solo 2 0 (specLdfe f) f && memReady e u 2 0) then 99
  else match u.resolve 2 0 .fe (u.addrA 2 0 e) (e.accBytes e.nd) (e.accBytes e.nd) 0x094 false with
    | (.spad _ _ _, _) => 1
    | (.fault _, _) => 2
    | _ => 98
def stfeClause (f : Fields) (s : State) : Nat :=
  let u := dec specStfe f s
  let e := effOf (specStfe f) f
  let n := (u.dataB 2 0 e).length
  if !(s.solo 2 0 (specStfe f) f && stfeReady e u 2 0) then 99
  else match u.resolve 2 0 .fe (u.addrA 2 0 e) n n 0x094 false with
    | (.spad i j o, t) => if t.stfeAhead 2 0 t.now then 3 else if bit e.var 0 && (t.spad i j).isFull o then 2 else 1
    | (.fault _, _) => 4
    | _ => 98
def feclrClause (f : Fields) (s : State) : Nat :=
  let u := dec specFeclr f s
  let e := effOf (specFeclr f) f
  let va := u.addrA 2 0 e
  let n := u.rdB 2 0 e
  if !(s.solo 2 0 (specFeclr f) f && memReady e u 2 0) then 99
  else if n = 0 then 1
  else match u.resolve 2 0 .fe va n 16 0x094 false with
    | (.spad i j o, t) => if n % 16 ≠ 0 then 4 else if t.earlierSame 2 0 t.now (some (.spad i j o)) va n then 3 else 2
    | (.fault c, _) => if c = 0x082 ∧ n % 16 ≠ 0 ∧ fld va 19 41 = 0 then 6 else 5
    | _ => 98

theorem witness_FullEmptyAccessesCompleteAndLand :
    [ldfeClause (fm 0) (spadAt 0), ldfeClause (fm 0x30000) base] = [1, 2] ∧
    [stfeClause (fm 0) (spadAt 0), stfeClause { fm 0 with var := 1 } (spadAt 0),
      stfeClause (fm 0) ((spadAt 0).addAcc ((spadAt 0).newAcc 2 0 0 (.stfe [] true))), stfeClause (fm 0x30000) base] = [1, 2, 3, 4] ∧
    [feclrClause { fm 0 with b := .int 0 } (spadAt 0), feclrClause { fm 0 with b := .int 16 } (spadAt 0),
      feclrClause { fm 0 with b := .int 16 } (run (.ld (fm 0)) (spadAt 0)), feclrClause { fm 0 with b := .int 8 } (spadAt 0),
      feclrClause { fm 0x30000 with b := .int 16 } base, feclrClause { fm 0 with b := .int 24 } (spadAt 0x7FFF0)] = [1, 2, 3, 4, 5, 6] ∧
    (let s := run (.ldfe (fm 0)) (spadAt 0)
     match alGet? s.acc base.nextId with
      | some a => (match a.op, a.tgt with
        | .ldfe _ _ k, some (.spad 1 0 0) => !s.dstLocked base.nextId a && !s.ldfeBehind base.nextId a k 1 0 0 && !s.passBehind a &&
            s.mates base.nextId a == [(base.nextId, a)] && !s.bankBehind a &&
            a.cdst == [] && a.cc.isNone && decide a.dst.Nodup && !(s.thread a.g a.lane).exited &&
            !s.earlierSame a.g a.lane base.nextId a.tgt a.va a.op.size && a.park.isNone && (s.spad 1 0).isFull 0
        | _, _ => false)
      | none => false) = true ∧ ((emptied (run (.ldfe (fm 0)) (spadAt 0))).spad 1 0).isFull 0 = false := by decide +kernel

/-- What `AtomicsPerformAtTheirHome` asks of the access with a number; for a queue operation on a good queue, its slot too. -/
def performsAt (s : State) (id : Nat) : Bool :=
  match alGet? s.acc id with
  | none => false
  | some a => match a.op, a.tgt with
    | .atom op, some (.mem (.node p)) =>
      a.park.isNone && !s.dstLocked id a && !s.earlierSame a.g a.lane id a.tgt a.va a.op.size &&
        !s.targetOwned (.mem (.node p)) a.op.size && !s.ownBuffered id a && !s.atomBehind id a && !s.passBehind a &&
        !s.poisoned p a.op.size && a.cdst == [] && decide a.dst.Nodup && s.nodeOk p 64 && (s.thread? a.g a.lane).isSome &&
        !(s.thread a.g a.lane).exited && (!op.isQueue || (!s.queueBehind id a && (queueBad (s.readNodeN p 16) ||
          match s.slotOf' id a op (.mem (.node p)) with
          | (.at' (.mem (.node q)) _, u) => u.nodeOk p 16 && u.nodeOk q 8 && !queueBad (u.readNodeN p 16) && decide (q + 8 ≤ p ∨ p + 4 ≤ q)
          | _ => false)))
    | _, _ => false

/-- The state a cycle later. -/
def later (s : State) : State := { s with cycle := s.cycle + 1 }

/-- A queue of two slots at 0x30000, with `n` entries pushed. -/
def queueAt (n : Nat) : State := { base with mem := memSetBytes base.mem 0x30000 (toBytes 16 (n + 2 ^ 64)) }

theorem witness_AtomicsPerformAtTheirHome : performsAt (run (.atom (fm 0)) (pairAt 0x30000 base)) base.nextId = true ∧
    performsAt (run (.atomc { fm 0x30000 with c := .v 10 }) base) base.nextId = true ∧
    performsAt (later (run (.qpush { fm 0x30000 with b := .v 6, c := .cc 1 }) (queueAt 1))) base.nextId = true ∧
    queueBad ((queueAt 1).readNodeN 0x30000 16) = false ∧
    performsAt (later (run (.qpop { fm 0x30000 with d := .v 4, b := .v 0, c := .cc 1 }) (queueAt 1))) base.nextId = true ∧
    (let s := { queueAt 1 with mem := memSetBytes base.mem 0x30000 (toBytes 16 (25 * 2 ^ 64)) }
     performsAt (later (run (.qpop { fm 0x30000 with d := .v 4, b := .v 0, c := .cc 1 }) s)) base.nextId = true ∧
     queueBad (s.readNodeN 0x30000 16) = true) := by decide +kernel

/-- An atomic addition to 5, and a push and a pop of a queue. -/
theorem test_atomics : after (exec (.loadResult base.nextId .local) (run (.atom { fm 0 with b := .int 3 })
      (pairAt 0x30000 { base with mem := memSetBytes base.mem 0x30000 [5] }))) (fun t => (t.readNodeN 0x30000 4, ((t.thread 2 0).vreg 4).toNat)) = some (8, 5) ∧
    after (exec (.loadResult base.nextId .local) (later (run (.qpush { fm 0x30000 with b := .v 6, c := .cc 1 }) (withV 6 9 (queueAt 1)))))
      (fun t => (t.readNodeN 0x30000 4, t.readNodeN 0x30018 4)) = some (2, 9) := by decide

/-- The number of the clause of `AtomIssues` whose hypotheses an instruction of a row, at an address, of a size meets. -/
def atomClause (sp : Fields → Spec) (addr : State → Nat → Nat → Eff → Dword) (n : Nat) (f : Fields) (s : State) : Nat :=
  let u := dec sp f s
  let e := effOf (sp f) f
  let va := addr u 2 0 e
  if !(s.solo 2 0 (sp f) f && readyAt e u 2 0 e.rel va) then 99
  else match u.resolve 2 0 .atomic va n n 0x094 false with
    | (.mem p h, t) => if t.rsvPoisoned (.mem p h) n then 4 else 1
    | (.spad _ _ _, _) => 2
    | (.park _, _) => 3
    | (.fault _, _) => 5
    | _ => 98

/-- Those clauses for an address in memory, in the scratchpad, on an unmapped page, poisoned, and misaligned. -/
def atomClauses (sp : Fields → Spec) (addr : State → Nat → Nat → Eff → Dword) (n : Nat) (f : Fields) : List Nat :=
  [pairAt 0x30000 base, spadAt 0, pairAt 0x30000 unmapped, poisoned (pairAt 0x30000 base), pairAt 0x30001 base].map
    (atomClause sp addr n f)

/-- The rows of `PREF`, `PROBE` and `FENCE`. -/
def specPref (_ : Fields) : Spec := { Spec.plain with types := [.n32], a := slPair, l1 := true, l2 := true, imm := true }
def specProbe (f : Fields) : Spec :=
  { Spec.plain with types := [.n32], var := if f.var = 1 then 1 else 0, d := slSrc32, a := slPair, l2 := true, imm := true }
def specFence (f : Fields) : Spec := { Spec.plain with var := f.var &&& 7, scope := some .grp, rels := (fenceHalves f.var).2 }

theorem witness_AtomicsPrefetchesAndFencesIssue :
    atomClauses (specAtom false) State.addrAtom 4 (fm 0) = [1, 2, 3, 4, 5] ∧
    atomClauses (specAtom true) State.addrAtom 4 (fm 0) = [1, 2, 3, 4, 5] ∧
    atomClauses (specAtom true) State.addrAtom 64 { fm 0xA0000 with typ := .f32 } = [1, 2, 3, 4, 5] ∧
    atomClauses specAtomc State.addrA 4 { fm 0 with c := .v 10 } = [1, 2, 3, 4, 5] ∧
    atomClauses (specQueue slNone ⟨.vec, 2⟩) State.addrA 16 { fm 0 with b := .v 6, c := .cc 1 } = [1, 2, 3, 4, 5] ∧
    atomClauses (specQueue slSrc64 slNone) State.addrA 16 { fm 0 with c := .cc 1 } = [1, 2, 3, 4, 5] ∧
    ok specPref (fm 0x30000) = true ∧ ok specProbe (fm 0x30000) = true ∧
    (base.probe 2 0 0x30000 false (base.resolve 2 0 .load 0x30000 1 1 0x094 true).1).isSome = true ∧
    (pairAt 0x6000000000000000 base).solo 2 0 (specProbe (fm 0)) (fm 0) = true ∧
    (match (base.resolve 2 0 .load 0x6000000000000000 1 1 0x094 true).1 with
      | .mem p _ => p.untracked
      | _ => false) = true ∧
    ok specFence { blank with var := 3, scope := .dev } = true ∧
    base.acqPending 2 0 = false ∧ base.readsBound 2 0 = true ∧ base.releaseReady 2 0 .dev = true := by decide +kernel

/-- What a run of pieces resolves to: 0 places, one of them perhaps a wait (9), 1 a cause. -/
def runOk (k : OpKind) (va : Dword) (qs : List (Nat × Nat)) (s : State) : Nat :=
  match (s.resolveRun 2 0 k va 16 qs).1 with
  | .inr rs => if rs.any fun r => r.2 == .wait then 9 else 0
  | .inl _ => 1

/-- The number of the clause for `PSTW.cell` and `PLDW.cell` whose hypotheses an instruction meets. -/
def pstCellClause (f : Fields) (s : State) : Nat :=
  let u := dec (specPst true) f s
  let va := u.addrA 2 0 (effOf (specPst true f) f)
  if !(s.solo 2 0 (specPst true f) f && !u.acqPending 2 0) then 99
  else match u.resolve 2 0 .store va 64 64 0x094 false with
    | (.mem p h, t) => if t.storeRoom 2 va (.mem p h) then 1 else 98
    | (.spad i j o, t) => if t.earlierSame 2 0 t.now (some (.spad i j o)) va 64 || t.sstAhead 2 t.now (.spad i j o) 64 then 3 else 2
    | (.park p, t) => if t.storeRoom 2 va (.park p) then 4 else 98
    | (.fault _, _) => 5
    | _ => 98
def pldCellClause (f : Fields) (s : State) : Nat :=
  let u := dec (specPld true) f s
  let va := u.addrA 2 0 (effOf (specPld true f) f)
  let acc := u.newAcc 2 0 va (.cell 1)
  if !(s.solo 2 0 (specPld true f) f && !u.acqPending 2 0) then 99
  else match u.resolve 2 0 .load va 64 64 0x094 false with
    | (.mem p h, t) => if t.readPoisoned acc (.mem p h) 64 .none then 2 else 1
    | (.const p h, t) => if t.readPoisoned acc (.const p h) 64 .none then 4 else 3
    | (.param _, _) => 5
    | (.view i x, t) => (match ((t.viaWalker 2 0 t.now).forView []).bindAll i t with
      | .ok ts t1 => (match (((t.viaWalker 2 0 t.now).forView []).forView ts).viewWhole (ts.headD ⟨0, 0, []⟩) x 64 va t1 with
        | .ok _ _ => 6
        | _ => 98)
      | _ => 98)
    | (.spad _ _ _, _) => 7
    | (.park _, _) => 8
    | (.fault _, _) => 9
    | _ => 98

/-- Tensor 0 holds bytes at an address, in a dimension of 2^20. -/
def wideTensor (va : Nat) : State :=
  { tensors with mem := memSetBytes tensors.mem 0x48000 (toBytes 64 (va + 0x51000 * 2 ^ 64 + 14 * 2 ^ 128 + 2 ^ 136 + 2 ^ 180)) }

/-- The number of the clause for a `PLDW` of the compressed view whose hypotheses an instruction meets. -/
def viewImageClause (f : Fields) (s : State) : Nat :=
  let u := dec (specPld false) f s
  let e := effOf (specPld false f) f
  let va := u.addrA 2 0 e
  let n := (u.imageWants 2 false [0]).foldl (fun (m : Nat) p => max m (p.1 + p.2)) 0
  if !(s.solo 2 0 (specPld false f) f && memReadyOnce e u 2 0 [0] && fld va 60 4 == 5) then 99
  else match u.resolveRun 2 0 .load va 16 [(0, n)] with
    | (.inr [((0, k), .view j x)], t) =>
      let v := (t.beginImage 2 e false [0] va 1).2
      let w := (v.viaWalker 2 0 v.now).forView []
      if k ≠ n then 98
      else (match w.bindAll j v with
        | .ok ts t1 => (match (w.forView ts).viewWhole (ts.headD ⟨0, 0, []⟩) x n va t1 with
          | .ok _ _ => 1
          | _ => 98)
        | .error (.fault _ _) _ => 2
        | _ => 98)
    | (.inl _, _) => 3
    | _ => 98

/-- The kernel has 64 bytes of parameters and of constants. -/
def wideParams : State :=
  { withParams with launches := withParams.launches.map fun p =>
      (p.1, { p.2 with params := List.replicate 64 7, kernel := { p.2.kernel with param := 4 } }) }

/-- A raw image at 0x30000 loads into p1, whose header `h` alone stands there; all but its last piece has landed, and L1 is empty. -/
def imageLands (h : Nat) : State × Nat :=
  let s := run (.pldw { fm 0x30000 with d := .p 1, b := .v 0 }) { base with mem := memSetBytes base.mem 0x30000 (toBytes 16 h) }
  let ids := (s.acc.filter fun p => match p.2.op with
    | .image _ _ _ => true
    | _ => false).map fun p => p.1
  ((ids.dropLast.foldl (fun t i => run (.loadResult i .local) t) s).modCore 0 fun c => { c with l1 := [] }, ids.getLast?.getD 0)

/-- What `PlyImagesLand` asks of that piece: 0 a right header, 1 a wrong one. -/
def imageClause (s : State) (id : Nat) : Nat :=
  match alGet? s.acc id with
  | none => 99
  | some a => match a.op, a.tgt, s.group? a.g with
    | .image img off n, some (.mem (.node p)), some x => (match alGet? x.pimgs img with
      | none => 99
      | some m =>
        let byte := fun i => if off ≤ i ∧ i < off + n then (s.readNode p n).getD (i - off) 0 else alGet m.got 0 i
        if a.park.isNone && !s.dstLocked id a && !s.earlierSame a.g a.lane id a.tgt a.va a.op.size && !s.passBehind a &&
            !s.targetOwned (.mem (.node p)) n && !s.poisoned p n && decide (p % 64 + n ≤ 64) &&
            (cacheSector (s.core a.core).l1 (.node p)).isNone && (s.sb.all fun q => q.2.core != a.core) && m.left == 1 &&
            decide (m.reg < 16) && !m.tile && m.lanes == [0] && (s.thread? a.g 0).isSome then
          if headerOk (ofBytes ((List.range 16).map byte)) false x.width then 0 else 1
        else 98)
    | _, _, _ => 97

theorem witness_PlyImagesMove : ok (specPst false) { fm 0x30000 with b := .p 1 } = true ∧
    runOk .store 0x30000 ((imagePieces base 2 0 (effOf (specPst false blank) { fm 0x30000 with b := .p 1 })).map (·.1)) base = 0 ∧
    runOk .store 0x30001 ((imagePieces base 2 0 (effOf (specPst false blank) { fm 0x30000 with b := .p 1 })).map (·.1)) base = 1 ∧
    base.acqPending 2 0 = false ∧ base.sbFits 0 64 = true ∧ okT (specPst false) { fm 0x30000 with b := .a 2, var := 1 } = true ∧
    [pstCellClause { fm 0x30000 with b := .p 1, var := 1 } base, pstCellClause { fm 0 with b := .p 1, var := 1 } (spadAt 0),
      pstCellClause { fm 0 with b := .p 1, var := 1 } (run (.ld (fm 0)) (spadAt 0)), pstCellClause { fm 0x30000 with b := .p 1, var := 1 } unmapped,
      pstCellClause { fm 0x30001 with b := .p 1, var := 1 } base] = [1, 2, 3, 4, 5] ∧
    ok (specPld false) { fm 0x30000 with d := .p 1, b := .v 0 } = true ∧
    memReadyOnce (effOf (specPld false blank) { fm 0x30000 with d := .p 1 }) base 2 0 [0] = true ∧
    runOk .load 0x30000 ((base.imageWants 2 false [0]).flatMap fun p => atomsOf 0x30000 p.1 p.2) base = 0 ∧
    runOk .load 0x30001 ((base.imageWants 2 false [0]).flatMap fun p => atomsOf 0x30001 p.1 p.2) base = 1 ∧
    (let f := { fm 0 with d := .p 1, b := .v 0 }
     [viewImageClause f (pairAt 0x5000000000000000 (wideTensor 0x50000)), viewImageClause f (pairAt 0x5000200000000000 tensors),
       viewImageClause f (pairAt 0x5000000000000001 tensors)]) = [1, 2, 3] ∧
    (let f := { fm 0 with d := .p 1, b := .v 0, var := 1 }
     [pldCellClause f (pairAt 0x30000 base), pldCellClause f (poisoned (pairAt 0x30000 base)),
       pldCellClause f (pairAt 0x4000000000001000 withParams), pldCellClause f (poisoned (pairAt 0x4000000000001000 withParams)),
       pldCellClause f (pairAt 0x4000000000000000 wideParams), pldCellClause f (pairAt 0x5000000000000000 tensors),
       pldCellClause f (spadAt 0), pldCellClause f (pairAt 0x30000 unmapped), pldCellClause f (pairAt 0x30001 base)]) =
         [1, 2, 3, 4, 5, 6, 7, 8, 9] := by decide +kernel

theorem witness_PlyImagesLand : imageClause (imageLands (2 ^ 16 + 16 * 2 ^ 32)).1 (imageLands (2 ^ 16 + 16 * 2 ^ 32)).2 = 0 ∧
    imageClause (imageLands 0xFFFFFFFF).1 (imageLands 0xFFFFFFFF).2 = 1 := by decide +kernel

/-! ### Cursors, records and heaps -/

/-- A cursor at entry `p` of tensor 0, another of a kind, an append cursor and a fault form. -/
def live (p : Nat) : BitVec 192 := Cur.bits ⟨0, 0, 0, false, false, true, p, 16, 0, p, 0⟩
def ofKind (k : Nat) : BitVec 192 := Cur.bits ⟨0, 0, k, false, false, true, 0, 16, 0, 0, 0⟩
def appending : BitVec 192 := Cur.bits ⟨1, 0, 6, false, true, true, 0, 30, 0, 0, 0⟩
def broken (nf : Bool) : BitVec 192 := (faultForm 0 0 0 nf 0x107 5).bits

/-- The thread with c0 and c1. -/
def withC (a b : BitVec 192) (s : State) : State := s.modThread 2 0 fun t => { t with c := [(0, a), (1, b)] }

/-- D = c2, A = c0, B = 1, C = 0. -/
def fcur : Fields := { blank with d := .c 2, a := .c 0, b := .int 1, c := .int 0 }

/-- The instruction issues to the walker from a state: nothing holds it back and the walker has room. -/
def walks (sp : Fields → Spec) (f : Fields) (s : State) : Bool :=
  s.solo 2 0 (sp f) f && walkReady (effOf (sp f) f) (s.begun 2 (sp f) f) 2 0

/-- What an operation of the walker gives: 0 a result, 1 a cause, 2 it waits or parks. -/
def walkKind (op : WalkOp) (s : State) : Nat :=
  match ({ s.viaWalker 2 0 s.now with bound := [] } : Via).run op s with
  | .ok _ _ => 0
  | .error (.fault _ _) _ => 1
  | _ => 2

/-- The number of the clause for `CLDV` whose hypotheses an instruction meets. -/
def ldvClause (f : Fields) (s : State) : Nat :=
  let sp := fun _ : Fields => { specCur 0 slSrc32 slCur slSrc32 slNone with l2 := true }
  let u := dec sp f s
  let e := effOf (sp f) f
  let c := u.cursor 2 0 e.a
  let recs := (u.bindRecs 2 0 [(curOf c).tid]).1
  let stop := (u.bindRecs 2 0 [(curOf c).tid]).2.1
  let u1 := (u.bindRecs 2 0 [(curOf c).tid]).2.2
  if !walks sp f s then 99
  else if (checkA false e u 2 0).isSome then 1
  else if (curOf c).done then 2
  else match e.d with
    | .v k =>
      if !((ldvMarks recs k.toNat).all fun n => !(u1.thread 2 0).vEmpty.contains n) then 98
      else (match stop with
        | some (.fault _ _) => 3
        | some (.park _) => 4
        | some .wait => 98
        | none => match ({ u1.viaWalker 2 0 u1.now with bound := recs } : Via).run (.ldv c (u.rdB 2 0 e) e.l2) u1 with
          | .ok _ _ => if u1.readsBound 2 0 then 5 else 6
          | .error (.park _) _ => 7
          | .error (.fault _ _) _ => 8
          | _ => 98)
    | _ => 98

/-- Whether the walk of a `CPREF` of the cursor in c0 goes through from a state (1), or ends at a fault (2). -/
def prefClause (f : Fields) (s : State) : Nat :=
  let sp := fun f : Fields => { specCur (f.var &&& 1) slNone slCur slSrc32 slNone with l2 := true }
  let u := dec sp f s
  let e := effOf (sp f) f
  let c := curOf (u.cursor 2 0 e.a)
  let recs := (u.bindRecs 2 0 [c.tid]).1
  let u1 := (u.bindRecs 2 0 [c.tid]).2.2
  if !s.solo 2 0 (sp f) f then 99
  else if !c.valid || c.append then 0
  else match ({ u1.viaWalker 2 0 u1.now with bound := recs } : Via).prefetch (if e.v0 then some e.l2 else none)
      (min (u.rdB 2 0 e) 4096) c false u1 with
    | .ok _ _ => 1
    | .error _ _ => 2

theorem witness_CursorInstructionsComplete :
    let s := withC (live 3) (live 3) tensors
    let ap := withC appending 0 tensors
    walks (fun f => specCur (f.var &&& 9) slCur slSrc32 slNone slNone) { fcur with a := .int 0, b := .v 0 } s = true ∧
    walks (fun f => specCur (f.var &&& 9) slCur slSrc32 slSrc32 slSrc32) { fcur with var := 1, a := .int 0 } s = true ∧
    walks (fun f => specCur (f.var &&& 8) slCur slCur slNone slNone) fcur s = true ∧
    walks (fun f => specCur (f.var &&& 8) slCur slCur slSrc32 slNone) fcur s = true ∧
    walks (fun f => specCur (f.var &&& 8) slCur slCur slSrc32 slSrc32) fcur s = true ∧
    curCheck false (s.cursor 2 0 (.c 0)) 0 = none ∧ curCheck false (ap.cursor 2 0 (.c 0)) 0 = some (0x107, 0) ∧
    curCheck false (broken true) 7 = some (0x102, 7) ∧ (curOf (ofKind 6)).kind = 6 ∧
    walks (fun f => { specCur (f.var &&& 8) slCur slCur slSrc32 slSrc32 with scope := some .core, rels := true }) { fcur with d := .c 0 } ap = true ∧
    checkAppend (effOf (specCur 0 slCur slCur slNone slNone) { fcur with d := .c 0 }) ap 2 0 = none ∧
    (checkAppend (effOf (specCur 0 slCur slCur slNone slNone) fcur) ap 2 0).map (·.1) = some 0x107 ∧
    walks (fun f => { specCur (f.var &&& 9) slCur slSrc32 slSrc32 slSrc32 with e := slSrc32, scope := some .core, rels := true })
      { fcur with var := 1, a := .int 1, e := .int 0 } s = true ∧
    walks (fun f => { specCur (f.var &&& 9) slCur slCur slNone slNone with scope := some .core, rels := true }) { fcur with d := .c 0 } ap = true := by
  decide +kernel

/-- The table of tensors lies on a page that is not present. -/
def lostTable : State := tensors.modCtx 0 fun c => { c with tbase := 0x9000000000 }

theorem witness_CursorReadsComplete :
    let s := withC (live 3) (live 3) tensors
    walks (fun f => { specCur (f.var &&& 0xB) ⟨.cur, 2⟩ slCur slCur slCc with outC := true }) { fcur with b := .c 1, c := .cc 1 } s = true ∧
    (coitMethod 0 0).isSome = true ∧ coitMethod 6 6 = none ∧ unionKind 0 = true ∧ unionKind 6 = false ∧
    s.solo 2 0 (specCur 0 ⟨.src, 1⟩ slCur slNone slNone) { fcur with d := .v 4 } = true ∧
    s.solo 2 0 (specCur 2 ⟨.src, 2⟩ slCur slNone slNone) { fcur with d := .v 4, var := 2 } = true ∧ (curOf (live 3)).valid = true ∧
    ((curOf (broken true)).isFault && (curOf (broken true)).nf) = true ∧ (curOf 0).valid = false ∧ (curOf 0).isFault = false ∧
    s.solo 2 0 (specCur 0 slCc slCur slNone slNone) { fcur with d := .cc 1 } = true ∧
    (let f := { fcur with d := .v 4 }
     [ldvClause f (withC appending 0 tensors), ldvClause f (withC ((curOf (live 3)).finish 0).bits 0 tensors),
       ldvClause f (withC (live 3) 0 base), ldvClause f (withC (live 3) 0 lostTable), ldvClause f s,
       ldvClause f (run (.ld { fm 0x30000 with d := .v 6 }) s), ldvClause f (withC (live 3) 0 (wideTensor 0x9000000000)),
       ldvClause f (withC (live 3) 0 (wideTensor 0x1000000000000000))]) =
         [1, 2, 3, 4, 5, 6, 7, 8] ∧
    walks (fun _ => specCur 0 slSrc64 slSrc32 slNone slNone) { fcur with d := .v 4, a := .int 0 } s = true ∧
    walkKind (.alloc 0) s = 0 ∧ walkKind (.alloc 1) s = 1 ∧
    walks (fun _ => { specCur 0 slNone slSrc64 slSrc32 slNone with rels := true }) { fcur with a := .v 0, b := .int 0 } s = true ∧
    s.releaseReady 2 0 .dev = true ∧ walkKind (.free 0x80000 0 [0]) s = 0 ∧ walkKind (.free 0x80001 0 [0]) s = 1 ∧
    prefClause { fcur with d := .v 0 } (withC 0 0 tensors) = 0 ∧ prefClause { fcur with d := .v 0 } s = 1 ∧
    prefClause { fcur with d := .v 0 } (withC (live 3) 0 base) = 2 := by decide +kernel

/-- Cursors of the worked rules: `CROOT` opens the dense fibre at 0 with END 16, `NEXT` goes to coordinate 4, and past the last it is done. -/
theorem test_walks : after (exec (.walkerResult 3) (run (.croot { fcur with a := .int 0 }) tensors))
      (fun t => curOf ((t.thread 2 0).creg 2)) = some ⟨0, 0, 0, false, false, true, 0, 16, 0, 0, 0⟩ ∧
    after (exec (.walkerResult 3) (run (.next fcur) (withC (live 3) 0 tensors))) (fun t => curOf ((t.thread 2 0).creg 2)) =
      some ⟨0, 0, 0, false, false, true, 4, 16, 0, 4, 0⟩ ∧
    after (exec (.walkerResult 3) (run (.next fcur) (withC (live 15) 0 tensors))) (fun t => curOf ((t.thread 2 0).creg 2)) =
      some ⟨0, 0, 0, true, false, true, 16, 16, 1, 0xFFFFFFFF, 0⟩ ∧
    after (exec (.walkerResult 3) (run (.halloc { fcur with d := .v 4, a := .int 0 }) tensors))
      (fun t => (((t.thread 2 0).vreg 4).toNat, t.readNodeN 0x60020 8)) = some (0x80100, 512) := by decide +kernel

/-- What `WalkerResultsLand` asks of the access with a number, and whether the walker finds a result (0) or a cause (1). -/
def walkLands (s : State) (id : Nat) : Option Nat :=
  match alGet? s.acc id with
  | none => none
  | some a => match a.op with
    | .walk op _ =>
      if op.deferred && s.walkMay id a op && a.dst == [] && decide a.cdst.Nodup && a.acq.isNone then
        match ({ s.viaWalker a.g a.lane id with bound := a.recs } : Via).run op s with
        | .ok _ t => if (t.thread? a.g a.lane).isSome && !(t.thread a.g a.lane).exited then some 0 else none
        | .error (.fault _ _) t => if (t.thread? a.g a.lane).isSome && !(t.thread a.g a.lane).exited then some 1 else none
        | _ => none
      else none
    | _ => none

theorem witness_WalkerResultsLand : walkLands (run (.next fcur) (withC (live 3) 0 tensors)) 3 = some 0 ∧
    walkLands (run (.next fcur) (withC (live 3) 0 base)) 3 = some 1 ∧
    walkLands (run (.coit { fcur with b := .c 1, c := .cc 1 }) (withC (live 3) (live 3) tensors)) 3 = some 0 := by decide +kernel

theorem witness_CtestWritesFlags :
    (withC (live 3) 0 base).solo 2 0 (specCur 0 slCc slCur slNone slNone) { fcur with d := .cc 1 } = true ∧
    (withC (broken true) 0 base).solo 2 0 (specCur 0 slCc slCur slNone slNone) { fcur with d := .cc 1 } = true ∧
    (let s := withC (broken false) 0 handled
     let e := effOf (specCur 0 slCc slCur slNone slNone) { fcur with d := .cc 1 }
     e.guard.passes (s.thread 2 0) && s.screenReady 2 0 e && (s.thread 2 0).full e.a 1 &&
       decide ((s.thread 2 0).creg 0 = broken false) && decide ((s.thread 2 0).level = 0) &&
       decide ((s.handler 2 0x107).1 = .at' 0x50000)) = true := by decide +kernel

/-- `CTEST` of a done cursor of an empty fibre sets Z and C; of a fault form without `.nf` it traps with its cause. -/
theorem test_ctest : ccOut (exec (.ctest { fcur with d := .cc 1 }) (withC ((curOf (live 3)).finish 0).bits 0 base)) 1 = some 6 ∧
    trapOut (exec (.ctest { fcur with d := .cc 1 }) (withC (broken false) 0 handled)) = some (0x50000, 1, 0x107, 5) := by decide +kernel

/-! ### Records and modes -/

/-- The thread with s1 as tensor 0's record with another version. -/
def shaped (v : Nat) : State := tensors.setShape 2 (.s 1) (setFld (BitVec.ofNat 512 (ofBytes (tensors.readNode 0x48000 64))) 386 16 v)

/-- Whether a piece of work ends with a value. -/
def wkOk {α : Type} (w : Wk α) (s : State) : Bool :=
  match w s with
  | .ok _ _ => true
  | _ => false

/-- How the read of `TLD` of tensor 0 ends: 0 with the record, 1 it waits, 2 it parks, 3 it faults. -/
def tldReads (s : State) : Nat :=
  match (s.viaThread 2 0 s.now).record 0 s with
  | .ok _ _ => 0
  | .error .wait _ => 1
  | .error (.park _) t => if t.parkTraps 2 0 then 9 else 2
  | .error (.fault _ _) _ => 3

theorem witness_RecordsFieldsAndModesComplete :
    let tld := { blank with d := .s 2, a := .int 0 }
    let tst := { blank with a := .int 0, b := .s 1 }
    let sw := { blank with d := .v 4, a := .int 0, b := .s 1 }
    (shaped 0).solo 2 0 { Spec.plain with var := 0, d := slShape, a := slSrc32, scope := some .die, ord := some (true, false) } tld = true ∧
    [tldReads (shaped 0), tldReads { shaped 0 with owners := [(0x48000 / 128, [9])] }, tldReads lostTable, tldReads base] = [0, 1, 2, 3] ∧
    recReady false (effOf { Spec.plain with d := slShape, a := slSrc32, scope := some .die, ord := some (true, false) } tld) (shaped 0)
      2 0 [0] = true ∧
    (shaped 0).solo 2 0 { Spec.plain with var := 0, a := slSrc32, b := slShape, scope := some .dev, ord := some (false, true) } tst = true ∧
    (shaped 0).recordBuffered 2 0 = false ∧
    wkOk ((shaped 0).putRecord 2 0 0 ((shaped 0).shape 2 (.s 1))) (shaped 0) = true ∧
    (shaped 0).solo 2 0 { Spec.plain with d := slVec32, a := slSrc32, b := slShape, scope := some .dev, rels := true } sw = true ∧
    (match (shaped 0).homeRecord 2 0 0 (shaped 0) with
      | .ok old t => recVer old == recVer ((shaped 0).shape 2 (.s 1)) &&
          wkOk ((shaped 0).putRecord 2 0 0 (setFld ((shaped 0).shape 2 (.s 1)) 386 16 1)) t
      | _ => false) = true ∧
    (match (shaped 9).homeRecord 2 0 0 (shaped 9) with
      | .ok old _ => recVer old != recVer ((shaped 9).shape 2 (.s 1))
      | _ => false) = true ∧
    (shaped 0).solo 2 0 { Spec.plain with var := 0, a := slSrc32, scope := some .dev, rels := true } { blank with a := .int 1 } = true ∧
    (shaped 0).solo 2 0 { Spec.plain with var := 1, a := slNone, scope := some .dev, rels := true } { blank with var := 1 } = true ∧
    ((shaped 0).ctx 0).tcount.toNat = 2 ∧
    ok (fun f => { Spec.plain with
      var := varField f.var, d := slShape, a := if (varField f.var).toNat ≤ 1 then slSrc64 else slSrc32,
      b := if fieldLevel (varField f.var) then slSrc32 else slNone }) { blank with var := 4, d := .s 1, a := .int 1, b := .int 6 } = true ∧
    recField 4 6 = none ∧ (recField 4 5).isSome = true ∧
    ok (fun f => { Spec.plain with var := varMode f.var, a := slSrc32, b := slSrc32 }) { blank with a := .int 1, b := .int 1 } = true ∧
    flgReady (effOf { Spec.plain with a := slSrc32, b := slSrc32 } { blank with a := .int 1, b := .int 1 }) base 2 0 [0] = true ∧
    ok (fun f => { Spec.plain with var := varMode f.var, d := slVec32 }) { blank with var := 2, d := .v 4 } = true := by decide +kernel

/-- `TSWAP` with the version of the record writes it with the next one; with another it writes nothing. -/
theorem test_tswap : after (exec (.tswap { blank with d := .v 4, a := .int 0, b := .s 1 }) (shaped 0))
      (fun t => (((t.thread 2 0).vreg 4).toNat, recVer (BitVec.ofNat 512 (t.readNodeN 0x48000 64)))) = some (0, 1) ∧
    after (exec (.tswap { blank with d := .v 4, a := .int 0, b := .s 1 }) (shaped 9))
      (fun t => (((t.thread 2 0).vreg 4).toNat, recVer (BitVec.ofNat 512 (t.readNodeN 0x48000 64)))) = some (0, 0) := by decide +kernel

/-! ### Commands, futures and barrier objects -/

/-- The thread with a command block at 0x30000, named by the pair v0, v1. -/
def block (b : Nat) (s : State) : State := pairAt 0x30000 { s with mem := memSetBytes s.mem 0x30000 (toBytes 64 b) }

/-- D = the pair v4, v5, A = the pair v0, v1. -/
def fcmd : Fields := { blank with d := .v 4, a := .v 0 }

/-- What `CommandIssues` asks where a command issues (0), its views failing (3), and where its block is malformed (1) or not read (2). -/
def issuesCmd (op : EngOp) (ok : BitVec 4 → BitVec 4) (f : Fields) (s : State) : Nat :=
  let u := s.begun 2 (specCmd ok .core f) f
  let e := effOf (specCmd ok .core f) f
  if s.solo 2 0 (specCmd ok .core f) f && cmdReady 1024 EngOp.copies e u 2 0 && !u.laneAhead e 2 0 then
    match u.issueRead 2 0 (u.addrA 2 0 e) 64 0x111 with
    | .ok b t => if (blockReason op b).isSome then 1
        else match (Via.make (t.cmdIssuer 2 0) (some (2, 0, t.now)) false none [] 0).bindBlock op b t with
          | .ok ts v =>
            let views := fun (v : State) => match (Via.make (t.cmdIssuer 2 0) (some (2, 0, t.now)) false none [] 0).bindViews 65536
                (viewsOf op b ts) ts v with
              | .ok _ _ => 0
              | .error (.fault _ _) _ => 3
              | _ => 9
            if op = .gathr then (match v.issueRead 2 0 (bSrc b) 16 0x094 with
              | .ok _ w => views w
              | _ => 9) else views v
          | _ => 9
    | .trap _ _ _ => 2
    | _ => 9
  else 9

/-- A `COPY` of 8 bytes from 0x50000 to 0x58000 with its record at 0x5A000; a table operation on tensor 0 with its list at 0x59000. -/
def copyBlock : Nat := 0x50000 + 0x58000 * 2 ^ 64 + 8 * 2 ^ 128 + 0x5A000 * 2 ^ 320
def tableBlock : Nat := 2 ^ 176

theorem witness_CommandsIssue : issuesCmd .copy (fun v => v &&& 3) fcmd (block copyBlock base) = 0 ∧
    issuesCmd .copy (fun v => v &&& 3) fcmd (block (copyBlock + 2 ^ 180) base) = 1 ∧
    issuesCmd .copy (fun v => v &&& 3) fcmd (pairAt 0x30008 base) = 2 ∧
    issuesCmd .copy (fun v => v &&& 3) fcmd (block (copyBlock + 0x5000200000000000 - 0x50000) tensors) = 3 ∧
    issuesCmd .xform (fun v => v &&& 3) fcmd (block copyBlock base) = 0 ∧
    issuesCmd .gathr (fun v => v &&& 3) fcmd (block (tableBlock + 0x59000) tensors) = 0 ∧
    issuesCmd (.scatr false) varTwo fcmd (block (tableBlock + 0x59000 * 2 ^ 384) tensors) = 0 ∧
    issuesCmd (.scatr true) varTwo { fcmd with var := 4 } (block (tableBlock + 0x59000 * 2 ^ 384) tensors) = 0 ∧
    issuesCmd (.sortu false) varTwo fcmd (block 0x50000 base) = 0  ∧
    (base.fresh.2.takeEntry 0 0 base.nextId .core).isSome = true ∧
    ok (fun _ => { Spec.plain with types := [.n32], var := 1, a := slPair, b := slSrc32, imm := true })
      { fm 0x30000 with d := .v 0, var := 1, b := .int 0 } = true ∧
    (match ((Via.make (tensors.cmdIssuer 2 0) (some (2, 0, tensors.now)) false none [] 0).tensor 0 tensors) with
      | .ok _ _ => true
      | _ => false) = true := by decide +kernel

/-- The copy as it stands after `n` events of its engine, its number being 3. -/
def copying : Nat → State
  | 0 => run (.copy fcmd) (block copyBlock { base with mem := memSetBytes base.mem 0x50000 [1, 2, 3, 4, 5, 6, 7, 8] })
  | n + 1 => run (.engineWrite 3) (copying n)

/-- What `EnginesWritePieces` asks of the next piece of a command. -/
def putsNext (s : State) (id : Nat) : Bool :=
  match alGet? s.cmds id with
  | some c => match c.plan with
    | some (p :: _) => c.coll.isNone && c.op.copies && c.park.isNone && !c.over && s.claimWant id == s && s.mayPut id c.iss p &&
      (match s.reach c.iss .store p.va p.bytes.length 1 0x094 false with
        | (.mem (.node a) _, t) => !t.ownedBy (some id) a p.bytes.length && t.nodeOk a p.bytes.length
        | _ => false)
    | _ => false
  | none => false

/-- A `SCATR` of one row from 0x50040 into row 2 of tensor 0, its list (one tile, one index) at 0x59000, after its engine's first event. -/
def scattering : State :=
  let m := memSetBytes (memSetBytes tensors.mem 0x59000 (toBytes 16 (1 + 2 ^ 32) ++ toBytes 16 (2 ^ 64) ++ [2])) 0x50040 [9, 0, 0, 0]
  run (.engineWrite 3) (run (.scatr fcmd) (block (tableBlock + 0x50040 + 2 ^ 128 + 0x59000 * 2 ^ 384) { tensors with mem := m }))

/-- What `EnginesWritePieces` asks before the next row of a `SCATR` is claimed: the row and its sources. -/
def claimsRow (s : State) (id : Nat) : Option (Nat × List (List Byte)) :=
  match alGet? s.cmds id with
  | some c => match c.tens, c.plan, c.rows with
    | some t, some [], (row, _, srcs) :: _ =>
      if c.park.isNone && !c.over then
        let base := BitVec.ofNat 64 (recBase t.r)
        let s1 := (swzRuns (recSwz t.r) (row * rowBytes t.r) (rowBytes t.r)).foldl
          (fun (u : State) q => u.claimRun id (base + BitVec.ofNat 64 q.1) q.2) s
        match (c.via id).tableBytes t.r row s1 with
        | .ok _ _ => some (row, srcs)
        | _ => none
      else none
    | _, _, _ => none
  | none => none

theorem witness_EnginesWritePieces : putsNext (copying 1) 3 = true ∧
    ((alGet? (copying 0).owners 0xB00).map fun ids => ids.head?) = some (some 3) ∧
    claimsRow scattering 3 = some (2, [[9, 0, 0, 0]]) := by
  decide +kernel

theorem test_copy : after (exec (.commandComplete 3) (copying 2)) (fun t => (t.readNode 0x58000 8, t.readNodeN 0x5A000 4,
    ((t.thread 2 0).vreg 4).toNat, t.owners.length)) = some ([1, 2, 3, 4, 5, 6, 7, 8], 1, 1, 0) := by decide +kernel

theorem witness_CommandsEnd : (match alGet? (copying 2).cmds 3 with
    | some c => c.over && c.coll.isNone && !c.bare && c.dst == some 4 && !c.norec && decide (c.crec = 0x5A000) &&
      (match (copying 2).reach c.iss .store (BitVec.ofNat 64 c.crec) 32 1 0x094 false with
        | (.mem (.node a) _, t) => !t.ownedBy (some 3) a 32 && t.nodeOk a 32
        | _ => false)
    | none => false) = true := by decide +kernel

/-- The pair v0, v1 names a barrier object in the scratchpad. -/
theorem witness_FuturesAndBarriersComplete :
    ok (fun _ => { Spec.plain with d := slCc, a := slSrc32 }) { blank with d := .cc 1, a := .int 0 } = true ∧
    ok (fun _ => { Spec.plain with d := slVec32, a := slSrc32, scope := some .core }) { blank with d := .v 4, a := .int 0 } = true ∧
    base.acqPending 2 0 = false ∧ ok (fun _ => { Spec.plain with a := slSrc32 }) { blank with a := .int 0 } = true ∧
    (let e := effOf (specBar slVec32 1 true) { blank with var := 1, d := .v 4, a := .v 0, b := .int 1 }
     (spadAt 16).solo 2 0 (specBar slVec32 1 true) { blank with var := 1, d := .v 4, a := .v 0, b := .int 1 } && relReady e (spadAt 16) 2 0) = true ∧
    (spadAt 16).solo 2 0 (specBar slNone 0 true) { blank with a := .v 0, b := .int 1 } = true ∧
    (spadAt 16).solo 2 0 (specBar slVec32 0 false) { blank with d := .v 4, a := .v 0, b := .int 1 } = true ∧
    (((spadAt 16).barrierAt 2 0 0x2000000000000010).1 matches .inr _) = true ∧
    (((spadAt 16).barrierAt 2 0 0x2000000000000018).1 matches .inl _) = true := by decide +kernel

theorem test_scatr : after (exec (.engineWrite 3) (run (.scatrRowClaim 3) scattering)) (fun t => t.readNode 0x50004 8) =
    some [0, 0, 0, 0, 9, 0, 0, 0] := by decide +kernel

/-! ### Matrix operations and batons -/

/-- The thread's group is the first of a whole quad, with a parameter block `b` at byte 64 of the scratchpad, which the pair v0, v1 names. -/
def quad (b : Nat) : State :=
  let s := spadAt 64
  let s1 := match s.group? 2 with
    | some y =>
      let x := { y with tiles := [(2, ⟨0, [], none⟩), (3, ⟨0, [], none⟩)] }
      { s with groups := [(2, x), (3, { x with grp := 1 }), (4, { x with grp := 2 }), (5, { x with grp := 3 })], nextId := 6 }
    | none => s
  s1.modSpad 1 0 fun x => x.write 64 (toBytes 64 b)

/-- 32 K steps of A at byte 1024 of the scratchpad, its rows 64 bytes apart. -/
def mBlock : Nat := 0x2000000000000400 + 64 * 2 ^ 64 + 2 ^ 136

/-- B from v16, no tiles. -/
def fmma : Fields := { blank with typ := .f8e4, a := .v 0, b := .v 16, c := .int 0 }

/-- What `MatrixIssues` asks: 0 where the operation enters the queue, 1 where the block is malformed, 2 outside a quad, 3 where A lies in
another core's scratchpad. -/
def mIssues (k : MKind) (f : Fields) (s : State) : Nat :=
  let u := s.begun 2 (specMma f) f
  let e := effOf (specMma f) f
  if !(s.solo 2 0 (specMma f) f && memReadyOnce e u 2 0 [0]) then 9
  else match u.quad 2 with
  | none => 2
  | some (q, gs) =>
    if u.batonElsewhere (u.coreOf 2) q then 9
    else match u.resolve 2 0 .fe (u.addrA 2 0 e) 64 64 0x121 false with
    | (.spad a b o, t) =>
      if t.earlierSame 2 0 t.now (some (.spad a b o)) (u.addrA 2 0 e) 64 then 9
      else
        let blk := ofBytes ((t.spad a b).read o 64)
        let first := match e.b with
          | .v r => some r.toNat
          | _ => none
        let run := match first with
          | some r => (List.range (runLength k e.ty 16 blk)).map fun n => r + n
          | none => []
        if (mBlockReason k e.ty 16 blk first).isSome then 1
        else match (Via.make (t.issuerOf 2 0 3) (some (2, 0, t.now)) false none [] 0).bindPair e.ty blk t with
        | .ok _ t2 =>
          if t2.runMapped gs run && (tileField f.c).all (fun n => gs.all fun h => t2.tMapped h n && t2.tMapped h (n + 1)) &&
              (t2.quadFailed gs (tileField f.c)).isNone then
            if !mAmode blk && fld (mAaddr blk) 60 4 == 3 && !(t.issuerOf 2 0 3).pair then 3
            else if (mAmode blk || (t2.firstOutside (t.issuerOf 2 0 3) k blk (tyBits e.ty)).isNone) &&
              decide ((t2.core (u.coreOf 2)).mq.length < 8) && t2.releaseReady 2 0 (mScope e.scope (u.addrA 2 0 e) blk) then 0 else 9
          else 9
        | _ => 9
    | _ => 9

theorem witness_MatrixOperationsComplete : mIssues .mma fmma (quad mBlock) = 0 ∧ mIssues .mmab fmma (quad mBlock) = 0 ∧
    mIssues .mmat { fmma with c := .a 2 } (quad mBlock) = 0 ∧ mIssues .mma fmma (quad 0) = 1 ∧ mIssues .mma fmma (spadAt 64) = 2 ∧
    mIssues .mma fmma (quad (mBlock + 2 ^ 60)) = 3 := by
  decide +kernel

/-- The operation with its tiles, at its last step; its step made. -/
def lastStep : State := { run (.mma fmma) (quad mBlock) with cycle := 1 }.modMOp 0 6 fun m => { m with started := true, kdone := 31 }
def stepsDone : State := lastStep.modMOp 0 6 fun m => { m with kdone := 32 }

theorem witness_MatrixOperationsEnd :
    (match (lastStep.core 0).mq with
      | [m] => m.park == [] && !lastStep.tilesLoading m && decide (m.cyc < lastStep.cycle) && m.started && decide (m.kdone < mK m.blk) && decide (mK m.blk ≤ m.kdone + m.stride) &&
        (match m.step m.kdone (lastStep.modMOp 0 m.id fun x => { x with started := true }) with
          | .added _ => true
          | _ => false)
      | _ => false) = true ∧
    ((lastStep.core 0).mq.map fun m => (m.readDone 16, m.readDone 19, m.readDone 20)) = [(true, false, false)] ∧
    ((stepsDone.core 0).mq.map fun m => m.started && decide (mK m.blk ≤ m.kdone)) = [true] := by decide +kernel

/-- The core's baton with a holder. -/
def baton (h : Option (Nat × Nat)) (s : State) : State := s.modCore 0 fun c => { c with baton := h }

theorem witness_BatonsComplete : (quad 0).solo 2 0 (specMbat 0 slNone) blank = true ∧ ((quad 0).quad 2).map (·.1) = some (1, 0) ∧
    base.quad 2 = none ∧ ok (fun _ => specMbat 0 slNone) blank = true ∧ ((quad 0).core 0).baton = none ∧ ((quad 0).core 0).batonWait = [] ∧
    (baton (some (1, 0)) (quad 0)).solo 2 0 (specMbat 1 slSrc32) { blank with var := 1, b := .int 1 } = true ∧
    ((baton (some (1, 0)) (quad 0)).core 0).baton = some (1, 0) ∧
    (quad 0).solo 2 0 (specMbat 1 slSrc32) { blank with var := 1, b := .int 1 } = true ∧
    (quad 0).solo 2 0 (specMbat 2 slNone) { blank with var := 2 } = true ∧
    (baton (some (1, 0)) (quad 0)).solo 2 0 (specMbat 2 slNone) { blank with var := 2 } = true := by decide +kernel

/-- A baton taken, and one that the quad does not hold (0x123). -/
theorem test_baton : after (exec (.mbatAcq blank) (quad 0)) (fun t => (t.core 0).baton) = some (some (1, 0)) ∧
    after (exec (.mbatRel { blank with var := 2 }) ({ quad 0 with mem := memSetBytes base.mem 0x40918 (toBytes 8 0x50000) }.modCtx 0
      fun c => { c with tvbase := 0x40000 })) (fun t => (t.thread 2 0).bank1.cause.toNat) = some 0x123 := by decide +kernel

/-! ### Collectives -/

/-- An operation of a sum of one f32 over `n` ranks, this device being rank 0, its time over at 100 ns. -/
def collOf (n : Nat) : Coll :=
  { roster := 0, gen := 0, rank := 0, memb := 0, members := List.range n, ordinal := 0, issued := 0, sent := true, timedOut := false,
    final := false, dropped := [], drops := [], chunks := [(0, { Chunk.zero with deadline := some 100 })] }

/-- Its descriptor: DTYPE f32, QUORUM 1, DEADLINE 1 µs, COUNT 1. -/
def collBlock : Nat := 8 * 2 ^ 12 + 2 ^ 128 + 2 ^ 160 + 2 ^ 512

/-- The machine with that operation as command 9, at a clock of `ns`. -/
def collecting (k : Coll) (ns : Nat) : State :=
  { base with
    ns := ns
    cmds := [(9, { Cmd.new .coll (base.cmdIssuer 2 0) 2 0 0 (effOf Spec.plain blank) 0 collBlock with coll := some k })]
    collOrd := [⟨0, 0, 0, 1⟩] }

/-- The contribution of rank 0, 3.0. -/
def part (ordinal : Nat) : Contribution := ⟨0, 0, 0, ordinal, 0, 0, toBytes 4 0x40400000⟩

/-- The links are stopped. -/
def unlinked (s : State) : State := { s with sec := { s.sec with linksDown := true } }

theorem witness_CollectivesComplete : (collecting (collOf 1) 0).nextOrdinal 0 0 0 ≤ (part 1).ordinal ∧
    (∀ m, (collecting (collOf 1) 0).arrives m = true) ∧ (∀ m, (unlinked (collecting (collOf 1) 0)).arrives m = false) ∧
    (part 0).ordinal < (collecting (collOf 1) 0).nextOrdinal 0 0 0 ∧
    ((collecting (collOf 1) 0).findColl 0 0 0 0).map (fun p => (p.1, (p.2.2.chunk 0).closed, p.2.2.owner 0, p.2.2.liveNow.contains 0,
      chunkCount p.2.1.blk p.2.2.live.length, (alGet? (p.2.2.chunk 0).parts 0).isNone)) = some (9, false, 0, true, 1, true) ∧
    (collOf 1).due 0 100 = true ∧ (collOf 1).closable collBlock 0 = false ∧
    ((collOf 1).modChunk 0 fun x => { x with expired := true }).closable collBlock 0 = true ∧
    ((collOf 1).modChunk 0 fun x => { x with parts := [(0, toBytes 4 0x40400000)] }).closable collBlock 0 = true ∧
    (({ collOf 2 with rank := 1 }.chunk 0).result).isNone = true ∧ { collOf 2 with rank := 1 }.owner 0 ≠ 1 ∧
    0 < chunkCount collBlock (collOf 2).live.length ∧ (collOf 1).overdue collBlock 2000 = true := by
  refine ⟨?_, fun _ => rfl, fun _ => rfl, ?_⟩ <;> decide +kernel

/-- The minimum of two contributions, 3.0 and 2.0. -/
theorem test_chunk_close : (after (exec (.collChunkClose 9 0)
    ((collecting ((collOf 2).modChunk 0 fun x => { x with parts := [(0, toBytes 4 0x40400000), (1, toBytes 4 0x40000000)] }) 0).setCmd 9
      { Cmd.new .coll (base.cmdIssuer 2 0) 2 0 0 (effOf Spec.plain blank) 0 (collBlock + 2 ^ 8) with
        coll := some ((collOf 2).modChunk 0 fun x => { x with parts := [(0, toBytes 4 0x40400000), (1, toBytes 4 0x40000000)] }) }))
      fun t => (alGet? t.cmds 9).bind fun c => c.coll.bind fun k => (k.chunk 0).out) = some (some (toBytes 4 0x40000000)) := by
  decide +kernel

/-- A roster of one member, this device, of generation 0, at 0x68000 with its entry at 0x69000; the descriptor at 0x6A000. -/
def rostered (d : BitVec 20) : State :=
  let m := memSetBytes base.mem 0x68000 (toBytes 64 (2 ^ 32 + 0x69000 * 2 ^ 128))
  let n := memSetBytes m 0x6A000 (toBytes 128 collBlock)
  pairAt 0x6A000 ({ base with mem := memSetBytes n 0x69000 (toBytes 8 d.toNat) }.modCtx 0 fun c => { c with rsbase := 0x68000 })

/-- What the reading of the descriptor gives. -/
def descOf (s : State) : Nat × State :=
  match s.issueRead 2 0 0x6A000 128 0x12C with
  | .ok b t => (b, t)
  | _ => (0, s)

/-- The reader of a thread. -/
def reader (t : State) : Via := Via.make (t.issuerOf 2 0 0) (some (2, 0, t.now)) false none [] 0

/-- The state after the reading of the descriptor and of what it captures. -/
def fedBack (s : State) : State :=
  match (reader (descOf s).2).feedback collBlock (descOf s).2 with
  | .ok _ t => t
  | .error _ _ => base

/-- `COLL` issues where the roster names this device. The device's number is a free value (log 13); the state is written for the number
0, and the roster's other checks hold whatever it is. -/
theorem witness_CollIssues (hd : Config.device = 0) :
    let s := rostered 0
    let e := effOf (specCmd (fun v => v &&& 3) .dev fcmd) fcmd
    s.solo 2 0 (specCmd (fun v => v &&& 3) .dev fcmd) fcmd = true ∧ cmdReady 4096 (fun o => o == .coll) e s 2 0 = true ∧ s.laneAhead e 2 0 = false ∧
    s.addrA 2 0 e = 0x6A000 ∧ (descOf s).1 = collBlock ∧ collReason collBlock ((descOf s).2.ctx 0).rsbase = none ∧
    collReason 0 ((descOf s).2.ctx 0).rsbase = some 5 ∧
    (match (reader (descOf s).2).roster collBlock (fedBack s) with
      | .ok r _ => r.members.length == 1 && r.rank == 0
      | _ => false) = true := by
  refine ⟨?_, ?_, ?_, ?_, ?_, ?_, ?_, ?_⟩
  all_goals first | decide +kernel | skip
  unfold Via.roster
  rw [hd]
  decide +kernel

/-! ### Signals, spawns, launches and pieces -/

/-- The pair v0, v1 names a word at 0x30000, which holds `n`. -/
def wordAt (n : Nat) : State := pairAt 0x30000 { base with mem := memSetBytes base.mem 0x30000 (toBytes 8 n) }

/-- A = the pair v0, v1, B = 1. -/
def fword : Fields := { blank with a := .v 0, b := .int 1 }

/-- The number of the clause of `SIGNL`, `SIGW`, `JWAIT` and `JINIT` whose hypotheses the word at an address meets: 0 a free word of the
device, 1 a poisoned one, 2 one outside the device, 3 a cause. -/
def wordKind (k : OpKind) (va : Dword) (s : State) : Nat :=
  match s.resolve 2 0 k va 8 8 0x094 false with
  | (.mem (.node p) h, t) =>
    if t.targetOwned (.mem (.node p)) 8 || t.bufferedBefore (t.coreOf 2) (t.slotOf 2) t.now (some (.node p)) va 8 ||
      t.earlierSame 2 0 t.now (some (.mem (.node p))) va 8 then 9
    else if t.poisoned p 8 && t.rsvPoisoned (.mem (.node p) h) 8 then 1 else 0
  | (.mem p _, _) => if p.untracked then 2 else 9
  | (.fault _, _) => 3
  | _ => 9

/-- The kernel of the group has one entry for spawned threads, whose address is at 0x61000, and base registers v0 to v239. -/
def spawns (s : State) : State :=
  { s with launches := s.launches.map fun p => (p.1, { p.2 with kernel := { p.2.kernel with nent := 1, entt := 0x61000, regs := 240 } }) }

/-- The row of `SPAWN` and of `LAUNCH`. -/
def specSpawn (f : Fields) : Spec :=
  { Spec.plain with
    var := varSpawn f.var, a := if bit f.var 3 then slNone else slPair, b := slSrc32, c := slVec32, scope := some .die,
    imm := !bit f.var 3, rels := true }
def specLaunch (f : Fields) : Spec :=
  { Spec.plain with
    var := f.var &&& 2, d := if bit f.var 1 then slNone else slPair, a := slPair, b := slSrc32, scope := some .dev, imm := true,
    rels := true }

/-- The number of the clause for `SPAWN` whose hypotheses one meets: 1 an unmapped payload, 2 an empty one, 3 no such entry, 4 no join
word, 5 a poisoned join word, 6 a join word. -/
def spawnClause (f : Fields) (s : State) : Nat :=
  let u := s.begun 2 (specSpawn f) f
  let e := effOf (specSpawn f) f
  let full := (payloadRegs e).all fun r => !(u.thread 2 0).vEmpty.contains r
  if !(s.solo 2 0 (specSpawn f) f && relReady e u 2 0) then 99
  else if !(payloadRegs e).all fun r => u.vMapped 2 r then (if full || bit e.fe 2 then 1 else 98)
  else if !full then (if bit e.fe 2 then 2 else 98)
  else if (u.kernel 2).nent ≤ u.rdB 2 0 e then 3
  else if bit e.var 3 then 4
  else match u.resolve 2 0 .atomic (u.addrA 2 0 e) 8 8 0x094 false with
    | (.mem p _, t) => if t.targetPoisoned (.mem p) 8 then 5 else 6
    | _ => 98

/-- Queue 0 is open to the device for the context (its id is 0), with a ring of two records at 0x62000 in node space. -/
def queued (s : State) : State := s.modQueue 0 fun q => { q with en := true, dev := true, base := 0x62000, log2 := 1 }

/-- Thread waits on the word at 0x30000. -/
def waiting (n : Nat) (s : State) : State :=
  { s with mem := memSetBytes s.mem 0x30000 (toBytes 8 n) }.modThread 2 0 fun t =>
    { t with wait := .join 0x30000 (some (.mem (.node 0x30000))) .die }

/-- What a read of the word on which the thread waits says: 1 the wait is over, 2 a cause, 0 nothing yet. -/
def wordSays (s : State) : Nat :=
  match (s.wordNow 2 0).1 with
  | .over _ => 1
  | .stop _ _ => 2
  | _ => 0

/-- A payload register of the thread is empty. -/
def emptyV (r : Nat) (s : State) : State := s.modThread 2 0 fun t => { t with vEmpty := [r] }

/-- The number of the clause for `LAUNCH` whose hypotheses one meets. -/
def launchClause (f : Fields) (s : State) : Nat :=
  let u := s.begun 2 (specLaunch f) f
  let e := effOf (specLaunch f) f
  let va := u.addrA 2 0 e
  let q := u.rdB 2 0 e
  if !(s.solo 2 0 (specLaunch f) f && !u.acqPending 2 0 && !u.laneAhead e 2 0 &&
    (bit e.var 1 || (u.die (dieOf (u.coreOf 2))).nextEntry.isSome)) then 99
  else if va.toNat % 128 ≠ 0 then 1
  else if !(decide (q < 64) && (u.queue q).en && (u.queue q).dev && (u.queue q).ctx == (u.ctx (u.slotOf 2)).id) then 2
  else match u.issueRead 2 0 va 128 0x151 with
    | .ok _ t =>
      if !(t.releaseReady 2 0 e.scope && decide (((t.queue q).prod - (t.queue q).cons).toNat < 2 ^ (t.queue q).log2)) then 98
      else match t.reach (t.issuerOf 2 0 0) .store
          ((t.queue q).base + BitVec.ofNat 64 (128 * ((t.queue q).prod.toNat % 2 ^ (t.queue q).log2))) 128 128 0x094 false with
        | (.mem (.node a) _, t1) => if !t1.ownedBy none a 128 && t1.nodeOk a 128 then 3 else 98
        | _ => 98
    | _ => 98

theorem witness_SignalsSpawnsAndLaunchesComplete :
    let e := effOf (specWord slWide .dev true fword) fword
    (wordAt 1).solo 2 0 (specWord slWide .dev true fword) fword = true ∧ relReady e (wordAt 1) 2 0 = true ∧
    [wordKind .atomic 0x30000 base, wordKind .atomic 0x30000 (poisoned base), wordKind .atomic 0x6000000000000000 base,
      wordKind .atomic 0x30001 base] = [0, 1, 2, 3] ∧
    [wordKind .word 0x30000 base, wordKind .word 0x30000 (poisoned base), wordKind .word 0x30001 base] = [0, 1, 3] ∧
    (wordAt 1).solo 2 0 (specWord slWide .dev false fword) fword = true ∧ (wordAt 1).acqPending 2 0 = false ∧
    (wordAt 1).readNodeN 0x30000 8 = 1 ∧ (wordAt 0).readNodeN 0x30000 8 = 0 ∧
    (wordAt 0).solo 2 0 (specWord slNone .die false { fword with b := .v 0 }) { fword with b := .v 0 } = true ∧
    [wordSays (waiting 0 base), wordSays (waiting 0 (poisoned base)), wordSays (waiting 1 base)] = [1, 2, 0] ∧
    ((base.group? 2).bind fun x => x.place).isSome = true ∧
    (let v := { fword with var := 1, b := .int 0, c := .v 6 }
     [spawnClause { v with var := 2, c := .v 239 } (spawns (wordAt 0)),
       spawnClause { v with var := 2, fe := 4 } (emptyV 7 (spawns (wordAt 0))),
       spawnClause { v with b := .int 1 } (spawns (wordAt 0)), spawnClause { v with var := 9 } (spawns (wordAt 0)),
       spawnClause v (poisoned (spawns (wordAt 0))), spawnClause v (spawns (wordAt 0))]) = [1, 2, 3, 4, 5, 6] ∧
    spawnClause { fword with var := 2, b := .int 0, c := .v 239, fe := 4 } (emptyV 240 (spawns (wordAt 0))) = 1 ∧
    (wordAt 0).solo 2 0 (specWord slSrc32 .die true fword) fword = true ∧
    relReady (effOf (specWord slSrc32 .die true fword) fword) (wordAt 0) 2 0 = true ∧
    (let v := { fword with d := .v 4, b := .int 0 }
     [launchClause { v with imm := 64 } (queued (wordAt 0)), launchClause v (wordAt 0),
       launchClause v (queued (wordAt 0))]) = [1, 2, 3] := by decide +kernel

/-- `JINIT`, then a `SPAWN` that raises the word it set. -/
theorem test_join_words : after (exec (.jinit { fword with b := .int 5 }) (wordAt 0)) (fun t => t.readNodeN 0x30000 8) = some 5 ∧
    after (exec (.loadResult 3 .local) (run (.loadResult 3 .local) (run (.spawn { fword with var := 1, b := .int 0, c := .v 6 })
      (spawns (wordAt 5)))))
      (fun t => (t.readNodeN 0x30000 8, (t.core 0).skein.length)) = some (6, 1) := by decide +kernel

/-- The kernel has base registers v0 to v239 and p0 to p7. -/
def pieces : State :=
  { base with launches := base.launches.map fun p => (p.1, { p.2 with kernel := { p.2.kernel with regs := 240, acc := 8, scrF := 0 } }) }

/-- That machine with less of the pool, with v240 to v247 mapped, and with a grant of scratchpad. -/
def poor : State :=
  { pieces with launches := pieces.launches.map fun p => (p.1, { p.2 with kernel := { p.2.kernel with extB := 0, ply := 0, scrB := 0 } }) }
def got (kind n k : Nat) : State := pieces.modGroup 2 fun x => x.mapRange kind n k
def granted : State := pieces.modGroup 2 fun x => { x with grants := [(0, 1024)] }

/-- Tile 2 mapped and failed, and a machine whose group has no team. -/
def failedTile : State :=
  pieces.modGroup 2 fun x => { x.mapRange 1 2 1 with tiles := [(2, ⟨0, [], some (0x118, 5)⟩)] }
def teamless : State := pieces.modGroup 2 fun x => { x with team := none }

/-- The number of the clause of `RacqCompletes` whose hypotheses a `RACQ` meets. -/
def racqClause (kind : Nat) (f : Fields) (s : State) : Nat :=
  let u := s.begun 2 (specRacq kind f) f
  let e := effOf (specRacq kind f) f
  let k := u.rdB 2 0 e
  let n := opndIndex f.d
  if !(s.solo 2 0 (specRacq kind f) f && (!bit e.var 2 || !u.ccBusy 2 0 0)) then 99
  else if !(kind == 3 || rangeFile (kind + 1) f.d) then 0
  else if !rangeOk (u.kernel 2) kind n k then 1
  else match (u.group? 2).bind fun x => x.team with
  | none => if bit e.var 2 then 3 else 2
  | some tm =>
    if kind < 3 ∧ (u.rangeFailed 2 kind n k).isSome then 4
    else if kind < 3 ∧ ((List.range k).map fun i => n + i).all (u.pieceMapped 2 kind) then 5
    else if kind < 3 ∧ ((List.range k).map fun i => n + i).any (u.pieceMapped 2 kind) then 6
    else if u.blocked tm (u.sideOf 2) != [] then 98
    else if u.holds tm (u.sideOf 2) kind k (((u.group? 2).map fun x => x.width).getD 0) then 7
    else if bit e.var 2 then 8 else 98

/-- The row of `RREL`, and the number of the clause of `RrelCompletes` whose hypotheses an `RREL` meets. -/
def specRrel (f : Fields) : Spec :=
  { Spec.plain with
    var := f.var &&& 3, a := if fld f.var 0 2 = 3 then slVec32 else slRange (fld f.var 0 2), b := slSrc32 }
def rrelClause (f : Fields) (s : State) : Nat :=
  let u := s.begun 2 (specRrel f) f
  let e := effOf (specRrel f) f
  let kind := fld e.var 0 2
  let k := u.rdB 2 0 e
  let n := opndIndex f.a
  if !s.solo 2 0 (specRrel f) f then 99
  else if !(kind == 3 || rangeFile (kind + 1) f.a) then 0
  else if !rangeOk (u.kernel 2) kind n k then 1
  else match u.group? 2 with
  | none => 99
  | some x =>
    if x.team.isNone then 2
    else if kind = 3 then (if x.grants.contains (u.rdA 2 0 e, k) then 7 else 6)
    else if !(List.range k).all fun i => u.pieceMapped 2 kind (n + i) then 3
    else if u.rangePending 2 kind n k then 98
    else if (u.rangeFailed 2 kind n k).isSome then 4 else 5

theorem witness_PiecesComplete :
    (let v := fun (d : Opnd) => { blank with d := d, b := .int 8 }
     [racqClause 0 (v (.p 1)) pieces, racqClause 0 (v (.v 232)) pieces, racqClause 0 (v (.v 240)) teamless,
       racqClause 0 { v (.v 240) with var := 4 } teamless, racqClause 0 (v (.v 240)) (got 0 240 8),
       racqClause 0 { v (.v 240) with b := .int 16 } (got 0 240 8), racqClause 0 (v (.v 240)) pieces,
       racqClause 0 { v (.v 240) with var := 4 } poor]) = [0, 1, 2, 3, 5, 6, 7, 8] ∧
    (let v := fun (d : Opnd) => { blank with d := d, b := .int 2, var := 1 }
     [racqClause 1 (v (.p 1)) pieces, racqClause 1 (v (.a 15)) pieces, racqClause 1 (v (.a 2)) teamless,
       racqClause 1 { v (.a 2) with var := 5 } teamless, racqClause 1 (v (.a 2)) failedTile, racqClause 1 (v (.a 2)) (got 1 2 2),
       racqClause 1 (v (.a 2)) (got 1 3 1), racqClause 1 (v (.a 2)) pieces, racqClause 1 { v (.a 2) with var := 5 } poor]) =
         [0, 1, 2, 3, 4, 5, 6, 7, 8] ∧
    (let v := fun (d : Opnd) => { blank with d := d, b := .int 2, var := 2 }
     [racqClause 2 (v (.a 1)) pieces, racqClause 2 (v (.p 15)) pieces, racqClause 2 (v (.p 8)) teamless,
       racqClause 2 { v (.p 8) with var := 6 } teamless, racqClause 2 (v (.p 8)) (got 2 8 2), racqClause 2 (v (.p 8)) (got 2 9 1),
       racqClause 2 (v (.p 8)) pieces, racqClause 2 { v (.p 8) with var := 6 } poor]) = [0, 1, 2, 3, 5, 6, 7, 8] ∧
    (let v := { blank with d := .v 4, b := .v 0, var := 3 }
     [racqClause 3 v pieces, racqClause 3 v (withV 0 1024 teamless), racqClause 3 { v with var := 7 } (withV 0 1024 teamless),
       racqClause 3 v (withV 0 1024 pieces), racqClause 3 { v with var := 7 } (withV 0 1024 poor)]) = [1, 2, 3, 7, 8] ∧
    (let v := fun (a : Opnd) => { blank with a := a, b := .int 8 }
     [rrelClause (v (.p 1)) pieces, rrelClause (v (.v 232)) pieces, rrelClause (v (.v 240)) teamless, rrelClause (v (.v 240)) pieces,
       rrelClause { v (.a 2) with b := .int 1, var := 1 } failedTile, rrelClause (v (.v 240)) (got 0 240 8),
       rrelClause { v (.v 4) with b := .v 0, var := 3 } (withV 0 1024 pieces),
       rrelClause { v (.v 4) with b := .v 0, var := 3 } (withV 0 1024 granted)]) = [0, 1, 2, 3, 4, 5, 6, 7] := by decide +kernel

/-- `RACQ.spad` of 1 KiB gives offset 0, and the next one 1,024. -/
theorem test_racq : vOut (exec (.racqSpad { blank with d := .v 4, b := .v 0, var := 3 }) (withV 0 1024 pieces)) 4 = some 0 ∧
    vOut (exec (.racqSpad { blank with d := .v 4, b := .v 0, var := 3 }) (run (.racqSpad { blank with d := .v 4, b := .v 0, var := 3 })
      (withV 0 1024 pieces))) 4 = some 1024 := by decide +kernel

/-! ### Scheduling and launches -/

/-- A second group of the quarter, pending, and a clock at which the first has not issued for 300 cycles. -/
def twoGroups : State :=
  let s := match base.group? 2 with
    | some x => { base with groups := base.groups ++ [(3, { x with active := false, place := some ⟨0, 0, 1⟩, home := ⟨0, 0, 1⟩ })] }
    | none => base
  { s with cycle := 300 }

/-- The thread was passed over `n` times. -/
def passedOver (n : Nat) : State := base.modThread 2 0 fun t => { t with passed := n }

/-- Sector 0xC00 (address 0x30000) dirty in L2; a line of the RDC of die 0; the thread held by an access. -/
def dirtied : State := base.modDie 0 fun d =>
  { d with
    l2 := [{ loc := .node 0x30000, ret := 1, dirty := [0], secs := [] }]
    rdc := [{ loc := .node 0x30080, ret := 1, dirty := [], secs := [] }] }

theorem witness_SchedulingEventsComplete :
    (dirtied.die 0).sectorAt 0xC00 = some (.node 0x30000) ∧ (dirtied.die 0).dirtySector 0xC00 = true ∧
    (dirtied.die 0).dirtySector 0xC01 = false ∧ (dirtied.die 0).sectorAt (2 ^ 36 + 1) = some (.node 0x300C0) ∧
    base.heldBy 2 0 = false ∧
    (base.addAcc { base.newAcc 2 0 0 (.value []) with hold := true }).heldBy 2 0 = true ∧
    (match twoGroups.group? 2, twoGroups.group? 3 with
      | some x, some _ => x.place.isSome && x.active && !x.stopped && twoGroups.vote 2 == [0] && x.boosted.isNone &&
          decide (x.lastIssue + 256 ≤ twoGroups.cycle) && decide (x.readySince + 256 ≤ twoGroups.cycle)
      | _, _ => false) = true ∧
    (let s := twoGroups.modThread 2 0 fun u => { u with wait := .image }
     match s.group? 2 with
      | some x => x.place.isSome && x.active && decide (x.lastIssue + 64 < s.cycle) && s.vote 2 == [] && s.pendingFor x == some 3
      | none => false) = true ∧
    (let s := twoGroups.modGroup 2 fun y => { y with yielded := twoGroups.cycle }
     match s.group? 2 with
      | some x => x.yielded == s.cycle && s.pendingFor x == some 3
      | none => false) = true ∧
    (let s := twoGroups.modGroup 2 fun y => { y with stopped := true }
     match s.group? 2 with
      | some x => x.stopped && s.pendingFor x == some 3
      | none => false) = true ∧
    (match (passedOver 64).group? 2 with
      | some x => x.lanes.all fun t => t.exited || decide (t.passed ≤ 64)
      | none => false) = true ∧ ((passedOver 64).thread 2 0).passed = 64 ∧ 64 < promoted ∧
    bit ((base.modCtx 0 fun c => { c with tcfg := 2 }).ctx 0).tcfg 1 = true ∧ bit (base.ctx 0).tcfg 1 = false := by decide +kernel

/-- The group, of one lane and few registers, waits on its join word, its save slot at 0x70000. -/
def joins : State :=
  let s := (waiting 1 base).modCtx 0 fun c => { c with savebase := 0x70000 }
  ({ s with launches := s.launches.map fun p => (p.1, { p.2 with kernel := { p.2.kernel with regs := 1, acc := 0 } }) } : State).modGroup 2
    fun x => { x with lanes := x.lanes.take 1 }

/-- The same with its save slot on a line that a command owns. -/
def ownedSave : State := { joins with owners := [(0x70000 / 128, [1])] }

/-- The group waits on its join word; it has left its slot, in the park table of the die or not. -/
def parked (table : Bool) : State :=
  (run (.groupPark 2) joins).modDie 0 fun d => { d with parkTable := if table then [2] else [] }

/-- A record of the group's launch in Skein since cycle 0, its context's TIMER at 2,000. -/
def spawnRec : SpawnRec := ⟨0, 0, 0, 0, none, 0, .die, [7]⟩
def inSkein : State := { (spawns base).modCore 0 fun c => { c with skein := [(0, spawnRec)] } with cycle := 2000 }

/-- The same record in the ring of die 0 at 0x70000. -/
def inRing : State :=
  { base with mem := memSetBytes base.mem 0x70000 (spawnRec.bytes 1) }.modCtx 0 fun c =>
    { c with srbase := 0x70000, rings := [(0, (0, 1))], ringInfo := [(0, ⟨0, none, 0, none⟩)] }

/-- Every join-held thread of the group is bound to its word. -/
def joinsBound (s : State) : Bool :=
  ((s.group? 2).map fun x => x.lanes.all fun th => !th.joinHeld || (match th.wait with
    | .join _ (some _) _ => true
    | _ => false)).getD false

theorem witness_ParkingAndSkeinEventsAct : joins.parkable 2 = true ∧ ownedSave.parkable 2 = true ∧ (ownedSave.parkNow 2).isNone = true ∧
    (match joins.gatherStacks 2 with
      | some s1 => (match s1.group? 2 with
        | some x => (match s1.writeSection 2 x with
          | some s2 => (s2.group? 2).isSome && decide ((s2.die 0).parkTable.length < 2048)
          | none => false)
        | none => false)
      | none => false) = true ∧
    (let s := { parked true with mem := memSetBytes (parked true).mem 0x30000 [0] }
     s.joinDone 2 && (s.die 0).parkTable.contains 2 && (s.freeSlot 0 0 (s.kernel 2).charge == some 0) && joinsBound s &&
       s.poison == []) = true ∧
    (let s := { parked false with mem := memSetBytes (parked false).mem 0x30000 [0] }
     s.joinDone 2 && !(s.die 0).parkTable.contains 2 && s.groups.length == 1 && (s.freeSlot 0 0 (s.kernel 2).charge == some 0) &&
       joinsBound s && s.poison == []) = true ∧
    inSkein.timedList 0 = some (0, 0) ∧ inSkein.skeinList 0 0 0 ≠ [] ∧
    (inRing.ctx 0).ringAddr 0 0 = 0x70000 ∧ inRing.skeinRoom 0 = true ∧ (inRing.ctx 0).ringPark = none ∧ (inRing.ctx 0).state = 0 ∧
    (match inRing.xlate none 0 0 0x70000 .read with
      | (.ok a _, t) => !t.ownedBy none a 32 && !t.poisoned a 32 && fldN (t.readNodeN a 32) 211 1 == 1 &&
          t.skeinRoom (ringRec 0 (t.readNodeN a 32) (alGet (inRing.ctx 0).ringInfo ⟨0, none, 0, none⟩ 0)).core
      | _ => false) = true := by decide +kernel

/-- A parked group whose word is 0 has its slot again and waits no more. -/
theorem test_parked_return : after (exec (.parkedGroupReturn 2) { parked true with mem := memSetBytes (parked true).mem 0x30000 [0] })
    (fun t => ((t.group? 2).map fun x => x.place.isSome, (t.thread 2 0).wait == .none)) = some (some true, true) := by decide +kernel

/-- The record that the ring gave back, put in Skein again. -/
theorem test_ring_return : after (exec (.spillRingReturn 0 0) inRing) (fun t => ((t.core 0).skein.map (·.2.payload), (t.ctx 0).rings)) =
    some ([[7, 0, 0, 0]], [(0, (1, 1))]) := by decide +kernel

/-- Queue 0, open to the host for the context, with one record at 0x62000: the kernel at 0x63000, one team, status at 0x64000. -/
def ring : State :=
  let rec' := toBytes 128 (0x63000 + 2 ^ 64 + 2 ^ 96 + 2 ^ 128 + 5 * 2 ^ 163 + 0x64000 * 2 ^ 640)
  let m := memSetBytes (memSetBytes base.mem 0x62000 rec') 0x63000 (toBytes 64 (0x10000 + 2 ^ 104))
  { base with mem := m }.modQueue 0 fun q => { q with en := true, base := 0x62000, prod := 1 }

/-- The launch as it was accepted, ready, and ended. -/
def accepted : State := run (.launchAccept 0) ring
def readyLaunch : State := run (.launchDependenceReread 3) accepted
def ended : State := readyLaunch.modLaunch 3 fun l => { l with nextTeam := 1, ran := 1 }

theorem witness_LaunchEventsComplete : ring.hostTurnNow = true ∧ { ring with hostHeld := [.ldoorWrite 0] }.hostTurnNow = false ∧
    (ring.queue 0).en = true ∧ (ring.queue 0).dev = false ∧
    ring.nextQueue = some 0 ∧ ring.slotOfId (ring.queue 0).ctx = some 0 ∧ (ring.queue 0).failed = none ∧
    (match (distVia 0).rd 0x62000 128 ring with
      | .ok bs t => (recordError (launchOf 0 0 0 (ofBytes bs)) (ofBytes bs)).isNone &&
          (match readLaunch (distVia 0) (launchOf 0 0 0 (ofBytes bs)) (BitVec.ofNat 64 (fldN (ofBytes bs) 192 64)) t with
            | .ok (_, ok) _ => ok
            | _ => false)
      | _ => false) = true := by decide +kernel

theorem witness_LaunchDependencesMet :
    ((alGet? accepted.launches 3).map fun x => (x.ready, x.error, x.park.isNone, x.failed, (accepted.ctx x.slot).state)) =
      some (false, none, true, false, 0) ∧
    (match alGet? accepted.launches 3 with
      | some x => (match depsMet (distVia x.slot) x.waits accepted with
          | .ok b _ => b
          | _ => false)
      | none => false) = true := by decide +kernel

theorem witness_LaunchPlacedAndEnded :
    readyLaunch.placeOrder = [3] ∧ (readyLaunch.ctxs.all fun p => p.2.state != 5) = true ∧ (Ctx.free.state ≠ 5) ∧
    ((alGet? readyLaunch.launches 3).map fun l => (l.coop, l.teams, l.nextTeam, readyLaunch.coreFor l.kernel)) = some (false, 1, 0, some 0) ∧
    ((alGet? ended.launches 3).map fun x => (ended.launchEnd 3 x, x.saddr, x.stage, x.stat, x.park.isNone)) =
      some (some (1, 0), 0, 0, 0x64000, true) ∧ ended.sb = [] ∧
    (match ended.xlate none 0 0 0x64000 .write with
      | (.ok a _, t) => !t.ownedBy none a 16 && t.nodeOk a 16
      | _ => false) = true := by decide +kernel

/-- The second launch has number 1 (the first number, log 5), one team on core 0, and the status of a good end. -/
theorem test_launch : ((alGet? accepted.launches 3).map fun l => l.lnum) = some 1 ∧
    after (exec .placementRound readyLaunch) (fun t => (t.groups.map fun p => (p.2.home.core, p.2.width))) = some [(0, 16), (0, 16)] ∧
    after (exec (.launchComplete 3) ended) (fun t => t.readNodeN 0x64000 16) = some (1 + 2 ^ 32 + 2 ^ 64) := by decide +kernel

/-! ### The host port and contexts -/

/-- The context with a fault that has no record yet, its queue at 0x65000 in node space; and with that record written under number 4. -/
def fault0 : FaultRec := ⟨0x77000, 12, 0, 0, 2, 0, 0, none⟩
def faulted : State := base.modCtx 0 fun c => { c with fqbase := 0x65000, faults := [fault0] }
def recorded : State := base.modCtx 0 fun c => { c with fqbase := 0x65000, faults := [{ fault0 with seq := some 4 }] }

/-- PGINV and RDCINV under way and over. -/
def pginv : State := base.modCtx 0 fun c => { c with pginvBusy := true }
def rdcinv : State := base.modDie 0 fun d => { d with rdcinv := some (0, true) }

theorem witness_InvalidationsAndAnswersAct : pginvRange (2 ^ 62) = none ∧ (base.ctx 0).pginvBusy = false ∧ pginv.pginvDone 0 = true ∧
    (pginv.ctx 0).pginvNext = [] ∧ (base.die 0).rdcinv = none ∧ (rdcinv.die 0).rdcinv = some (0, true) ∧ (rdcinv.die 0).rdcinvNext = [] ∧
    ((faulted.ctx 0).faults.find? fun f => f.seq.isNone) = some fault0 ∧ (faulted.ctx 0).faultRoom = true ∧
    faulted.nodeOk 0x65000 32 = true ∧ faulted.ownedBy none 0x65000 32 = false ∧
    { faulted with owners := [(0x65000 / 128, [1])] }.recordFits 0 = false ∧
    ((recorded.ctx 0).faults.find? fun f => f.seq == some (BitVec.ofNat 32 (fld (0x100000004 : Dword) 0 32))).isSome = true ∧
    fld (0x100000004 : Dword) 32 2 = 1 ∧
    ((recorded.ctx 0).faults.find? fun f => f.seq == some (BitVec.ofNat 32 (fld (0x100000005 : Dword) 0 32))) = none := by decide +kernel

/-- A doorbell of the host waits behind an earlier access that met an owned line. -/
def hostWaiting : State :=
  run (.hostMemoryAccess (.write 0x30000 [7])) { base with owners := [(0x30000 / 128, [1])] }

theorem witness_HostAccessesAct : (fld base.boot.stat 0 2 ≠ 2) ∧ base.ownedBy none 0x30000 4 = false ∧ base.hostTurnNow = true ∧
    hostWaiting.hostTurn = false ∧ hostWaiting.hostHeld = [.hostMemoryAccess (.write 0x30000 [7])] ∧
    hostWaiting.ownedBy none 0x30000 1 = true ∧ hostWaiting.hostTurnNow = false ∧
    ({ base.sec with locked := true }.locked = true) ∧ base.sec.locked = false := by decide +kernel

/-- The host reads what it wrote; a byte beyond the memory of the device reads as 0xFF. -/
theorem test_host_memory : after (exec (.hostMemoryAccess (.read 0x30000 2)) (run (.hostMemoryAccess (.write 0x30000 [7, 9])) base))
      (fun t => t.hostOut) = some [[7, 9]] ∧
    after (exec (.hostMemoryAccess (.read (2 ^ 41 - 1) 1)) base) (fun t => t.hostOut) = some [[0xFF]] := by decide +kernel

/-- Bit 1 of HIRQ pending and not; bit 0 cleared while a fault record is not taken, whose condition holds still. -/
theorem witness_InterruptsAreSentOnce : bit (base.irq 1).hirq 1 = true ∧ bit base.hirq 1 = false ∧ bit base.himask 1 = true ∧
    bit { base with himask := 0 }.himask 1 = false ∧
    (base.modCtx 0 fun c => { c with fqprod := 1 }).irqHolds 0 = true ∧ base.irqHolds 0 = false := by decide

/-- A peer's request for the context, whose binding table at 0x66000 admits device 5 with context 6 for reads and writes. -/
def request (op : PeerOp) : PeerRequest := ⟨1, 5, 6, 0, 0x30000, op⟩
def bound : State :=
  { base with mem := memSetBytes base.mem 0x66000 (toBytes 16 (7 + 5 * 2 ^ 16 + 6 * 2 ^ 36)) }.modCtx 0 fun c => { c with dombase := 0x66000 }

/-- The number of the case of `PeerAccessesAct` that a request falls under. -/
def peerCase (r : PeerRequest) (s : State) : Nat :=
  match s.peerSlot r.pctx with
  | none => 0
  | some slot => match s.findBinding slot r 384 0 with
    | (.inl false, _) => 1
    | (.inr _, _) => 2
    | (.inl true, s1) => match s1.peerRuns slot (peerKind r) (r.va.setWidth 64) (peerParts r) with
      | (.inl none, _) => 3
      | (.inl (some _), _) => 4
      | (.inr [(a, _, 0, n)], s2) => if n == peerSize r && s2.nodeOk a n then 5 else 9
      | (.inr _, _) => 6

/-- A load, a probe and a store of the thread that went to a peer 1 ms ago. -/
def toPeer (op : AccOp) : State :=
  { base.addAcc { base.newAcc 2 0 0x1000000000000000 op with tgt := some (.mem (.peer 0 0 0)), dst := [4] } with
    ns := base.ltmo }.modThread 2 0 fun t => { t with issues := t.issues + 1 }
def remoteStore : State :=
  { base.bufferStore 2 0 [] 0x7000000000000000 (some (.peer 0 0 0)) 0 [1] 0 false none with ns := base.ltmo }

theorem witness_HostAndPeerAccessesComplete : base.peersShut = false ∧ base.peerParked = [] ∧
    { base with sec := { base.sec with linksDown := true } }.peersShut = true ∧
    [peerCase { request (.read 4) with pctx := 9 } bound, peerCase (request (.read 4)) base,
      peerCase (request (.read 4)) { bound with mem := [] },
      peerCase { request (.read 4) with va := 0x7000000000000 } { bound with mem := memSetBytes bound.mem 0x1070 (toBytes 16 (1 + 2 ^ 127)) },
      peerCase { request (.read 4) with va := 0x8000000000 } bound,
      peerCase (request (.read 4)) bound, peerCase (request (.write [1, 2])) bound, peerCase { request (.read 8) with va := 0x3003C } bound] =
        [0, 1, 2, 3, 4, 5, 5, 6] ∧
    [toPeer (.load .n32 4 false false 0 0), toPeer (.probe 0)].map (fun s => s.acc.map fun p =>
        (p.1, ((p.2.tgt.bind Target.loc?).map Loc.isPeer), decide (p.2.ns + s.ltmo ≤ s.ns), p.2.parked,
          decide ((s.thread 2 0).issues = p.2.mark))) =
      [[(3, some true, true, false, true)], [(3, some true, true, false, true)]] ∧
    (remoteStore.sb.map fun p => ((p.2.loc.map Loc.isPeer), decide (p.2.ns + remoteStore.ltmo ≤ remoteStore.ns))) = [(some true, true)] := by
  decide +kernel

/-- The context with an area for images, and one that is saved. -/
def area : State := base.modCtx 0 fun c => { c with pimbase := 0x100000, pimmax := 4 }
def saved : State := base.modCtx 0 fun c => { c with state := 2 }

theorem witness_ContextControlActs : (base.ctx 9).state = 7 ∧ (base.ctxs.all fun p => p.1 == 9 || p.2.state == 7 || p.2.id != 3) = true ∧
    saved.closable 0 = true ∧ (base.ctx 0).state = 0 ∧ (base.ctx 0).pimbase = 0 ∧ (area.ctx 0).pimbase ≠ 0 ∧
    area.units 0 ≤ (area.ctx 0).pimmax.toNat ∧ (area.groups.any fun p => p.2.slot == 0) = true ∧
    (area.ctxs.all fun p => p.2.state != 1) = true ∧ Ctx.free.state ≠ 1 ∧
    (area.modCtx 0 fun c => { c with state := 1 }).preemptable 2 = true ∧ (saved.ctx 0).state = 2 ∧ (saved.ctx 0).images = [] := by
  decide +kernel

/-- A pre-emption begins with STATE 1 where there is an area, and is refused with STATE 4 where there is none. -/
theorem test_preempt : after (exec (.ctxctlPreempt 0) area) (fun t => (t.ctx 0).state) = some 1 ∧
    after (exec (.ctxctlPreempt 0) base) (fun t => (t.ctx 0).state) = some 4 := by decide +kernel

/-! ### Links, security and health -/

/-- Span entry 3 valid, with STATE `n`, and its session. -/
def spanned (n : Nat) : State :=
  { base with
    ns := 3600000000000
    span := [(3, BitVec.ofNat 256 (2 ^ 164 + n * 2 ^ 208))]
    sessions := [(3, { Session.zero with id := 7, keys := [1], unacked := [(5, [1])], seen := [0], next := 1 })] }

/-- A packet of session 7 with number `n`, of type 1, with 64 bytes of body. -/
def packet (n : Nat) : SpanPacket := ⟨3, toBytes 24 (1 + 2 ^ 8 + 7 * 2 ^ 16 + n * 2 ^ 48) ++ List.replicate 80 0⟩

/-- The fields of a packet that are checked before its number. -/
def packetFits (s : State) (p : SpanPacket) : Bool :=
  let h := ofBytes (p.bytes.take 24)
  s.spanState p.entry == 2 && decide (104 ≤ p.bytes.length) && decide (p.bytes.length ≤ 8232) && fldN h 0 8 == 1 && fldN h 8 8 != 0 &&
    decide (fldN h 8 8 ≤ 4) && fldN h 112 80 == 0 && fldN h 16 32 == (s.sessionOf p.entry).id.toNat

/-- The same session with old keys. -/
def oldKeyed : State := (spanned 2).modSession 3 fun x => { x with oldKeys := [2] }

theorem witness_SpanEventsComplete : (spanned 0).spanUp = true ∧ (spanned 0).spanState 3 = 0 ∧ (spanned 1).spanState 3 = 1 ∧
    bit ((spanned 1).spanEntry 3) 164 = true ∧ bit ((spanned 2).spanEntry 3) 164 = true ∧
    packetFits (spanned 2) (packet 0) = true ∧ packetFits (spanned 2) (packet 1) = true ∧
    ((spanned 2).sessionOf 3).seen = [0] ∧ ((spanned 2).sessionOf 3).top < 1 + 65536 ∧ ((spanned 2).sessionOf 3).held = [] ∧
    ((spanned 2).sessionOf 3).next = 1 ∧ ((spanned 2).sessionOf 3).unacked = [(5, [1])] ∧
    ((spanned 2).sessionOf 3).keys ≠ [] ∧ ((spanned 2).sessionOf 3).rekeying = false ∧
    (((spanned 2).modSession 3 fun x => { x with rekeying := true }).sessionOf 3).rekeying = true ∧
    ((spanned 2).sessionOf 3).opened + 3600000000000 ≤ (spanned 2).ns ∧
    (oldKeyed.sessionOf 3).oldKeys ≠ [] ∧ (oldKeyed.sessionOf 3).oldUntil ≤ oldKeyed.ns ∧
    (spanned 3).spanState 3 = 3 ∧ ((spanned 3).sessionOf 3).tried + 1000000000 ≤ (spanned 3).ns ∧
    { spanned 3 with ns := 0 }.spanState 3 = 3 ∧ { spanned 3 with ns := 0 }.ns < ({ spanned 3 with ns := 0 }.sessionOf 3).tried + 1000000000 ∧
    bit (0 : BitVec 256) 164 = false := by decide +kernel

/-- Whether a packet's tag verifies is a free value (log 6): where AES-256-GCM opens packet 1 under the session's key, it opens. -/
theorem witness_openPacket (text : List Byte) :
    let p := packet 1
    let body := (p.bytes.drop 24).take (p.bytes.length - 40)
    let tag := p.bytes.drop (p.bytes.length - 16)
    let key := (spanned 2).receiveKey 3 [1]
    Config.gcmOpen key.1 (key.2 ++ bigEndian64 1) (p.bytes.take 24) body tag = some text →
      (spanned 2).openPacket 3 ((spanned 2).sessionOf 3).keys (p.bytes.take 24) body tag 1 = some text := by
  intro p body tag key h
  have hk : ((spanned 2).sessionOf 3).keys = [1] := by decide +kernel
  rw [hk]
  exact h

/-- What the checks of a handshake answer rests on free values (log 6): where the chain names the entry's device 0 and the signature
verifies the handshake is good, and where the chain names none it is not; a packet under the session's keys opens where AES-256-GCM
opens it. -/
theorem witness_spanHandshake (h : SpanHandshake) (he : h.entry = 3) :
    (Config.deviceCert Config.root h.chain = some (0, 0) → Config.signatureOk h.chain (transcriptHash h.transcript) h.signature = true →
      (spanned 1).handshakeOk h = true) ∧
    (Config.deviceCert Config.root h.chain = none → (spanned 1).handshakeOk h = false) := by
  have h1 : fld ((spanned 1).spanEntry 3) 144 20 = 0 ∧ fld ((spanned 1).spanEntry 3) 176 16 = 0 := by decide +kernel
  constructor
  · intro hc hs
    simp [State.handshakeOk, hc, hs, he, h1.1, h1.2]
  · intro hc
    simp [State.handshakeOk, hc]

/-- Step `i` of the boot is in hand. -/
def booting (i : Nat) : State := { base with boot := { base.boot with step := i, record := [(i, ⟨0, false, 1, []⟩)] } }

/-- No step is in hand once the record marks the last one passed; steps 1, 2, 3 and 4 are. What firmware verifies is a free value (log 6):
whatever it is, one of the two clauses of step 1 applies. -/
theorem witness_BootAndAttestationComplete (image : List Byte) :
    ({ base.boot with record := [(base.boot.step, ⟨0, false, 2, []⟩)] }.inHand = false) ∧
    ((List.range 4).all fun i => (booting (i + 1)).boot.inHand && (booting (i + 1)).boot.step == i + 1) = true ∧
    ((booting 1).boot.load image = none ∨ ∃ b, (booting 1).boot.load image = some b) ∧
    base.sec.busy = false ∧ { base.sec with busy := true }.busy = true ∧ base.sec.seedErased = false ∧
    { base.sec with seedErased := true }.seedErased = true ∧
    { (booting 2).boot with start := [(2, ⟨1, false, 3, []⟩)] }.alt 2 = true := by
  refine ⟨by decide, by decide, ?_, by decide, by decide, by decide, by decide, by decide⟩
  cases (booting 1).boot.load image with
  | none => exact .inl rfl
  | some b => exact .inr ⟨b, rfl⟩

/-- An erase of action 2 runs until 5 ns. -/
def erasing : State := { base with ns := 0, sec := { base.sec with erase := some (2, 5), mpol := 0x02 } }

/-- A cool die, one at TTHR and one at TCRIT. -/
def cool : Throttle := ⟨0, [⟨0, 20⟩], [(2, 1600)]⟩
def hot : Throttle := ⟨0, [⟨base.tthr, 20⟩], [(2, 1600)]⟩
def critical : Throttle := ⟨0, [⟨base.tcrit, 20⟩], [(2, 1600)]⟩

/-- The causes of a throttle event that hold, and whether a die is at TCRIT. -/
def throttleCase (e : Throttle) : List (Nat × Nat) × Bool :=
  (e.causes.filter fun p => base.causeHolds e p.1, e.readings.any fun r => decide (base.tcrit ≤ r.temp))

theorem witness_AlarmsDebugAndThrottleComplete : (0x01 : BitVec 5) ≠ 0 ∧ bit (0x01 : BitVec 5) 0 = true ∧
    base.erasing = none ∧ 2 ≤ ({ base.sec with mpol := 0x02 }.policy 0) % 4 ∧ fldN (base.sec.policy 0) 2 1 = 1 ∧
    (base.ctx 0).state ≠ 7 ∧ (base.ctxs.map (·.1)).contains 0 = true ∧
    erasing.erasing = some 2 ∧ erasing.sec.policy 0 % 4 ≤ 2 ∧
    { erasing with sec := { erasing.sec with erase := some (1, 5) } }.erasing = some 1 ∧ 1 < erasing.sec.policy 0 % 4 ∧
    bit (0 : Dword) 0 = false ∧ bit (1 : Dword) 0 = true ∧
    { base with sec := { base.sec with session := some (base.ctx 0).id } }.sessionFor 2 = true ∧ base.sessionFor 2 = false ∧
    throttleCase cool = ([], false) ∧ throttleCase hot = ([(2, 1600)], false) ∧ (throttleCase critical).2 = true ∧
    2 < 8 ∧ 1600 < 65536 := by decide

/-- The certificate of a debug session is a free value (log 6): whatever it names, one of the two clauses applies. -/
theorem witness_debugSession (cert : List Byte) : (∃ ctx, Config.debugCert Config.root cert = some (Config.device, ctx)) ∨
    ∀ ctx, Config.debugCert Config.root cert ≠ some (Config.device, ctx) := by
  by_cases h : ∃ ctx, Config.debugCert Config.root cert = some (Config.device, ctx)
  · exact .inl h
  · exact .inr fun ctx hc => h ⟨ctx, hc⟩

/-- An alarm counts, stops the links and, with the reset policy of source 0, kills the context. -/
theorem test_alarm : after (exec (.madderAlarm 1) base) (fun t => (t.sec.alarms.toNat, t.sec.linksDown)) = some (1, true) ∧
    after (exec (.madderAlarm 1) base) (fun t => ((t.ctx 0).state, (t.ctx 0).kcause)) = some (3, 0x16A) := by decide

/-! ### Steps and reset -/

/-- The group with a word at its PC, the ready threads of the cycle found. -/
def ready (n : Nat) : State := ({ base with cur := none, mem := memSetBytes base.mem 0x10000 (toBytes 16 n) } : State).survey

theorem witness_StepRunsDecoded : (ready 0).cmds = [] ∧ (ready 0).agenda = [] ∧ (ready 0).flushNote = none ∧
    (ready 0).hostReady = none ∧ (ready 0).due = none ∧ (ready 0).surveyed = some (ready 0).cycle ∧
    (ready 0).pick = some (0, 2) ∧ (ready 0).vote 2 = [0] ∧
    ((ready 0).thread 2 0).pc.toNat % 16 = 0 ∧ fld ((ready 0).thread 2 0).pc 56 8 = 0 ∧
    (match (ready 0x0008010100008028).xlate (some 0) 0 0 0x10000 .fetch with
      | (.ok a _, t) => !t.ownedBy none a 16 && !t.poisoned a 16 &&
          (match decodeBytes (t.readNode a 16) with
            | .ok (i, _) => i == .fadd { fab with typ := .f32 }
            | _ => false)
      | _ => false) = true ∧ (Instr.threvRead).wf = true ∧
    (copying 1).claimWants.due = some (.engineWrite 3) ∧ (copying 1).claimWants.agenda = [] ∧ (copying 1).claimWants.flushNote = none ∧
    (copying 1).claimWants.hostReady = none ∧
    { hostWaiting with owners := [] }.claimWants.hostReady = some (.hostMemoryAccess (.write 0x30000 [7])) ∧
    { base with cur := none }.due = none ∧ { base with cur := none }.surveyed ≠ some { base with cur := none }.cycle := by
  decide +kernel

/-- One step runs the `FADD` at the PC: 1.0 + 2.0. -/
theorem test_step : vOut (step (withV 1 0x3F800000 (withV 2 0x40000000 (ready 0x0008010100008028)))) 4 = some 0x40400000 := by decide +kernel

theorem witness_StepKeepsMemoryCanonical : Memory.wf State.reset.mem = true ∧ Memory.wf base.mem = true := by decide +kernel

theorem witness_StepsGoOn : ({ base with agenda := [.event (.reservedOpcode 3)] }).work = .bad := by decide +kernel

end Sys2Proof.Tests
end

section
/-! PROOFS. What a reserved opcode does (R50): no row of Table 2-9 has a reserved code, so that its word decodes to the row
that traps, and that row traps the threads of the sub-group in turn. -/

namespace Sys2Proof.Machine

open Sys2Proof

/-- The opcode of a word is its bits [7:0], the first field of Table 2-1. -/
theorem fieldsOf_opcode (w : BitVec 128) : (fieldsOf w.toNat).1 = fld w 0 8 := rfl

/-- Table 2-9 has no row for a reserved code: the code of every row is outside the reserved ranges. -/
theorem rowOf_eq_none_of_reservedCode {opc : Nat} (f : Fields) (h : reservedCode opc = true) : rowOf opc f = none := by
  unfold rowOf
  split
  on_goal -1 => rfl
  all_goals exact absurd h (by decide)

/-- A word that names no row decodes to the row that traps (R50). -/
theorem decode_of_rowOf_eq_none {w : BitVec 128} (h : rowOf (fieldsOf w.toNat).1 (fieldsOf w.toNat).2 = none) :
    decode w = .reservedOpcode w := by
  simp only [decode, h]

/-- A word with a reserved code in its opcode field decodes to the row that traps (R50). -/
theorem decode_of_reservedCode {w : BitVec 128} (h : reservedCode (fld w 0 8) = true) : decode w = .reservedOpcode w := by
  apply decode_of_rowOf_eq_none
  rw [fieldsOf_opcode]
  exact rowOf_eq_none_of_reservedCode _ h

/-- A field that starts at bit 0 is the word cut to the field's width. -/
theorem ofNat_fld_zero {n : Nat} (x : BitVec n) (k : Nat) : BitVec.ofNat k (fld x 0 k) = x.setWidth k := by
  apply BitVec.eq_of_toNat_eq
  simp [fld, fldN]

/-- `RESERVED_OPCODE` of an issuing sub-group traps its threads in turn, while the group lives (R50). -/
theorem execReservedOpcode_of_cur {s : State} (w : BitVec 128) {g : Nat} {ls : List Nat} (h : s.cur = some ⟨g, ls⟩) :
    execReservedOpcode w s = .next (ls.foldl (fun (t : State) l => if (t.group? g).isSome then
      t.trap g l (if fld w 0 8 = 0xFF then 0x002 else 0x001) (w.setWidth 64) else t) s) := by
  simp only [execReservedOpcode, h, ofNat_fld_zero]

/-- Settles O22: the decoder sends a reserved code to the trapping row, and that row traps each thread of the sub-group. -/
theorem reservedOpcodesTrap : Obligations.ReservedOpcodesTrap := by
  unfold Obligations.ReservedOpcodesTrap
  constructor
  · intro w h
    exact decode_of_reservedCode h
  · intro s w g ls h
    rw [exec_reservedOpcode, execReservedOpcode_of_cur w h]

end Sys2Proof.Machine
end

section
/-! PROOFS. What a field reads after a write, what the fields of a cursor register read (Table 8-2), and what a fault form
records (R193, R198). -/

namespace Sys2Proof.Machine

open Sys2Proof

/-- A narrower field at the same bit is the wider one cut. -/
theorem fld_eq_fld_mod {n lo k w : Nat} (x : BitVec n) (h : k ≤ w) : fld x lo k = fld x lo w % 2 ^ k :=
  (Nat.mod_mod_of_dvd _ (Nat.pow_dvd_pow 2 h)).symm

/-- A field that was replaced reads as what replaced it, cut to its width. -/
theorem fld_setFld_same {n lo w : Nat} (x : BitVec n) (v : Nat) (h : lo + w ≤ n) :
    fld (setFld x lo w v) lo w = v % 2 ^ w := by
  obtain ⟨k, rfl⟩ := Nat.exists_eq_add_of_le h
  have hlow : fldN x.toNat 0 lo < 2 ^ lo := Nat.mod_lt _ (Nat.two_pow_pos lo)
  have hparts : fldN x.toNat 0 lo + v % 2 ^ w * 2 ^ lo + x.toNat / 2 ^ (lo + w) * 2 ^ (lo + w) =
      fldN x.toNat 0 lo + 2 ^ lo * (v % 2 ^ w + 2 ^ w * (x.toNat / 2 ^ (lo + w))) := by ring
  have hwidth : 2 ^ (lo + w + k) = 2 ^ lo * (2 ^ w * 2 ^ k) := by ring
  rw [fld, fldN, setFld, BitVec.toNat_ofNat, Nat.shiftRight_eq_div_pow, Nat.shiftRight_eq_div_pow, Nat.shiftLeft_eq,
    Nat.shiftLeft_eq, hparts, hwidth, Nat.mod_mul_right_div_self, Nat.add_mul_div_left _ _ (Nat.two_pow_pos lo),
    Nat.div_eq_of_lt hlow, Nat.zero_add, Nat.mod_mul_right_mod, Nat.add_mul_mod_self_left, Nat.mod_mod]

theorem b2n_lt_two (b : Bool) : b2n b < 2 := by cases b <;> decide

/-- A bit that was written as a number reads back. -/
theorem beq_one_of_eq_b2n {n : Nat} {b : Bool} (h : n = b2n b) : (n == 1) = b := by
  subst h
  cases b <;> rfl

/-- A cursor register that was made of fields reads them back, each cut to its width (Table 8-2). -/
theorem curOf_bits (c : Cur) : curOf c.bits =
    { c with
      tid := c.tid % 2 ^ 16, level := c.level % 8, kind := c.kind % 8, pos := c.pos % 2 ^ 40, endAt := c.endAt % 2 ^ 40,
      aux := c.aux % 2 ^ 16, coord := c.coord % 2 ^ 32, parent := c.parent % 2 ^ 32 } := by
  have hd := b2n_lt_two c.done
  have ha := b2n_lt_two c.append
  have hv := b2n_lt_two c.valid
  simp only [curOf, bit, fld, fldN, Cur.bits, BitVec.toNat_ofNat, Nat.shiftRight_eq_div_pow, Cur.mk.injEq]
  refine ⟨?_, ?_, ?_, beq_one_of_eq_b2n ?_, beq_one_of_eq_b2n ?_, beq_one_of_eq_b2n ?_, ?_, ?_, ?_, ?_, ?_⟩ <;> omega

/-- A register's field for `.nf` is the highest bit of its coordinate. -/
theorem bit_159_eq_nf (c : BitVec 192) : bit c 159 = (curOf c).nf := by
  have hc := c.isLt
  simp only [bit, Cur.nf, curOf, fld, fldN, Nat.shiftRight_eq_div_pow]
  rw [Bool.eq_iff_iff, beq_iff_eq, decide_eq_true_eq]
  omega

/-- A cursor is a fault form where VALID is 0 and DONE is 1 (R193). -/
theorem isFault_curOf_iff (c : BitVec 192) : (curOf c).isFault = true ↔ bit c 24 = false ∧ bit c 22 = true := by
  simp [Cur.isFault, curOf]

/-- A fault form reads as one. -/
theorem isFault_faultForm (tid level kind : Nat) (nf : Bool) (cause : Nat) (tval : Dword) :
    (curOf (faultForm tid level kind nf cause tval).bits).isFault = true := by
  rw [curOf_bits]
  rfl

/-- A fault form records whether it was made with `.nf`. -/
theorem nf_faultForm (tid level kind : Nat) (nf : Bool) (cause : Nat) (tval : Dword) :
    (curOf (faultForm tid level kind nf cause tval).bits).nf = nf := by
  rw [curOf_bits]
  cases nf with
  | false => exact decide_eq_false (by simp only [faultForm, b2n, Bool.false_eq_true, if_false]; omega)
  | true => exact decide_eq_true (by simp only [faultForm, b2n, if_true]; omega)

/-- A fault form records its cause. -/
theorem coord_faultForm_mod (tid level kind : Nat) (nf : Bool) {cause : Nat} (tval : Dword) (h : cause < 1024) :
    (curOf (faultForm tid level kind nf cause tval).bits).coord % 2 ^ 10 = cause := by
  rw [curOf_bits]
  have := b2n_lt_two nf
  simp only [faultForm]
  omega

/-- A fault form records a TVAL whose upper byte is zero. -/
theorem faultTval_faultForm (tid level kind : Nat) (nf : Bool) (cause : Nat) {tval : Dword} (h : fld tval 56 8 = 0) :
    (curOf (faultForm tid level kind nf cause tval).bits).faultTval = tval := by
  rw [curOf_bits]
  have ht := tval.isLt
  apply BitVec.eq_of_toNat_eq
  simp only [Cur.faultTval, faultForm, fld, fldN, Nat.shiftRight_eq_div_pow, BitVec.toNat_ofNat] at h ⊢
  omega

/-- A thread that reads a fault form made without `.nf` in operand A meets its recorded cause and TVAL (R198). -/
theorem Thread.cursorFault_of_isFault {t : Thread} {e : Eff} {k : BitVec 5} (ha : e.a = .c k) (hf : t.full e.a 1 = true)
    (hx : (curOf (t.creg k.toNat)).isFault = true) (hn : (curOf (t.creg k.toNat)).nf = false) :
    t.cursorFault e =
      some ((curOf (t.creg k.toNat)).coord % 2 ^ 10, (curOf (t.creg k.toNat)).faultTval) := by
  obtain ⟨hv, hd⟩ := (isFault_curOf_iff _).1 hx
  rw [← bit_159_eq_nf] at hn
  rw [ha] at hf
  simp only [Thread.cursorFault, ha, List.findSome?_cons, hf, hv, hd, hn, Bool.not_false, Bool.and_self, if_true, Cur.faultTval,
    curOf, fld_eq_fld_mod _ (show 10 ≤ 32 by decide), fld_eq_fld_mod _ (show 16 ≤ 40 by decide)]

/-- A thread that reads in operand A the fault form of a cause and TVAL made without `.nf` meets them (R193, R198). -/
theorem Thread.cursorFault_of_faultForm {t : Thread} {e : Eff} {k : BitVec 5} {tid level kind cause : Nat} {tval : Dword}
    (ha : e.a = .c k) (hf : t.full e.a 1 = true)
    (hk : t.creg k.toNat = (faultForm tid level kind false cause tval).bits)
    (hc : cause < 1024) (ht : fld tval 56 8 = 0) : t.cursorFault e = some (cause, tval) := by
  rw [Thread.cursorFault_of_isFault ha hf (by rw [hk]; exact isFault_faultForm ..) (by rw [hk]; exact nf_faultForm ..), hk,
    coord_faultForm_mod _ _ _ _ _ hc, faultTval_faultForm _ _ _ _ _ ht]

end Sys2Proof.Machine
end

section
/-! PROOFS. How a precise trap is taken: the search for a handler changes no thread (R419), the thread enters its handler (R418), and
a failed cursor makes its reader do so (R198). -/

namespace Sys2Proof.Machine

open Sys2Proof

/-- A state with the same groups has the same threads. -/
theorem State.thread_of_groups_eq {s t : State} (h : t.groups = s.groups) (g l : Nat) : t.thread g l = s.thread g l := by
  simp only [State.thread, State.thread?, State.group?, h]

theorem State.thread?_of_groups_eq {s t : State} (h : t.groups = s.groups) (g l : Nat) : t.thread? g l = s.thread? g l := by
  simp only [State.thread?, State.group?, h]

theorem invalidateRdc_fold_groups (w : Option Nat) (ls : List Nat) (s : State) :
    (ls.foldl (fun t l => t.invalidateRdc w l) s).groups = s.groups := by
  induction ls generalizing s with
  | nil => rfl
  | cons l ls ih => exact ih _

@[simp] theorem State.writeHome_groups (s : State) (w : Option Nat) (a : Nat) (bs : List Byte) :
    (s.writeHome w a bs).groups = s.groups := by
  unfold State.writeHome
  split
  · exact invalidateRdc_fold_groups _ _ _
  · rfl

@[simp] theorem State.homeFill_groups (s : State) (home a hint : Nat) : (s.homeFill home a hint).groups = s.groups := by
  unfold State.homeFill
  split <;> rfl

@[simp] theorem State.orPte_groups (s : State) (a bits : Nat) : (s.orPte a bits).groups = s.groups := by
  simp [State.orPte, State.homeWrite]

/-- A translation changes no group. -/
@[simp] theorem State.xlate_groups (s : State) (core : Option Nat) (die slot va : Nat) (k : Kind) :
    (s.xlate core die slot va k).2.groups = s.groups := by
  unfold State.xlate
  dsimp only
  split
  · split
    · split <;> cases core <;> simp
    · cases core <;> simp
    · rfl
  · rfl

/-- A read by one of the device's own units changes no group. -/
@[simp] theorem State.readVa_groups (s : State) (core : Option Nat) (die slot : Nat) (va : Dword) (n : Nat) :
    (s.readVa core die slot va n).2.groups = s.groups := by
  have hx := s.xlate_groups core die slot va.toNat .read
  unfold State.readVa
  split
  · rfl
  · split <;> rename_i hq <;> rw [hq] at hx
    · split
      · rfl
      · split <;> exact hx
    all_goals exact hx

/-- The search of a handler list changes no group. -/
@[simp] theorem State.searchHandlers_groups (s : State) (core slot : Nat) (base : Dword) (cause n i : Nat) :
    (s.searchHandlers core slot base cause n i).2.groups = s.groups := by
  induction n generalizing s i with
  | zero => rfl
  | succ n ih =>
    unfold State.searchHandlers
    dsimp only
    split
    · exact s.readVa_groups ..
    · rw [ih, State.readVa_groups]

/-- The search for the handler of a cause changes no group (R419). -/
@[simp] theorem State.handler_groups (s : State) (g cause : Nat) : (s.handler g cause).2.groups = s.groups := by
  have hs := s.searchHandlers_groups (s.coreOf g) (s.slotOf g) (s.kernel g).hdlt cause (s.kernel g).nhdl 0
  unfold State.handler
  dsimp only
  split <;> rename_i hq <;> rw [hq] at hs
  · exact hs
  · split
    · exact hs
    · rw [State.readVa_groups]
      exact hs

@[simp] theorem State.countFor_groups (s : State) (g ev n : Nat) : (s.countFor g ev n).groups = s.groups := by
  unfold State.countFor State.count
  dsimp only
  generalize (List.range 16).any _ = hit
  cases hit <;> rfl

/-- A trap whose cause has a handler makes its thread enter it (R418). -/
theorem State.trapWith_thread_of_handler {s s1 : State} {g l cause : Nat} {h : Dword} (tval epc : Dword) (defr late : Bool)
    (ht : (s.thread? g l).isSome) (hl : (s.thread g l).level.toNat < 2) (hh : s.handler g cause = (.at' h, s1)) (h0 : h ≠ 0) :
    (s.trapWith g l cause tval epc defr late).thread g l =
      (s.thread g l).enter cause tval epc h defr late s1.ns s1.cycle := by
  have hs : s1.groups = s.groups := by rw [← s.handler_groups g cause, hh]
  simp only [State.trapWith, Nat.not_le.2 hl, if_false, hh, h0]
  rw [State.thread_of_groups_eq (State.countFor_groups ..), State.thread_modThread_same, State.thread_of_groups_eq hs]
  rw [State.thread?_of_groups_eq hs]
  exact ht

/-- TSTAT at the entry of a trap has DEFR as its bit 3 (Table 18-2). -/
theorem bit_tstatOf_defr (t : Thread) (defr late : Bool) : bit (tstatOf t defr late) 3 = defr := by
  have hl := t.level.isLt
  have hd := t.depth.isLt
  have hv := b2n_lt_two t.mr.valid
  have hf := b2n_lt_two defr
  have ha := b2n_lt_two late
  refine beq_one_of_eq_b2n ?_
  simp only [tstatOf, fld, fldN, Nat.shiftRight_eq_div_pow, BitVec.toNat_ofNat]
  omega

/-- What a thread of level 0 holds as it enters a handler (R417, R418). -/
theorem Thread.enter_of_level_zero {t : Thread} (cause : Nat) (tval epc h : Dword) (defr late : Bool) (ns cycle : Nat)
    (hl : t.level = 0) :
    let y := t.enter cause tval epc h defr late ns cycle
    y.pc = h ∧ y.level = 1 ∧ y.cc = t.cc ∧ y.bank1 = ⟨BitVec.ofNat 32 (cause % 512), epc, tval, tstatOf t defr late⟩ := by
  simp [Thread.enter, hl]

/-- A thread that issues alone and meets a failed cursor takes the recorded trap, deferred, and does nothing else (R198). -/
theorem issueThreads_of_cursorFault {s : State} {g l c : Nat} {tv : Dword} {sp : Fields → Spec} {f : Fields}
    (ready : Eff → State → Nat → Nat → Bool) (body : Eff → State → Nat → Nat → Res)
    (hc : s.cur = some ⟨g, [l]⟩) (ht : (s.thread? g l).isSome) (hg : (effOf (sp f) f).guard.passes (s.thread g l) = true)
    (hs : s.screenReady g l (effOf (sp f) f) = true) (hr : ready (effOf (sp f) f) (s.begun g (sp f) f) g l = true)
    (hf : (s.thread g l).cursorFault (effOf (sp f) f) = some (c, tv)) :
    issueThreads sp ready body f s =
      .next ((s.begun g (sp f) f).trapWith g l c tv (s.thread g l).pc true false) := by
  obtain ⟨x, hx⟩ := State.group?_of_thread? ht
  have like := likeFor_begun (l := l) hx (sp f) f
  have r0 (t : State) (rs : List Nat) : t.retag g [] rs = t := by simp [State.retag]
  simp only [issueThreads, hc, State.decoded_eq, like.screenReady_eq, like.thread_eq, hg, hs, hr, Bool.not_true, Bool.or_true,
    Bool.and_self, List.filter_cons, List.filter_nil, if_true, lanesBut, List.contains_cons, List.contains_nil, BEq.rfl,
    Bool.true_or, Bool.false_eq_true, if_false, State.holdEach, List.foldl_nil, laneSteps, laneStep, State.begun_group? hx, hf,
    Option.orElse_eq_orElse, Option.orElse_some, Option.isSome_some, r0]

end Sys2Proof.Machine
end

section
/-! PROOFS. What `CTEST` writes (R211), and what it does with a fault form (R198). -/

namespace Sys2Proof.Machine

open Sys2Proof

/-- The S and Z flags are bits 3 and 2 (R39). -/
theorem bit_mkFlags_s (s z c v : Bool) : bit (mkFlags s z c v) 3 = s := by
  revert s z c v
  decide

theorem bit_mkFlags_z (s z c v : Bool) : bit (mkFlags s z c v) 2 = z := by
  revert s z c v
  decide

/-- A condition-code register that was written reads back. -/
theorem Thread.flags_setFlags_same (t : Thread) (n : BitVec 2) (x : BitVec 4) : (t.setFlags n x).flags n = x := by
  have hn := n.isLt
  rw [Thread.flags, Thread.setFlags, fld_setFld_same _ _ (by omega), Nat.mod_eq_of_lt x.isLt, BitVec.ofNat_toNat,
    BitVec.setWidth_eq]

theorem Thread.writeCc_pc (t : Thread) (o : Opnd) (x : BitVec 4) : (t.writeCc o x).pc = t.pc := by
  cases o <;> rfl

/-- The row of `CTEST` (R211). -/
abbrev specCtest : Spec := specCur 0 slCc slCur slNone slNone

/-- The flags that `CTEST` writes of a cursor register (R211). -/
def ctestFlags (c : BitVec 192) : BitVec 4 :=
  mkFlags (!bit c 24) (bit c 22) (bit c 22 && fld c 112 16 == 0 && bit c 24) (bit c 23)

/-- The flags of a fault form have Z and S (R198). -/
theorem ctestFlags_of_isFault {c : BitVec 192} (h : (curOf c).isFault = true) :
    bit (ctestFlags c) 2 = true ∧ bit (ctestFlags c) 3 = true := by
  obtain ⟨hvalid, hdone⟩ := (isFault_curOf_iff c).1 h
  rw [ctestFlags, bit_mkFlags_z, bit_mkFlags_s, hvalid, hdone]
  exact ⟨rfl, rfl⟩

/-- `CTEST` completes with the state of its cursor as flags (R211). -/
theorem ctest_completes {f : Fields} {s : State} {g l : Nat} (h : s.solo g l specCtest f = true) :
    CompletesLane (.ctest f) s g l specCtest f 0 fun t =>
      t.writeCc (effOf specCtest f).d (ctestFlags (s.cursor g l (effOf specCtest f).a)) := by
  have hl : s.clearFor g l (effOf specCtest f) = true := (Bool.and_eq_true_iff.1 h).2
  obtain ⟨x, hx⟩ := State.group?_of_thread? ((State.clearFor_iff _ _ _ _).1 hl).1
  have like := likeFor_begun (l := l) hx specCtest f
  have hcur : (s.begun g specCtest f).cursor g l (effOf specCtest f).a = s.cursor g l (effOf specCtest f).a := by
    simp only [State.cursor, like.thread_eq]
  exact completes_of_body (sp := fun _ => specCtest) (exec_ctest f s) h rfl (by simp only [hcur]; rfl)
    fun t => Thread.writeCc_pc t _ _

/-- `CTEST` of a fault form that was made with `.nf` sets Z and S (R198, R211). -/
theorem ctest_of_isFault {f : Fields} {s : State} {g l : Nat} {n : BitVec 2} (h : s.solo g l specCtest f = true)
    (hx : (curOf (s.cursor g l (effOf specCtest f).a)).isFault = true) (hd : (effOf specCtest f).d = .cc n) :
    ∃ t, exec (.ctest f) s = .next t ∧ bit ((t.thread g l).flags n) 2 = true ∧ bit ((t.thread g l).flags n) 3 = true := by
  obtain ⟨t, ht, hthread, -⟩ := ctest_completes h
  have hflags : (t.thread g l).flags n = ctestFlags (s.cursor g l (effOf specCtest f).a) := by
    rw [hthread, hd]
    exact Thread.flags_setFlags_same _ n _
  exact ⟨t, ht, hflags ▸ ctestFlags_of_isFault hx⟩

/-- Settles O60: the body of `CTEST` changes its own thread alone, and a fault form made without `.nf` is met by the operand check
before it, whose trap enters the handler with DEFR set. -/
theorem ctestWritesFlags : Obligations.CtestWritesFlags := by
  unfold Obligations.CtestWritesFlags
  constructor
  · intro f s g l h
    refine ⟨ctest_completes h, ?_⟩
    intro tid lv k cause tv n hc hd
    exact ctest_of_isFault h (hc ▸ isFault_faultForm ..) hd
  · intro f s g l k tid lv kd cause tv e u hcur ht hg hs ha hfull hk hcause htv
    have hf := Thread.cursorFault_of_faultForm ha hfull hk hcause htv
    refine ⟨issueThreads_of_cursorFault (sp := fun _ => specCtest) always _ hcur ht hg hs rfl hf, ?_⟩
    intro h s1 hlevel hh h0 hc y
    obtain ⟨x, hx⟩ := State.group?_of_thread? ht
    have like : LikeFor s u g l := likeFor_begun hx specCtest f
    have hy : y = (u.thread g l).enter cause tv (s.thread g l).pc h true false s1.ns s1.cycle := by
      refine State.trapWith_thread_of_handler tv _ true false ?_ ?_ hh h0
      · rw [like.thread?_eq]
        exact ht
      · rw [like.thread_eq, hlevel]
        decide
    rw [hy, like.thread_eq]
    obtain ⟨hpc, hlev, hcc, hbank⟩ :=
      Thread.enter_of_level_zero cause tv (s.thread g l).pc h true false s1.ns s1.cycle hlevel
    refine ⟨hpc, hlev, hcc, ?_⟩
    rw [hbank, Nat.mod_eq_of_lt hc]
    exact ⟨rfl, rfl, rfl, bit_tstatOf_defr ..⟩

end Sys2Proof.Machine
end

section
/-! PROOFS. How an instruction completes whose body changes its thread by the operands that the thread reads: what the thread
reads at the decode it read before. -/

namespace Sys2Proof.Machine

open Sys2Proof

theorem Thread.write_pc (t : Thread) (o : Opnd) (n x : Nat) : (t.write o n x).pc = t.pc := by
  cases o with
  | v k => simp only [Thread.write]; split <;> rfl
  | _ => rfl

/-- A row with no order and no release of its own releases nothing. -/
theorem effOf_rels_of_unordered {sp : Spec} (ho : sp.ord = none) (hr : sp.rels = false) (f : Fields) :
    (effOf sp f).rels = false := by
  simp [effOf, legalize, ho, hr]

/-- The type that an instruction executes with is one of its row's (row 3 of Table 2-11). -/
theorem effOf_ty_mem {sp : Spec} {ty : Ty} {tys : List Ty} (h : sp.types = ty :: tys) (f : Fields) :
    (effOf sp f).ty ∈ sp.types := by
  have hty : (effOf sp f).ty = if sp.types.contains f.typ then f.typ else sp.types.headD .s32 := by
    simp [effOf, legalize, h]
  rw [hty]
  split
  next hin => exact List.contains_iff_mem.1 hin
  next => simp [h]

/-- An instruction completes as its body says, where the body asks nothing of its operands first and changes its own thread alone,
by what another thread of the group cannot change. -/
theorem completesAs_of_body {i : Fields → Instr} {sp : Fields → Spec} {upd : Eff → State → Nat → Nat → Thread → Thread}
    (hi : ∀ f s, exec (i f) s = issueThreads sp always (fun e s g l => .ok (s.modThread g l (upd e s g l))) f s)
    (hlike : ∀ {s t : State} {g l : Nat} (e : Eff), LikeFor s t g l → upd e t g l = upd e s g l)
    (hpc : ∀ e s g l t, (upd e s g l t).pc = t.pc) (ho : ∀ f, (sp f).ord = none) (hrel : ∀ f, (sp f).rels = false) :
    CompletesAs i sp upd := by
  intro f s g l h
  have hl : s.clearFor g l (effOf (sp f) f) = true := (Bool.and_eq_true_iff.1 h).2
  obtain ⟨x, hx⟩ := State.group?_of_thread? ((State.clearFor_iff _ _ _ _).1 hl).1
  have hbody := hlike (effOf (sp f) f) (likeFor_begun (l := l) hx (sp f) f)
  exact completes_of_body (hi f s) h rfl (by rw [hbody]) (hpc _ s g l) (effOf_rels_of_unordered (ho f) (hrel f) f)

end Sys2Proof.Machine
end

section
/-! PROOFS. What `IMULH` writes (R244): the upper half of an exact product is its quotient by 2^w, wrapped. -/

namespace Sys2Proof.Machine

open Sys2Proof

/-- The second digit of an integer in a base does not depend on the digits above it. -/
theorem emod_mul_self_ediv_emod (x : Int) {q : Int} (hq : q ≠ 0) : x % (q * q) / q % q = x / q % q := by
  have hx : x = x % (q * q) + q * (q * (x / (q * q))) := by
    rw [← mul_assoc, Int.emod_add_mul_ediv]
  conv_rhs => rw [hx, Int.add_mul_ediv_left _ _ hq, Int.add_mul_emod_self_left]

/-- The upper half of the 2w-bit pattern of an integer is the integer's quotient by 2^w, wrapped to w bits. -/
theorem fld_ofInt_upper_half (w : Nat) (x : Int) :
    fld (BitVec.ofInt (2 * w) x) w w = wrapN w (x / (2 ^ w : Nat)) := by
  have hw : ((2 ^ w : Nat) : Int) ≠ 0 := by exact_mod_cast (Nat.two_pow_pos w).ne'
  have hsq : ((2 ^ (2 * w) : Nat) : Int) = (2 ^ w : Nat) * (2 ^ w : Nat) := by
    rw [two_mul, pow_add, Nat.cast_mul]
  have hnonneg : 0 ≤ x % (2 ^ (2 * w) : Nat) := Int.emod_nonneg _ (by rw [hsq]; exact mul_ne_zero hw hw)
  have hcast : (fld (BitVec.ofInt (2 * w) x) w w : Int) = x % (2 ^ (2 * w) : Nat) / (2 ^ w : Nat) % (2 ^ w : Nat) := by
    rw [fld, fldN, BitVec.toNat_ofInt, Nat.shiftRight_eq_div_pow, Int.natCast_mod, Int.natCast_div, Int.toNat_of_nonneg hnonneg]
  rw [wrapN, ← Int.toNat_natCast (fld _ w w), hcast, hsq, emod_mul_self_ediv_emod _ hw]

/-- The value under a signed type is the two's complement number of its pattern (R68). -/
theorem tyVal_of_signed {ty : Ty} (h : tySigned ty = true) (x : Nat) :
    tyVal ty x = toSigned (tyBits ty) (x % 2 ^ tyBits ty) := by
  simp [tyVal, h]

theorem tyVal_of_unsigned {ty : Ty} (h : tySigned ty = false) (x : Nat) : tyVal ty x = (x % 2 ^ tyBits ty : Nat) := by
  simp [tyVal, h]

/-- The types of `IMULH` that are signed are s32 and s64. -/
theorem tySigned_iff_of_wide {ty : Ty} (h : ty ∈ [Ty.s32, .n32, .s64, .n64]) : tySigned ty = true ↔ ty = .s32 ∨ ty = .s64 := by
  simp only [List.mem_cons, List.not_mem_nil, or_false] at h
  rcases h with rfl | rfl | rfl | rfl <;> decide

/-- The result of `IMULH` is the upper half of the exact product of its operands' values (R244). -/
theorem resMulh_eq_upper_half (ty : Ty) (a b : Nat) :
    resMulh ty a b = fld (BitVec.ofInt (2 * tyBits ty) (tyVal ty a * tyVal ty b)) (tyBits ty) (tyBits ty) :=
  (fld_ofInt_upper_half _ _).symm

/-- The product of the values under a type that `IMULH` takes, by the two cases of R244. -/
theorem tyVal_mul_tyVal {ty : Ty} (h : ty ∈ [Ty.s32, .n32, .s64, .n64]) (a b : Nat) :
    tyVal ty a * tyVal ty b = if ty = .s32 ∨ ty = .s64 then
        toSigned (tyBits ty) (a % 2 ^ tyBits ty) * toSigned (tyBits ty) (b % 2 ^ tyBits ty)
      else (a % 2 ^ tyBits ty * (b % 2 ^ tyBits ty) : Nat) := by
  split
  next hs =>
    have hs' := (tySigned_iff_of_wide h).2 hs
    rw [tyVal_of_signed hs', tyVal_of_signed hs']
  next hn =>
    have hn' := Bool.eq_false_iff.2 (mt (tySigned_iff_of_wide h).1 hn)
    rw [tyVal_of_unsigned hn', tyVal_of_unsigned hn', Nat.cast_mul]

/-- The row of `IMULH` (R244). -/
abbrev specImulh : Fields → Spec := specInt [.s32, .n32, .s64, .n64] 0 slSrc slSrc slNone false

/-- `IMULH` completes with the result of R244 in D. -/
theorem imulh_completes : CompletesAs .imulh specImulh fun e s g l t =>
    t.write e.d e.nd (resMulh e.ty (s.rdA g l e) (s.rdB g l e)) :=
  completesAs_of_body exec_imulh (fun _ like => by rw [like.rdA_eq, like.rdB_eq])
    (fun _ _ _ _ t => t.write_pc ..) (fun _ => rfl) (fun _ => rfl)

/-- Settles O58: the result is the upper half of the product of the values, which the type's signedness splits in two. -/
theorem imulhWritesUpperHalf : Obligations.ImulhWritesUpperHalf := by
  unfold Obligations.ImulhWritesUpperHalf
  intro f s g l h
  have hty : (effOf (specImulh f) f).ty ∈ [Ty.s32, .n32, .s64, .n64] := effOf_ty_mem rfl f
  have hc := imulh_completes f s g l h
  simp only [resMulh_eq_upper_half, tyVal_mul_tyVal hty] at hc
  exact hc

end Sys2Proof.Machine
end

section
/-! PROOFS. How `CCMOV` moves flags (R264): S, Z, C and V are bits 3 to 0 of a condition-code register and of the register that
holds them. -/

namespace Sys2Proof.Machine

open Sys2Proof

theorem bit_mkFlags_c (s z c v : Bool) : bit (mkFlags s z c v) 1 = c := by
  revert s z c v
  decide

theorem bit_mkFlags_v (s z c v : Bool) : bit (mkFlags s z c v) 0 = v := by
  revert s z c v
  decide

/-- Flags as a number: S in bit 3, Z in bit 2, C in bit 1 and V in bit 0 (R264). -/
theorem flags_toNat (x : BitVec 4) :
    x.toNat = b2n (bit x 3) * 8 + b2n (bit x 2) * 4 + b2n (bit x 1) * 2 + b2n (bit x 0) := by
  revert x
  decide

/-- A field of one bit is that bit as a number. -/
theorem b2n_fldN_one (x i : Nat) : b2n (fldN x i 1 == 1) = fldN x i 1 := by
  obtain h | h := Nat.mod_two_eq_zero_or_one (x >>> i)
  all_goals simp [fldN, h, b2n]

/-- The low four bits of a register are the flags that they stand for (R264). -/
theorem ofNat_four_eq_mkFlags (x : Nat) :
    BitVec.ofNat 4 x = mkFlags (fldN x 3 1 == 1) (fldN x 2 1 == 1) (fldN x 1 1 == 1) (fldN x 0 1 == 1) := by
  rw [mkFlags, b2n_fldN_one, b2n_fldN_one, b2n_fldN_one, b2n_fldN_one]
  apply BitVec.eq_of_toNat_eq
  simp only [BitVec.toNat_ofNat, fldN, Nat.shiftRight_eq_div_pow]
  omega

/-- `CCMOV.tov` completes with the flags of ccA in D. -/
theorem ccmovTov_completes : CompletesAs .ccmovTov (fun _ => { Spec.plain with d := slVec32, a := slCc, hOk := true })
    fun e s g l t => t.write e.d e.nd (s.rdCc g l e.a).toNat :=
  completesAs_of_body exec_ccmovTov (fun _ like => by rw [like.rdCc_eq])
    (fun _ _ _ _ t => t.write_pc ..) (fun _ => rfl) (fun _ => rfl)

/-- `CCMOV.tocc` completes with the low four bits of A in ccD. -/
theorem ccmovTocc_completes :
    CompletesAs .ccmovTocc (fun _ => { Spec.plain with var := 1, d := slCc, a := slSrc32, hOk := true })
      fun e s g l t => t.writeCc e.d (BitVec.ofNat 4 (s.rdA g l e)) :=
  completesAs_of_body exec_ccmovTocc (fun _ like => by rw [like.rdA_eq])
    (fun _ _ _ _ t => t.writeCc_pc ..) (fun _ => rfl) (fun _ => rfl)

/-- `CCMOV.copy` completes with the flags of ccA in ccD. -/
theorem ccmovCopy_completes :
    CompletesAs .ccmovCopy (fun _ => { Spec.plain with var := 2, d := slCc, a := slCc, hOk := true })
      fun e s g l t => t.writeCc e.d (s.rdCc g l e.a) :=
  completesAs_of_body exec_ccmovCopy (fun _ like => by rw [like.rdCc_eq])
    (fun _ _ _ _ t => t.writeCc_pc ..) (fun _ => rfl) (fun _ => rfl)

/-- Settles O59: each form completes with the flags as its register holds them, and four flags are the low four bits of a number. -/
theorem ccmovMovesFlags : Obligations.CcmovMovesFlags := by
  unfold Obligations.CcmovMovesFlags
  refine ⟨?_, ?_, ccmovCopy_completes, ?_⟩
  · simpa only [flags_toNat] using ccmovTov_completes
  · simpa only [ofNat_four_eq_mkFlags] using ccmovTocc_completes
  · intro s z c v
    exact ⟨bit_mkFlags_s .., bit_mkFlags_z .., bit_mkFlags_c .., bit_mkFlags_v ..⟩

end Sys2Proof.Machine
end

section
/-! PROOFS. How an instruction completes whose body sends its thread to an address and does nothing else, and where `BRA` goes (R33,
R355). -/

namespace Sys2Proof.Machine

open Sys2Proof

/-- The decode of an instruction, a change of its own thread and the tags of its destination leave what the frame names. -/
theorem onlyLanes_begun_modThread_retag {s : State} {g : Nat} {x : Group} (hx : s.group? g = some x) (l : Nat) (sp : Spec)
    (f : Fields) (upd : Thread → Thread) (rs : List Nat) :
    OnlyLanes s (((s.begun g sp f).modThread g l upd).retag g [l] rs) g [l] sp f 0 where
  rest := by rw [State.retag_rest]; rfl
  other h hne := by
    rw [State.retag_group?_ne _ _ _ hne, State.group?_modThread_ne _ _ _ hne]
    exact State.group?_modGroup_ne _ _ hne
  lanes k hk := by
    have hkl : k ≠ l := fun e => hk (List.mem_singleton.2 e)
    rw [State.retag_thread?, State.thread?_modThread_ne _ _ (.inr hkl)]
    exact State.thread?_modGroup_lanes _ _ _ _ _ fun _ => rfl
  own := by
    have hu := State.group?_modThread_same (s.begun g sp f) g l upd
    rw [State.begun_group? hx, Option.map_some] at hu
    obtain ⟨m, w, ht⟩ := State.retag_group? _ g [l] rs hu
    exact ⟨x, _, hx, ht, rfl⟩
  bytes a := by
    rw [State.byteAt, State.retag_rest]
    rfl

/-- An instruction that sends its one thread to an address, and whose body changes nothing, leaves the thread there and its frame. -/
theorem jumps_of_body {i : Instr} {sp : Fields → Spec} {ready : Eff → State → Nat → Nat → Bool}
    {body : Eff → State → Nat → Nat → Res} {f : Fields} {s : State} {g l : Nat} {pc : Dword}
    (hi : exec i s = issueThreads sp ready body f s) (h : s.solo g l (sp f) f = true)
    (hr : ready (effOf (sp f) f) (s.begun g (sp f) f) g l = true)
    (hb : body (effOf (sp f) f) (s.begun g (sp f) f) g l = .goto (s.begun g (sp f) f) pc)
    (hrel : (effOf (sp f) f).rels = false) :
    ∃ t, exec i s = .next t ∧ t.thread g l = (s.thread g l).advance pc s.cycle (effOf (sp f) f).stall ∧
      OnlyLanes s t g [l] (sp f) f 0 := by
  have hl : s.clearFor g l (effOf (sp f) f) = true := (Bool.and_eq_true_iff.1 h).2
  have ht := ((State.clearFor_iff _ _ _ _).1 hl).1
  obtain ⟨x, hx⟩ := State.group?_of_thread? ht
  have like := likeFor_begun (l := l) hx (sp f) f
  have hs : exec i s = .next (((s.begun g (sp f) f).modThread g l fun y =>
      y.advance pc s.cycle (effOf (sp f) f).stall).retag g [l] ((effOf (sp f) f).d.vregs (effOf (sp f) f).nd)) := by
    rw [hi, issueThreads_solo ready body h hr, hb]
    simp [soloAfter, State.also, hrel, State.raise, like.cycle_eq]
  refine ⟨_, hs, ?_, onlyLanes_begun_modThread_retag hx l (sp f) f _ _⟩
  rw [State.retag_thread, State.thread_modThread_same _ _ _ _ (by rw [like.thread?_eq]; exact ht), like.thread_eq]

/-- The number that a pattern stands for in two's complement (R33) is that of the bit vector. -/
theorem toSigned_toNat {w : Nat} (x : BitVec (w + 1)) : toSigned (w + 1) x.toNat = x.toInt := by
  have hp : 2 ^ (w + 1) = 2 * 2 ^ w := by ring
  have hlt : 2 * x.toNat < 2 ^ (w + 1) ↔ x.toNat < 2 ^ w := by omega
  simp [toSigned, BitVec.toInt_eq_toNat_cond, hlt]

/-- A row that uses IMM executes with the word's IMM. -/
theorem effOf_imm_of_used {sp : Spec} (h : sp.imm = true) (f : Fields) : (effOf sp f).imm = f.imm := by
  simp [effOf, legalize, h]

/-- The target of a row that uses IMM is the instruction's address plus 16 times the signed IMM of the word (R33). -/
theorem target_effOf {sp : Spec} (h : sp.imm = true) (f : Fields) (pc : Dword) :
    (effOf sp f).target pc = pc + BitVec.ofInt 64 (16 * f.imm.toInt) := by
  rw [Eff.target, effOf_imm_of_used h, toSigned_toNat]

/-- Settles O18: the body of `BRA` is a jump to the target of R33, taken from the address that the thread had before the decode. -/
theorem branchGoesToTarget : Obligations.BranchGoesToTarget := by
  unfold Obligations.BranchGoesToTarget
  intro f s g l h
  have hl : s.clearFor g l (effOf (specTarget f) f) = true := (Bool.and_eq_true_iff.1 h).2
  obtain ⟨x, hx⟩ := State.group?_of_thread? ((State.clearFor_iff _ _ _ _).1 hl).1
  have like := likeFor_begun (l := l) hx (specTarget f) f
  refine jumps_of_body (exec_bra f s) h rfl ?_ (effOf_rels_of_unordered rfl rfl f)
  rw [like.thread_eq, target_effOf rfl]

end Sys2Proof.Machine
end
